-- ==== Sys2Proof/Word.lean ====
section
/-! DEFINITION. Bytes, byte order and the fixed-size tables of the model. -/

namespace Sys2Proof

/-- One byte of a link frame, a signalling word or a code (11_formats_and_request_summary.md). -/
abbrev Byte := BitVec 8

/-- A 16-bit value of a frame (11_formats_and_request_summary.md, opening). -/
abbrev Word16 := BitVec 16

/-- The table of `n` rows whose row `i` is `f i`. -/
def tab {α : Type} {n : Nat} (f : Fin n → α) : Vector α n :=
  ⟨⟨List.ofFn f⟩, by simp⟩

/-- Every number below `n`, ascending: the order in which parties, links and slots are taken. -/
def upTo (n : Nat) : List (Fin n) := List.ofFn (fun i => i)

/-- A row of a table replaced. -/
def put {α : Type} {n : Nat} (v : Vector α n) (i : Fin n) (x : α) : Vector α n :=
  v.set i.val x i.isLt

/-- A row of a table. -/
def row {α : Type} {n : Nat} (v : Vector α n) (i : Fin n) : α := v[i]

@[simp] theorem row_tab {α : Type} {n : Nat} (f : Fin n → α) (i : Fin n) : row (tab f) i = f i := by
  simp [row, tab]

/-- Reading a table after one row was replaced. -/
theorem row_put {α : Type} {n : Nat} (v : Vector α n) (i j : Fin n) (x : α) :
    row (put v i x) j = if j = i then x else row v j := by
  unfold row put
  by_cases h : j = i
  · subst h; simp
  · have hv : i.val ≠ j.val := fun e => h (Fin.ext e.symm)
    simpa [h] using Vector.getElem_set_ne (xs := v) (x := x) i.isLt j.isLt hv

@[simp] theorem row_put_same {α : Type} {n : Nat} (v : Vector α n) (i : Fin n) (x : α) :
    row (put v i x) i = x := by
  simp [row_put]

@[simp] theorem row_put_other {α : Type} {n : Nat} (v : Vector α n) (i j : Fin n) (x : α) (h : j ≠ i) :
    row (put v i x) j = row v j := by
  simp [row_put, h]

/-- Two tables with equal rows are equal. -/
theorem row_ext {α : Type} {n : Nat} {v w : Vector α n} (h : ∀ i, row v i = row w i) : v = w :=
  Vector.ext fun i hi => h ⟨i, hi⟩

@[simp] theorem mem_upTo {n : Nat} (i : Fin n) : i ∈ upTo n := by
  simp [upTo]

end Sys2Proof
end

