-- ==== Sys2Proof/Syntax.lean ====
section
/-! DEFINITION. The names the commands carry, and the commands: one constructor of `Instr` per row of
spec/opcode_table.json. -/

namespace Sys2Proof

/-- A control link, CL0 to CL2 (00_scope.md). -/
abbrev Link := Fin 3

/-- A party, 0 to 23 (R1). -/
abbrev Party := Fin 24

/-- A studio source, 0 to 15: an SP input slot (00_scope.md). -/
abbrev Source := Fin 16

/-- A conference group; the group numbered g by the manual (1 to 6, R43) is `g - 1` here. -/
abbrev Group := Fin 6

/-- An air slot, 0 to 7 (R64). -/
abbrev AirSlot := Fin 8

inductive Studio where
  | a
  | b
deriving DecidableEq, Repr

/-- The three audio ports (R155). -/
inductive PortId where
  | lp0
  | lp1
  | sp
deriving DecidableEq, Repr

/-- A signalling meaning; NONE is the absence of one (R30). -/
inductive Meaning where
  | seize
  | onhook
  | flash
  | fault
deriving DecidableEq, Repr

/-- Why a LOCKED port lost sync (R165). -/
inductive LossCause where
  | alignment
  | clock
deriving DecidableEq, Repr

/-- What an ingredient of a return carries (R76). -/
inductive Ident where
  | source (s : Source)
  | party (q : Party)
  | talk (k : Link)
deriving DecidableEq, Repr

/-- The two places of a cue output (R98). -/
inductive CueSide where
  | current
  | previous
deriving DecidableEq, Repr

/-- A gain ramp of the part: of an ingredient of a return (R76), of a cue selection (R98), or of a member
of a selected group (R53). -/
inductive RampRef where
  | ingredient (p : Party) (i : Ident)
  | cue (k : Link) (side : CueSide)
  | cueMember (k : Link) (side : CueSide) (q : Party)
deriving DecidableEq, Repr

/-- What arrives between two flags of a link (R167, R168): the bytes as received, before unstuffing;
whether a character came without its stop bit; whether the frame was begun before RESET was released. -/
structure RawFrame where
  bytes : List Byte
  framingError : Bool
  begunInReset : Bool
deriving DecidableEq, Repr

/-- The commands. A request carries the requesting link, its tag, and its arguments in the order and the
coding of 11.8 (11_formats_and_request_summary.md), unchecked: the checks are the request's own. -/
inductive Instr where
  | powerOnReset (supv baud : BitVec 2)
  | linkFrameReceived (k : Link) (f : RawFrame)
  | responseSent (k : Link)
  | unknownRequest (k : Link) (tag code : Byte)
  | ansr (k : Link) (tag party : Byte)
  | park (k : Link) (tag party : Byte)
  | queu (k : Link) (tag party studio : Byte)
  | airp (k : Link) (tag party : Byte)
  | next (k : Link) (tag studio : Byte)
  | offa (k : Link) (tag party : Byte)
  | unqu (k : Link) (tag party : Byte)
  | move (k : Link) (tag party position : Byte)
  | rlse (k : Link) (tag party : Byte)
  | loop (k : Link) (tag party source : Byte)
  | lend (k : Link) (tag party : Byte)
  | prst (k : Link) (tag party : Byte)
  | sknd (k : Link) (tag party kind : Byte)
  | join (k : Link) (tag party group : Byte)
  | leav (k : Link) (tag party : Byte)
  | lstn (k : Link) (tag selection member : Byte)
  | gain (k : Link) (tag studio contribution number code : Byte)
  | talk (k : Link) (tag scope member priority depth : Byte)
  | tend (k : Link) (tag scope member : Byte)
  | stlk (k : Link) (tag link source code priority : Byte)
  | take (k : Link) (tag party : Byte)
  | give (k : Link) (tag party requester : Byte)
  | keep (k : Link) (tag party requester : Byte)
  | tcan (k : Link) (tag party : Byte)
  | lock (k : Link) (tag party : Byte)
  | ulck (k : Link) (tag party : Byte)
  | away (k : Link) (tag presence : Byte)
  | sreg (k : Link) (tag index valid kind studio first count perms0 perms1 perms2 : Byte)
  | lreg (k : Link) (tag index : Byte)
  | rdrg (k : Link) (tag form argument : Byte)
  | sprt (k : Link) (tag port enable : Byte) (slots : List Byte)
  | ssrc (k : Link) (tag source membership : Byte)
  | shld (k : Link) (tag source code : Byte)
  | splt (k : Link) (tag split : Byte)
  | sflr (k : Link) (tag studio floor : Byte)
  | stim (k : Link) (tag : Byte) (ramp datk drel talr tprk : Word16) (nprk tgiv : Byte)
  | spat (k : Link) (tag index valid key mask meaning appliesTo count : Byte)
  | emsk (k : Link) (tag mask : Byte)
  | ftch (k : Link) (tag number : Byte)
  | atcf (k : Link) (tag enable threshold : Byte)
  | lrst (k : Link) (tag : Byte)
  | idnt (k : Link) (tag : Byte)
  | rdpy (k : Link) (tag party : Byte)
  | rdqu (k : Link) (tag studio : Byte)
  | rdrt (k : Link) (tag party first : Byte)
  | rdpt (k : Link) (tag : Byte)
  | audioFrame
  | rampComplete (r : RampRef)
  | inboundFrame (x : PortId) (bits : BitVec 512)
  | missingClockCheck
  | syncFound (x : PortId)
  | syncLost (x : PortId) (cause : LossCause)
  | graceTimerExpiry (x : PortId)
  | qualify (p : Party) (entry : Fin 6)
  | signalReport (p : Party) (m : Meaning)
  | realertTimerExpiry (p : Party)
  | clearTimerExpiry (p : Party)
  | oneSecondMark
  | parkTimerExpiry (p : Party)
  | grantTimerExpiry (p : Party)
  | shortWordClockPeriod
  | resetAsserted
deriving DecidableEq, Repr

end Sys2Proof
end

