-- ==== Sys2Proof/Decode.lean ====
section
/-! DEFINITION. The command a word of the opcode table spells (no row of spec/opcode_table.json gives bits), and
the codes by which a link frame is read. -/

namespace Sys2Proof

/-- The command that a word spells by the table's bits: none, since the table gives no row any bits
(spec/98_reader.md, "n_rows_with_fixed": 0). The bytes of a link frame are read in
Sys2Proof/Machine/LinkFrame.lean. -/
def decodeTableWord (_nbits _w : Nat) : Option Instr := none

/-- The request codes of the part (11_formats_and_request_summary.md, 11.2). -/
def requestCodes : List Byte :=
  [0x01, 0x02, 0x03, 0x04, 0x05, 0x06, 0x07, 0x08, 0x09, 0x0A, 0x0B, 0x0C, 0x0D, 0x10, 0x11, 0x12, 0x13]
    ++ [0x18, 0x19, 0x1A, 0x20, 0x21, 0x22, 0x23, 0x24, 0x25, 0x26, 0x28, 0x29, 0x2A]
    ++ [0x30, 0x31, 0x32, 0x33, 0x34, 0x35, 0x36, 0x38, 0x39, 0x3A, 0x3B, 0x3C, 0x40, 0x41, 0x42, 0x43]

/-- The flag byte A5h (11.1). -/
def flagByte : Byte := 0xA5

/-- The escape byte A6h (11.1). -/
def escapeByte : Byte := 0xA6

end Sys2Proof
end

