-- ==== Sys2Proof/Config.lean ====
section
/-! DEFINITION. What the part fixes, and the free values: what the manual leaves open. A free value is an
opaque constant: no proof can see what it is. -/

namespace Sys2Proof.Config

/-- TCLR, the clear confirmation, fixed at 3 s (00_scope.md, timers; R16), in milliseconds. -/
def tclr : Nat := 3000

/-- TGRC, the port sync grace, fixed at 250 ms (00_scope.md, timers; R162). -/
def tgrc : Nat := 250

/-- Audio frames of one millisecond (R90). -/
def framesPerMs : Nat := 48

/-- The room of an event queue (R173). -/
def eventRoom : Nat := 48

/-- The room of a request buffer (R169). -/
def requestRoom : Nat := 4

/-- How many OVERRUN responses may wait unbegun (R169). -/
def overrunRoom : Nat := 4

/-- The room of a ready queue (R58). -/
def readyRoom : Nat := 12

/-- The room of a conference group (R43). -/
def groupRoom : Nat := 8

/-- The longest payload of a link frame (R167). -/
def payloadRoom : Nat := 64

/-- The alignment code, 1011 0001 0110 1101 (11_formats_and_request_summary.md, 11.7). -/
def alignmentCode : BitVec 16 := 0xB16D#16

/-- Free value (log entry 8): whether the product of a sample and a gain of `halves` half-decibels that is no whole
number is rounded away from zero or toward it. The manual fixes the product and not its rounding (R79). -/
opaque productAway : (halves : Rat) → (sample : Int) → Bool

/-- Free value (log entry 9): whether a sample midway between two 16-bit values goes to the upper one
(R157 says only "rounded to the nearest 16-bit value"). -/
opaque lin16TieUp : (sample : Int) → Bool

/-- Free value (log entry 10): the bits on a LOCKED port in an audio frame in which it received no inbound
frame, by the draw and the port's number. -/
opaque strayFrame : (draw port : Nat) → BitVec 512

/-- Free value (log entry 7): whether RMIX takes TARB's report of a transition before CALL's (R107). -/
opaque talkReportFirst : (draw : Nat) → Bool

end Sys2Proof.Config
end

