-- ==== Sys2Proof/Machine/State.lean ====
section
/-! DEFINITION. Everything the manual gives the part to hold, as plain data, and its value right after
power-on reset. A field that the manual derives from another (the studio, queue position, air slot and group of
a party, its in-service field, an attention line) is read by an accessor of Machine/Ops.lean or Flags.lean. -/

namespace Sys2Proof.Machine

/-- Raised by no command: the manual lets nothing stop the part. A request that does not fit is answered with a
status (R172), a frame that does not fit is discarded (R168), a claim that no longer fits is ignored (R8). -/
inductive Fault where
deriving DecidableEq, Repr

inductive Refusal where
  /-- Raised by an arm of `exec` whose command has no meaning yet. Safe: nothing is claimed of it. -/
  | notModelled (mnemonic : String)
deriving DecidableEq, Repr

/-- A gain of 11.5: OFF, or `h` steps of 0.5 dB from unity, −160 (−80.0 dB) to 24 (+12.0 dB). -/
inductive Gain where
  | off
  | half (h : Int)
deriving DecidableEq, Repr

/-- How far a feed is lowered under talkback (R105). -/
inductive Depth where
  | full
  | db20
  | db12
  | db6
deriving DecidableEq, Repr

/-- The nine states of a party (R1). -/
inductive PartyState where
  | vacant
  | alerting
  | screening
  | parked
  | queued
  | onAir
  | clearing
  | looptest
  | fault
deriving DecidableEq, Repr

inductive Kind where
  | line
  | codec
deriving DecidableEq, Repr

/-- The outgoing signalling meaning of a party (R6). -/
inductive SignalOut where
  | idle
  | answer
  | clear
deriving DecidableEq, Repr

/-- A pending handover: who asked, and what is left of the grant time in milliseconds (R120, R123). -/
structure Handover where
  requester : Link
  left : Nat
deriving DecidableEq, Repr

/-- The party record of R1, less the fields that are read from the collections (R54, R43, R5), with the
party's timers in milliseconds left (R1, R120): `none` is a stopped timer. -/
structure PartyRec where
  state : PartyState
  kind : Kind
  owner : Option Link
  lock : Bool
  loopSource : Option Source
  callSeconds : Nat
  airSeconds : Nat
  alertCount : Nat
  handover : Option Handover
  reminders : Nat
  signalOut : SignalOut
  realert : Option Nat
  clear : Option Nat
  park : Option Nat
deriving DecidableEq, Repr

/-- The monitor record of R30; its signal-out is the party record's. NONE is `none`. -/
structure Monitor where
  candidate : Option Meaning
  matchCount : Nat
  qualified : Option Meaning
deriving DecidableEq, Repr

/-- The kinds a pattern applies to (R31). -/
inductive AppliesTo where
  | line
  | codec
  | both
deriving DecidableEq, Repr

/-- A pattern entry (R31). -/
structure Pattern where
  valid : Bool
  key : Byte
  mask : Byte
  meaning : Meaning
  appliesTo : AppliesTo
  count : Nat
deriving DecidableEq, Repr

/-- A meaning handed to CALL and not yet taken (R37). -/
structure Report where
  party : Party
  meaning : Meaning
deriving DecidableEq, Repr

structure Smon where
  monitors : Vector Monitor 24
  patterns : Vector Pattern 6
  reports : List Report
deriving DecidableEq, Repr

/-- A conference group (R43): members in joining order, and the owner. -/
structure GroupRec where
  members : List Party
  owner : Option Link
deriving DecidableEq, Repr

/-- What STUD holds for one source: membership of each studio and the air gain in each (R54). -/
structure SourceRec where
  inA : Bool
  inB : Bool
  gainA : Gain
  gainB : Gain
deriving DecidableEq, Repr

/-- An occupied air slot: the party on it and its air gain (R54, R64). -/
structure OnSlot where
  party : Party
  gain : Gain
deriving DecidableEq, Repr

/-- The studio section (R54). -/
structure Stud where
  queueA : List Party
  queueB : List Party
  slots : Vector (Option OnSlot) 8
  split : Nat
  floorA : Nat
  floorB : Nat
  sources : Vector SourceRec 16
deriving DecidableEq, Repr

/-- A gain ramp (R76, R90): the start gain in half-decibels, the length in audio frames, the frames done, and
whether it still runs. -/
structure Ramp where
  start : Rat
  len : Nat
  done : Nat
  running : Bool
deriving DecidableEq, Repr

/-- A target gain, the applied gain in half-decibels (held exactly, log entry 11), and the movement between
them (R76, R90). -/
structure Level where
  target : Gain
  applied : Rat
  ramp : Ramp
deriving DecidableEq, Repr

/-- An ingredient of a return (R76). For a talk path, `carries` is the studio source it carries and `dipTo`
the source that it takes at −80.0 dB while it dips (R104). -/
structure Ingredient where
  ident : Ident
  level : Level
  carries : Option Source
  dipTo : Option Source
deriving DecidableEq, Repr

/-- The link and the duck depth of an active talk entry, as RMIX keeps it (R85). -/
structure Duck where
  link : Link
  depth : Depth
deriving DecidableEq, Repr

/-- A return (R76) with the active entry TARB last reported for it (R85). -/
structure Return where
  ingredients : List Ingredient
  active : Option Duck
deriving DecidableEq, Repr

/-- What a cue listens to (R97). -/
inductive Selection where
  | input (p : Party)
  | ret (p : Party)
  | group (g : Group)
deriving DecidableEq, Repr

/-- One place of a cue: a selection at its cue gain (R98); `members` are the inputs in a group's sum, each
with its ramp (R53). -/
structure CuePlace where
  selection : Selection
  level : Level
  members : List Ingredient
deriving DecidableEq, Repr

/-- A cue output (R98). -/
structure Cue where
  current : Option CuePlace
  previous : Option CuePlace
deriving DecidableEq, Repr

structure Rmix where
  returns : Vector Return 24
  cues : Vector Cue 3
  holdSource : Option Source
  holdGain : Gain
  lastReturns : Vector Int 24
deriving DecidableEq, Repr

/-- A link's talk settings (R103). -/
structure TalkSettings where
  source : Option Source
  gain : Gain
  maxPriority : Nat
deriving DecidableEq, Repr

/-- A talk entry (R105). -/
structure TalkEntry where
  link : Link
  priority : Nat
  depth : Depth
  arrival : Nat
deriving DecidableEq, Repr

structure Tarb where
  settings : Vector TalkSettings 3
  lists : Vector (List TalkEntry) 24
  arrivals : Nat
deriving DecidableEq, Repr

/-- A permission set (R142). -/
structure Perms where
  view : Bool
  control : Bool
  talk : Bool
deriving DecidableEq, Repr

/-- What a region entry covers (R142, R143). -/
inductive Cover where
  | parties (first count : Nat)
  | studio (x : Studio)
deriving DecidableEq, Repr

/-- A region entry (R142). -/
structure Region where
  valid : Bool
  cover : Cover
  perms : Vector Perms 3
  locked : Bool
deriving DecidableEq, Repr

inductive SyncState where
  | disabled
  | seeking
  | locked
  | grace
  | failed
deriving DecidableEq, Repr

inductive Format where
  | lin24
  | lin16
  | ulaw8
  | alaw8
deriving DecidableEq, Repr

structure SlotSetting where
  enable : Bool
  format : Format
deriving DecidableEq, Repr

/-- One driven outbound slot: the audio word in its 24 bit positions, and on a line side port the party's
signalling word (R155). -/
structure OutSlot where
  audio : BitVec 24
  signalling : Option Byte
deriving DecidableEq, Repr

/-- An outbound frame: the alignment word, and each slot in the port's slot order, `none` where it is not
driven (R157, R163). -/
structure OutFrame where
  alignment : BitVec 16
  slots : List (Option OutSlot)
deriving DecidableEq, Repr

/-- A port record (R156), the inbound frame of the present word-clock period, and the outbound frame last
formed (`none`: the port is not driven, R163). -/
structure PortRec where
  enable : Bool
  sync : SyncState
  aligned : Nat
  missed : Nat
  grace : Option Nat
  slots : List SlotSetting
  inbound : Option (BitVec 512)
  outbound : Option OutFrame
deriving DecidableEq, Repr

structure Ports where
  lp0 : PortRec
  lp1 : PortRec
  sp : PortRec
deriving DecidableEq, Repr

inductive EventKind where
  | alert
  | answered
  | state
  | hangup
  | cleared
  | flash
  | partyFault
  | parkRemind
  | loopEnded
  | queueChanged
  | airSlot
  | takeAsked
  | takeResult
  | ownerChanged
  | orphaned
  | overridden
  | talkActive
  | talkHeld
  | talkEnded
  | portLost
  | portBack
  | portFailed
  | summary
deriving DecidableEq, Repr

/-- The five classes (R173). -/
inductive EventClass where
  | call
  | studio
  | owner
  | talk
  | port
deriving DecidableEq, Repr

/-- What an event is about (11.4): a party, a port, or nothing (SUMMARY). -/
inductive Subject where
  | party (p : Party)
  | port (x : PortId)
  | none
deriving DecidableEq, Repr

/-- An event record (R173, 11.4). `cause` is the cause of CLEARED in bits 7 to 5 of the subject byte: 1 TIMEOUT,
2 ONHOOK, 3 RESET, and 0 in every other event. An absent value is `none`. -/
structure Event where
  kind : EventKind
  subject : Subject
  cause : Nat
  studio : Option Studio
  link : Option Link
  group : Option Group
  value1 : Option Nat
  value2 : Option Nat
deriving DecidableEq, Repr

/-- A set of the five classes (R173). -/
structure ClassSet where
  call : Bool
  studio : Bool
  owner : Bool
  talk : Bool
  port : Bool
deriving DecidableEq, Repr

/-- An accepted request frame in a request buffer (R169). -/
structure Request where
  tag : Byte
  code : Byte
  payload : List Byte
deriving DecidableEq, Repr

/-- A response frame (R167): the request's tag and code, and the payload, which begins with the status. -/
structure Response where
  tag : Byte
  code : Byte
  payload : List Byte
deriving DecidableEq, Repr

/-- What the part keeps for one control link (R169, R171, R173, R120). -/
structure LinkRec where
  requests : List Request
  sending : Option Response
  waiting : List Response
  events : List Event
  mask : ClassSet
  summaries : ClassSet
  overflow : Bool
  attnEnable : Bool
  attnThreshold : Nat
  away : Bool
deriving DecidableEq, Repr

/-- The seven values STIM sets (R182): the ramp times in milliseconds, TALR, TPRK and TGIV in seconds, NPRK in
reminders. -/
structure Times where
  ramp : Nat
  datk : Nat
  drel : Nat
  talr : Nat
  tprk : Nat
  nprk : Nat
  tgiv : Nat
deriving DecidableEq, Repr

/-- TBASE (00_scope.md, "time"): milliseconds since the last one-second mark, whether a mark is due, whether a
word-clock edge came in this millisecond, and whether the 1 ms check of R160 is due. -/
structure Tbase where
  ms : Nat
  markDue : Bool
  edgeSeen : Bool
  checkDue : Bool
deriving DecidableEq, Repr

/-- The four link rates of the BAUD straps (R183). -/
inductive Rate where
  | bps115200
  | bps230400
  | bps460800
  | bps921600
deriving DecidableEq, Repr

structure State where
  pending : List Instr
  parties : Vector PartyRec 24
  smon : Smon
  conf : Vector GroupRec 6
  stud : Stud
  rmix : Rmix
  tarb : Tarb
  regions : Vector Region 8
  ports : Ports
  links : Vector LinkRec 3
  times : Times
  tbase : Tbase
  supervisor : Link
  rate : Rate
  resetHeld : Bool
  choices : Nat
deriving DecidableEq, Repr

/-! The power-on value of each record, by the rule that gives it. -/

/-- R3, R120. -/
def PartyRec.reset : PartyRec :=
  { state := .vacant, kind := .line, owner := none, lock := false, loopSource := none, callSeconds := 0,
    airSeconds := 0, alertCount := 0, handover := none, reminders := 0, signalOut := .idle, realert := none,
    clear := none, park := none }

/-- R30. -/
def Monitor.reset : Monitor := { candidate := none, matchCount := 0, qualified := none }

/-- R31. -/
def Pattern.reset : Pattern :=
  { valid := false, key := 0, mask := 0, meaning := .seize, appliesTo := .both, count := 1 }

def Smon.reset : Smon :=
  { monitors := tab fun _ => Monitor.reset, patterns := tab fun _ => Pattern.reset, reports := [] }

/-- R43. -/
def GroupRec.reset : GroupRec := { members := [], owner := none }

/-- R54. -/
def Stud.reset : Stud :=
  { queueA := [], queueB := [], slots := tab fun _ => none, split := 4, floorA := 0, floorB := 0,
    sources := tab fun _ => { inA := false, inB := false, gainA := .off, gainB := .off } }

/-- R76, R83, R85, R98. -/
def Rmix.reset : Rmix :=
  { returns := tab fun _ => { ingredients := [], active := none },
    cues := tab fun _ => { current := none, previous := none },
    holdSource := none, holdGain := .half 0, lastReturns := tab fun _ => 0 }

/-- R103, R105. -/
def Tarb.reset : Tarb :=
  { settings := tab fun _ => { source := none, gain := .half 0, maxPriority := 7 },
    lists := tab fun _ => [], arrivals := 0 }

def Perms.empty : Perms := { view := false, control := false, talk := false }

/-- R142. -/
def Region.reset : Region :=
  { valid := false, cover := .parties 0 1, perms := tab fun _ => Perms.empty, locked := false }

/-- R156, for a port of `n` slots. -/
def PortRec.reset (n : Nat) : PortRec :=
  { enable := false, sync := .disabled, aligned := 0, missed := 0, grace := none,
    slots := List.replicate n { enable := false, format := .lin24 }, inbound := none, outbound := none }

def ClassSet.all : ClassSet := { call := true, studio := true, owner := true, talk := true, port := true }

def ClassSet.empty : ClassSet :=
  { call := false, studio := false, owner := false, talk := false, port := false }

/-- R169, R173, R183, R120. -/
def LinkRec.reset : LinkRec :=
  { requests := [], sending := none, waiting := [], events := [], mask := ClassSet.all,
    summaries := ClassSet.empty, overflow := false, attnEnable := true, attnThreshold := 1, away := false }

/-- R182. -/
def Times.reset : Times := { ramp := 20, datk := 5, drel := 150, talr := 6, tprk := 45, nprk := 3, tgiv := 5 }

/-- The manual gives TBASE no power-on value: the count starts at 0 with nothing due (DESIGN CHOICE, log entry 39). -/
def Tbase.reset : Tbase := { ms := 0, markDue := false, edgeSeen := false, checkDue := false }

/-- The part at the release of RESET with supervisor link `sup` and link rate `rate` (R183). -/
def State.powerOn (sup : Link) (rate : Rate) (pending : List Instr) : State :=
  { pending := pending, parties := tab fun _ => PartyRec.reset, smon := Smon.reset,
    conf := tab fun _ => GroupRec.reset, stud := Stud.reset, rmix := Rmix.reset, tarb := Tarb.reset,
    regions := tab fun _ => Region.reset,
    ports := { lp0 := PortRec.reset 12, lp1 := PortRec.reset 12, sp := PortRec.reset 27 },
    links := tab fun _ => LinkRec.reset, times := Times.reset, tbase := Tbase.reset, supervisor := sup,
    rate := rate, resetHeld := false, choices := 0 }

/-- The part right after power-on reset. The straps are an input (R183): both are read as 00 here (DESIGN CHOICE,
log entry 1), so CL0 is the supervisor at 115200 bit/s. -/
def State.reset : State := State.powerOn 0 .bps115200 []

end Sys2Proof.Machine
end

