-- ==== Sys2Proof/Machine/Operands.lean ====
section
/-! DEFINITION. The argument and response codes of 11_formats_and_request_summary.md: how a byte of a request is
read (R185: `none` is a code outside the table), and how a value is written in a response or an event. -/

namespace Sys2Proof.Machine

/-! Reading an argument. -/

/-- A number below `n`. -/
def numberArg (n : Nat) (b : Byte) : Option (Fin n) :=
  if h : b.toNat < n then some ⟨b.toNat, h⟩ else none

def partyArg (b : Byte) : Option Party := numberArg 24 b

def sourceArg (b : Byte) : Option Source := numberArg 16 b

def linkArg (b : Byte) : Option Link := numberArg 3 b

/-- Studio A 1, B 2. -/
def studioArg (b : Byte) : Option Studio :=
  if b = 1 then some .a else if b = 2 then some .b else none

/-- Groups are numbered 1 to 6. -/
def groupArg (b : Byte) : Option Group :=
  if h : 1 ≤ b.toNat ∧ b.toNat ≤ 6 then some ⟨b.toNat - 1, by omega⟩ else none

/-- Source 0 to 15, or FFh for NONE. -/
def sourceOrNoneArg (b : Byte) : Option (Option Source) :=
  if b = 0xFF then some none else (sourceArg b).map some

/-- 00h OFF; c from 01h to B9h is −80.0 dB + 0.5 dB × (c − 1). -/
def gainArg (b : Byte) : Option Gain :=
  if b = 0 then some .off
  else if b.toNat ≤ 0xB9 then some (.half ((b.toNat : Int) - 161))
  else none

def depthArg (b : Byte) : Option Depth :=
  if b = 0 then some .full else if b = 1 then some .db20 else if b = 2 then some .db12
  else if b = 3 then some .db6 else none

def kindArg (b : Byte) : Option Kind :=
  if b = 0 then some .line else if b = 1 then some .codec else none

/-- A yes is 01h and a no 00h (11.8). -/
def yesNoArg (b : Byte) : Option Bool :=
  if b = 0 then some false else if b = 1 then some true else none

def meaningArg (b : Byte) : Option Meaning :=
  if b = 0x21 then some .seize else if b = 0x22 then some .onhook else if b = 0x23 then some .flash
  else if b = 0x24 then some .fault else none

def appliesToArg (b : Byte) : Option AppliesTo :=
  if b = 0 then some .line else if b = 1 then some .codec else if b = 2 then some .both else none

def portArg (b : Byte) : Option PortId :=
  if b = 0 then some .lp0 else if b = 1 then some .lp1 else if b = 2 then some .sp else none

/-- Membership of studios A and B: 0 none, 1 A, 2 B, 3 both. -/
def membershipArg (b : Byte) : Option (Bool × Bool) :=
  if b = 0 then some (false, false) else if b = 1 then some (true, false)
  else if b = 2 then some (false, true) else if b = 3 then some (true, true) else none

/-- VIEW 1 + CONTROL 2 + TALK 4. -/
def permsArg (b : Byte) : Option Perms :=
  if b.toNat ≤ 7 then some { view := b.getLsbD 0, control := b.getLsbD 1, talk := b.getLsbD 2 } else none

/-- CALL 1 + STUDIO 2 + OWNER 4 + TALK 8 + PORT 16. -/
def maskArg (b : Byte) : Option ClassSet :=
  if b.toNat ≤ 31 then
    some { call := b.getLsbD 0, studio := b.getLsbD 1, owner := b.getLsbD 2, talk := b.getLsbD 3,
           port := b.getLsbD 4 }
  else none

/-- A number from `lo` to `hi`. -/
def rangeArg (lo hi : Nat) (b : Byte) : Option Nat :=
  if lo ≤ b.toNat ∧ b.toNat ≤ hi then some b.toNat else none

/-- A 16-bit number from `lo` to `hi`. -/
def rangeArg16 (lo hi : Nat) (w : Word16) : Option Nat :=
  if lo ≤ w.toNat ∧ w.toNat ≤ hi then some w.toNat else none

def formatArg (n : Nat) : Format :=
  if n = 0 then .lin24 else if n = 1 then .lin16 else if n = 2 then .ulaw8 else .alaw8

/-- A half byte of slot settings: enable in bit 2, format in bits 1 to 0 (11.6); bit 3 lies outside the code
(log entry 18). -/
def slotArg (n : Nat) : Option SlotSetting :=
  if n < 8 then some { enable := n / 4 = 1, format := formatArg (n % 4) } else none

/-- The half bytes of a run of bytes, the lower-numbered slot in the high half (11.6). -/
def halves : List Byte → List Nat
  | [] => []
  | b :: bs => b.toNat / 16 :: b.toNat % 16 :: halves bs

/-- The slot settings of SPRT for a port of `n` slots: as many bytes as hold them, each code in the table, and a
last half byte without a slot 0 (11.8). -/
def slotsArg (n : Nat) (bs : List Byte) : Option (List SlotSetting) :=
  if bs.length = (n + 1) / 2 ∧ ((halves bs).drop n).all (· == 0) then ((halves bs).take n).mapM slotArg
  else none

/-! Writing a value. -/

/-- A number as one byte. -/
def byte (n : Nat) : Byte := BitVec.ofNat 8 n

/-- A number as two bytes, high byte first (11, opening). -/
def bytes16 (n : Nat) : List Byte := [byte (n / 256 % 256), byte (n % 256)]

/-- The byte of an absent item (R184). -/
def absentByte : Byte := 0xFF

/-- An optional item in a byte field (R184). -/
def optByte : Option Nat → Byte
  | some n => byte n
  | none => absentByte

/-- An optional item in a 16-bit field (R184). -/
def optBytes16 : Option Nat → List Byte
  | some n => bytes16 n
  | none => [0xFF, 0xFF]

def yesNo (b : Bool) : Byte := if b then 1 else 0

def stateCode : PartyState → Nat
  | .vacant => 0
  | .alerting => 1
  | .screening => 2
  | .parked => 3
  | .queued => 4
  | .onAir => 5
  | .clearing => 6
  | .looptest => 7
  | .fault => 8

def syncCode : SyncState → Nat
  | .disabled => 0x10
  | .seeking => 0x11
  | .locked => 0x12
  | .grace => 0x13
  | .failed => 0x14

def meaningCode : Meaning → Nat
  | .seize => 0x21
  | .onhook => 0x22
  | .flash => 0x23
  | .fault => 0x24

/-- A meaning or NONE, 20h. -/
def optMeaningCode : Option Meaning → Nat
  | some m => meaningCode m
  | none => 0x20

def signalCode : SignalOut → Nat
  | .idle => 0x28
  | .answer => 0x29
  | .clear => 0x2A

def kindCode : Kind → Nat
  | .line => 0
  | .codec => 1

def studioCode : Studio → Nat
  | .a => 1
  | .b => 2

def groupCode (g : Group) : Nat := g.val + 1

/-- A gain of 11.5: 00h for OFF, and A1h (161) for 0.0 dB. -/
def gainCode : Gain → Nat
  | .off => 0
  | .half h => (h + 161).toNat

def depthCode : Depth → Nat
  | .full => 0
  | .db20 => 1
  | .db12 => 2
  | .db6 => 3

def appliesToCode : AppliesTo → Nat
  | .line => 0
  | .codec => 1
  | .both => 2

def formatCode : Format → Nat
  | .lin24 => 0
  | .lin16 => 1
  | .ulaw8 => 2
  | .alaw8 => 3

def portCode : PortId → Nat
  | .lp0 => 0
  | .lp1 => 1
  | .sp => 2

def permsCode (p : Perms) : Nat :=
  (if p.view then 1 else 0) + (if p.control then 2 else 0) + (if p.talk then 4 else 0)

def classSetCode (c : ClassSet) : Nat :=
  (if c.call then 1 else 0) + (if c.studio then 2 else 0) + (if c.owner then 4 else 0)
    + (if c.talk then 8 else 0) + (if c.port then 16 else 0)

/-- The class number that a SUMMARY carries: the high half of the kinds' codes (11.4). -/
def classCode : EventClass → Nat
  | .call => 0
  | .studio => 1
  | .owner => 2
  | .talk => 3
  | .port => 4

/-- The identity byte of an ingredient, less its ramping bit (11.6); it also gives the list order of R77. -/
def identCode : Ident → Nat
  | .source s => s.val
  | .party q => 0x20 + q.val
  | .talk k => 0x40 + k.val

def slotCode (s : SlotSetting) : Nat := (if s.enable then 4 else 0) + formatCode s.format

/-- Slot settings two to a byte, the lower-numbered slot in the high half, an odd last half 0 (11.6, 11.8). -/
def slotBytes : List SlotSetting → List Byte
  | [] => []
  | [s] => [byte (slotCode s * 16)]
  | s :: t :: rest => byte (slotCode s * 16 + slotCode t) :: slotBytes rest

/-- A link in an event value, NONE being FFFFh (11.5). -/
def linkValue : Option Link → Nat
  | some k => k.val
  | none => 0xFFFF

/-! The causes of 11.5. -/

namespace Cause
def timeout : Nat := 0x30
def port : Nat := 0x31
def reset : Nat := 0x32
def lend : Nat := 0x33
def signal : Nat := 0x34
def joined : Nat := 0x35
def moved : Nat := 0x36
def left : Nat := 0x37
def taken : Nat := 0x38
def freed : Nat := 0x39
def outranked : Nat := 0x3A
def floor : Nat := 0x3B
def nprk : Nat := 0x3C
def away : Nat := 0x3D
def alignment : Nat := 0x3E
def clock : Nat := 0x3F
def given : Nat := 0x40
def override : Nat := 0x41
def queued : Nat := 0x42
end Cause

/-! The outcomes of 11.5. -/

namespace Result
def granted : Nat := 0x48
def denied : Nat := 0x49
def timeoutGranted : Nat := 0x4A
def gone : Nat := 0x4B
def locked : Nat := 0x4C
def cancelled : Nat := 0x4D
def deniedRegion : Nat := 0x4E
def owner : Nat := 0x4F
def overridden : Nat := 0x50
end Result

/-- The statuses of R172. -/
inductive Status where
  | ok
  | pending
  | deniedRegion
  | notSupervisor
  | wrongState
  | notOwner
  | alreadyAnswered
  | busy
  | locked
  | regionLocked
  | noAirSlot
  | queueFull
  | groupFull
  | noTalkSource
  | noHandover
  | badArgument
  | unknownRequest
  | overrun
deriving DecidableEq, Repr

/-- The status byte (11.3). -/
def statusCode : Status → Nat
  | .ok => 0x00
  | .pending => 0x01
  | .deniedRegion => 0x02
  | .notSupervisor => 0x03
  | .wrongState => 0x04
  | .notOwner => 0x05
  | .alreadyAnswered => 0x06
  | .busy => 0x07
  | .locked => 0x08
  | .regionLocked => 0x09
  | .noAirSlot => 0x0A
  | .queueFull => 0x0B
  | .groupFull => 0x0C
  | .noTalkSource => 0x0D
  | .noHandover => 0x0E
  | .badArgument => 0x0F
  | .unknownRequest => 0x10
  | .overrun => 0x11

/-- What a taken request is answered: the status and the data its rule names (R184). -/
structure Reply where
  status : Status
  data : List Byte
deriving DecidableEq, Repr

/-- The outcome of taking a request: the state it leaves, and the reply. -/
structure Answer where
  state : State
  reply : Reply
deriving DecidableEq, Repr

/-- A refused request changes nothing (R172), and its response is the status byte alone (R184). -/
def refuse (s : State) (st : Status) : Answer := { state := s, reply := { status := st, data := [] } }

/-- An accepted request. -/
def accept (s : State) (data : List Byte) : Answer := { state := s, reply := { status := .ok, data := data } }

end Sys2Proof.Machine
end

