-- ==== Sys2Proof/Machine/Formats.lean ====
section
/-! DEFINITION. Audio words and frames: the word formats of R157, full scale, and the bit positions of 11.7. -/

namespace Sys2Proof.Machine

/-! ### Companded codes -/

/-- The magnitude of a µ-law segment and step (R157). -/
def ulawMagnitude (e m : Nat) : Int := 1024 * ((2 * m + 33) * 2 ^ e - 33 : Int)

/-- The magnitude of an A-law segment and step (R157). -/
def alawMagnitude (e m : Nat) : Int :=
  if e = 0 then 256 * (16 * m + 8 : Int) else 256 * ((16 * m + 264) * 2 ^ (e - 1) : Int)

/-- A µ-law code expanded: complemented, bit 7 set for negative (R157). -/
def ulawExpand (code : Byte) : Int :=
  let c := ~~~code
  let a := ulawMagnitude ((c >>> 4) &&& 7).toNat (c &&& 15).toNat
  if c.msb then -a else a

/-- An A-law code expanded: exclusive-ORed with 55h, bit 7 set for positive (R157). -/
def alawExpand (code : Byte) : Int :=
  let c := code ^^^ 0x55
  let a := alawMagnitude ((c >>> 4) &&& 7).toNat (c &&& 15).toNat
  if c.msb then a else -a

/-- The 128 segments and steps, in ascending magnitude. -/
def steps : List (Nat × Nat) := (List.range 8).flatMap fun e => (List.range 16).map fun m => (e, m)

/-- The segment and step whose magnitude lies nearest to `a`; of two equally near, the smaller (R157). -/
def nearestStep (magnitude : Nat → Nat → Int) (a : Int) : Nat × Nat :=
  steps.foldl (fun best c => if (magnitude c.1 c.2 - a).natAbs < (magnitude best.1 best.2 - a).natAbs then c else best)
    (0, 0)

/-- Sign bit, segment and step laid in a byte. -/
def codeBits (sign : Bool) (e m : Nat) : Byte := byte ((if sign then 128 else 0) + 16 * e + m)

/-- The nearest µ-law code; a zero magnitude is sent with the positive sign (R157). -/
def ulawCompress (x : Int) : Byte :=
  let c := nearestStep ulawMagnitude x.natAbs
  ~~~(codeBits (decide (x < 0) && decide (ulawMagnitude c.1 c.2 ≠ 0)) c.1 c.2)

/-- The nearest A-law code; the sample 0 lies equally near to two codes and takes the positive sign (R157). -/
def alawCompress (x : Int) : Byte :=
  let c := nearestStep alawMagnitude x.natAbs
  codeBits (decide (0 ≤ x)) c.1 c.2 ^^^ 0x55

/-! ### Words -/

/-- The inbound word of a slot as a linear sample (R157). -/
def Format.decode (f : Format) (w : BitVec 24) : Int :=
  match f with
  | .lin24 => w.toInt
  | .lin16 => (w.extractLsb' 8 16).toInt * 256
  | .ulaw8 => ulawExpand (w.extractLsb' 16 8)
  | .alaw8 => alawExpand (w.extractLsb' 16 8)

/-- The largest value that a format carries (R157). -/
def Format.top : Format → Int
  | .lin24 => 8388607
  | .lin16 => 32767 * 256
  | .ulaw8 => ulawMagnitude 7 15
  | .alaw8 => alawMagnitude 7 15

/-- The most negative value that a format carries (log entry 26). -/
def Format.bottom : Format → Int
  | .lin24 => -8388608
  | .lin16 => -32768 * 256
  | .ulaw8 => -ulawMagnitude 7 15
  | .alaw8 => -alawMagnitude 7 15

/-- A sum beyond full scale is held at full scale (R79, R157). -/
def Format.hold (f : Format) (x : Int) : Int := max f.bottom (min f.top x)

/-- A sample rounded to the nearest 16-bit value; a midway sample is a free choice (R157; log entry 9). -/
def roundTo16 (x : Int) : Int :=
  if x % 256 < 128 then x / 256
  else if 128 < x % 256 then x / 256 + 1
  else if Config.lin16TieUp x then x / 256 + 1 else x / 256

/-- The outbound word of a held sample, in the leading bit positions, the rest 0 (R157, 11.7). -/
def Format.encode (f : Format) (x : Int) : BitVec 24 :=
  match f with
  | .lin24 => BitVec.ofInt 24 x
  | .lin16 => BitVec.ofInt 16 (roundTo16 x) ++ 0#8
  | .ulaw8 => ulawCompress x ++ 0#16
  | .alaw8 => alawCompress x ++ 0#16

/-! ### Bit positions -/

/-- `n` bit positions of a frame from position `at_`, the first one the most significant (11.7). -/
def positionsOf (bits : BitVec 512) (at_ n : Nat) : BitVec n := bits.extractLsb' (512 - at_ - n) n

/-- The alignment word of an inbound frame: positions 0 to 15 (11.7). -/
def alignmentOf (bits : BitVec 512) : BitVec 16 := positionsOf bits 0 16

/-- The audio of line-side slot `n` (11.7). -/
def lineAudio (bits : BitVec 512) (n : Nat) : BitVec 24 := positionsOf bits (16 + 32 * n) 24

/-- The signalling word of line-side slot `n` (11.7). -/
def lineWord (bits : BitVec 512) (n : Nat) : Byte := positionsOf bits (40 + 32 * n) 8

/-- The audio of source slot `n` of SP (11.7). -/
def sourceAudio (bits : BitVec 512) (n : Nat) : BitVec 24 := positionsOf bits (16 + 24 * n) 24

/-- The outgoing signalling codes (11.7). -/
def signalWord : SignalOut → Byte
  | .idle => 0x00
  | .answer => 0x05
  | .clear => 0x0A

/-- The bits of a word, most significant first. -/
def bitsOf {n : Nat} (w : BitVec n) : List (Option Bool) := (List.range n).map fun i => some (w.getMsbD i)

/-- The bit positions of an outbound slot; those of a slot that is not driven carry nothing (R157, 11.7). -/
def slotPositions (lineSide : Bool) : Option OutSlot → List (Option Bool)
  | some o => bitsOf o.audio ++ (match o.signalling with | some w => bitsOf w | none => [])
  | none => List.replicate (if lineSide then 32 else 24) none

/-- The 512 bit positions of an outbound frame, `none` where nothing is driven: a slot not driven, and the idle
positions (11.7; log entry 29). -/
def OutFrame.positions (f : OutFrame) (lineSide : Bool) : List (Option Bool) :=
  let driven := bitsOf f.alignment ++ f.slots.flatMap (slotPositions lineSide)
  driven ++ List.replicate (512 - driven.length) none

end Sys2Proof.Machine
end

