-- ==== Sys2Proof/Machine/Flags.lean ====
section
/-! DEFINITION. The event queues and their flags: class masks, pending-summary flags, overflow, the attention
lines, and the placing of an event in a link's queue (10_control_links_and_event_queues.md). -/

namespace Sys2Proof.Machine

/-- The class of a kind; SUMMARY has none (R173). -/
def EventKind.cls : EventKind → Option EventClass
  | .alert | .answered | .state | .hangup | .cleared | .flash | .partyFault | .parkRemind | .loopEnded => some .call
  | .queueChanged | .airSlot => some .studio
  | .takeAsked | .takeResult | .ownerChanged | .orphaned | .overridden => some .owner
  | .talkActive | .talkHeld | .talkEnded => some .talk
  | .portLost | .portBack | .portFailed => some .port
  | .summary => none

/-- The code of a kind (11.4). -/
def EventKind.code : EventKind → Nat
  | .alert => 0x01
  | .answered => 0x02
  | .state => 0x03
  | .hangup => 0x04
  | .cleared => 0x05
  | .flash => 0x06
  | .partyFault => 0x07
  | .parkRemind => 0x08
  | .loopEnded => 0x09
  | .queueChanged => 0x11
  | .airSlot => 0x12
  | .takeAsked => 0x21
  | .takeResult => 0x22
  | .ownerChanged => 0x23
  | .orphaned => 0x24
  | .overridden => 0x25
  | .talkActive => 0x31
  | .talkHeld => 0x32
  | .talkEnded => 0x33
  | .portLost => 0x41
  | .portBack => 0x42
  | .portFailed => 0x43
  | .summary => 0x50

/-- TAKE_ASKED and ORPHANED are urgent (R173). -/
def EventKind.urgent (k : EventKind) : Bool := k == .takeAsked || k == .orphaned

def ClassSet.has (c : ClassSet) : EventClass → Bool
  | .call => c.call
  | .studio => c.studio
  | .owner => c.owner
  | .talk => c.talk
  | .port => c.port

/-- A class put into a set, or taken out of it. -/
def ClassSet.with (c : ClassSet) (e : EventClass) (b : Bool) : ClassSet :=
  match e with
  | .call => { c with call := b }
  | .studio => { c with studio := b }
  | .owner => { c with owner := b }
  | .talk => { c with talk := b }
  | .port => { c with port := b }

/-- The order in which classes are summarised (R175). -/
def allClasses : List EventClass := [.call, .studio, .owner, .talk, .port]

/-- One link's share of an event: a masked class sets its pending-summary flag, a full queue sets the overflow
flag, and otherwise the event joins at the tail (R174, first case that holds). -/
def LinkRec.receive (l : LinkRec) (e : Event) : LinkRec :=
  match e.kind.cls with
  | some c =>
    if !l.mask.has c then { l with summaries := l.summaries.with c true }
    else if Config.eventRoom ≤ l.events.length then { l with overflow := true }
    else { l with events := l.events ++ [e] }
  | none =>
    if Config.eventRoom ≤ l.events.length then { l with overflow := true }
    else { l with events := l.events ++ [e] }

/-- A SUMMARY record: no class, value 1 the class number (R175, 11.4). -/
def summaryOf (c : EventClass) : Event :=
  { kind := .summary, subject := .none, cause := 0, studio := none, link := none, group := none,
    value1 := some (classCode c), value2 := none }

/-- The SUMMARY of one class: queued and its flag cleared where the class is admitted, its flag is set and the
queue has room (R175, R176). -/
def LinkRec.summarise (l : LinkRec) (c : EventClass) : LinkRec :=
  if l.mask.has c && l.summaries.has c && decide (l.events.length < Config.eventRoom) then
    { l with events := l.events ++ [summaryOf c], summaries := l.summaries.with c false }
  else l

/-- The SUMMARY records that are due, in class order (R175, R176 step 3). -/
def LinkRec.summariseAll (l : LinkRec) : LinkRec := allClasses.foldl LinkRec.summarise l

/-- The attention line: asserted while enabled and the queue has reached the threshold or holds an urgent event;
released in every other case (R177). -/
def LinkRec.attn (l : LinkRec) : Bool :=
  l.attnEnable && (decide (l.attnThreshold ≤ l.events.length) || l.events.any fun e => e.kind.urgent)

/-- The subject byte (11.4). -/
def Event.subjectByte (e : Event) : Byte :=
  match e.subject with
  | .party p => byte (e.cause * 32 + p.val)
  | .port x => byte (0x40 + portCode x)
  | .none => 0xFF

/-- The seven bytes of an event record (11.4). Absent values are FFFFh (R184; log entry 14). -/
def Event.bytes (e : Event) : List Byte :=
  [byte e.kind.code, e.subjectByte,
    byte ((match e.studio with | some x => studioCode x | none => 0) * 64
      + (match e.link with | some k => k.val | none => 3) * 16
      + (match e.group with | some g => groupCode g | none => 0) * 2
      + (if e.kind.urgent then 1 else 0))]
    ++ optBytes16 e.value1 ++ optBytes16 e.value2

end Sys2Proof.Machine
end

