-- ==== Sys2Proof/Machine/Ops.lean ====
section
/-! DEFINITION. The named operations over the state: reading and writing each record, the permissions of ART, the
collections a party stands in, the offering of events, and the answering of requests. -/

namespace Sys2Proof.Machine

/-! ### Records -/

def allParties : List Party := upTo 24

def allLinks : List Link := upTo 3

def allSources : List Source := upTo 16

def allGroups : List Group := upTo 6

def allSlots : List AirSlot := upTo 8

def State.party (s : State) (p : Party) : PartyRec := row s.parties p

def State.setParty (s : State) (p : Party) (r : PartyRec) : State := { s with parties := put s.parties p r }

def State.monitor (s : State) (p : Party) : Monitor := row s.smon.monitors p

def State.setMonitor (s : State) (p : Party) (m : Monitor) : State :=
  { s with smon := { s.smon with monitors := put s.smon.monitors p m } }

def State.group (s : State) (g : Group) : GroupRec := row s.conf g

def State.ret (s : State) (p : Party) : Return := row s.rmix.returns p

def State.setReturn (s : State) (p : Party) (r : Return) : State :=
  { s with rmix := { s.rmix with returns := put s.rmix.returns p r } }

def State.cue (s : State) (k : Link) : Cue := row s.rmix.cues k

def State.setCue (s : State) (k : Link) (c : Cue) : State :=
  { s with rmix := { s.rmix with cues := put s.rmix.cues k c } }

def State.settings (s : State) (k : Link) : TalkSettings := row s.tarb.settings k

def State.talkList (s : State) (p : Party) : List TalkEntry := row s.tarb.lists p

def State.setTalkList (s : State) (p : Party) (l : List TalkEntry) : State :=
  { s with tarb := { s.tarb with lists := put s.tarb.lists p l } }

def State.region (s : State) (i : Fin 8) : Region := row s.regions i

def State.link (s : State) (k : Link) : LinkRec := row s.links k

def State.setLink (s : State) (k : Link) (l : LinkRec) : State := { s with links := put s.links k l }

def State.port (s : State) : PortId → PortRec
  | .lp0 => s.ports.lp0
  | .lp1 => s.ports.lp1
  | .sp => s.ports.sp

def State.setPort (s : State) (x : PortId) (r : PortRec) : State :=
  match x with
  | .lp0 => { s with ports := { s.ports with lp0 := r } }
  | .lp1 => { s with ports := { s.ports with lp1 := r } }
  | .sp => { s with ports := { s.ports with sp := r } }

/-- The attention line of a link, ATTN0 to ATTN2 (R177). -/
def State.attn (s : State) (k : Link) : Bool := (s.link k).attn

/-! ### Ports and slots of parties -/

/-- Party n sits on LP0 for n ≤ 11 and on LP1 for n ≥ 12 (R5). -/
def portOf (p : Party) : PortId := if p.val < 12 then .lp0 else .lp1

/-- The number of a party's slot on its port (R5). -/
def slotIndexOf (p : Party) : Nat := p.val % 12

/-- The parties of a port in ascending number; SP has none (R155). -/
def partiesOf (x : PortId) : List Party := allParties.filter fun p => portOf p == x

def slotsOf : PortId → Nat
  | .lp0 => 12
  | .lp1 => 12
  | .sp => 27

/-- Slot setting `i` of a port. -/
def PortRec.slot (r : PortRec) (i : Nat) : SlotSetting :=
  r.slots.getD i { enable := false, format := .lin24 }

def State.partySlot (s : State) (p : Party) : SlotSetting := (s.port (portOf p)).slot (slotIndexOf p)

/-- A party is in service while its slot is enabled (R5). -/
def State.inService (s : State) (p : Party) : Bool := (s.partySlot p).enable

/-- How many parties of a port are not VACANT (R165, R166). -/
def State.notVacant (s : State) (x : PortId) : Nat :=
  ((partiesOf x).filter fun p => (s.party p).state != .vacant).length

/-! ### Studios, queues and slots -/

def State.queue (s : State) : Studio → List Party
  | .a => s.stud.queueA
  | .b => s.stud.queueB

def State.setQueue (s : State) (x : Studio) (q : List Party) : State :=
  match x with
  | .a => { s with stud := { s.stud with queueA := q } }
  | .b => { s with stud := { s.stud with queueB := q } }

def State.floor (s : State) : Studio → Nat
  | .a => s.stud.floorA
  | .b => s.stud.floorB

/-- Slots 0 to k − 1 are studio A's share, slots k to 7 studio B's (R54). -/
def State.studioOfSlot (s : State) (n : AirSlot) : Studio := if n.val < s.stud.split then .a else .b

/-- The share of a studio, in slot order (R54). -/
def State.share (s : State) (x : Studio) : List AirSlot := allSlots.filter fun n => s.studioOfSlot n == x

/-- The slot that holds a party (R64). -/
def State.slotOf (s : State) (p : Party) : Option AirSlot :=
  allSlots.find? fun n => match row s.stud.slots n with
    | some o => o.party == p
    | none => false

/-- The queue that holds a party (R54). -/
def State.queueOf (s : State) (p : Party) : Option Studio :=
  if s.stud.queueA.contains p then some .a else if s.stud.queueB.contains p then some .b else none

/-- The studio of a party: the queue that holds it, or the studio whose share holds its slot (R54). -/
def State.studioOf (s : State) (p : Party) : Option Studio :=
  match s.queueOf p with
  | some x => some x
  | none => (s.slotOf p).map s.studioOfSlot

/-- A party's place in its queue, 1 for the head (R54). -/
def State.positionOf (s : State) (p : Party) : Option Nat :=
  (s.queueOf p).map fun x => (s.queue x).idxOf p + 1

/-- The air gain of an on-air party (R54). -/
def State.airGainOf (s : State) (p : Party) : Option Gain :=
  match s.slotOf p with
  | some n => (row s.stud.slots n).map fun o => o.gain
  | none => none

/-- The lowest-numbered free slot of a studio's share (R65). -/
def State.freeSlot (s : State) (x : Studio) : Option AirSlot :=
  (s.share x).find? fun n => (row s.stud.slots n).isNone

def State.setSlot (s : State) (n : AirSlot) (o : Option OnSlot) : State :=
  { s with stud := { s.stud with slots := put s.stud.slots n o } }

/-- A party out of both ready queues, the later entries closing up (R58, R62). -/
def State.dequeue (s : State) (p : Party) : State :=
  { s with stud := { s.stud with
      queueA := s.stud.queueA.filter (· != p), queueB := s.stud.queueB.filter (· != p) } }

/-- A party's air slot freed (R67). -/
def State.freeAir (s : State) (p : Party) : State :=
  { s with stud := { s.stud with
      slots := tab fun n => match row s.stud.slots n with
        | some o => if o.party == p then none else some o
        | none => none } }

/-- The membership of a source in a studio (R54). -/
def SourceRec.inStudio (r : SourceRec) : Studio → Bool
  | .a => r.inA
  | .b => r.inB

/-- The air gain of a source in a studio (R54). -/
def SourceRec.gainIn (r : SourceRec) : Studio → Gain
  | .a => r.gainA
  | .b => r.gainB

def State.source (s : State) (n : Source) : SourceRec := row s.stud.sources n

def State.setSource (s : State) (n : Source) (r : SourceRec) : State :=
  { s with stud := { s.stud with sources := put s.stud.sources n r } }

/-- The parties ON_AIR in a studio, in slot order, with their air gains (R69). -/
def State.onAirOf (s : State) (x : Studio) : List OnSlot := (s.share x).filterMap fun n => row s.stud.slots n

/-! ### Groups -/

/-- The group whose list holds a party (R43). -/
def State.groupOf (s : State) (p : Party) : Option Group := allGroups.find? fun g => (s.group g).members.contains p

/-- A party out of a group; a group left empty loses its owner (R44). -/
def GroupRec.without (r : GroupRec) (p : Party) : GroupRec :=
  { members := r.members.filter (· != p),
    owner := if (r.members.filter (· != p)).isEmpty then none else r.owner }

/-- A party at the tail of a group; an empty group takes the joining party's owner (R44, R46). -/
def GroupRec.withTail (r : GroupRec) (p : Party) (k : Link) : GroupRec :=
  { members := r.members ++ [p], owner := if r.members.isEmpty then some k else r.owner }

/-- A party out of whatever group holds it (R48, R49). -/
def State.ungroup (s : State) (p : Party) : State :=
  { s with conf := tab fun g => if (s.group g).members.contains p then (s.group g).without p else s.group g }

/-! ### Access regions -/

/-- Whether an entry covers a party (R143). -/
def Region.coversParty (r : Region) (p : Party) : Bool :=
  r.valid && match r.cover with
    | .parties first count => decide (first ≤ p.val) && decide (p.val < first + count)
    | .studio _ => false

/-- Whether an entry covers a studio (R143). -/
def Region.coversStudio (r : Region) (x : Studio) : Bool :=
  r.valid && match r.cover with
    | .parties _ _ => false
    | .studio y => y == x

def allRegions : List (Fin 8) := upTo 8

/-- The applying region of a party: the valid entry of lowest index that covers it (R144). -/
def State.partyRegion (s : State) (p : Party) : Option (Fin 8) :=
  allRegions.find? fun i => (s.region i).coversParty p

/-- The applying region of a studio (R144). -/
def State.studioRegion (s : State) (x : Studio) : Option (Fin 8) :=
  allRegions.find? fun i => (s.region i).coversStudio x

def Perms.all : Perms := { view := true, control := true, talk := true }

/-- The permissions a link holds where the given entry applies (R144): the supervisor holds all three unless a
locked entry applies, and another link holds what the entry lists. -/
def State.permsUnder (s : State) (applying : Option (Fin 8)) (k : Link) : Perms :=
  match applying with
  | some i => if k = s.supervisor && !(s.region i).locked then Perms.all else row (s.region i).perms k
  | none => if k = s.supervisor then Perms.all else Perms.empty

def State.partyPerms (s : State) (k : Link) (p : Party) : Perms := s.permsUnder (s.partyRegion p) k

def State.studioPerms (s : State) (k : Link) (x : Studio) : Perms := s.permsUnder (s.studioRegion x) k

/-- CONTROL on a party. -/
def State.controls (s : State) (k : Link) (p : Party) : Bool := (s.partyPerms k p).control

/-- VIEW on a party. -/
def State.views (s : State) (k : Link) (p : Party) : Bool := (s.partyPerms k p).view

/-- CONTROL on a studio. -/
def State.controlsStudio (s : State) (k : Link) (x : Studio) : Bool := (s.studioPerms k x).control

/-- VIEW on a studio. -/
def State.viewsStudio (s : State) (k : Link) (x : Studio) : Bool := (s.studioPerms k x).view

/-- CONTROL on the party's studio, passed over where the party has none (R59). -/
def State.controlsItsStudio (s : State) (k : Link) (p : Party) : Bool :=
  match s.studioOf p with
  | some x => s.controlsStudio k x
  | none => true

def State.owns (s : State) (k : Link) (p : Party) : Bool := (s.party p).owner == some k

/-- VIEW on a party, or ownership of it (R146). -/
def State.mayRead (s : State) (k : Link) (p : Party) : Bool := s.views k p || s.owns k p

/-! ### Kinds of states -/

/-- SCREENING, PARKED, QUEUED and ON_AIR are the answered states (chapter 1, 1.2). -/
def PartyState.answered : PartyState → Bool
  | .screening | .parked | .queued | .onAir => true
  | .vacant | .alerting | .clearing | .looptest | .fault => false

/-- An answered state or CLEARING: on a call (chapter 1, 1.2). -/
def PartyState.onCall : PartyState → Bool
  | .screening | .parked | .queued | .onAir | .clearing => true
  | .vacant | .alerting | .looptest | .fault => false

/-- The states in which a talkback list may hold entries (R105). -/
def PartyState.talkable : PartyState → Bool
  | .parked | .queued | .onAir => true
  | .vacant | .alerting | .screening | .clearing | .looptest | .fault => false

/-- The signal-out that goes with a state (R6); the CLEAR of a clear period is set by PRST (R21). -/
def PartyState.signal : PartyState → SignalOut
  | .screening | .parked | .queued | .onAir => .answer
  | .clearing => .clear
  | .vacant | .alerting | .looptest | .fault => .idle

/-! ### Offering events -/

/-- An event with the links that receive it (R174). -/
structure Offer where
  event : Event
  receives : Link → Bool

/-- An event placed with each receiving link (R174). -/
def State.offer (s : State) (o : Offer) : State :=
  { s with links := tab fun k => if o.receives k then (s.link k).receive o.event else s.link k }

/-- The events of one change, in order (R174). -/
def State.offerAll (s : State) (os : List Offer) : State := os.foldl State.offer s

/-- An event of a party without further fields. -/
def partyEvent (kind : EventKind) (p : Party) : Event :=
  { kind := kind, subject := .party p, cause := 0, studio := none, link := none, group := none,
    value1 := none, value2 := none }

/-! ### Answering -/

/-- The response that carries a reply (R184). -/
def Reply.response (r : Reply) (tag code : Byte) : Response :=
  { tag := tag, code := code, payload := byte (statusCode r.status) :: r.data }

/-- Whether a response is an OVERRUN (R169), by its status. -/
def Response.isOverrun (r : Response) : Bool := r.payload.head? == some (byte (statusCode .overrun))

/-- A response to a taken request joins the list at the tail; where nothing is being sent, it begins (R171). -/
def LinkRec.respond (l : LinkRec) (r : Response) : LinkRec :=
  match l.sending with
  | none => if l.waiting.isEmpty then { l with sending := some r } else { l with waiting := l.waiting ++ [r] }
  | some _ => { l with waiting := l.waiting ++ [r] }

/-- The response to a request of link `k`, queued (R170, R171). -/
def Answer.deliver (a : Answer) (k : Link) (tag code : Byte) : State :=
  a.state.setLink k ((a.state.link k).respond (a.reply.response tag code))

/-! ### The owner's requests -/

/-- TPRK in milliseconds. -/
def State.parkTime (s : State) : Nat := s.times.tprk * 1000

/-- An accepted request of link `k` that names party `p`: where `k` owns the parked party, a running park timer
restarts with reminder count 0 (R7, R136). -/
def State.ownerNamed (s : State) (k : Link) (p : Party) : State :=
  let r := s.party p
  if r.owner = some k ∧ r.state = .parked ∧ r.park.isSome then
    s.setParty p { r with park := some s.parkTime, reminders := 0 }
  else s

end Sys2Proof.Machine
end

