-- ==== Sys2Proof/Machine/Rmix.lean ====
section
/-! DEFINITION. The return mixer's control side (05_return_composition.md): the feed law, the targets of
ingredients, the ramps that start when a target changes, and the cue selections. The gains themselves move in
Machine/Audio.lean. -/

namespace Sys2Proof.Machine

/-- −80.0 dB in half-decibels: what OFF is taken as for a ramp (R78, R90). -/
def floorGain : Int := -160

/-- Where a ramp toward a target ends (R90). -/
def Gain.goal : Gain → Int
  | .off => floorGain
  | .half h => h

/-- The length of a ramp of `ms` milliseconds, in audio frames (R90). -/
def rampFrames (ms : Nat) : Nat := ms * Config.framesPerMs

/-- A ramp that starts at the applied gain (R90). -/
def Ramp.begin (start : Rat) (ms : Nat) : Ramp := { start := start, len := rampFrames ms, done := 0, running := true }

/-- A new target: the ramp restarts from the applied gain over the given time; an equal target leaves the ramp as
it is (R85, R90). -/
def Level.retarget (l : Level) (g : Gain) (ms : Nat) : Level :=
  if l.target = g then l else { target := g, applied := l.applied, ramp := Ramp.begin l.applied ms }

/-- A level that joins at −80.0 dB (R78). -/
def Level.joining (g : Gain) (ms : Nat) : Level :=
  { target := g, applied := (floorGain : Rat), ramp := Ramp.begin floorGain ms }

/-- A level at rest at a gain. -/
def Level.resting (h : Int) : Level :=
  { target := .half h, applied := h, ramp := { start := h, len := 0, done := 0, running := false } }

/-! ### The feed law -/

/-- One ingredient that a feed calls for: its identity, its gain in half-decibels, and for a talk path the source it
carries (R76, R80). -/
structure Wanted where
  ident : Ident
  gain : Int
  carries : Option Source
deriving DecidableEq, Repr

/-- The talk path of a link: its talk source at its talk gain, where it has a source and a gain other than OFF
(R80, R103). -/
def State.talkPath (s : State) (k : Link) : Option Wanted :=
  match (s.settings k).source, (s.settings k).gain with
  | some src, .half h => some { ident := .talk k, gain := h, carries := some src }
  | _, _ => none

/-- The member sources of a studio whose air gain is other than OFF (R81). -/
def State.mixSources (s : State) (x : Studio) : List Wanted :=
  allSources.filterMap fun n =>
    if (s.source n).inStudio x then
      match (s.source n).gainIn x with
      | .half h => some { ident := .source n, gain := h, carries := none }
      | .off => none
    else none

/-- The parties ON_AIR in a studio whose air gain is other than OFF (R81). -/
def State.mixParties (s : State) (x : Studio) : List Wanted :=
  (s.onAirOf x).filterMap fun o =>
    match o.gain with
    | .half h => some { ident := .party o.party, gain := h, carries := none }
    | .off => none

/-- The studio mix (R81). -/
def State.mix (s : State) (x : Studio) : List Wanted := s.mixSources x ++ s.mixParties x

/-- The other members of a party's group, each at 0.0 dB (R80). -/
def State.groupInputs (s : State) (p : Party) : List Wanted :=
  match s.groupOf p with
  | some g => ((s.group g).members.filter (· != p)).map fun q => { ident := .party q, gain := 0, carries := none }
  | none => []

/-- The hold source at the hold gain (R83). -/
def State.holdFeed (s : State) : List Wanted :=
  match s.rmix.holdSource, s.rmix.holdGain with
  | some h, .half g => [{ ident := .source h, gain := g, carries := none }]
  | _, _ => []

/-- The feed F(p) of R80. No feed names the party's own input (R77): a QUEUED party is in no studio mix (R81), so its feed
is the whole of it. -/
def State.feed (s : State) (p : Party) : List Wanted :=
  match (s.party p).state with
  | .vacant | .alerting | .clearing | .fault => []
  | .screening =>
    (match (s.party p).owner with
      | some k => (s.talkPath k).toList
      | none => []) ++ s.groupInputs p
  | .parked => s.holdFeed
  | .queued | .onAir =>
    match s.studioOf p with
    | some x => (s.mix x).filter fun w => w.ident != .party p
    | none => []
  | .looptest =>
    match (s.party p).loopSource with
    | some l => [{ ident := .source l, gain := 0, carries := none }]
    | none => []

/-! ### Targets -/

/-- A feed gain lowered by a duck depth: FULL gives OFF, and a gain below −80.0 dB is taken as −80.0 dB (R87). -/
def Depth.lower (d : Depth) (h : Int) : Gain :=
  match d with
  | .full => .off
  | .db20 => .half (max floorGain (h - 40))
  | .db12 => .half (max floorGain (h - 24))
  | .db6 => .half (max floorGain (h - 12))

/-- The target that an active entry leaves a feed gain (R87). -/
def duckedBy (active : Option Duck) (h : Int) : Gain :=
  match active with
  | some d => d.depth.lower h
  | none => .half h

/-- One ingredient's target in a recomputation. -/
structure Goal where
  ident : Ident
  target : Gain
  carries : Option Source
deriving DecidableEq, Repr

/-- The targets of a return with feed `f` and active entry `active` (R80, R87). The talk path of the active entry
joins the feed, undimmed, unless the feed holds it already. -/
def State.goals (s : State) (f : List Wanted) (active : Option Duck) : List Goal :=
  f.map (fun w => { ident := w.ident, target := duckedBy active w.gain, carries := w.carries })
    ++ match active with
      | some d =>
        if f.any fun w => w.ident == .talk d.link then []
        else (s.talkPath d.link).toList.map fun w => { ident := w.ident, target := .half w.gain, carries := w.carries }
      | none => []

/-- What a recomputation does for, by R91: a change of feed or of talk settings ramps over RAMP; a change of the
active entry ramps a feed ingredient over DATK where its target falls and DREL where it rises, and a talk path
over DATK where it comes in and DREL where it goes to OFF. -/
inductive Because where
  | feed
  | active
deriving DecidableEq, Repr

/-- The ramp time of a target change (R91). `inFeed` says whether the ingredient belongs to the feed; an
ingredient not in the list has the old target OFF. -/
def State.rampTime (s : State) (why : Because) (inFeed : Bool) (old new : Gain) : Nat :=
  match why with
  | .feed => s.times.ramp
  | .active =>
    if inFeed then
      if new.goal < old.goal ∨ new = .off then s.times.datk else s.times.drel
    else if new = .off then s.times.drel
    else s.times.datk

/-- A talk path whose source changes dips: it ramps over RAMP to −80.0 dB still carrying the old source, and
takes the new one there (R104; log entry 54). A talk path that already carries the source, or is on its way to it, does not
dip anew (log entries 53 and 20), and one that falls with target OFF goes on falling as it does (R85); a change of its
source is `dipFalling`'s. -/
def Ingredient.retargetTalk (i : Ingredient) (g : Goal) (ms rampMs : Nat) : Ingredient :=
  if g.target = .off then
    if i.level.target = .off then i
    else { i with level := i.level.retarget .off ms, dipTo := none }
  else if (i.dipTo <|> i.carries) = g.carries then
    match i.dipTo with
    | some _ => { i with level := { i.level with target := g.target } }
    | none => { i with level := i.level.retarget g.target ms }
  else
    { i with level := { target := g.target, applied := i.level.applied, ramp := Ramp.begin i.level.applied rampMs },
             dipTo := g.carries }

/-- A talk path of link `j` that falls with target OFF, as the link's source passes to `src`: it dips over RAMP from its
applied gain, and at −80.0 dB it leaves (R104, R78; log entry 41). One that carries `src`, or dips to it, falls on as it does
(log entry 53). -/
def Ingredient.dipFalling (i : Ingredient) (j : Link) (src : Option Source) (rampMs : Nat) : Ingredient :=
  if i.ident = .talk j ∧ i.level.target = .off ∧ (i.dipTo <|> i.carries) ≠ src then
    { i with level := { i.level with ramp := Ramp.begin i.level.applied rampMs }, dipTo := src }
  else i

/-- A new target for an ingredient of the list (R85, R90). -/
def Ingredient.retarget (i : Ingredient) (g : Goal) (ms rampMs : Nat) : Ingredient :=
  match i.ident with
  | .talk _ => i.retargetTalk g ms rampMs
  | .source _ => { i with level := i.level.retarget g.target ms }
  | .party _ => { i with level := i.level.retarget g.target ms }

/-- The goal of an identity: what the recomputation gives it, or OFF (chapter 5, 5.2). -/
def goalOf (gs : List Goal) (i : Ident) : Goal :=
  match gs.find? fun g => g.ident == i with
  | some g => g
  | none => { ident := i, target := .off, carries := none }

/-- An ingredient put into a list in identity order (R77). -/
def insertIngredient (i : Ingredient) : List Ingredient → List Ingredient
  | [] => [i]
  | j :: rest => if identCode i.ident < identCode j.ident then i :: j :: rest else j :: insertIngredient i rest

/-- The ingredient that a goal adds: an identity not in the list joins with a target other than OFF (R78). -/
def State.joiners (s : State) (why : Because) (f : List Wanted) (gs : List Goal) (is : List Ingredient) :
    List Ingredient :=
  gs.filterMap fun g =>
    if is.any (fun i => i.ident == g.ident) || decide (g.target = .off) then none
    else some
      { ident := g.ident,
        level := Level.joining g.target (s.rampTime why (f.any fun w => w.ident == g.ident) .off g.target),
        carries := g.carries, dipTo := none }

/-- A recomputation of one ingredient list: new targets for what is in it, and what joins (R78, R85). -/
def State.recompute (s : State) (why : Because) (f : List Wanted) (gs : List Goal) (is : List Ingredient) :
    List Ingredient :=
  (s.joiners why f gs is).foldl (fun acc i => insertIngredient i acc)
    (is.map fun i =>
      i.retarget (goalOf gs i.ident)
        (s.rampTime why (f.any fun w => w.ident == i.ident) i.level.target (goalOf gs i.ident).target)
        s.times.ramp)

/-- RMIX takes a report about return `p` other than TARB's: the feed as it stands, the active entry as last
reported (R85). -/
def State.retargetFeed (s : State) (p : Party) : State :=
  s.setReturn p { s.ret p with
    ingredients := s.recompute .feed (s.feed p) (s.goals (s.feed p) (s.ret p).active) (s.ret p).ingredients }

/-- The falling talk paths of link `j`, in each return that holds one, as the link's source passes to `src` (R104). -/
def State.dipFalling (s : State) (j : Link) (src : Option Source) : State :=
  { s with rmix := { s.rmix with returns := tab fun p =>
      { s.ret p with ingredients := (s.ret p).ingredients.map fun i => i.dipFalling j src s.times.ramp } } }

/-- RMIX takes TARB's report that return `p` now has the active entry `active`, its feed being `f` (R89). -/
def State.retargetActive (s : State) (p : Party) (f : List Wanted) (active : Option Duck) : State :=
  s.setReturn p
    { ingredients := s.recompute .active f (s.goals f active) (s.ret p).ingredients, active := active }

/-! ### Cue outputs -/

/-- The members of a group that a link owns, as a cue hears them: at 0.0 dB each (R53). -/
def State.cueGoals (s : State) (k : Link) (g : Group) : List Goal :=
  ((s.group g).members.filter fun q => s.owns k q).map fun q =>
    { ident := .party q, target := .half 0, carries := none }

/-- A cue place whose group changed: members come in and go out over RAMP (R50, R53). -/
def State.retargetPlace (s : State) (k : Link) (c : CuePlace) : CuePlace :=
  match c.selection with
  | .group g => { c with members := s.recompute .feed [] (s.cueGoals k g) c.members }
  | .input _ => c
  | .ret _ => c

/-- The cue outputs take a change of the groups (R50, R53). -/
def State.retargetCues (s : State) : State :=
  { s with rmix := { s.rmix with cues := tab fun k =>
      { current := (s.cue k).current.map (s.retargetPlace k),
        previous := (s.cue k).previous.map (s.retargetPlace k) } } }

/-- The members heard when a group is selected: each at 0.0 dB, the cue gain alone ramping (R52; log entry 21). -/
def State.cueMembers (s : State) (k : Link) (sel : Selection) : List Ingredient :=
  match sel with
  | .group g => ((s.group g).members.filter fun q => s.owns k q).foldl (fun acc q =>
      insertIngredient { ident := .party q, level := Level.resting 0, carries := none, dipTo := none } acc) []
  | .input _ => []
  | .ret _ => []

/-- A new selection of cue `k`, `none` being OFF (R98): the previous one is dropped, the current one becomes the
previous and ramps out, and the new one ramps to 0.0 dB, from its applied gain where it was the previous one.
The current selection named again changes nothing. -/
def State.select (s : State) (k : Link) (sel : Option Selection) : State :=
  let c := s.cue k
  if (c.current.map fun x => x.selection) = sel then s
  else
    let fading := c.current.map fun x => { x with level := x.level.retarget .off s.times.ramp }
    let coming := sel.map fun x =>
      match c.previous with
      | some old =>
        if old.selection = x then { old with level := old.level.retarget (.half 0) s.times.ramp }
        else { selection := x, level := Level.joining (.half 0) s.times.ramp, members := s.cueMembers k x }
      | none => { selection := x, level := Level.joining (.half 0) s.times.ramp, members := s.cueMembers k x }
    s.setCue k { current := coming, previous := fading }

/-! ### Reports -/

/-- RMIX takes a report about several returns, in the order given (R85). -/
def State.reportFeeds (s : State) (ps : List Party) : State := ps.foldl State.retargetFeed s

end Sys2Proof.Machine
end

