-- ==== Sys2Proof/Machine/Audio.lean ====
section
/-! DEFINITION. AUDIO_FRAME and RAMP_COMPLETE (chapters 5 and 9): the movement of the applied gains, and the forming of
returns, air-slot outputs, cue outputs and outbound frames. -/

namespace Sys2Proof.Machine

/-! ### Ramps -/

/-- A ramp that has reached its frame count: the applied gain is the goal (R90). -/
def Level.finished (l : Level) (goal : Int) : Level :=
  { l with applied := goal, ramp := { l.ramp with done := l.ramp.len, running := false } }

/-- One audio frame of a ramp: frames done advances by 1, and the applied gain moves along a straight line in decibels
(R90). -/
def Level.advance (l : Level) (goal : Int) : Level :=
  if !l.ramp.running then l
  else if l.ramp.len ≤ l.ramp.done + 1 then l.finished goal
  else
    { l with
      applied := l.ramp.start + (goal - l.ramp.start) * ((l.ramp.done + 1 : Nat) : Rat) / (l.ramp.len : Rat),
      ramp := { l.ramp with done := l.ramp.done + 1 } }

/-- Where an ingredient's ramp ends: at −80.0 dB while it dips (R90, R104). -/
def Ingredient.goal (i : Ingredient) : Int := if i.dipTo.isSome then floorGain else i.level.target.goal

/-- A dip whose ramp has ended takes the new source and ramps to its target over RAMP (R104), one that began at −80.0 dB too
(log entry 54). -/
def Ingredient.swap (i : Ingredient) (rampMs : Nat) : Ingredient :=
  match i.dipTo with
  | some src =>
    if i.level.ramp.running then i
    else { i with carries := some src, dipTo := none,
                  level := { i.level with ramp := Ramp.begin floorGain rampMs } }
  | none => i

/-- An ingredient leaves when its applied gain reaches −80.0 dB while its target is OFF (R78). -/
def Ingredient.leaves (i : Ingredient) : Bool := decide (i.level.target = .off) && decide (i.level.applied = floorGain)

/-- One audio frame of an ingredient; `none` where it leaves. -/
def Ingredient.advance (i : Ingredient) (rampMs : Nat) : Option Ingredient :=
  let j := { i with level := i.level.advance i.goal }.swap rampMs
  if j.leaves then none else some j

/-- The completion of an ingredient's running ramp (R90); `none` where it leaves. -/
def Ingredient.complete (i : Ingredient) (rampMs : Nat) : Option Ingredient :=
  if !i.level.ramp.running then some i
  else
    let j := { i with level := i.level.finished i.goal }.swap rampMs
    if j.leaves then none else some j

/-- One audio frame of a cue place. -/
def CuePlace.advance (c : CuePlace) (rampMs : Nat) : CuePlace :=
  { c with level := c.level.advance c.level.target.goal, members := c.members.filterMap fun i => i.advance rampMs }

/-- A previous selection leaves its place at −80.0 dB (R98). -/
def dropQuiet (c : Option CuePlace) : Option CuePlace := c.filter fun x => decide (x.level.applied ≠ floorGain)

/-- One audio frame of a cue. -/
def Cue.advance (c : Cue) (rampMs : Nat) : Cue :=
  { current := c.current.map fun x => x.advance rampMs,
    previous := dropQuiet (c.previous.map fun x => x.advance rampMs) }

/-- Every applied gain moved by one audio frame (R90), whatever the ports' sync states (R93, R94). -/
def State.advanceRamps (s : State) : State :=
  { s with rmix := { s.rmix with
      returns := tab fun p =>
        { s.ret p with ingredients := (s.ret p).ingredients.filterMap fun i => i.advance s.times.ramp },
      cues := tab fun k => (s.cue k).advance s.times.ramp } }

/-! ### Signals -/

/-- The bits of a port in the present audio frame. A LOCKED port that received no inbound frame carries bits that the
manual leaves open (log entry 10). -/
def State.inboundBits (s : State) (x : PortId) : BitVec 512 :=
  ((s.port x).inbound).getD (Config.strayFrame s.choices (portCode x))

/-- Whether an input slot of a port delivers samples (R163). -/
def State.delivers (s : State) (x : PortId) (slot : Nat) : Bool :=
  (s.port x).sync == .locked && ((s.port x).slot slot).enable

/-- The line's slot input of a party; silence is a sample of zero (R95, R163). -/
def State.lineSample (s : State) (p : Party) : Int :=
  if s.delivers (portOf p) (slotIndexOf p) then
    (s.partySlot p).format.decode (lineAudio (s.inboundBits (portOf p)) (slotIndexOf p))
  else 0

/-- A studio source (R95, R163). -/
def State.sourceSample (s : State) (n : Source) : Int :=
  if s.delivers .sp n.val then (s.ports.sp.slot n.val).format.decode (sourceAudio (s.inboundBits .sp) n.val) else 0

/-- The largest number that passes a test, bit by bit from `2 ^ bits` down, for a test that a smaller number passes
too. -/
def largest (ok : Nat → Bool) : (bits acc : Nat) → Nat
  | 0, acc => acc
  | bits + 1, acc => largest ok bits (if ok (acc + 2 ^ bits) then acc + 2 ^ bits else acc)

/-- `m` to the power that takes the root out of a gain of `halves` = n / d half-decibels: such a gain is the factor
10 ^ (n / 40d), so m = a × gain exactly when `gainLeft halves m = gainRight halves a`. -/
def gainLeft (halves : Rat) (m : Nat) : Nat := m ^ (40 * halves.den) * 10 ^ (-halves.num).toNat

/-- See `gainLeft`. -/
def gainRight (halves : Rat) (a : Nat) : Nat := a ^ (40 * halves.den) * 10 ^ halves.num.toNat

/-- A number of bits that the magnitude `a` at the gain does not pass: a whole step of 20 dB is less than 4 bits. -/
def gainBits (halves : Rat) (a : Nat) : Nat := Nat.log2 a + 1 + 4 * (halves.num.toNat / (40 * halves.den) + 1)

/-- The whole part of the magnitude `a` at a gain of `halves` half-decibels. -/
def magnitudeFloor (halves : Rat) (a : Nat) : Nat :=
  largest (fun m => decide (gainLeft halves m ≤ gainRight halves a)) (gainBits halves a) 0

/-- The magnitude of a sample at a gain: exact where that is a whole number, and else one of the two next to it (R79; log
entry 8). -/
def magnitudeAt (halves : Rat) (x : Int) : Nat :=
  let m := magnitudeFloor halves x.natAbs
  if gainLeft halves m = gainRight halves x.natAbs then m
  else if Config.productAway halves x then m + 1 else m

/-- A sample at an applied gain: silent where the signal is silent, unchanged at 0.0 dB, and else the product with the
factor 10 ^ (halves / 40), rounded to a sample (R79, R157; log entry 8) and not held to 24 bits (log entry 50). -/
def atGain (halves : Rat) (x : Int) : Int :=
  if x = 0 then 0 else if halves = 0 then x else x.sign * magnitudeAt halves x

/-- The signal of an ingredient, given the party inputs (R76, R95). -/
def State.signalOf (s : State) (input : Party → Int) (i : Ingredient) : Int :=
  match i.ident with
  | .source n => s.sourceSample n
  | .party q => input q
  | .talk _ =>
    match i.carries with
    | some n => s.sourceSample n
    | none => 0

/-- The sum of ingredients, each at its applied gain (R79); not held to 24 bits (log entry 50). -/
def State.sumOf (s : State) (input : Party → Int) (is : List Ingredient) : Int :=
  (is.map fun i => atGain i.level.applied (s.signalOf input i)).sum

/-- A return as RMIX forms it, held at the full scale of the party's slot (R79). -/
def State.formReturn (s : State) (input : Party → Int) (p : Party) : Int :=
  (s.partySlot p).format.hold (s.sumOf input (s.ret p).ingredients)

/-- The substituted input of a party in LOOPTEST: its return, silent while its loop source is silent (R84, R95). -/
def State.substituted (s : State) (p : Party) (return_ : Int) : Int :=
  match (s.party p).loopSource with
  | some n => if s.delivers .sp n.val then return_ else 0
  | none => return_

/-- A party's input as every consumer sees it, given the returns of the parties in LOOPTEST (R84). -/
def State.inputFrom (s : State) (returns : Party → Int) (p : Party) : Int :=
  if (s.party p).state = .looptest then s.substituted p (returns p) else s.lineSample p

/-- The returns of the parties in LOOPTEST. Where one of them still holds another's input, that one is taken as formed in
the frame before (log entry 13). -/
def State.loopReturns (s : State) : Vector Int 24 :=
  tab fun p =>
    if (s.party p).state = .looptest then s.formReturn (s.inputFrom fun q => row s.rmix.lastReturns q) p else 0

/-- The party inputs of the frame. -/
def State.inputs (s : State) : Vector Int 24 :=
  let loops := s.loopReturns
  tab fun p => s.inputFrom (fun q => row loops q) p

/-- The returns of the frame: those of the parties in LOOPTEST as the substitution takes them (R84), and the others from
the party inputs (R79). -/
def State.returns (s : State) : Vector Int 24 :=
  let loops := s.loopReturns
  let ins := s.inputs
  tab fun p => if (s.party p).state = .looptest then row loops p else s.formReturn (fun q => row ins q) p

/-- What an air slot carries: its party's input at unity, silence while it is free (R96). -/
def State.airOutput (s : State) (input : Party → Int) (n : AirSlot) : Int :=
  match row s.stud.slots n with
  | some o => input o.party
  | none => 0

/-- What a cue place carries before its cue gain (R97, R53). -/
def State.placeSignal (s : State) (input returns : Party → Int) (c : CuePlace) : Int :=
  match c.selection with
  | .input p => input p
  | .ret p => returns p
  | .group _ => s.sumOf input c.members

/-- A cue place at its cue gain; neither a group's sum before the gain nor the product is held to 24 bits (log entry 50). -/
def State.placeOutput (s : State) (input returns : Party → Int) (c : Option CuePlace) : Int :=
  match c with
  | some x => atGain x.level.applied (s.placeSignal input returns x)
  | none => 0

/-- The current selection plus the previous one (R98). -/
def State.cueOutput (s : State) (input returns : Party → Int) (k : Link) : Int :=
  s.placeOutput input returns (s.cue k).current + s.placeOutput input returns (s.cue k).previous

/-! ### Outbound frames -/

/-- A driven slot, or none where the slot is disabled (R157). -/
def driveSlot (c : SlotSetting) (x : Int) (w : Option Byte) : Option OutSlot :=
  if c.enable then some { audio := c.format.encode (c.format.hold x), signalling := w } else none

/-- The outbound frame of a line-side port: its parties' returns and signalling words (R42, R79). -/
def State.lineFrame (s : State) (returns : Party → Int) (x : PortId) : OutFrame :=
  { alignment := Config.alignmentCode,
    slots := (partiesOf x).map fun p =>
      driveSlot (s.partySlot p) (returns p) (some (signalWord (s.party p).signalOut)) }

/-- The outbound frame of SP: the air slots, then the cue slots (R96, R155). -/
def State.studioFrame (s : State) (input returns : Party → Int) : OutFrame :=
  { alignment := Config.alignmentCode,
    slots := allSlots.map (fun n => driveSlot (s.ports.sp.slot (16 + n.val)) (s.airOutput input n) none)
      ++ allLinks.map fun k => driveSlot (s.ports.sp.slot (24 + k.val)) (s.cueOutput input returns k) none }

/-- A port is driven while LOCKED and in no other state (R163); its inbound frame is used up. -/
def PortRec.drive (r : PortRec) (f : OutFrame) : PortRec :=
  { r with outbound := if r.sync = .locked then some f else none, inbound := none }

/-- The outputs of the frame formed from the gains as they stand. -/
def State.formOutputs (s : State) : State :=
  let ins := s.inputs
  let input := fun p => row ins p
  let rets := s.returns
  let returns := fun p => row rets p
  { s with
    rmix := { s.rmix with lastReturns := rets },
    ports :=
      { lp0 := s.ports.lp0.drive (s.lineFrame returns .lp0),
        lp1 := s.ports.lp1.drive (s.lineFrame returns .lp1),
        sp := s.ports.sp.drive (s.studioFrame input returns) } }

/-- One word-clock period that brings its 256 bit periods. -/
def State.audioFrame (s : State) : State :=
  let s' := s.advanceRamps.formOutputs
  { s' with tbase := { s'.tbase with edgeSeen := true }, choices := s'.choices + 1 }

/-- AUDIO_FRAME (R79, R90, R96, R98, R157). -/
def execAudioFrame (s : State) : Host.Outcome State Fault Refusal := .next s.audioFrame

/-! ### RAMP_COMPLETE -/

/-- The running ramp of one ingredient of a list completes (R90, R78, R104). -/
def completeIn (is : List Ingredient) (j : Ident) (rampMs : Nat) : List Ingredient :=
  is.filterMap fun i => if i.ident = j then i.complete rampMs else some i

/-- The running cue gain of a place completes. -/
def CuePlace.complete (c : CuePlace) : CuePlace :=
  if c.level.ramp.running then { c with level := c.level.finished c.level.target.goal } else c

/-- One side of a cue changed. -/
def Cue.modSide (c : Cue) (side : CueSide) (f : CuePlace → CuePlace) : Cue :=
  match side with
  | .current => { c with current := c.current.map f }
  | .previous => { c with previous := c.previous.map f }

/-- The completion of the cue gain of one side; a previous selection is dropped at −80.0 dB (R98). -/
def Cue.complete (c : Cue) (side : CueSide) : Cue :=
  match side with
  | .current => c.modSide .current CuePlace.complete
  | .previous =>
    { c with previous := c.previous.bind fun x =>
        if x.level.ramp.running then dropQuiet (some x.complete) else some x }

/-- The named ramp completes (R90). -/
def State.completeRamp (s : State) : RampRef → State
  | .ingredient p i =>
    s.setReturn p { s.ret p with ingredients := completeIn (s.ret p).ingredients i s.times.ramp }
  | .cue k side => s.setCue k ((s.cue k).complete side)
  | .cueMember k side q =>
    s.setCue k ((s.cue k).modSide side fun c =>
      { c with members := completeIn c.members (.party q) s.times.ramp })

/-- RAMP_COMPLETE: the applied gain equals the target (R90). A ramp that does not run is left as it is. -/
def execRampComplete (r : RampRef) (s : State) : Host.Outcome State Fault Refusal := .next (s.completeRamp r)

end Sys2Proof.Machine
end

