-- ==== Sys2Proof/Machine/TalkOps.lean ====
section
/-! DEFINITION. Talkback arbitration (06_talkback_arbitration.md): the order of a list, the standing of its entries,
the active entry, and what a change of it offers and reports. -/

namespace Sys2Proof.Machine

/-- The standing of an entry (R106). -/
inductive Standing where
  | active
  | outranked
  | floor
deriving DecidableEq, Repr

def standingCode : Standing → Nat
  | .active => 0
  | .outranked => 1
  | .floor => 2

/-- The floor that holds back the entries of a party: its studio's while it is ON_AIR, and none in any other
state (R57, R106). -/
def State.talkFloor (s : State) (p : Party) : Nat :=
  if (s.party p).state = .onAir then
    match s.studioOf p with
    | some x => s.floor x
    | none => 0
  else 0

/-- An entry is eligible when its priority is at or above the floor (R106). -/
def State.eligible (s : State) (p : Party) (e : TalkEntry) : Bool := decide (s.talkFloor p ≤ e.priority)

/-- The active entry: the first eligible entry of the list (R107). -/
def State.activeEntry (s : State) (p : Party) : Option TalkEntry := (s.talkList p).find? (s.eligible p)

/-- The standing of an entry of a list (R106). -/
def State.standing (s : State) (p : Party) (e : TalkEntry) : Standing :=
  if !s.eligible p e then .floor
  else if s.activeEntry p = some e then .active
  else .outranked

/-- What TARB reports to RMIX of an entry: its link and duck depth (R89). -/
def TalkEntry.duck (e : TalkEntry) : Duck := { link := e.link, depth := e.depth }

/-- An entry put at the place that its priority and its arrival give: behind every entry of its priority or a
higher one, its own arrival being the latest (R106, R109). -/
def insertEntry (e : TalkEntry) : List TalkEntry → List TalkEntry
  | [] => [e]
  | f :: rest => if f.priority < e.priority then e :: f :: rest else f :: insertEntry e rest

/-- A link's entry out of a list. -/
def withoutLink (k : Link) (l : List TalkEntry) : List TalkEntry := l.filter fun e => e.link != k

/-- An event of a talk entry (R116). -/
def talkEvent (kind : EventKind) (p : Party) (e : TalkEntry) (v1 v2 : Nat) : Event :=
  { partyEvent kind p with link := some e.link, value1 := some v1, value2 := some v2 }

/-- A TALK-class event goes to the entry's link, and to the owners before and after the change (R117). -/
def talkOffer (before after : Option Link) (k : Link) (e : Event) : Offer :=
  { event := e, receives := fun j => j == k || before == some j || after == some j }

/-- The event of the entry that stops being active while it stays on the list (R116). An entry outranked by its own
replacement, `own` naming its link, is OUTRANKED (log entry 35), and its event carries the new priority (log entry 43). -/
def heldEvent (before after : State) (p : Party) (own : Option Link) (was : TalkEntry) : List Offer :=
  match (after.talkList p).find? fun e => e.link == was.link with
  | none => []
  | some e =>
    let cause := if own = some e.link then Cause.outranked
      else if after.eligible p e then Cause.outranked else Cause.floor
    [talkOffer (before.party p).owner (after.party p).owner e.link
      (talkEvent .talkHeld p e e.priority cause)]

/-- The event of an entry that becomes active (R116). -/
def activeEvent (before after : State) (p : Party) (e : TalkEntry) : Offer :=
  talkOffer (before.party p).owner (after.party p).owner e.link
    (talkEvent .talkActive p e e.priority (depthCode e.depth))

/-- The events of a change of the active entry of return `p` (R116): none where the same link's entry stays active,
and the held entry's event before the new one's. -/
def activeOffers (before after : State) (p : Party) (own : Option Link) : List Offer :=
  match before.activeEntry p, after.activeEntry p with
  | none, none => []
  | some old, none => heldEvent before after p own old
  | none, some new => [activeEvent before after p new]
  | some old, some new =>
    if old.link = new.link then [] else heldEvent before after p own old ++ [activeEvent before after p new]

/-- TALK_ENDED for each entry of a list that a state exit empties, in list order (R113). -/
def endedOffers (before after : State) (p : Party) : List Offer :=
  (before.talkList p).map fun e =>
    talkOffer (before.party p).owner (after.party p).owner e.link
      (talkEvent .talkEnded p e (stateCode (after.party p).state) e.priority)

/-- TARB works out the active entry of return `p` afresh in a change that is no party transition, offers its events
and reports a change of link or depth to RMIX (R107). `before` is the state the change began from. -/
def State.reworkActive (s before : State) (p : Party) (own : Option Link) : State :=
  let s' := s.offerAll (activeOffers before s p own)
  let now := (s.activeEntry p).map TalkEntry.duck
  if (s'.ret p).active = now then s' else s'.retargetActive p (s'.feed p) now

end Sys2Proof.Machine
end

