-- ==== Sys2Proof/Machine/Transition.lean ====
section
/-! DEFINITION. A party transition (01_parties_and_the_call_state_machine.md): the cleanup of R26, the events of
R27 and the reports to RMIX, taken whole; and the transitions that several commands make. -/

namespace Sys2Proof.Machine

/-- The record of a party that enters a state: R2, R6 and the CALL and HCTL lines of R26. The timers that only run
in one state stop on leaving it; the clear timer is started anew by the rules that run it (R16, R21). -/
def PartyRec.enter (r : PartyRec) (into : PartyState) : PartyRec :=
  { r with
    state := into
    owner := if into = .vacant ∨ into = .alerting ∨ into = .fault then none else r.owner
    lock := if into = .vacant ∨ into = .alerting ∨ into = .clearing ∨ into = .fault then false else r.lock
    handover := if into = .vacant ∨ into = .clearing ∨ into = .fault then none else r.handover
    loopSource := if into = .looptest then r.loopSource else none
    signalOut := into.signal
    realert := if into = .alerting then r.realert else none
    clear := none
    park := if into = .parked then r.park else none }

/-- The removals of R26 as party `p` goes from its state to the state `into`: STUD, CONF and TARB. -/
def State.leave (s : State) (p : Party) (into : PartyState) : State :=
  let from_ := (s.party p).state
  let s1 := if from_ = .queued ∧ into ≠ .queued then s.dequeue p else s
  let s2 := if from_ = .onAir ∧ into ≠ .onAir then s1.freeAir p else s1
  let s3 := if from_ = .screening ∧ into ≠ .screening then s2.ungroup p else s2
  if into.talkable then s3 else s3.setTalkList p []

/-- Party `p` goes from its state to the state `into`: the removals, and the record. -/
def State.enter (s : State) (p : Party) (into : PartyState) : State :=
  (s.leave p into).setParty p ((s.party p).enter into)

/-- The change of a party's record within a transition. -/
def State.modParty (s : State) (p : Party) (f : PartyRec → PartyRec) : State := s.setParty p (f (s.party p))

/-! ### Events of a transition -/

/-- An event of a transition of party `p` delivered on VIEW of the party (R174), and to the owners before and after
the transition (R27). -/
def viewOffer (before after : State) (p : Party) (e : Event) : Offer :=
  { event := e,
    receives := fun k => after.views k p || (before.party p).owner == some k || (after.party p).owner == some k }

/-- A STUDIO-class event also goes to the links with VIEW on the studio it names (R74). -/
def studioOffer (before after : State) (p : Party) (x : Studio) (e : Event) : Offer :=
  { event := e,
    receives := fun k => after.views k p || after.viewsStudio k x || (before.party p).owner == some k
      || (after.party p).owner == some k }

/-- QUEUE_CHANGED for a change of a ready queue (R72). -/
def queueEvent (x : Studio) (p : Party) (by_ : Option Link) (cause position : Nat) : Event :=
  { partyEvent .queueChanged p with
    studio := some x, link := by_, value1 := some cause, value2 := some position }

/-- AIR_SLOT for a slot occupied or freed (R73). -/
def slotEvent (x : Studio) (p : Party) (by_ : Option Link) (n : AirSlot) (cause : Nat) : Event :=
  { partyEvent .airSlot p with studio := some x, link := by_, value1 := some n.val, value2 := some cause }

/-- QUEUE_CHANGED of a transition: LEFT, or JOINED with the new position (R60, R62). -/
def queueOffers (before after : State) (p : Party) (by_ : Option Link) : List Offer :=
  match before.queueOf p, after.queueOf p with
  | some x, none => [studioOffer before after p x (queueEvent x p by_ Cause.left 0)]
  | none, some x =>
    [studioOffer before after p x (queueEvent x p by_ Cause.joined ((after.positionOf p).getD 0))]
  | _, _ => []

/-- AIR_SLOT of a transition: TAKEN or FREED (R66, R67). -/
def slotOffers (before after : State) (p : Party) (by_ : Option Link) : List Offer :=
  match before.slotOf p, after.slotOf p with
  | none, some n =>
    [studioOffer before after p (after.studioOfSlot n) (slotEvent (after.studioOfSlot n) p by_ n Cause.taken)]
  | some n, none =>
    [studioOffer before after p (before.studioOfSlot n) (slotEvent (before.studioOfSlot n) p by_ n Cause.freed)]
  | _, _ => []

/-- TARB's events of a transition: TALK_ENDED where the list is emptied, else those of the active entry (R113,
R115). -/
def talkOffers (before after : State) (p : Party) : List Offer :=
  if (after.party p).state.talkable then activeOffers before after p none else endedOffers before after p

/-- TAKE_RESULT, to the requester and to the owner at the start of the handover (R139). -/
def resultOffer (p : Party) (requester : Link) (ownerBefore ownerAfter : Option Link) (outcome : Nat) : Offer :=
  { event := { partyEvent .takeResult p with
      link := some requester, value1 := some outcome, value2 := some (linkValue ownerAfter) },
    receives := fun k => k == requester || ownerBefore == some k }

/-- A handover that the transition ended: TAKE_RESULT with GONE (R130). -/
def goneOffers (before after : State) (p : Party) : List Offer :=
  match (before.party p).handover, (after.party p).handover with
  | some h, none => [resultOffer p h.requester (before.party p).owner (after.party p).owner Result.gone]
  | _, _ => []

/-- The events of a transition in the order of R27: CALL's own, then STUD, TARB and HCTL. -/
def transitionOffers (before after : State) (p : Party) (by_ : Option Link) (call : List Event) : List Offer :=
  call.map (viewOffer before after p) ++ queueOffers before after p by_ ++ slotOffers before after p by_
    ++ talkOffers before after p ++ goneOffers before after p

/-- The group that a party leaves in a transition, for the event's group field (R48). -/
def groupLeft (before after : State) (p : Party) : Option Group :=
  if (after.groupOf p).isNone then before.groupOf p else none

/-- The studio that a STATE event names: the party's studio after the transition, or else before it (R27). -/
def studioNamed (before after : State) (p : Party) : Option Studio := after.studioOf p <|> before.studioOf p

/-- STATE: the new state in value 1 and the old state in value 2 (R27). -/
def stateEvent (before after : State) (p : Party) : Event :=
  { partyEvent .state p with
    studio := studioNamed before after p, group := groupLeft before after p,
    value1 := some (stateCode (after.party p).state), value2 := some (stateCode (before.party p).state) }

/-- HANGUP: call seconds in value 1 and air seconds in value 2 (R23). -/
def hangupEvent (before after : State) (p : Party) : Event :=
  { partyEvent .hangup p with
    group := groupLeft before after p, value1 := some (before.party p).callSeconds,
    value2 := some (before.party p).airSeconds }

/-- CLEARED: its cause (1 TIMEOUT, 2 ONHOOK, 3 RESET), and both counters (R17, 11.4). -/
def clearedEvent (before after : State) (p : Party) (cause : Nat) : Event :=
  { partyEvent .cleared p with
    cause := cause, group := groupLeft before after p, value1 := some (before.party p).callSeconds,
    value2 := some (before.party p).airSeconds }

/-- PARTY_FAULT: the cause in value 1 and the state left in value 2 (R24). -/
def faultEvent (before after : State) (p : Party) (cause : Nat) : Event :=
  { partyEvent .partyFault p with
    group := groupLeft before after p, value1 := some cause,
    value2 := some (stateCode (before.party p).state) }

/-- LOOP_ENDED: the cause in value 1 and the new state in value 2 (R19, R20). -/
def loopEndedEvent (after : State) (p : Party) (cause : Nat) : Event :=
  { partyEvent .loopEnded p with
    value1 := some cause, value2 := some (stateCode (after.party p).state) }

/-- ALERT with the alert count (R29). -/
def alertEvent (after : State) (p : Party) : Event :=
  { partyEvent .alert p with value1 := some (after.party p).alertCount }

/-! ### Reports of a transition -/

/-- The returns that a change of party `p` concerns (R85): its own, those of the queued and on-air parties of its
studio before or after, and those of the members of its group before or after. -/
def concerned (before after : State) (p : Party) : List Party :=
  allParties.filter fun q =>
    q == p
    || ((before.studioOf p).isSome && before.studioOf q == before.studioOf p)
    || ((after.studioOf p).isSome && after.studioOf q == after.studioOf p)
    || ((before.groupOf p).isSome && before.groupOf q == before.groupOf p)
    || ((after.groupOf p).isSome && after.groupOf q == after.groupOf p)

/-- CALL's report of a change of party `p`, with STUD's and CONF's (R85, R50). -/
def State.reportParty (s before : State) (p : Party) : State :=
  let s' := s.reportFeeds (concerned before s p)
  if before.groupOf p = s.groupOf p then s' else s'.retargetCues

/-- The reports of a transition of party `p` that began from `before`. Where the active entry changes, TARB's report
and CALL's reach RMIX in either order (R88, R91, R107): the order is a free value, drawn afresh each time (log entry
7). TARB's report taken first meets the feed of before the transition. -/
def State.reportTransition (s before : State) (p : Party) : State :=
  let now := (s.activeEntry p).map TalkEntry.duck
  if (s.ret p).active = now then s.reportParty before p
  else
    let s' := { s with choices := s.choices + 1 }
    if Config.talkReportFirst s.choices then (s'.retargetActive p (before.feed p) now).reportParty before p
    else (s'.reportParty before p).retargetActive p (s'.feed p) now

/-- What follows the change of fields and collections of a transition: its events, `tail` being what HCTL offers
after them, then the reports (R26, R27, R140). -/
def State.conclude (after before : State) (p : Party) (by_ : Option Link) (call : List Event) (tail : List Offer) :
    State :=
  (after.offerAll (transitionOffers before after p by_ call ++ tail)).reportTransition before p

/-! ### Transitions that several commands make -/

/-- Entry to VACANT with the given events (R17, R19, R20, R23). -/
def State.toVacant (s : State) (p : Party) (call : State → State → List Event) : State :=
  let after := s.enter p .vacant
  after.conclude s p none (call s after) []

/-- Entry to FAULT (R24): the cause of PARTY_FAULT, after LOOP_ENDED where a loop test ends (R20). -/
def State.toFault (s : State) (p : Party) (cause : Nat) : State :=
  let after := s.enter p .fault
  let ended := if (s.party p).state = .looptest then [loopEndedEvent after p (meaningCode .fault)] else []
  after.conclude s p none (ended ++ [faultEvent s after p cause]) []

/-- Entry to ALERTING: alert count 1, ALERT, and the re-alert timer started for TALR (R29), after LOOP_ENDED where a
loop test ends (R20). -/
def State.toAlerting (s : State) (p : Party) : State :=
  let after := (s.enter p .alerting).modParty p fun r =>
    { r with alertCount := 1, realert := some (s.times.talr * 1000) }
  let ended := if (s.party p).state = .looptest then [loopEndedEvent after p (meaningCode .seize)] else []
  after.conclude s p none (ended ++ [alertEvent after p]) []

/-- Entry to PARKED with an owner, at a request of link `k`: the park timer starts for TPRK with reminder count 0
(R10, R14, R15, R136). -/
def State.toParked (s : State) (p : Party) (k : Link) : State :=
  let after := (s.enter p .parked).modParty p fun r => { r with park := some s.parkTime, reminders := 0 }
  after.conclude s p (some k) [stateEvent s after p] []

/-- Entry to ON_AIR from the queue of studio `x`, onto slot `n` at 0.0 dB, at a request of link `k` (R12, R66). -/
def State.toAir (s : State) (p : Party) (n : AirSlot) (k : Link) : State :=
  let after := (s.enter p .onAir).setSlot n (some { party := p, gain := .half 0 })
  after.conclude s p (some k) [stateEvent s after p] []

/-- The failure of a line-side port reaches party `p` (R25). -/
def State.portFailure (s : State) (p : Party) : State :=
  match (s.party p).state with
  | .alerting | .screening | .parked | .queued | .onAir | .clearing => s.toFault p Cause.port
  | .looptest => s.toVacant p fun _ after => [loopEndedEvent after p Cause.port]
  | .vacant | .fault => s

end Sys2Proof.Machine
end

