-- ==== Sys2Proof/Machine/HandoverOps.lean ====
section
/-! DEFINITION. Transfers, the ends of pending handovers and orphaning (07_ownership_and_handover.md). -/

namespace Sys2Proof.Machine

/-- The owner, the lock, the group and the park timer of a transfer of party `p` to link `r` (R131); a handover that
was pending is gone (R124). -/
def State.transferTo (s : State) (p : Party) (r : Link) : State :=
  (s.ungroup p).modParty p fun rec =>
    { rec with
      owner := some r, lock := false, handover := none,
      park := if rec.state = .parked then some s.parkTime else rec.park,
      reminders := if rec.state = .parked then 0 else rec.reminders }

/-- OWNER_CHANGED: the new owner, the old owner in value 1, the cause in value 2 and the group left; to every link with
VIEW on the party, the new owner and the old owner (R131, R139). -/
def ownerOffer (before after : State) (p : Party) (r : Link) (cause : Nat) : Offer :=
  { event := { partyEvent .ownerChanged p with
      link := some r, group := groupLeft before after p,
      value1 := some (linkValue (before.party p).owner), value2 := some cause },
    receives := fun k => after.views k p || k == r || (before.party p).owner == some k }

/-- OVERRIDDEN, to the old owner (R134, R139). -/
def overriddenOffer (before : State) (p : Party) (r : Link) : Offer :=
  { event := { partyEvent .overridden p with
      link := some r, value1 := some (stateCode (before.party p).state) },
    receives := fun k => (before.party p).owner == some k }

/-- TAKE_ASKED, to the owner: the requester, TGIV in seconds and the party's state (R123, R139). -/
def askedOffer (s : State) (p : Party) (r : Link) : Offer :=
  { event := { partyEvent .takeAsked p with
      link := some r, value1 := some s.times.tgiv, value2 := some (stateCode (s.party p).state) },
    receives := fun k => (s.party p).owner == some k }

/-- RMIX takes the owner change of a SCREENING party and its leaving of its group; a transfer in any other state
changes no target (R119, R82, R50). -/
def State.reportTransfer (s before : State) (p : Party) : State :=
  if (before.party p).state = .screening then
    (s.reportFeeds (allParties.filter fun q =>
      q == p || ((before.groupOf p).isSome && before.groupOf q == before.groupOf p))).retargetCues
  else s

/-- A transfer of party `p` to link `r`, with its events in the order of R131: `first`, OWNER_CHANGED, `last`. -/
def State.passTo (s : State) (p : Party) (r : Link) (cause : Nat) (first last : List Offer) : State :=
  let after := s.transferTo p r
  (after.offerAll (first ++ [ownerOffer s after p r cause] ++ last)).reportTransfer s p

/-- A pending handover removed, with TAKE_RESULT, the owner staying (R124). -/
def State.endHandover (s : State) (p : Party) (outcome : Nat) : State :=
  match (s.party p).handover with
  | some h =>
    (s.modParty p fun rec => { rec with handover := none }).offerAll
      [resultOffer p h.requester (s.party p).owner (s.party p).owner outcome]
  | none => s

/-- A pending handover removed at the LRST of its requester: TAKE_RESULT CANCELLED goes to the owner alone (R130). -/
def State.cancelHandover (s : State) (p : Party) : State :=
  match (s.party p).handover with
  | some h =>
    (s.modParty p fun rec => { rec with handover := none }).offerAll
      [{ event := (resultOffer p h.requester none (s.party p).owner Result.cancelled).event,
         receives := fun k => (s.party p).owner == some k }]
  | none => s

/-- Whether the requester of the pending handover still holds CONTROL (R129). -/
def State.recheck (s : State) (p : Party) : Bool :=
  match (s.party p).handover with
  | some h => s.controls h.requester p
  | none => false

/-- The end of a pending handover that passes ownership, subject to the recheck: where it fails, the outcome is
DENIED_REGION and the party stays (R124, R129). -/
def State.grantHandover (s : State) (p : Party) (outcome cause : Nat) : State :=
  match (s.party p).handover with
  | some h =>
    if s.controls h.requester p then
      s.passTo p h.requester cause [resultOffer p h.requester (s.party p).owner (some h.requester) outcome] []
    else s.endHandover p Result.deniedRegion
  | none => s

/-- Orphaning: owner absent, lock no, park timer stopped; ORPHANED to every link with VIEW on the party and to the
former owner (R138). -/
def State.orphan (s : State) (p : Party) (cause : Nat) : State :=
  let r0 := s.party p
  (s.setParty p { r0 with owner := none, lock := false, park := none }).offerAll
    [{ event := { partyEvent .orphaned p with
        link := r0.owner, value1 := some r0.reminders, value2 := some cause },
       receives := fun k => s.views k p || r0.owner == some k }]

end Sys2Proof.Machine
end

