-- ==== Sys2Proof/Machine/CallRequests.lean ====
section
/-! DEFINITION. The call requests of chapter 1: ANSR, PARK, QUEU, AIRP, NEXT, OFFA, UNQU, RLSE, LOOP, LEND, PRST and
SKND. `ask…` checks a request and acts on it whole (R7); `exec…` adds the response. -/

namespace Sys2Proof.Machine

/-- An accepted request of link `k` that names party `p`, with its data (R7). One that takes a PARKED party to another state
is reported to HCTL before the party leaves, its timer then stopping with reminder count 0: QUEU and RLSE (R136), and by the
model's choice PRST (log entry 51). -/
def acceptNaming (s : State) (k : Link) (p : Party) (data : List Byte) : Answer := accept (s.ownerNamed k p) data

/-! ### ANSR -/

/-- R9: SCREENING, owned by the answering link, both counters 0, in no group; ANSWERED names the link. -/
def State.answer (s : State) (p : Party) (k : Link) : State :=
  let after := (s.enter p .screening).modParty p fun r =>
    { r with owner := some k, lock := false, callSeconds := 0, airSeconds := 0 }
  after.conclude s p none [{ partyEvent .answered p with link := some k }] []

def askAnsr (k : Link) (party : Byte) (s : State) : Answer :=
  match partyArg party with
  | none => refuse s .badArgument
  | some p =>
    if !s.controls k p then refuse s .deniedRegion
    else match (s.party p).state with
      | .alerting => acceptNaming (s.answer p k) k p []
      | .screening | .parked | .queued | .onAir | .clearing => refuse s .alreadyAnswered
      | .vacant | .looptest | .fault => refuse s .wrongState

/-- ANSR (R9). -/
def execAnsr (k : Link) (tag party : Byte) (s : State) : Host.Outcome State Fault Refusal :=
  .next ((askAnsr k party s).deliver k tag 0x01)

/-! ### PARK -/

def askPark (k : Link) (party : Byte) (s : State) : Answer :=
  match partyArg party with
  | none => refuse s .badArgument
  | some p =>
    if !s.controls k p then refuse s .deniedRegion
    else match (s.party p).state with
      | .screening | .queued | .onAir =>
        if !s.owns k p then refuse s .notOwner else acceptNaming (s.toParked p k) k p []
      | .vacant | .alerting | .parked | .clearing | .looptest | .fault => refuse s .wrongState

/-- PARK (R10). -/
def execPark (k : Link) (tag party : Byte) (s : State) : Host.Outcome State Fault Refusal :=
  .next ((askPark k party s).deliver k tag 0x02)

/-! ### QUEU -/

/-- R11, R60: QUEUED at the tail of the queue of `x`; an orphan becomes the queuing link's, and OWNER_CHANGED follows
the other events. -/
def State.toQueue (s : State) (p : Party) (x : Studio) (k : Link) : State :=
  let orphaned := (s.party p).owner.isNone
  let entered := (s.enter p .queued).modParty p fun r =>
    { r with owner := if orphaned then some k else r.owner, lock := if orphaned then false else r.lock }
  let after := entered.setQueue x (entered.queue x ++ [p])
  after.conclude s p (some k) [stateEvent s after p]
    (if orphaned then [ownerOffer s after p k Cause.queued] else [])

def askQueu (k : Link) (party studio : Byte) (s : State) : Answer :=
  match partyArg party, studioArg studio with
  | some p, some x =>
    if !(s.controlsStudio k x && (s.owns k p || s.controls k p)) then refuse s .deniedRegion
    else match (s.party p).state with
      | .screening | .parked =>
        if Config.readyRoom ≤ (s.queue x).length then refuse s .queueFull
        else accept ((s.ownerNamed k p).toQueue p x k) [byte ((s.queue x).length + 1)]
      | .vacant | .alerting | .queued | .onAir | .clearing | .looptest | .fault => refuse s .wrongState
  | _, _ => refuse s .badArgument

/-- QUEU (R11). -/
def execQueu (k : Link) (tag party studio : Byte) (s : State) : Host.Outcome State Fault Refusal :=
  .next ((askQueu k party studio s).deliver k tag 0x03)

/-! ### AIRP and NEXT -/

/-- The free slot that a QUEUED party would take: the lowest of the studio whose queue holds it (R12, R65). -/
def State.slotFor (s : State) (p : Party) : Option AirSlot :=
  match s.queueOf p with
  | some x => s.freeSlot x
  | none => none

def askAirp (k : Link) (party : Byte) (s : State) : Answer :=
  match partyArg party with
  | none => refuse s .badArgument
  | some p =>
    if !s.controlsItsStudio k p then refuse s .deniedRegion
    else if (s.party p).state ≠ .queued then refuse s .wrongState
    else match s.slotFor p with
      | none => refuse s .noAirSlot
      | some n => acceptNaming (s.toAir p n k) k p [byte n.val]

/-- AIRP (R12). -/
def execAirp (k : Link) (tag party : Byte) (s : State) : Host.Outcome State Fault Refusal :=
  .next ((askAirp k party s).deliver k tag 0x04)

def askNext (k : Link) (studio : Byte) (s : State) : Answer :=
  match studioArg studio with
  | none => refuse s .badArgument
  | some x =>
    if !s.controlsStudio k x then refuse s .deniedRegion
    else match s.queue x with
      | [] => refuse s .wrongState
      | p :: _ =>
        match s.freeSlot x with
        | none => refuse s .noAirSlot
        | some n => accept (s.toAir p n k) [byte p.val, byte n.val]

/-- NEXT (R13). -/
def execNext (k : Link) (tag studio : Byte) (s : State) : Host.Outcome State Fault Refusal :=
  .next ((askNext k studio s).deliver k tag 0x05)

/-! ### OFFA and UNQU -/

def askOffa (k : Link) (party : Byte) (s : State) : Answer :=
  match partyArg party with
  | none => refuse s .badArgument
  | some p =>
    if !(s.owns k p || s.controlsItsStudio k p) then refuse s .deniedRegion
    else if (s.party p).state ≠ .onAir then refuse s .wrongState
    else acceptNaming (s.toParked p k) k p []

/-- OFFA (R14, R59). -/
def execOffa (k : Link) (tag party : Byte) (s : State) : Host.Outcome State Fault Refusal :=
  .next ((askOffa k party s).deliver k tag 0x06)

def askUnqu (k : Link) (party : Byte) (s : State) : Answer :=
  match partyArg party with
  | none => refuse s .badArgument
  | some p =>
    if !(s.owns k p || s.controlsItsStudio k p) then refuse s .deniedRegion
    else if (s.party p).state ≠ .queued then refuse s .wrongState
    else acceptNaming (s.toParked p k) k p []

/-- UNQU (R15, R59). -/
def execUnqu (k : Link) (tag party : Byte) (s : State) : Host.Outcome State Fault Refusal :=
  .next ((askUnqu k party s).deliver k tag 0x07)

/-! ### RLSE -/

/-- R16: CLEARING with its owner kept, signal-out CLEAR and the clear timer started for TCLR. -/
def State.release (s : State) (p : Party) (k : Link) : State :=
  let after := (s.enter p .clearing).modParty p fun r => { r with clear := some Config.tclr }
  after.conclude s p (some k) [stateEvent s after p] []

def askRlse (k : Link) (party : Byte) (s : State) : Answer :=
  match partyArg party with
  | none => refuse s .badArgument
  | some p =>
    if !s.controls k p then refuse s .deniedRegion
    else if !(s.party p).state.answered then refuse s .wrongState
    else if !s.owns k p then refuse s .notOwner
    else accept ((s.ownerNamed k p).release p k) []

/-- RLSE (R16). -/
def execRlse (k : Link) (tag party : Byte) (s : State) : Host.Outcome State Fault Refusal :=
  .next ((askRlse k party s).deliver k tag 0x09)

/-! ### LOOP and LEND -/

/-- R18: LOOPTEST, owned by the requesting link, on the named source; a clear period ends. -/
def State.startLoop (s : State) (p : Party) (src : Source) (k : Link) : State :=
  let after := (s.enter p .looptest).modParty p fun r =>
    { r with owner := some k, lock := false, loopSource := some src }
  after.conclude s p (some k) [stateEvent s after p] []

def askLoop (k : Link) (party source : Byte) (s : State) : Answer :=
  match partyArg party, sourceArg source with
  | some p, some src =>
    if !s.controls k p then refuse s .deniedRegion
    else if !((s.party p).state == .vacant && s.inService p) then refuse s .wrongState
    else acceptNaming (s.startLoop p src k) k p []
  | _, _ => refuse s .badArgument

/-- LOOP (R18). -/
def execLoop (k : Link) (tag party source : Byte) (s : State) : Host.Outcome State Fault Refusal :=
  .next ((askLoop k party source s).deliver k tag 0x0A)

def askLend (k : Link) (party : Byte) (s : State) : Answer :=
  match partyArg party with
  | none => refuse s .badArgument
  | some p =>
    if (s.party p).state ≠ .looptest then refuse s .wrongState
    else if !s.owns k p then refuse s .notOwner
    else acceptNaming (s.toVacant p fun _ after => [loopEndedEvent after p Cause.lend]) k p []

/-- LEND (R19). -/
def execLend (k : Link) (tag party : Byte) (s : State) : Host.Outcome State Fault Refusal :=
  .next ((askLend k party s).deliver k tag 0x0B)

/-! ### PRST -/

/-- The event of a party reset, by the state left (R21). -/
def resetEvents (before after : State) (p : Party) : List Event :=
  match (before.party p).state with
  | .screening | .parked | .queued | .onAir | .clearing => [clearedEvent before after p 3]
  | .alerting | .fault => [stateEvent before after p]
  | .looptest => [loopEndedEvent after p Cause.reset]
  | .vacant => []

/-- R21: VACANT with the clear period started: signal-out CLEAR while the clear timer runs, out of service too (log entry
55). -/
def State.partyReset (s : State) (p : Party) : State :=
  let after := (s.enter p .vacant).modParty p fun r => { r with signalOut := .clear, clear := some Config.tclr }
  after.conclude s p none (resetEvents s after p) []

/-- R21. Where the supervisor owns the party and its park timer runs, the reminder count is 0 (log entry 51). -/
def askPrst (k : Link) (party : Byte) (s : State) : Answer :=
  match partyArg party with
  | none => refuse s .badArgument
  | some p =>
    if k ≠ s.supervisor then refuse s .notSupervisor
    else if !s.controls k p then refuse s .deniedRegion
    else accept ((s.ownerNamed k p).partyReset p) []

/-- PRST (R21). -/
def execPrst (k : Link) (tag party : Byte) (s : State) : Host.Outcome State Fault Refusal :=
  .next ((askPrst k party s).deliver k tag 0x0C)

/-! ### SKND -/

/-- R4, R39: the kind written and the match count restarted. -/
def State.setKind (s : State) (p : Party) (kd : Kind) : State :=
  (s.modParty p fun r => { r with kind := kd }).setMonitor p { s.monitor p with matchCount := 0 }

def askSknd (k : Link) (party kind : Byte) (s : State) : Answer :=
  match partyArg party, kindArg kind with
  | some p, some kd =>
    if k ≠ s.supervisor then refuse s .notSupervisor
    else if !s.controls k p then refuse s .deniedRegion
    else if (s.party p).state ≠ .vacant then refuse s .wrongState
    else acceptNaming (s.setKind p kd) k p []
  | _, _ => refuse s .badArgument

/-- SKND (R4). -/
def execSknd (k : Link) (tag party kind : Byte) (s : State) : Host.Outcome State Fault Refusal :=
  .next ((askSknd k party kind s).deliver k tag 0x0D)

end Sys2Proof.Machine
end

