-- ==== Sys2Proof/Machine/Monitor.lean ====
section
/-! DEFINITION. The line signalling monitor (02_line_signalling_monitor.md): matching, counting, qualification, and
what a change of a port's sync state or of a slot does to the monitor records. -/

namespace Sys2Proof.Machine

def allPatterns : List (Fin 6) := upTo 6

/-- The applies-to field of an entry takes in a kind (R31, R33). -/
def AppliesTo.takes : AppliesTo → Kind → Bool
  | .both, _ => true
  | .line, .line => true
  | .codec, .codec => true
  | .line, .codec => false
  | .codec, .line => false

/-- A valid entry that applies to the party's kind (R33). -/
def Pattern.considered (e : Pattern) (kd : Kind) : Bool := e.valid && e.appliesTo.takes kd

/-- The word and the key agree on every bit that the mask selects (R33). -/
def Pattern.agrees (e : Pattern) (w : Byte) : Bool := (w &&& e.mask) == (e.key &&& e.mask)

/-- The deciding entry of a word: the lowest index among those that it matches (R33). -/
def State.deciding (s : State) (kd : Kind) (w : Byte) : Option Pattern :=
  (s.smon.patterns.toList).find? fun e => e.considered kd && e.agrees w

/-- The count of R35. -/
def Monitor.counted (m : Monitor) (candidate : Option Meaning) : Monitor :=
  if m.candidate = candidate then { m with matchCount := min 255 (m.matchCount + 1) }
  else { m with candidate := candidate, matchCount := 1 }

/-- The decision of R36 after the count; `true` where the meaning is reported. -/
def Monitor.decided (m : Monitor) (entry : Option Pattern) : Monitor × Bool :=
  match m.candidate, entry with
  | none, _ => ({ m with qualified := none }, false)
  | some c, some e =>
    if e.count ≤ m.matchCount ∧ m.qualified ≠ some c then ({ m with qualified := some c }, true) else (m, false)
  | some _, none => (m, false)

/-- A report handed to CALL, to be taken as a claim of its own (R37); it waits behind those that wait (log entry 52). -/
def State.report (s : State) (p : Party) (m : Meaning) : State :=
  { s with smon := { s.smon with reports := s.smon.reports ++ [{ party := p, meaning := m }] } }

/-- One monitored frame of a party (R33 to R36). -/
def State.monitorWord (s : State) (p : Party) (w : Byte) : State :=
  let entry := s.deciding (s.party p).kind w
  let d := ((s.monitor p).counted (entry.map fun e => e.meaning)).decided entry
  let s' := s.setMonitor p d.1
  match d.2, d.1.qualified with
  | true, some c => s'.report p c
  | _, _ => s'

/-- The monitor records of a port's parties changed (R40). -/
def State.monitors (s : State) (x : PortId) (f : Monitor → Monitor) : State :=
  { s with smon := { s.smon with
      monitors := tab fun p => if portOf p == x then f (s.monitor p) else s.monitor p } }

/-- R40, entry to GRACE: the qualified meaning is held. -/
def Monitor.held (m : Monitor) : Monitor := { m with candidate := none, matchCount := 0 }

/-- R40, LOCKED from GRACE: the count restarts. -/
def Monitor.restarted (m : Monitor) : Monitor := { m with matchCount := 0 }

end Sys2Proof.Machine
end

