-- ==== Sys2Proof/Machine/GroupRequests.lean ====
section
/-! DEFINITION. JOIN and LEAV of chapter 3, and LSTN of chapters 3 and 5. -/

namespace Sys2Proof.Machine

/-- The parties of a group and of the group that a party stands in: those whose returns a move concerns (R50). -/
def State.groupMates (s : State) (p : Party) (g : Group) : List Party :=
  allParties.filter fun q =>
    q == p || s.groupOf q == some g || ((s.groupOf p).isSome && s.groupOf q == s.groupOf p)

/-- A party at the tail of a group, out of any other in the same change (R46). -/
def State.moveToGroup (s : State) (p : Party) (g : Group) (k : Link) : State :=
  let out := s.ungroup p
  let moved := { out with conf := put out.conf g ((out.group g).withTail p k) }
  (moved.reportFeeds (s.groupMates p g)).retargetCues

/-- The data of an accepted JOIN: the group, the party's position, the member count, the members in joining order,
and the group left (R46; log entry 17). -/
def joinData (s : State) (p : Party) (g : Group) (leftGroup : Nat) : List Byte :=
  [byte (groupCode g), byte ((s.group g).members.idxOf p + 1), byte (s.group g).members.length]
    ++ (s.group g).members.map (fun q => byte q.val) ++ [byte leftGroup]

def askJoin (k : Link) (party group : Byte) (s : State) : Answer :=
  match partyArg party, groupArg group with
  | some p, some g =>
    if !s.controls k p then refuse s .deniedRegion
    else if (s.party p).state ≠ .screening then refuse s .wrongState
    else if !s.owns k p then refuse s .notOwner
    else if !((s.group g).members.isEmpty || (s.group g).owner == some k) then refuse s .notOwner
    else if (s.group g).members.contains p then acceptNaming s k p (joinData s p g 0)
    else if Config.groupRoom ≤ (s.group g).members.length then refuse s .groupFull
    else
      let s' := s.moveToGroup p g k
      acceptNaming s' k p (joinData s' p g (match s.groupOf p with | some old => groupCode old | none => 0))
  | _, _ => refuse s .badArgument

/-- JOIN (R45, R46). -/
def execJoin (k : Link) (tag party group : Byte) (s : State) : Host.Outcome State Fault Refusal :=
  .next ((askJoin k party group s).deliver k tag 0x10)

/-- A party out of its group `g`, staying SCREENING (R47). -/
def State.leaveGroup (s : State) (p : Party) (g : Group) : State :=
  ((s.ungroup p).reportFeeds (s.groupMates p g)).retargetCues

def askLeav (k : Link) (party : Byte) (s : State) : Answer :=
  match partyArg party with
  | none => refuse s .badArgument
  | some p =>
    if !s.controls k p then refuse s .deniedRegion
    else if (s.party p).state ≠ .screening then refuse s .wrongState
    else match s.groupOf p with
      | none => refuse s .wrongState
      | some g =>
        if !s.owns k p then refuse s .notOwner
        else
          let s' := s.leaveGroup p g
          acceptNaming s' k p [byte (groupCode g), byte (s'.group g).members.length]

/-- LEAV (R47). -/
def execLeav (k : Link) (tag party : Byte) (s : State) : Host.Outcome State Fault Refusal :=
  .next ((askLeav k party s).deliver k tag 0x11)

/-! ### LSTN -/

/-- LSTN INPUT or RETURN of a party (R97). -/
def askListen (k : Link) (member : Byte) (sel : Party → Selection) (s : State) : Answer :=
  match partyArg member with
  | none => refuse s .badArgument
  | some p =>
    if !s.mayRead k p then refuse s .deniedRegion
    else acceptNaming (s.select k (some (sel p))) k p []

/-- LSTN: INPUT 0, RETURN 1, GROUP 2, OFF 3 with member FFh (R52, R97, 11.5, 11.8; log entry 18). -/
def askLstn (k : Link) (selection member : Byte) (s : State) : Answer :=
  if selection = 0 then askListen k member Selection.input s
  else if selection = 1 then askListen k member Selection.ret s
  else if selection = 2 then
    match groupArg member with
    | some g => accept (s.select k (some (.group g))) []
    | none => refuse s .badArgument
  else if selection = 3 ∧ member = 0xFF then accept (s.select k none) []
  else refuse s .badArgument

/-- LSTN (R52, R97). -/
def execLstn (k : Link) (tag selection member : Byte) (s : State) : Host.Outcome State Fault Refusal :=
  .next ((askLstn k selection member s).deliver k tag 0x12)

end Sys2Proof.Machine
end

