-- ==== Sys2Proof/Machine/StudioRequests.lean ====
section
/-! DEFINITION. The studio requests of chapter 4 that make no party transition: MOVE, GAIN, SSRC, SPLT and SFLR. -/

namespace Sys2Proof.Machine

/-! ### MOVE -/

/-- A party put at a position of its queue, the tail where the position lies beyond the count (R61). -/
def moveIn (q : List Party) (p : Party) (position : Nat) : List Party :=
  (q.filter (· != p)).take (position - 1) ++ p :: (q.filter (· != p)).drop (position - 1)

/-- R61: the queue rewritten; QUEUE_CHANGED with cause MOVED where the party's place changed. -/
def State.moveQueued (s : State) (p : Party) (x : Studio) (position : Nat) (k : Link) : State :=
  let s' := s.setQueue x (moveIn (s.queue x) p position)
  if s'.positionOf p = s.positionOf p then s
  else s'.offerAll [studioOffer s s' p x (queueEvent x p (some k) Cause.moved ((s'.positionOf p).getD 0))]

def askMove (k : Link) (party position : Byte) (s : State) : Answer :=
  match partyArg party, rangeArg 1 255 position with
  | some p, some n =>
    if !s.controlsItsStudio k p then refuse s .deniedRegion
    else if (s.party p).state ≠ .queued then refuse s .wrongState
    else match s.queueOf p with
      | none => refuse s .wrongState
      | some x =>
        let s' := s.moveQueued p x n k
        acceptNaming s' k p [byte ((s'.positionOf p).getD 0)]
  | _, _ => refuse s .badArgument

/-- MOVE (R61). -/
def execMove (k : Link) (tag party position : Byte) (s : State) : Host.Outcome State Fault Refusal :=
  .next ((askMove k party position s).deliver k tag 0x08)

/-! ### GAIN -/

/-- The parties that hear a studio's mix: those QUEUED or ON_AIR in it (R71, R85). -/
def State.hearers (s : State) (x : Studio) : List Party :=
  allParties.filter fun q =>
    ((s.party q).state == .queued || (s.party q).state == .onAir) && s.studioOf q == some x

/-- A source's air gain in a studio written. -/
def SourceRec.withGain (r : SourceRec) (x : Studio) (g : Gain) : SourceRec :=
  match x with
  | .a => { r with gainA := g }
  | .b => { r with gainB := g }

/-- R70, R71: a member source's air gain set; the studio's mix changes in the returns that hear it. A gain in force
is left as it is. -/
def State.gainSource (s : State) (x : Studio) (n : Source) (g : Gain) : State :=
  if (s.source n).gainIn x = g then s
  else (s.setSource n ((s.source n).withGain x g)).reportFeeds (s.hearers x)

/-- R70, R71: an on-air party's air gain set; the other parties of the studio hear the change. -/
def State.gainParty (s : State) (x : Studio) (p : Party) (n : AirSlot) (g : Gain) : State :=
  if s.airGainOf p = some g then s
  else (s.setSlot n (some { party := p, gain := g })).reportFeeds ((s.hearers x).filter (· != p))

/-- GAIN of a source (R70). -/
def askGainSource (k : Link) (x : Studio) (n : Source) (g : Gain) (s : State) : Answer :=
  if !s.controlsStudio k x then refuse s .deniedRegion
  else if !(s.source n).inStudio x then refuse s .wrongState
  else accept (s.gainSource x n g) [byte (gainCode g)]

/-- GAIN of a party (R70). -/
def askGainParty (k : Link) (x : Studio) (p : Party) (g : Gain) (s : State) : Answer :=
  if !s.controlsStudio k x then refuse s .deniedRegion
  else if (s.party p).state ≠ .onAir then refuse s .wrongState
  else match s.slotOf p with
    | none => refuse s .wrongState
    | some n =>
      if s.studioOfSlot n ≠ x then refuse s .wrongState
      else acceptNaming (s.gainParty x p n g) k p [byte (gainCode g)]

/-- Contribution SOURCE 0 or PARTY 1 (11.5). -/
def askGain (k : Link) (studio contribution number code : Byte) (s : State) : Answer :=
  match studioArg studio, gainArg code with
  | some x, some g =>
    if contribution = 0 then
      match sourceArg number with
      | some n => askGainSource k x n g s
      | none => refuse s .badArgument
    else if contribution = 1 then
      match partyArg number with
      | some p => askGainParty k x p g s
      | none => refuse s .badArgument
    else refuse s .badArgument
  | _, _ => refuse s .badArgument

/-- GAIN (R70). -/
def execGain (k : Link) (tag studio contribution number code : Byte) (s : State) :
    Host.Outcome State Fault Refusal :=
  .next ((askGain k studio contribution number code s).deliver k tag 0x13)

/-! ### SSRC -/

/-- R55: the membership set, the two air gains kept; the returns of each studio whose membership changed follow. -/
def State.setMembership (s : State) (n : Source) (inA inB : Bool) : State :=
  let r := s.source n
  let s' := s.setSource n { r with inA := inA, inB := inB }
  s'.reportFeeds
    ((if r.inA = inA then [] else s.hearers .a) ++ (if r.inB = inB then [] else s.hearers .b))

def askSsrc (k : Link) (source membership : Byte) (s : State) : Answer :=
  match sourceArg source, membershipArg membership with
  | some n, some (inA, inB) =>
    let r := s.source n
    if k ≠ s.supervisor then refuse s .notSupervisor
    else if !((r.inA == inA || s.controlsStudio k .a) && (r.inB == inB || s.controlsStudio k .b)) then
      refuse s .deniedRegion
    else accept (s.setMembership n inA inB) []
  | _, _ => refuse s .badArgument

/-- SSRC (R55). -/
def execSsrc (k : Link) (tag source membership : Byte) (s : State) : Host.Outcome State Fault Refusal :=
  .next ((askSsrc k source membership s).deliver k tag 0x31)

/-! ### SPLT -/

/-- R56: the split set; no queue and no return changes. -/
def State.setSplit (s : State) (n : Nat) : State := { s with stud := { s.stud with split := n } }

def askSplt (k : Link) (split : Byte) (s : State) : Answer :=
  match rangeArg 0 8 split with
  | none => refuse s .badArgument
  | some n =>
    if k ≠ s.supervisor then refuse s .notSupervisor
    else if !(s.controlsStudio k .a && s.controlsStudio k .b) then refuse s .deniedRegion
    else if allParties.any fun p => (s.party p).state == .onAir then refuse s .wrongState
    else accept (s.setSplit n) []

/-- SPLT (R56). -/
def execSplt (k : Link) (tag split : Byte) (s : State) : Host.Outcome State Fault Refusal :=
  .next ((askSplt k split s).deliver k tag 0x33)

/-! ### SFLR -/

def State.setFloor (s : State) (x : Studio) (n : Nat) : State :=
  match x with
  | .a => { s with stud := { s.stud with floorA := n } }
  | .b => { s with stud := { s.stud with floorB := n } }

/-- R57, R115: the floor set; TARB works out afresh the active entry of each on-air party of the studio, in ascending
number. -/
def State.applyFloor (s : State) (x : Studio) (n : Nat) : State :=
  (allParties.filter fun p => (s.party p).state == .onAir && s.studioOf p == some x).foldl
    (fun t p => t.reworkActive s p none) (s.setFloor x n)

def askSflr (k : Link) (studio floor : Byte) (s : State) : Answer :=
  match studioArg studio, rangeArg 0 8 floor with
  | some x, some n =>
    if k ≠ s.supervisor then refuse s .notSupervisor
    else if !s.controlsStudio k x then refuse s .deniedRegion
    else accept (s.applyFloor x n) []
  | _, _ => refuse s .badArgument

/-- SFLR (R57). -/
def execSflr (k : Link) (tag studio floor : Byte) (s : State) : Host.Outcome State Fault Refusal :=
  .next ((askSflr k studio floor s).deliver k tag 0x34)

end Sys2Proof.Machine
end

