-- ==== Sys2Proof/Machine/TalkRequests.lean ====
section
/-! DEFINITION. The talkback requests of chapter 6: TALK, TEND and STLK. -/

namespace Sys2Proof.Machine

/-! ### Targets -/

/-- The target of a TALK or TEND (R108). -/
inductive TalkTarget where
  | party (p : Party)
  | group (g : Group)
  | air (x : Studio)
  | ready (x : Studio)
  | owned
deriving DecidableEq, Repr

/-- Scope PARTY 0, GROUP 1, AIR 2, READY 3, OWNED 4 with its member (11.5, 11.8). -/
def targetArg (scope member : Byte) : Option TalkTarget :=
  if scope = 0 then (partyArg member).map .party
  else if scope = 1 then (groupArg member).map .group
  else if scope = 2 then (studioArg member).map .air
  else if scope = 3 then (studioArg member).map .ready
  else if scope = 4 ∧ member = 0xFF then some .owned
  else none

/-- Whether a party is in the target set (R108). -/
def State.inTarget (s : State) (k : Link) (p : Party) : TalkTarget → Bool
  | .party q => p == q
  | .group g => (s.group g).members.contains p
  | .air x => (s.party p).state == .onAir && s.studioOf p == some x
  | .ready x => (s.party p).state == .queued && s.studioOf p == some x
  | .owned => s.owns k p

/-- The target set, in ascending party number (R108). -/
def State.targetSet (s : State) (k : Link) (t : TalkTarget) : List Party := allParties.filter fun p => s.inTarget k p t

/-! ### TALK -/

/-- Skipped by state (R109). -/
def State.talkSkippedByState (s : State) (p : Party) : Bool := !(s.party p).state.talkable

/-- Neither skipped by state nor by permission (R109). -/
def State.talkReaches (s : State) (k : Link) (p : Party) : Bool :=
  (s.party p).state.talkable && (s.partyPerms k p).talk

/-- An entry made or replaced on one party, with the active entry worked out afresh and the owner's request reported
(R109, R110). -/
def State.makeEntry (s : State) (e : TalkEntry) (p : Party) : State :=
  ((s.setTalkList p (insertEntry e (withoutLink e.link (s.talkList p)))).reworkActive s p (some e.link)).ownerNamed
    e.link p

/-- The entry that a TALK makes: every one of them with the same, latest arrival (R109). -/
def State.newEntry (s : State) (k : Link) (priority : Nat) (depth : Depth) : TalkEntry :=
  { link := k, priority := min priority (s.settings k).maxPriority, depth := depth, arrival := s.tarb.arrivals }

/-- An accepted TALK (R109): the parties it reaches, taken in ascending number. -/
def State.talkTo (s : State) (e : TalkEntry) (ps : List Party) : State :=
  ps.foldl (fun t p => t.makeEntry e p) { s with tarb := { s.tarb with arrivals := s.tarb.arrivals + 1 } }

def sourceByte (x : Option Source) : Byte := optByte (x.map fun n => n.val)

/-- A link's three talk settings, as a response carries them, the priority in one byte (R104, R110; log entry 48). -/
def settingsData (r : TalkSettings) : List Byte :=
  [sourceByte r.source, byte (gainCode r.gain), byte r.maxPriority]

/-- The data of an accepted TALK in the order of R110, the parties a byte each in ascending number (log entry 42). -/
def talkData (before after : State) (k : Link) (set reached : List Party) (e : TalkEntry) : List Byte :=
  [byte set.length, byte reached.length,
    byte (reached.filter fun p => ((after.activeEntry p).map fun a => a.link) == some k).length,
    byte (set.filter fun p => before.talkSkippedByState p).length,
    byte (set.filter fun p => !before.talkSkippedByState p && !before.talkReaches k p).length]
    ++ reached.map (fun p => byte p.val) ++ [byte e.priority] ++ settingsData (before.settings k)

def askTalk (k : Link) (scope member priority depth : Byte) (s : State) : Answer :=
  match targetArg scope member, rangeArg 0 7 priority, depthArg depth with
  | some t, some n, some d =>
    if (s.settings k).source.isNone then refuse s .noTalkSource
    else
      let set := s.targetSet k t
      let reached := set.filter (s.talkReaches k)
      let e := s.newEntry k n d
      let s' := s.talkTo e reached
      accept s' (talkData s s' k set reached e)
  | _, _, _ => refuse s .badArgument

/-- TALK (R108 to R110). -/
def execTalk (k : Link) (tag scope member priority depth : Byte) (s : State) : Host.Outcome State Fault Refusal :=
  .next ((askTalk k scope member priority depth s).deliver k tag 0x18)

/-! ### TEND -/

/-- A link's entry removed from one list, with the active entry worked out afresh (R112, R114). -/
def State.dropEntry (s : State) (k : Link) (p : Party) : State :=
  (s.setTalkList p (withoutLink k (s.talkList p))).reworkActive s p none

/-- Whether a list holds an entry of a link. -/
def State.hasEntry (s : State) (k : Link) (p : Party) : Bool := (s.talkList p).any fun e => e.link == k

/-- An accepted TEND (R112). -/
def State.endTalk (s : State) (k : Link) (ps : List Party) : State :=
  ps.foldl (fun t p => (t.dropEntry k p).ownerNamed k p) s

def askTend (k : Link) (scope member : Byte) (s : State) : Answer :=
  match targetArg scope member with
  | some t =>
    let set := s.targetSet k t
    let held := set.filter (s.hasEntry k)
    accept (s.endTalk k held) [byte set.length, byte held.length]
  | none => refuse s .badArgument

/-- TEND (R112). -/
def execTend (k : Link) (tag scope member : Byte) (s : State) : Host.Outcome State Fault Refusal :=
  .next ((askTend k scope member s).deliver k tag 0x19)

/-! ### STLK -/

def State.setSettings (s : State) (j : Link) (r : TalkSettings) : State :=
  { s with tarb := { s.tarb with settings := put s.tarb.settings j r } }

/-- The returns that hold or need the talk path of a link (R85, R104). -/
def State.talkHolders (s : State) (j : Link) : List Party :=
  allParties.filter fun p =>
    ((s.party p).state == .screening && s.owns j p)
    || ((s.ret p).active.map fun d => d.link) == some j
    || (s.ret p).ingredients.any fun i => i.ident == .talk j

/-- The talk source passes from one source to another (R104). -/
def TalkSettings.passes (old new : TalkSettings) : Bool :=
  old.source.isSome && new.source.isSome && old.source != new.source

/-- R104: the three settings stored; a change of talk source or talk gain is reported to RMIX, and where the source passes
from one to another every talk path of the link dips, one that falls to OFF too. -/
def State.setTalk (s : State) (j : Link) (r : TalkSettings) : State :=
  let s' := s.setSettings j r
  if (s.settings j).source = r.source ∧ (s.settings j).gain = r.gain then s'
  else
    let told := s'.reportFeeds (s.talkHolders j)
    if (s.settings j).passes r then told.dipFalling j r.source else told

def askStlk (k : Link) (link source code priority : Byte) (s : State) : Answer :=
  match linkArg link, sourceOrNoneArg source, gainArg code, rangeArg 0 7 priority with
  | some j, some src, some g, some n =>
    if k ≠ s.supervisor then refuse s .notSupervisor
    else
      let r : TalkSettings := { source := src, gain := g, maxPriority := n }
      accept (s.setTalk j r) (settingsData r)
  | _, _, _, _ => refuse s .badArgument

/-- STLK (R104). -/
def execStlk (k : Link) (tag link source code priority : Byte) (s : State) : Host.Outcome State Fault Refusal :=
  .next ((askStlk k link source code priority s).deliver k tag 0x1A)

end Sys2Proof.Machine
end

