-- ==== Sys2Proof/Machine/ConfigRequests.lean ====
section
/-! DEFINITION. The configuration requests SPRT (chapter 9), SHLD (chapter 5), STIM (chapter 10) and SPAT
(chapter 2). -/

namespace Sys2Proof.Machine

/-! ### SPRT -/

/-- The parties of a port that are not VACANT. -/
def State.busyParties (s : State) (x : PortId) : List Party :=
  (partiesOf x).filter fun p => (s.party p).state != .vacant

/-- Check 3 of R158: a slot whose party is not VACANT would become disabled or change its format. -/
def State.slotsHeld (s : State) (x : PortId) (slots : List SlotSetting) : Bool :=
  (s.busyParties x).any fun p =>
    let old := (s.port x).slot (slotIndexOf p)
    let new := slots.getD (slotIndexOf p) { enable := false, format := .lin24 }
    (old.enable && !new.enable) || old.format != new.format

/-- Check 4 of R158: the port would be disabled with a party not VACANT. -/
def State.portHeld (s : State) (x : PortId) (enable : Bool) : Bool :=
  (s.port x).enable && !enable && !(s.busyParties x).isEmpty

/-- The port record that an accepted SPRT leaves (R159). -/
def PortRec.set (r : PortRec) (enable : Bool) (slots : List SlotSetting) : PortRec :=
  if r.enable = enable then { r with slots := slots }
  else if enable then { r with enable := true, sync := .seeking, aligned := 0, missed := 0, slots := slots }
  else { r with enable := false, sync := .disabled, aligned := 0, missed := 0, grace := none, slots := slots }

/-- Whether an SPRT resets the monitor record of a party: its port enters or leaves DISABLED, or its slot is disabled
(R40, R41, R159). -/
def State.resetsMonitor (s : State) (x : PortId) (enable : Bool) (slots : List SlotSetting) (p : Party) : Bool :=
  let old := (s.port x).slot (slotIndexOf p)
  let new := slots.getD (slotIndexOf p) { enable := false, format := .lin24 }
  (portOf p == x) && (((s.port x).enable != enable) || (old.enable && !new.enable))

def State.monitorsAfter (s : State) (x : PortId) (enable : Bool) (slots : List SlotSetting) : State :=
  { s with smon := { s.smon with
      monitors := tab fun p => if s.resetsMonitor x enable slots p then Monitor.reset else s.monitor p } }

/-- R159. No target of a return depends on a slot (R94), so RMIX's taking of the report changes none. The reports of SMON that
wait are kept (log entry 56). -/
def State.writePort (s : State) (x : PortId) (enable : Bool) (slots : List SlotSetting) : State :=
  (s.monitorsAfter x enable slots).setPort x ((s.port x).set enable slots)

/-- A port record as the SPRT response carries it, in the order of R156 (log entry 16). -/
def portRecordData (r : PortRec) : List Byte :=
  [yesNo r.enable, byte (syncCode r.sync), byte r.aligned, byte r.missed]
    ++ bytes16 (r.grace.getD 0) ++ slotBytes r.slots

/-- SPRT with its arguments in range (R158, checks 2 to 4). -/
def askSprtIn (k : Link) (x : PortId) (enable : Bool) (slots : List SlotSetting) (s : State) : Answer :=
  if k ≠ s.supervisor then refuse s .notSupervisor
  else if s.slotsHeld x slots then refuse s .wrongState
  else if s.portHeld x enable then refuse s .wrongState
  else
    let s' := s.writePort x enable slots
    accept s' (portRecordData (s'.port x))

def askSprt (k : Link) (port enable : Byte) (slots : List Byte) (s : State) : Answer :=
  match portArg port, yesNoArg enable with
  | some x, some e =>
    match slotsArg (slotsOf x) slots with
    | some ss => askSprtIn k x e ss s
    | none => refuse s .badArgument
  | _, _ => refuse s .badArgument

/-- SPRT (R158). -/
def execSprt (k : Link) (tag port enable : Byte) (slots : List Byte) (s : State) :
    Host.Outcome State Fault Refusal :=
  .next ((askSprt k port enable slots s).deliver k tag 0x30)

/-! ### SHLD -/

/-- R83: both values stored, and the return of every PARKED party recomputed. -/
def State.setHold (s : State) (h : Option Source) (g : Gain) : State :=
  if s.rmix.holdSource = h ∧ s.rmix.holdGain = g then s
  else State.reportFeeds { s with rmix := { s.rmix with holdSource := h, holdGain := g } }
    (allParties.filter fun p => (s.party p).state == .parked)

def askShld (k : Link) (source code : Byte) (s : State) : Answer :=
  match sourceOrNoneArg source, gainArg code with
  | some h, some (.half g) =>
    if k ≠ s.supervisor then refuse s .notSupervisor
    else accept (s.setHold h (.half g)) [sourceByte h, byte (gainCode (.half g))]
  | _, _ => refuse s .badArgument

/-- SHLD (R83). -/
def execShld (k : Link) (tag source code : Byte) (s : State) : Host.Outcome State Fault Refusal :=
  .next ((askShld k source code s).deliver k tag 0x32)

/-! ### STIM -/

/-- The seven values in range (R182). -/
def timesArg (ramp datk drel talr tprk : Word16) (nprk tgiv : Byte) : Option Times :=
  match rangeArg16 0 250 ramp, rangeArg16 0 50 datk, rangeArg16 0 1000 drel, rangeArg16 1 60 talr,
      rangeArg16 5 600 tprk, rangeArg 0 15 nprk, rangeArg 1 30 tgiv with
  | some a, some b, some c, some d, some e, some f, some g =>
    some { ramp := a, datk := b, drel := c, talr := d, tprk := e, nprk := f, tgiv := g }
  | _, _, _, _, _, _, _ => none

/-- The seven values as 11.5 gives them: 12 bytes. -/
def timesData (t : Times) : List Byte :=
  bytes16 t.ramp ++ bytes16 t.datk ++ bytes16 t.drel ++ bytes16 t.talr ++ bytes16 t.tprk ++ [byte t.nprk, byte t.tgiv]

def askStim (k : Link) (ramp datk drel talr tprk : Word16) (nprk tgiv : Byte) (s : State) : Answer :=
  match timesArg ramp datk drel talr tprk nprk tgiv with
  | none => refuse s .badArgument
  | some t =>
    if k ≠ s.supervisor then refuse s .notSupervisor
    else accept { s with times := t } (timesData t)

/-- STIM (R182). -/
def execStim (k : Link) (tag : Byte) (ramp datk drel talr tprk : Word16) (nprk tgiv : Byte) (s : State) :
    Host.Outcome State Fault Refusal :=
  .next ((askStim k ramp datk drel talr tprk nprk tgiv s).deliver k tag 0x35)

/-! ### SPAT -/

/-- The entry replaced, and every party's match count restarted (R32, R38). -/
def State.writePattern (s : State) (i : Fin 6) (e : Pattern) : State :=
  { s with smon := { s.smon with
      patterns := put s.smon.patterns i e,
      monitors := tab fun p => { s.monitor p with matchCount := 0 } } }

/-- A pattern entry as the response carries it, the qualify count in one byte (R32; log entry 48). -/
def patternData (e : Pattern) : List Byte :=
  [yesNo e.valid, e.key, e.mask, byte (meaningCode e.meaning), byte (appliesToCode e.appliesTo), byte e.count]

def askSpat (k : Link) (index valid key mask meaning appliesTo count : Byte) (s : State) : Answer :=
  match numberArg 6 index, yesNoArg valid, meaningArg meaning, appliesToArg appliesTo, rangeArg 1 255 count with
  | some i, some v, some m, some a, some n =>
    if k ≠ s.supervisor then refuse s .notSupervisor
    else
      let e : Pattern := { valid := v, key := key, mask := mask, meaning := m, appliesTo := a, count := n }
      accept (s.writePattern i e) (patternData e)
  | _, _, _, _, _ => refuse s .badArgument

/-- SPAT (R32, R38). -/
def execSpat (k : Link) (tag index valid key mask meaning appliesTo count : Byte) (s : State) :
    Host.Outcome State Fault Refusal :=
  .next ((askSpat k index valid key mask meaning appliesTo count s).deliver k tag 0x36)

end Sys2Proof.Machine
end

