-- ==== Sys2Proof/Machine/LinkRequests.lean ====
section
/-! DEFINITION. The requests about a link itself (chapter 10): EMSK, FTCH, ATCF, LRST and IDNT. -/

namespace Sys2Proof.Machine

def State.modLink (s : State) (k : Link) (f : LinkRec → LinkRec) : State := s.setLink k (f (s.link k))

/-! ### EMSK -/

/-- R175: the mask, then the SUMMARY records that are due. -/
def LinkRec.remask (l : LinkRec) (c : ClassSet) : LinkRec := LinkRec.summariseAll { l with mask := c }

def askEmsk (k : Link) (mask : Byte) (s : State) : Answer :=
  match maskArg mask with
  | none => refuse s .badArgument
  | some c => accept (s.modLink k fun l => l.remask c) [byte (classSetCode c)]

/-- EMSK (R175). -/
def execEmsk (k : Link) (tag mask : Byte) (s : State) : Host.Outcome State Fault Refusal :=
  .next ((askEmsk k mask s).deliver k tag 0x38)

/-! ### FTCH -/

/-- Steps 1 to 3 of R176 on the link's record. -/
def LinkRec.fetch (l : LinkRec) (n : Nat) : LinkRec :=
  LinkRec.summariseAll { l with events := l.events.drop n, overflow := false }

/-- The number of records in the response, the count left, the overflow flag and the records (R176, 11.4). -/
def fetchData (before after : LinkRec) (n : Nat) : List Byte :=
  [byte (before.events.take n).length, byte after.events.length, yesNo before.overflow]
    ++ (before.events.take n).flatMap Event.bytes

def askFtch (k : Link) (number : Byte) (s : State) : Answer :=
  match rangeArg 1 8 number with
  | none => refuse s .badArgument
  | some n => accept (s.modLink k fun l => l.fetch n) (fetchData (s.link k) ((s.link k).fetch n) n)

/-- FTCH (R176). -/
def execFtch (k : Link) (tag number : Byte) (s : State) : Host.Outcome State Fault Refusal :=
  .next ((askFtch k number s).deliver k tag 0x39)

/-! ### ATCF -/

def askAtcf (k : Link) (enable threshold : Byte) (s : State) : Answer :=
  match yesNoArg enable, rangeArg 1 48 threshold with
  | some e, some n =>
    accept (s.modLink k fun l => { l with attnEnable := e, attnThreshold := n }) [yesNo e, byte n]
  | _, _ => refuse s .badArgument

/-- ATCF (R177). -/
def execAtcf (k : Link) (tag enable threshold : Byte) (s : State) : Host.Outcome State Fault Refusal :=
  .next ((askAtcf k enable threshold s).deliver k tag 0x3A)

/-! ### LRST -/

/-- Steps 1 to 3 of R178: the request buffer, the responses not begun, the event queue with its flags, the mask and
the attention settings. -/
def LinkRec.cleared (l : LinkRec) : LinkRec :=
  { LinkRec.reset with sending := l.sending, away := l.away }

/-- Step 4 of R178: the link's entry off every list that holds one, ascending (R114). -/
def State.dropEntries (s : State) (k : Link) : State :=
  (allParties.filter (s.hasEntry k)).foldl (fun t p => t.dropEntry k p) s

/-- Step 5 of R178: the handovers that the link requested, ascending (R130). -/
def State.cancelHandovers (s : State) (k : Link) : State :=
  (allParties.filter fun p => ((s.party p).handover.map fun h => h.requester) == some k).foldl
    (fun t p => t.cancelHandover p) s

/-- Step 6 of R178: the cue to OFF (R98) and the presence to PRESENT (R135). -/
def State.leaveStation (s : State) (k : Link) : State :=
  (s.select k none).modLink k fun l => { l with away := false }

/-- Steps 1 to 6 of R178. -/
def State.resetLink (s : State) (k : Link) : State :=
  (((s.modLink k LinkRec.cleared).dropEntries k).cancelHandovers k).leaveStation k

/-- R178, the link's number in one byte (log entry 44). -/
def askLrst (k : Link) (s : State) : Answer := accept (s.resetLink k) [byte k.val]

/-- LRST (R178). -/
def execLrst (k : Link) (tag : Byte) (s : State) : Host.Outcome State Fault Refusal :=
  .next ((askLrst k s).deliver k tag 0x3B)

/-! ### IDNT -/

/-- Part code 6A24h, revision 01h, the supervisor link and the requesting link (R179, R184). -/
def askIdnt (k : Link) (s : State) : Answer := accept s [0x6A, 0x24, 0x01, byte s.supervisor.val, byte k.val]

/-- IDNT (R179). -/
def execIdnt (k : Link) (tag : Byte) (s : State) : Host.Outcome State Fault Refusal :=
  .next ((askIdnt k s).deliver k tag 0x3C)

end Sys2Proof.Machine
end

