-- ==== Sys2Proof/Machine/ReadRequests.lean ====
section
/-! DEFINITION. The read requests RDPY, RDQU, RDRT and RDPT, with their layouts (11.6). -/

namespace Sys2Proof.Machine

/-! ### RDPY -/

/-- The party record in the order of R1, with the requester and the time left of a pending handover (R180, 11.6). Absent
items are FFh and FFFFh (R184; log entry 15). -/
def partyData (s : State) (p : Party) : List Byte :=
  let r := s.party p
  [byte (stateCode r.state), byte (kindCode r.kind), yesNo (s.inService p), optByte (r.owner.map fun k => k.val),
    yesNo r.lock, optByte ((s.studioOf p).map studioCode), optByte (s.positionOf p),
    optByte ((s.slotOf p).map fun n => n.val), optByte ((s.airGainOf p).map gainCode),
    optByte ((s.groupOf p).map groupCode), optByte (r.loopSource.map fun n => n.val)]
    ++ bytes16 r.callSeconds ++ bytes16 r.airSeconds
    ++ [byte r.alertCount, optByte (r.handover.map fun h => h.requester.val)]
    ++ optBytes16 (r.handover.map fun h => h.left)
    ++ [byte r.reminders, byte (signalCode r.signalOut)]

/-- The monitor record; its signal-out is the party record's (R30, 11.6). -/
def monitorData (m : Monitor) : List Byte :=
  [byte (optMeaningCode m.candidate), byte m.matchCount, byte (optMeaningCode m.qualified)]

/-- The list count, and per entry the link, the priority, and the duck depth with the standing (11.6). -/
def talkListData (s : State) (p : Party) : List Byte :=
  byte (s.talkList p).length
    :: (s.talkList p).flatMap fun e =>
      [byte e.link.val, byte e.priority, byte (depthCode e.depth + 4 * standingCode (s.standing p e))]

def askRdpy (k : Link) (party : Byte) (s : State) : Answer :=
  match partyArg party with
  | none => refuse s .badArgument
  | some p =>
    if !s.mayRead k p then refuse s .deniedRegion
    else acceptNaming s k p (partyData s p ++ monitorData (s.monitor p) ++ talkListData s p)

/-- RDPY (R180). -/
def execRdpy (k : Link) (tag party : Byte) (s : State) : Host.Outcome State Fault Refusal :=
  .next ((askRdpy k party s).deliver k tag 0x40)

/-! ### RDQU -/

/-- The first slot and the number of slots of a share (R54); an empty share keeps the number at which it would begin, 0 or
8 (log entry 40). -/
def State.shareRun (s : State) : Studio → Nat × Nat
  | .a => (0, s.stud.split)
  | .b => (s.stud.split, 8 - s.stud.split)

/-- The 8 slot pairs: party and air gain, FFh FFh for a free slot or one outside the share (11.6). -/
def slotPairs (s : State) (x : Studio) : List Byte :=
  allSlots.flatMap fun n =>
    match row s.stud.slots n with
    | some o => if s.studioOfSlot n = x then [byte o.party.val, byte (gainCode o.gain)] else [0xFF, 0xFF]
    | none => [0xFF, 0xFF]

/-- Source membership of a studio, source 0 in the lowest bit (11.6). -/
def membershipBits (s : State) (x : Studio) : Nat :=
  (allSources.map fun n => if (s.source n).inStudio x then 2 ^ n.val else 0).sum

def studioData (s : State) (x : Studio) : List Byte :=
  byte (s.queue x).length
    :: (List.range 12).map (fun i => optByte (((s.queue x)[i]?).map fun p => p.val))
    ++ [byte (s.shareRun x).1, byte (s.shareRun x).2] ++ slotPairs s x ++ [byte (s.floor x)]
    ++ bytes16 (membershipBits s x) ++ allSources.map (fun n => byte (gainCode ((s.source n).gainIn x)))

def askRdqu (k : Link) (studio : Byte) (s : State) : Answer :=
  match studioArg studio with
  | none => refuse s .badArgument
  | some x => if !s.viewsStudio k x then refuse s .deniedRegion else accept s (studioData s x)

/-- RDQU (R75). -/
def execRdqu (k : Link) (tag studio : Byte) (s : State) : Host.Outcome State Fault Refusal :=
  .next ((askRdqu k studio s).deliver k tag 0x41)

/-! ### RDRT -/

/-- An applied gain in half-decibels rounded to the nearest step, a midway value rounding up (R101). -/
def roundStep (q : Rat) : Int := (q + 1 / 2).floor

/-- An ingredient: identity with bit 7 while ramping, applied gain and target (11.6). -/
def ingredientData (i : Ingredient) : List Byte :=
  [byte (identCode i.ident + if i.level.ramp.running then 0x80 else 0),
    byte (gainCode (.half (roundStep i.level.applied))), byte (gainCode i.level.target)]

/-- The active entry as link and duck depth; FFh and FFh for NONE (R101, 11.6; log entry 15). -/
def activeData (a : Option TalkEntry) : List Byte :=
  [optByte (a.map fun e => e.link.val), optByte (a.map fun e => depthCode e.depth)]

def returnData (s : State) (p : Party) (first : Nat) : List Byte :=
  [byte (stateCode (s.party p).state), byte (s.ret p).ingredients.length, byte first]
    ++ activeData (s.activeEntry p) ++ (((s.ret p).ingredients.drop first).take 12).flatMap ingredientData

def askRdrt (k : Link) (party first : Byte) (s : State) : Answer :=
  match partyArg party, rangeArg 0 41 first with
  | some p, some n =>
    if !s.mayRead k p then refuse s .deniedRegion else acceptNaming s k p (returnData s p n)
  | _, _ => refuse s .badArgument

/-- RDRT (R100). -/
def execRdrt (k : Link) (tag party first : Byte) (s : State) : Host.Outcome State Fault Refusal :=
  .next ((askRdrt k party first s).deliver k tag 0x42)

/-! ### RDPT -/

/-- The grace time still to run while in GRACE, or 0 (R166). -/
def PortRec.graceLeft (r : PortRec) : Nat := if r.sync = .grace then r.grace.getD 0 else 0

def portData (r : PortRec) : List Byte :=
  [yesNo r.enable, byte (syncCode r.sync)] ++ bytes16 r.graceLeft ++ slotBytes r.slots

/-- The three records of R166, the count of parties not VACANT behind the slots of its own port (log entry 49). -/
def askRdpt (s : State) : Answer :=
  accept s (portData s.ports.lp0 ++ [byte (s.notVacant .lp0)] ++ portData s.ports.lp1 ++ [byte (s.notVacant .lp1)]
    ++ portData s.ports.sp)

/-- RDPT (R166). -/
def execRdpt (k : Link) (tag : Byte) (s : State) : Host.Outcome State Fault Refusal :=
  .next ((askRdpt s).deliver k tag 0x43)

end Sys2Proof.Machine
end

