-- ==== Sys2Proof/Machine/OwnerRequests.lean ====
section
/-! DEFINITION. The ownership requests of chapter 7: TAKE, GIVE, KEEP, TCAN, LOCK, ULCK and AWAY. -/

namespace Sys2Proof.Machine

/-! ### TAKE -/

/-- A link in the response to TAKE: its number in one byte, FFh for NONE (R122, R184; log entry 44). -/
def linkByte (k : Option Link) : Byte := optByte (k.map fun j => j.val)

/-- An immediate transfer of an orphan or from an AWAY owner: outcome GRANTED, the party's state and the old owner
(R122). -/
def takeNow (k : Link) (p : Party) (cause : Nat) (s : State) : Answer :=
  accept (s.passTo p k cause [] [])
    [byte Result.granted, byte (stateCode (s.party p).state), linkByte (s.party p).owner]

/-- The supervisor's override of a lock: outcome OVERRIDDEN and the old owner (R134). -/
def takeOver (k : Link) (p : Party) (s : State) : Answer :=
  accept (s.passTo p k Cause.override [] [overriddenOffer s p k])
    [byte Result.overridden, linkByte (s.party p).owner]

/-- A handover asked of the owner: the pending record with TGIV, TAKE_ASKED, and the answer PENDING with the owner and
TGIV in seconds (R123). -/
def State.askOwner (s : State) (p : Party) (k : Link) : State :=
  (s.modParty p fun r => { r with handover := some { requester := k, left := s.times.tgiv * 1000 } }).offerAll
    [askedOffer s p k]

def takePending (k : Link) (p : Party) (s : State) : Answer :=
  { state := s.askOwner p k,
    reply := { status := .pending, data := [linkByte (s.party p).owner, byte s.times.tgiv] } }

/-- Lines 4 to 10 of R121, for a party in an answered state. -/
def takeAnswered (k : Link) (p : Party) (s : State) : Answer :=
  match (s.party p).owner with
  | none => takeNow k p Cause.taken s
  | some o =>
    if o = k then acceptNaming s k p [byte Result.owner]
    else if (s.party p).handover.isSome then refuse s .busy
    else if (s.party p).lock then
      if k = s.supervisor then takeOver k p s else refuse s .locked
    else if (s.link o).away then takeNow k p Cause.away s
    else takePending k p s

def askTake (k : Link) (party : Byte) (s : State) : Answer :=
  match partyArg party with
  | none => refuse s .badArgument
  | some p =>
    if !s.controls k p then refuse s .deniedRegion
    else if !(s.party p).state.answered then refuse s .wrongState
    else takeAnswered k p s

/-- TAKE (R121). -/
def execTake (k : Link) (tag party : Byte) (s : State) : Host.Outcome State Fault Refusal :=
  .next ((askTake k party s).deliver k tag 0x20)

/-! ### GIVE, KEEP and TCAN -/

/-- Whether a handover to link `r` is pending on party `p`. -/
def State.pendingFor (s : State) (p : Party) (r : Link) : Bool :=
  ((s.party p).handover.map fun h => h.requester) == some r

def askGive (k : Link) (party requester : Byte) (s : State) : Answer :=
  match partyArg party, linkArg requester with
  | some p, some r =>
    if !s.pendingFor p r then refuse s .noHandover
    else if !s.owns k p then refuse s .notOwner
    else acceptNaming (s.grantHandover p Result.granted Cause.given) k p
      [byte (if s.recheck p then Result.granted else Result.deniedRegion)]
  | _, _ => refuse s .badArgument

/-- GIVE (R125). -/
def execGive (k : Link) (tag party requester : Byte) (s : State) : Host.Outcome State Fault Refusal :=
  .next ((askGive k party requester s).deliver k tag 0x21)

def askKeep (k : Link) (party requester : Byte) (s : State) : Answer :=
  match partyArg party, linkArg requester with
  | some p, some r =>
    if !s.pendingFor p r then refuse s .noHandover
    else if !s.owns k p then refuse s .notOwner
    else acceptNaming (s.endHandover p Result.denied) k p []
  | _, _ => refuse s .badArgument

/-- KEEP (R126). -/
def execKeep (k : Link) (tag party requester : Byte) (s : State) : Host.Outcome State Fault Refusal :=
  .next ((askKeep k party requester s).deliver k tag 0x22)

def askTcan (k : Link) (party : Byte) (s : State) : Answer :=
  match partyArg party with
  | none => refuse s .badArgument
  | some p =>
    if !s.pendingFor p k then refuse s .noHandover
    else accept (s.endHandover p Result.cancelled) []

/-- TCAN (R127). -/
def execTcan (k : Link) (tag party : Byte) (s : State) : Host.Outcome State Fault Refusal :=
  .next ((askTcan k party s).deliver k tag 0x23)

/-! ### LOCK and ULCK -/

/-- R132: the lock set, a pending handover ended with LOCKED. -/
def State.lockParty (s : State) (p : Party) : State :=
  (s.endHandover p Result.locked).modParty p fun r => { r with lock := true }

/-- R133. -/
def State.unlockParty (s : State) (p : Party) : State := s.modParty p fun r => { r with lock := false }

def askLock (k : Link) (party : Byte) (s : State) : Answer :=
  match partyArg party with
  | none => refuse s .badArgument
  | some p =>
    if !(s.party p).state.answered then refuse s .wrongState
    else if !s.owns k p then refuse s .notOwner
    else acceptNaming (s.lockParty p) k p []

/-- LOCK (R132). -/
def execLock (k : Link) (tag party : Byte) (s : State) : Host.Outcome State Fault Refusal :=
  .next ((askLock k party s).deliver k tag 0x24)

def askUlck (k : Link) (party : Byte) (s : State) : Answer :=
  match partyArg party with
  | none => refuse s .badArgument
  | some p =>
    if !(s.party p).state.answered then refuse s .wrongState
    else if !s.owns k p then refuse s .notOwner
    else acceptNaming (s.unlockParty p) k p []

/-- ULCK (R133). -/
def execUlck (k : Link) (tag party : Byte) (s : State) : Host.Outcome State Fault Refusal :=
  .next ((askUlck k party s).deliver k tag 0x25)

/-! ### AWAY -/

def State.setAway (s : State) (k : Link) (b : Bool) : State := s.setLink k { s.link k with away := b }

/-- The parties of a link on which a handover is pending, ascending (R135). -/
def State.askedOf (s : State) (k : Link) : List Party :=
  allParties.filter fun p => s.owns k p && (s.party p).handover.isSome

/-- Presence PRESENT 0 or AWAY 1 (11.5). -/
def presenceArg (b : Byte) : Option Bool := if b = 0 then some false else if b = 1 then some true else none

/-- R135. Each of the two counts in the response is one byte (log entry 48). -/
def askAway (k : Link) (presence : Byte) (s : State) : Answer :=
  match presenceArg presence with
  | none => refuse s .badArgument
  | some false => accept (s.setAway k false) []
  | some true =>
    let asked := s.askedOf k
    let granted := asked.filter s.recheck
    accept (asked.foldl (fun t p => t.grantHandover p Result.granted Cause.away) (s.setAway k true))
      [byte granted.length, byte (asked.length - granted.length)]

/-- AWAY (R135). -/
def execAway (k : Link) (tag presence : Byte) (s : State) : Host.Outcome State Fault Refusal :=
  .next ((askAway k presence s).deliver k tag 0x26)

end Sys2Proof.Machine
end

