-- ==== Sys2Proof/Machine/RegionRequests.lean ====
section
/-! DEFINITION. The region requests of chapter 8: SREG, LREG and RDRG. -/

namespace Sys2Proof.Machine

def State.setRegion (s : State) (i : Fin 8) (r : Region) : State := { s with regions := put s.regions i r }

/-! ### SREG -/

/-- The kind and range of SREG (R148). For PARTIES the studio byte is not used; it may be any code of 11.5, 0 to
3, or FFh for absent (log entry 30); for STUDIO the first party and the count are not checked. -/
def coverArg (kind studio first count : Byte) : Option Cover :=
  if kind = 0 then
    match partyArg first, rangeArg 1 24 count with
    | some p, some n => if (studio.toNat ≤ 3 ∨ studio = absentByte) ∧ p.val + n ≤ 24 then some (.parties p.val n) else none
    | _, _ => none
  else if kind = 1 then (studioArg studio).map .studio
  else none

/-- Whether two runs of parties, or two studios, meet (R149). -/
def Cover.meets : Cover → Cover → Bool
  | .parties f n, .parties g m => decide (f < g + m) && decide (g < f + n)
  | .studio x, .studio y => x == y
  | .parties _ _, .studio _ => false
  | .studio _, .parties _ _ => false

/-- Entry `j` is shadowed by the entry `r` standing at index `i` (R149). -/
def shadows (i : Fin 8) (r : Region) (j : Fin 8) (s : State) : Bool :=
  decide (i < j) && r.valid && r.cover.meets (s.region j).cover

/-- Check 4 of R148: some locked entry above `i` that entry `i` shadows before the write, or would shadow after it
(R149). -/
def State.wouldShadow (s : State) (i : Fin 8) (r : Region) : Bool :=
  allRegions.any fun j => (s.region j).locked && (shadows i (s.region i) j s || shadows i r j s)

/-- The first party and the count of an entry, as stored for a STUDIO entry as 0 and 1 (R148). -/
def Cover.run : Cover → Nat × Nat
  | .parties first count => (first, count)
  | .studio _ => (0, 1)

/-- The studio byte of an entry; a PARTIES entry has none (R184; log entry 15). -/
def Cover.studioByte : Cover → Byte
  | .parties _ _ => absentByte
  | .studio x => byte (studioCode x)

def Cover.kindByte : Cover → Byte
  | .parties _ _ => 0
  | .studio _ => 1

/-- An entry as RDRG reports it (11.6), and SREG in its response too (log entry 45). -/
def regionData (r : Region) : List Byte :=
  [yesNo r.valid, r.cover.kindByte, byte r.cover.run.1, byte r.cover.run.2, r.cover.studioByte]
    ++ r.perms.toList.map (fun p => byte (permsCode p)) ++ [yesNo r.locked]

/-- The entry that SREG writes: the locked field as it stands (R148). -/
def writtenRegion (old : Region) (valid : Bool) (c : Cover) (p0 p1 p2 : Perms) : Region :=
  { valid := valid, cover := c, perms := ⟨#[p0, p1, p2], rfl⟩, locked := old.locked }

/-- SREG with its arguments in range (R148, checks 2 to 4). -/
def askSregIn (k : Link) (i : Fin 8) (r : Region) (s : State) : Answer :=
  if k ≠ s.supervisor then refuse s .notSupervisor
  else if (s.region i).locked then refuse s .regionLocked
  else if s.wouldShadow i r then refuse s .regionLocked
  else accept (s.setRegion i r) (regionData r)

def askSreg (k : Link) (index valid kind studio first count perms0 perms1 perms2 : Byte) (s : State) : Answer :=
  match numberArg 8 index, yesNoArg valid, coverArg kind studio first count with
  | some i, some v, some c =>
    match permsArg perms0, permsArg perms1, permsArg perms2 with
    | some p0, some p1, some p2 => askSregIn k i (writtenRegion (s.region i) v c p0 p1 p2) s
    | _, _, _ => refuse s .badArgument
  | _, _, _ => refuse s .badArgument

/-- SREG (R148). -/
def execSreg (k : Link) (tag index valid kind studio first count perms0 perms1 perms2 : Byte) (s : State) :
    Host.Outcome State Fault Refusal :=
  .next ((askSreg k index valid kind studio first count perms0 perms1 perms2 s).deliver k tag 0x28)

/-! ### LREG -/

def askLreg (k : Link) (index : Byte) (s : State) : Answer :=
  match numberArg 8 index with
  | none => refuse s .badArgument
  | some i =>
    if k ≠ s.supervisor then refuse s .notSupervisor
    else if !(s.region i).valid then refuse s .wrongState
    else accept (s.setRegion i { s.region i with locked := true }) []

/-- LREG (R150). -/
def execLreg (k : Link) (tag index : Byte) (s : State) : Host.Outcome State Fault Refusal :=
  .next ((askLreg k index s).deliver k tag 0x29)

/-! ### RDRG -/

/-- The applying index and whether that entry is locked; FFh each where no entry applies (R154, R184; log entry
25). -/
def applyingData (s : State) (applying : Option (Fin 8)) : List Byte :=
  match applying with
  | some i => [byte i.val, yesNo (s.region i).locked]
  | none => [absentByte, absentByte]

/-- Form ENTRY 0, PARTY 1 or STUDIO 2 (11.8). -/
def askRdrg (k : Link) (form argument : Byte) (s : State) : Answer :=
  if form = 0 then
    match numberArg 8 argument with
    | some i => accept s (regionData (s.region i))
    | none => refuse s .badArgument
  else if form = 1 then
    match partyArg argument with
    | some p =>
      accept s (applyingData s (s.partyRegion p) ++ [byte (permsCode (s.partyPerms k p)), yesNo (s.owns k p)])
    | none => refuse s .badArgument
  else if form = 2 then
    match studioArg argument with
    | some x => accept s (applyingData s (s.studioRegion x) ++ [byte (permsCode (s.studioPerms k x))])
    | none => refuse s .badArgument
  else refuse s .badArgument

/-- RDRG (R154). -/
def execRdrg (k : Link) (tag form argument : Byte) (s : State) : Host.Outcome State Fault Refusal :=
  .next ((askRdrg k form argument s).deliver k tag 0x2A)

end Sys2Proof.Machine
end

