-- ==== Sys2Proof/Machine/Requests.lean ====
section
/-! DEFINITION. The request that a buffered frame names: code and payload to the block that owns the state (11.2, 11.8).
A payload of another length than the arguments need is answered BAD_ARGUMENT, and a code of no request
UNKNOWN_REQUEST (R170, R185). -/

namespace Sys2Proof.Machine

def noArgs (f : State → Answer) : List Byte → State → Answer
  | [], s => f s
  | _, s => refuse s .badArgument

def oneArg (f : Byte → State → Answer) : List Byte → State → Answer
  | [a], s => f a s
  | _, s => refuse s .badArgument

def twoArgs (f : Byte → Byte → State → Answer) : List Byte → State → Answer
  | [a, b], s => f a b s
  | _, s => refuse s .badArgument

def fourArgs (f : Byte → Byte → Byte → Byte → State → Answer) : List Byte → State → Answer
  | [a, b, c, d], s => f a b c d s
  | _, s => refuse s .badArgument

/-- Two bytes as a 16-bit value, high byte first (11, opening). -/
def word16 (hi lo : Byte) : Word16 := hi ++ lo

def sregArgs (k : Link) : List Byte → State → Answer
  | [a, b, c, d, e, f, g, h, i], s => askSreg k a b c d e f g h i s
  | _, s => refuse s .badArgument

def sprtArgs (k : Link) : List Byte → State → Answer
  | port :: enable :: slots, s => askSprt k port enable slots s
  | _, s => refuse s .badArgument

def stimArgs (k : Link) : List Byte → State → Answer
  | [a1, a0, b1, b0, c1, c0, d1, d0, e1, e0, n, g], s =>
    askStim k (word16 a1 a0) (word16 b1 b0) (word16 c1 c0) (word16 d1 d0) (word16 e1 e0) n g s
  | _, s => refuse s .badArgument

def spatArgs (k : Link) : List Byte → State → Answer
  | [a, b, c, d, e, f, g], s => askSpat k a b c d e f g s
  | _, s => refuse s .badArgument

/-- The requests of chapters 1, 3 and 4 by code. -/
def callRequest (k : Link) (code : Byte) : Option (List Byte → State → Answer) :=
  if code = 0x01 then some (oneArg (askAnsr k))
  else if code = 0x02 then some (oneArg (askPark k))
  else if code = 0x03 then some (twoArgs (askQueu k))
  else if code = 0x04 then some (oneArg (askAirp k))
  else if code = 0x05 then some (oneArg (askNext k))
  else if code = 0x06 then some (oneArg (askOffa k))
  else if code = 0x07 then some (oneArg (askUnqu k))
  else if code = 0x08 then some (twoArgs (askMove k))
  else if code = 0x09 then some (oneArg (askRlse k))
  else if code = 0x0A then some (twoArgs (askLoop k))
  else if code = 0x0B then some (oneArg (askLend k))
  else if code = 0x0C then some (oneArg (askPrst k))
  else if code = 0x0D then some (twoArgs (askSknd k))
  else if code = 0x10 then some (twoArgs (askJoin k))
  else if code = 0x11 then some (oneArg (askLeav k))
  else if code = 0x12 then some (twoArgs (askLstn k))
  else if code = 0x13 then some (fourArgs (askGain k))
  else none

/-- The requests of chapters 6, 7 and 8 by code. -/
def ownerRequest (k : Link) (code : Byte) : Option (List Byte → State → Answer) :=
  if code = 0x18 then some (fourArgs (askTalk k))
  else if code = 0x19 then some (twoArgs (askTend k))
  else if code = 0x1A then some (fourArgs (askStlk k))
  else if code = 0x20 then some (oneArg (askTake k))
  else if code = 0x21 then some (twoArgs (askGive k))
  else if code = 0x22 then some (twoArgs (askKeep k))
  else if code = 0x23 then some (oneArg (askTcan k))
  else if code = 0x24 then some (oneArg (askLock k))
  else if code = 0x25 then some (oneArg (askUlck k))
  else if code = 0x26 then some (oneArg (askAway k))
  else if code = 0x28 then some (sregArgs k)
  else if code = 0x29 then some (oneArg (askLreg k))
  else if code = 0x2A then some (twoArgs (askRdrg k))
  else none

/-- The configuration, link and read requests by code. -/
def linkRequest (k : Link) (code : Byte) : Option (List Byte → State → Answer) :=
  if code = 0x30 then some (sprtArgs k)
  else if code = 0x31 then some (twoArgs (askSsrc k))
  else if code = 0x32 then some (twoArgs (askShld k))
  else if code = 0x33 then some (oneArg (askSplt k))
  else if code = 0x34 then some (twoArgs (askSflr k))
  else if code = 0x35 then some (stimArgs k)
  else if code = 0x36 then some (spatArgs k)
  else if code = 0x38 then some (oneArg (askEmsk k))
  else if code = 0x39 then some (oneArg (askFtch k))
  else if code = 0x3A then some (twoArgs (askAtcf k))
  else if code = 0x3B then some (noArgs (askLrst k))
  else if code = 0x3C then some (noArgs (askIdnt k))
  else if code = 0x40 then some (oneArg (askRdpy k))
  else if code = 0x41 then some (oneArg (askRdqu k))
  else if code = 0x42 then some (twoArgs (askRdrt k))
  else if code = 0x43 then some (noArgs askRdpt)
  else none

/-- A taken request passed to the block that owns the state it names (R170). -/
def askRequest (k : Link) (r : Request) (s : State) : Answer :=
  match (callRequest k r.code).or ((ownerRequest k r.code).or (linkRequest k r.code)) with
  | some ask => ask r.payload s
  | none => refuse s .unknownRequest

end Sys2Proof.Machine
end

