-- ==== Sys2Proof/Machine/LinkFrame.lean ====
section
/-! DEFINITION. Link frames (chapter 10, 11.1): stuffing and CRC, the discarding or accepting of a frame, the request
buffer, the taking of requests and the transmitter. -/

namespace Sys2Proof.Machine

/-! ### Bytes on the line -/

/-- The received bytes with the stuffing undone; `none` where an escape byte is not followed by a stuffed value (R167,
R168, 11.1). -/
def unstuff : List Byte → Option (List Byte)
  | [] => some []
  | [b] => if b = escapeByte then none else some [b]
  | b :: c :: rest =>
    if b = escapeByte then
      if c = 0xE5 then (unstuff rest).map (flagByte :: ·)
      else if c = 0xE6 then (unstuff rest).map (escapeByte :: ·)
      else none
    else (unstuff (c :: rest)).map (b :: ·)

/-- The bytes to send, stuffed (11.1). -/
def stuff (bs : List Byte) : List Byte :=
  bs.flatMap fun b => if b = flagByte ∨ b = escapeByte then [escapeByte, b ^^^ 0x40] else [b]

/-- One bit through the CRC register of x¹⁶ + x¹² + x⁵ + 1 (R184). -/
def crcBit (r : Word16) (bit : Bool) : Word16 := if r.msb != bit then (r <<< 1) ^^^ 0x1021 else r <<< 1

/-- One byte, most significant bit first (R184). -/
def crcByte (r : Word16) (b : Byte) : Word16 :=
  crcBit (crcBit (crcBit (crcBit (crcBit (crcBit (crcBit (crcBit r (b.getLsbD 7)) (b.getLsbD 6)) (b.getLsbD 5))
    (b.getLsbD 4)) (b.getLsbD 3)) (b.getLsbD 2)) (b.getLsbD 1)) (b.getLsbD 0)

/-- The CRC of a run of bytes: the register starts at FFFFh, without final inversion (R184). -/
def crc (bs : List Byte) : Word16 := bs.foldl crcByte 0xFFFF

/-- The fields of an unstuffed frame that is accepted (R168): kind REQ, a length field of at most 64 that the payload
has, and a CRC at which the register ends at 0000h. -/
def parseFrame : List Byte → Option Request
  | kind :: tag :: code :: length :: rest =>
    if kind = 0x01 ∧ length.toNat ≤ Config.payloadRoom ∧ rest.length = length.toNat + 2
        ∧ crc (kind :: tag :: code :: length :: rest) = 0 then
      some { tag := tag, code := code, payload := rest.take length.toNat }
    else none
  | _ => none

/-- A response frame as it is sent, flags, CRC and stuffing included (R167, R184, 11.1). -/
def Response.wire (r : Response) : List Byte :=
  let body := [0x02, r.tag, r.code, byte r.payload.length] ++ r.payload
  flagByte :: stuff (body ++ [byte ((crc body).toNat / 256), byte ((crc body).toNat % 256)]) ++ [flagByte]

/-! ### Request buffer and transmitter -/

/-- The refusal of an accepted frame that meets a full buffer (R169): the OVERRUN response joins behind the earlier
ones and ahead of the responses to taken requests, or begins where nothing is being sent (R171); where four wait
already, the frame leaves no trace. -/
def LinkRec.overrun (l : LinkRec) (r : Response) : LinkRec :=
  if Config.overrunRoom ≤ (l.waiting.filter Response.isOverrun).length then l
  else if l.sending.isNone && l.waiting.isEmpty then { l with sending := some r }
  else
    { l with waiting :=
        l.waiting.filter Response.isOverrun ++ [r] ++ l.waiting.filter fun x => !x.isOverrun }

/-- No earlier response of the link waits unbegun; OVERRUN responses are not counted (R170). -/
def LinkRec.clear (l : LinkRec) : Bool := l.waiting.all Response.isOverrun

/-- The taking of buffered requests, at most `n` of them, for as long as the link may take (R170). -/
def State.takeRequests (s : State) (k : Link) : Nat → State
  | 0 => s
  | n + 1 =>
    match (s.link k).requests with
    | [] => s
    | r :: rest =>
      if (s.link k).clear then
        State.takeRequests ((askRequest k r (s.modLink k fun l => { l with requests := rest })).deliver k r.tag r.code)
          k n
      else s

/-- The taking of requests after a change of the buffer or of the transmitter. -/
def State.service (s : State) (k : Link) : State := s.takeRequests k (s.link k).requests.length

/-- An accepted frame (R168 to R170): LRST of length 0 is taken at once; another joins the buffer, or is refused. -/
def State.acceptFrame (s : State) (k : Link) (r : Request) : State :=
  if r.code = 0x3B ∧ r.payload = [] then (askLrst k s).deliver k r.tag r.code
  else if (s.link k).requests.length < Config.requestRoom then
    (s.modLink k fun l => { l with requests := l.requests ++ [r] }).service k
  else s.modLink k fun l => l.overrun ({ status := .overrun, data := [] : Reply }.response r.tag r.code)

/-- The frame that a closing flag ends, or `none` where it is discarded (R168). Two flags in a row enclose no frame. -/
def State.received (s : State) (f : RawFrame) : Option Request :=
  if s.resetHeld || f.begunInReset || f.framingError then none else (unstuff f.bytes).bind parseFrame

/-- LINK_FRAME_RECEIVED (R168). -/
def execLinkFrameReceived (k : Link) (f : RawFrame) (s : State) : Host.Outcome State Fault Refusal :=
  match s.received f with
  | some r => .next (s.acceptFrame k r)
  | none => .next s

/-- RESPONSE_SENT (R171): the next waiting response begins, and the link may take the next request (R170). Where nothing is
being sent nothing ends. -/
def execResponseSent (k : Link) (s : State) : Host.Outcome State Fault Refusal :=
  match (s.link k).sending with
  | none => .next s
  | some _ =>
    .next ((s.modLink k fun l => { l with sending := l.waiting.head?, waiting := l.waiting.tail }).service k)

/-- UNKNOWN_REQUEST: a taken request whose code names none (R170). -/
def execUnknownRequest (k : Link) (tag code : Byte) (s : State) : Host.Outcome State Fault Refusal :=
  .next ((refuse s .unknownRequest).deliver k tag code)

end Sys2Proof.Machine
end

