-- ==== Sys2Proof/Machine/PortEvents.lean ====
section
/-! DEFINITION. The sync states of the audio ports (chapter 9): INBOUND_FRAME, MISSING_CLOCK_CHECK,
SHORT_WORD_CLOCK_PERIOD, SYNC_FOUND, SYNC_LOST and GRACE_TIMER_EXPIRY. -/

namespace Sys2Proof.Machine

/-! ### Sync changes -/

/-- An event of a port, offered to every link (R165, R174). -/
def portOffer (kind : EventKind) (x : PortId) (v1 v2 : Nat) : Offer :=
  { event := { kind := kind, subject := .port x, cause := 0, studio := none, link := none, group := none,
               value1 := some v1, value2 := some v2 },
    receives := fun _ => true }

/-- The time spent in GRACE, for GRACE left, and 0 otherwise (R165). -/
def PortRec.graceSpent (r : PortRec) : Nat := if r.sync = .grace then Config.tgrc - r.grace.getD 0 else 0

/-- Frame sync found (R160, R161): SEEKING, GRACE or FAILED to LOCKED with PORT_BACK; the monitor records follow R40. -/
def State.syncFound (s : State) (x : PortId) : State :=
  let r := s.port x
  let locked := { r with sync := .locked, aligned := 4, missed := 0, grace := none }
  let back := [portOffer .portBack x (syncCode r.sync) r.graceSpent]
  match r.sync with
  | .grace => ((s.setPort x locked).monitors x Monitor.restarted).offerAll back
  | .seeking | .failed => ((s.setPort x locked).monitors x fun _ => Monitor.reset).offerAll back
  | .locked | .disabled => s

/-- The cause of PORT_LOST (R165). -/
def lossCode : LossCause → Nat
  | .alignment => Cause.alignment
  | .clock => Cause.clock

/-- Frame sync lost (R161): LOCKED to GRACE, runs 0, the grace timer started for TGRC, PORT_LOST; the monitor records
are held (R40). -/
def State.syncLost (s : State) (x : PortId) (cause : LossCause) : State :=
  let r := s.port x
  match r.sync with
  | .locked =>
    ((s.setPort x { r with sync := .grace, aligned := 0, missed := 0, grace := some Config.tgrc }).monitors x
      Monitor.held).offerAll [portOffer .portLost x (lossCode cause) (s.notVacant x)]
  | .disabled | .seeking | .grace | .failed => s

/-- The expiry of the grace timer (R161, R162): GRACE to FAILED, PORT_FAILED, then the failure of each party of the port
in ascending number (R25, R164, R165). The reports of SMON that wait are kept (log entry 57). -/
def State.graceExpired (s : State) (x : PortId) : State :=
  let failed := { s.port x with sync := .failed, grace := none }
  (partiesOf x).foldl State.portFailure
    (((s.setPort x failed).monitors x fun _ => Monitor.reset).offerAll
      [portOffer .portFailed x (s.notVacant x) 0])

/-! ### The alignment check -/

/-- A misaligned frame (R160): the aligned run to 0; in LOCKED the missed run advances, and sync is lost at 3. -/
def State.misaligned (s : State) (x : PortId) (cause : LossCause) : State :=
  let r := s.port x
  match r.sync with
  | .locked =>
    if 3 ≤ r.missed + 1 then s.syncLost x cause
    else s.setPort x { r with aligned := 0, missed := r.missed + 1 }
  | .disabled => s
  | .seeking | .grace | .failed => s.setPort x { r with aligned := 0 }

/-- An aligned frame (R160): the aligned run advances, staying at 4, and the missed run is 0; sync is found at 4. -/
def State.alignedFrame (s : State) (x : PortId) : State :=
  let r := s.port x
  match r.sync with
  | .disabled => s
  | .locked => s.setPort x { r with aligned := min 4 (r.aligned + 1), missed := 0 }
  | .seeking | .grace | .failed =>
    if 4 ≤ r.aligned + 1 then s.syncFound x else s.setPort x { r with aligned := r.aligned + 1, missed := 0 }

/-- The monitored frame of each party of a port whose slot is enabled (R34); the reports of one frame wait in ascending party
number (log entry 52). -/
def State.monitorFrame (s : State) (x : PortId) (bits : BitVec 512) : State :=
  ((partiesOf x).filter s.inService).foldl (fun t p => t.monitorWord p (lineWord bits (slotIndexOf p))) s

/-- The frame kept for the audio frame that it belongs to (R155). -/
def State.latch (s : State) (x : PortId) (bits : BitVec 512) : State :=
  s.setPort x { s.port x with inbound := some bits }

/-- A word-clock edge has come in this millisecond (R160). -/
def State.edge (s : State) : State := { s with tbase := { s.tbase with edgeSeen := true } }

/-- An inbound frame of a port: the alignment check with what follows from it, and, where the port is LOCKED before and
after the check, a monitored frame of its parties (R34, R155, R160; log entries 4 and 5). The frame that locks the port
delivers its audio in the AUDIO_FRAME after it (log entry 47). -/
def State.inboundFrame (s : State) (x : PortId) (bits : BitVec 512) : State :=
  let checked := if alignmentOf bits = Config.alignmentCode then s.alignedFrame x else s.misaligned x .alignment
  let seen :=
    if (s.port x).sync = .locked ∧ (checked.port x).sync = .locked then checked.monitorFrame x bits else checked
  (seen.latch x bits).edge

/-- INBOUND_FRAME (R160). A DISABLED port checks nothing. -/
def execInboundFrame (x : PortId) (bits : BitVec 512) (s : State) : Host.Outcome State Fault Refusal :=
  if (s.port x).sync = .disabled then .next s.edge else .next (s.inboundFrame x bits)

/-- A frame that each LOCKED port counts as misaligned for want of the clock (R160), LP0, LP1 and SP in this order (log
entry 46). -/
def State.clockMissed (s : State) : State :=
  [PortId.lp0, PortId.lp1, PortId.sp].foldl
    (fun t x => if (s.port x).sync = .locked then t.misaligned x .clock else t) s

/-- MISSING_CLOCK_CHECK: a millisecond of TBASE without a word-clock edge (R160). -/
def execMissingClockCheck (s : State) : Host.Outcome State Fault Refusal :=
  let s' := s.clockMissed
  .next { s' with tbase := { s'.tbase with checkDue := false } }

/-- SHORT_WORD_CLOCK_PERIOD: a word-clock edge without its 256 bit periods (R160). No inbound frame is received. -/
def execShortWordClockPeriod (s : State) : Host.Outcome State Fault Refusal := .next s.clockMissed.edge

/-- SYNC_FOUND: the aligned run reaches 4 (R161). In LOCKED and in DISABLED nothing is found. -/
def execSyncFound (x : PortId) (s : State) : Host.Outcome State Fault Refusal := .next (s.syncFound x)

/-- SYNC_LOST: the missed run reaches 3 (R161). Only a LOCKED port loses sync. -/
def execSyncLost (x : PortId) (cause : LossCause) (s : State) : Host.Outcome State Fault Refusal :=
  .next (s.syncLost x cause)

/-- GRACE_TIMER_EXPIRY (R162). A stopped timer does not expire. -/
def execGraceTimerExpiry (x : PortId) (s : State) : Host.Outcome State Fault Refusal :=
  if (s.port x).sync = .grace ∧ (s.port x).grace.isSome then .next (s.graceExpired x) else .next s

end Sys2Proof.Machine
end

