-- ==== Sys2Proof/Machine/PowerOn.lean ====
section
/-! DEFINITION. POWER_ON_RESET and RESET_ASSERTED (R183, R168). -/

namespace Sys2Proof.Machine

/-- SUPV 0, 1 and 2 name CL0, CL1 and CL2, and 3 names CL0 (R183). -/
def supvLink (b : BitVec 2) : Link := if b = 1 then 1 else if b = 2 then 2 else 0

/-- BAUD 0 to 3 (R183). -/
def baudRate (b : BitVec 2) : Rate :=
  if b = 0 then .bps115200 else if b = 1 then .bps230400 else if b = 2 then .bps460800 else .bps921600

/-- POWER_ON_RESET: the release of RESET (R183). Commands that wait are the agents' and stay. -/
def execPowerOnReset (supv baud : BitVec 2) (s : State) : Host.Outcome State Fault Refusal :=
  .next (State.powerOn (supvLink supv) (baudRate baud) s.pending)

/-- RESET_ASSERTED: from now on the links take in no frames (R168; log entry 23). -/
def execResetAsserted (s : State) : Host.Outcome State Fault Refusal := .next { s with resetHeld := true }

end Sys2Proof.Machine
end

