-- ==== Sys2Proof/Machine/Signals.lean ====
section
/-! DEFINITION. QUALIFY (R36) and SIGNAL_REPORT (R22). -/

namespace Sys2Proof.Machine

/-! ### QUALIFY -/

/-- Whether a party can have a monitored frame that entry `e` decides: its port LOCKED, its slot enabled (R34), and the
entry valid and applying to its kind (R33). -/
def State.canQualify (s : State) (p : Party) (e : Pattern) : Bool :=
  (s.port (portOf p)).sync == .locked && s.inService p && e.considered (s.party p).kind

/-- The match count of a meaning has reached the qualify count of its deciding entry (R36): the meaning is qualified, and
reported where it was not qualified already. -/
def State.qualifyBy (s : State) (p : Party) (e : Pattern) : State :=
  let m := s.monitor p
  let count := if m.candidate = some e.meaning then max e.count m.matchCount else e.count
  let s' := s.setMonitor p { candidate := some e.meaning, matchCount := count, qualified := some e.meaning }
  if m.qualified = some e.meaning then s' else s'.report p e.meaning

/-- QUALIFY: party `p` by pattern `entry` (R36, R37; log entry 3). -/
def execQualify (p : Party) (entry : Fin 6) (s : State) : Host.Outcome State Fault Refusal :=
  if s.canQualify p (row s.smon.patterns entry) then .next (s.qualifyBy p (row s.smon.patterns entry)) else .next s

/-! ### SIGNAL_REPORT -/

/-- A report taken leaves the reports that wait (R37). -/
def State.takeReport (s : State) (p : Party) (m : Meaning) : State :=
  { s with smon := { s.smon with reports := s.smon.reports.erase { party := p, meaning := m } } }

/-- SEIZE (R22). -/
def State.seized (s : State) (p : Party) : State :=
  match (s.party p).state with
  | .vacant | .looptest => s.toAlerting p
  | .alerting | .screening | .parked | .queued | .onAir | .clearing | .fault => s

/-- ONHOOK (R22, R23). -/
def State.onhook (s : State) (p : Party) : State :=
  match (s.party p).state with
  | .alerting | .fault => s.toVacant p fun before after => [stateEvent before after p]
  | .screening | .parked | .queued | .onAir => s.toVacant p fun before after => [hangupEvent before after p]
  | .clearing => s.toVacant p fun before after => [clearedEvent before after p 2]
  | .vacant | .looptest => s

/-- The FLASH event names the party and its owner (R22); it goes by R174. -/
def flashOffer (s : State) (p : Party) : Offer :=
  { event := { partyEvent .flash p with link := (s.party p).owner },
    receives := fun k => s.views k p || (s.party p).owner == some k }

/-- FLASH (R22). -/
def State.flashed (s : State) (p : Party) : State :=
  if (s.party p).state.answered then s.offerAll [flashOffer s p] else s

/-- FAULT (R22, R24). -/
def State.faulted (s : State) (p : Party) : State :=
  if (s.party p).state = .fault then s else s.toFault p Cause.signal

/-- CALL takes a reported meaning by the party's state (R22). -/
def State.takeMeaning (s : State) (p : Party) : Meaning → State
  | .seize => s.seized p
  | .onhook => s.onhook p
  | .flash => s.flashed p
  | .fault => s.faulted p

/-- SIGNAL_REPORT (R22). A report for a party out of service, or on a DISABLED port, is ignored. The command is taken as a
report whether or not it waits in `smon.reports` (log entry 3), and by the state at this moment even where its party's slot,
its port or the sync has gone and come since it qualified (log entries 56 and 57). -/
def execSignalReport (p : Party) (m : Meaning) (s : State) : Host.Outcome State Fault Refusal :=
  let s' := s.takeReport p m
  if s.inService p && (s.port (portOf p)).sync != .disabled then .next (s'.takeMeaning p m) else .next s'

end Sys2Proof.Machine
end

