-- ==== Sys2Proof/Machine/Timers.lean ====
section
/-! DEFINITION. The expiries of the party timers and the one-second mark: REALERT_TIMER_EXPIRY, CLEAR_TIMER_EXPIRY,
ONE_SECOND_MARK, PARK_TIMER_EXPIRY and GRANT_TIMER_EXPIRY. A stopped timer does not expire (R8, R124). -/

namespace Sys2Proof.Machine

/-- The re-alert timer expires (R29): the count advances, ALERT is offered, the timer restarts for TALR. -/
def State.realert (s : State) (p : Party) : State :=
  let after := s.modParty p fun r =>
    { r with alertCount := min 255 (r.alertCount + 1), realert := some (s.times.talr * 1000) }
  after.offerAll [viewOffer s after p (alertEvent after p)]

/-- REALERT_TIMER_EXPIRY (R29). -/
def execRealertTimerExpiry (p : Party) (s : State) : Host.Outcome State Fault Refusal :=
  if (s.party p).state = .alerting ∧ (s.party p).realert.isSome then .next (s.realert p) else .next s

/-- The clear timer expires (R17): CLEARING ends with CLEARED, cause TIMEOUT; a clear period ends with signal-out IDLE
and no event. -/
def State.clearExpired (s : State) (p : Party) : State :=
  match (s.party p).state with
  | .clearing => s.toVacant p fun before after => [clearedEvent before after p 1]
  | .vacant => s.modParty p fun r => { r with signalOut := .idle, clear := none }
  | .alerting | .screening | .parked | .queued | .onAir | .looptest | .fault => s

/-- CLEAR_TIMER_EXPIRY (R17). -/
def execClearTimerExpiry (p : Party) (s : State) : Host.Outcome State Fault Refusal :=
  if (s.party p).clear.isSome then .next (s.clearExpired p) else .next s

/-- The counters of one party at the mark (R28). -/
def PartyRec.marked (r : PartyRec) : PartyRec :=
  { r with
    callSeconds := if r.state.onCall then min 65535 (r.callSeconds + 1) else r.callSeconds,
    airSeconds := if r.state = .onAir then min 65535 (r.airSeconds + 1) else r.airSeconds }

/-- ONE_SECOND_MARK (R28). -/
def execOneSecondMark (s : State) : Host.Outcome State Fault Refusal :=
  .next { s with parties := tab fun p => (s.party p).marked, tbase := { s.tbase with markDue := false } }

/-- PARK_REMIND to the owner: the new count and the NPRK in force (R137, R139). -/
def remindOffer (after : State) (p : Party) : Offer :=
  { event := { partyEvent .parkRemind p with
      link := (after.party p).owner, value1 := some (after.party p).reminders, value2 := some after.times.nprk },
    receives := fun k => (after.party p).owner == some k }

/-- A reminder (R137). -/
def State.remind (s : State) (p : Party) : State :=
  let after := s.modParty p fun r => { r with reminders := min 15 (r.reminders + 1), park := some s.parkTime }
  after.offerAll [remindOffer after p]

/-- The orphaning expiry with a handover pending (R137): the party passes to the requester, or stays with its owner, its
count as it was and its timer restarted, where the recheck fails. -/
def State.parkHandover (s : State) (p : Party) : State :=
  if s.recheck p then s.grantHandover p Result.timeoutGranted Cause.timeout
  else (s.grantHandover p Result.timeoutGranted Cause.timeout).modParty p fun r => { r with park := some s.parkTime }

/-- An expiry of the park timer of a party with owner `o` (R137). -/
def State.parkExpired (s : State) (p : Party) (o : Link) : State :=
  if (s.link o).away then s.orphan p Cause.away
  else if s.times.nprk = 0 ∨ (s.party p).reminders + 1 < s.times.nprk then s.remind p
  else if (s.party p).handover.isSome then s.parkHandover p
  else s.orphan p Cause.nprk

/-- PARK_TIMER_EXPIRY (R137). -/
def execParkTimerExpiry (p : Party) (s : State) : Host.Outcome State Fault Refusal :=
  match (s.party p).park, (s.party p).owner with
  | some _, some o => .next (s.parkExpired p o)
  | _, _ => .next s

/-- GRANT_TIMER_EXPIRY (R128). -/
def execGrantTimerExpiry (p : Party) (s : State) : Host.Outcome State Fault Refusal :=
  if (s.party p).handover.isSome then .next (s.grantHandover p Result.timeoutGranted Cause.timeout) else .next s

end Sys2Proof.Machine
end

