-- ==== Sys2Proof/Machine/Dispatch.lean ====
section
/-! DEFINITION. The effect of every command: one arm per constructor of Instr. -/

namespace Sys2Proof.Machine

def exec (i : Instr) (s : State) : Host.Outcome State Fault Refusal :=
  match i with
  | .powerOnReset supv baud => Sys2Proof.Machine.execPowerOnReset supv baud s
  | .linkFrameReceived k f => Sys2Proof.Machine.execLinkFrameReceived k f s
  | .responseSent k => Sys2Proof.Machine.execResponseSent k s
  | .unknownRequest k tag code => Sys2Proof.Machine.execUnknownRequest k tag code s
  | .ansr k tag party => Sys2Proof.Machine.execAnsr k tag party s
  | .park k tag party => Sys2Proof.Machine.execPark k tag party s
  | .queu k tag party studio => Sys2Proof.Machine.execQueu k tag party studio s
  | .airp k tag party => Sys2Proof.Machine.execAirp k tag party s
  | .next k tag studio => Sys2Proof.Machine.execNext k tag studio s
  | .offa k tag party => Sys2Proof.Machine.execOffa k tag party s
  | .unqu k tag party => Sys2Proof.Machine.execUnqu k tag party s
  | .move k tag party position => Sys2Proof.Machine.execMove k tag party position s
  | .rlse k tag party => Sys2Proof.Machine.execRlse k tag party s
  | .loop k tag party source => Sys2Proof.Machine.execLoop k tag party source s
  | .lend k tag party => Sys2Proof.Machine.execLend k tag party s
  | .prst k tag party => Sys2Proof.Machine.execPrst k tag party s
  | .sknd k tag party kind => Sys2Proof.Machine.execSknd k tag party kind s
  | .join k tag party group => Sys2Proof.Machine.execJoin k tag party group s
  | .leav k tag party => Sys2Proof.Machine.execLeav k tag party s
  | .lstn k tag selection member => Sys2Proof.Machine.execLstn k tag selection member s
  | .gain k tag studio contribution number code => Sys2Proof.Machine.execGain k tag studio contribution number code s
  | .talk k tag scope member priority depth => Sys2Proof.Machine.execTalk k tag scope member priority depth s
  | .tend k tag scope member => Sys2Proof.Machine.execTend k tag scope member s
  | .stlk k tag link source code priority => Sys2Proof.Machine.execStlk k tag link source code priority s
  | .take k tag party => Sys2Proof.Machine.execTake k tag party s
  | .give k tag party requester => Sys2Proof.Machine.execGive k tag party requester s
  | .keep k tag party requester => Sys2Proof.Machine.execKeep k tag party requester s
  | .tcan k tag party => Sys2Proof.Machine.execTcan k tag party s
  | .lock k tag party => Sys2Proof.Machine.execLock k tag party s
  | .ulck k tag party => Sys2Proof.Machine.execUlck k tag party s
  | .away k tag presence => Sys2Proof.Machine.execAway k tag presence s
  | .sreg k tag index valid kind studio first count perms0 perms1 perms2 => Sys2Proof.Machine.execSreg k tag index valid kind studio first count perms0 perms1 perms2 s
  | .lreg k tag index => Sys2Proof.Machine.execLreg k tag index s
  | .rdrg k tag form argument => Sys2Proof.Machine.execRdrg k tag form argument s
  | .sprt k tag port enable slots => Sys2Proof.Machine.execSprt k tag port enable slots s
  | .ssrc k tag source membership => Sys2Proof.Machine.execSsrc k tag source membership s
  | .shld k tag source code => Sys2Proof.Machine.execShld k tag source code s
  | .splt k tag split => Sys2Proof.Machine.execSplt k tag split s
  | .sflr k tag studio floor => Sys2Proof.Machine.execSflr k tag studio floor s
  | .stim k tag ramp datk drel talr tprk nprk tgiv => Sys2Proof.Machine.execStim k tag ramp datk drel talr tprk nprk tgiv s
  | .spat k tag index valid key mask meaning appliesTo count => Sys2Proof.Machine.execSpat k tag index valid key mask meaning appliesTo count s
  | .emsk k tag mask => Sys2Proof.Machine.execEmsk k tag mask s
  | .ftch k tag number => Sys2Proof.Machine.execFtch k tag number s
  | .atcf k tag enable threshold => Sys2Proof.Machine.execAtcf k tag enable threshold s
  | .lrst k tag => Sys2Proof.Machine.execLrst k tag s
  | .idnt k tag => Sys2Proof.Machine.execIdnt k tag s
  | .rdpy k tag party => Sys2Proof.Machine.execRdpy k tag party s
  | .rdqu k tag studio => Sys2Proof.Machine.execRdqu k tag studio s
  | .rdrt k tag party first => Sys2Proof.Machine.execRdrt k tag party first s
  | .rdpt k tag => Sys2Proof.Machine.execRdpt k tag s
  | .audioFrame => Sys2Proof.Machine.execAudioFrame s
  | .rampComplete r => Sys2Proof.Machine.execRampComplete r s
  | .inboundFrame x bits => Sys2Proof.Machine.execInboundFrame x bits s
  | .missingClockCheck => Sys2Proof.Machine.execMissingClockCheck s
  | .syncFound x => Sys2Proof.Machine.execSyncFound x s
  | .syncLost x cause => Sys2Proof.Machine.execSyncLost x cause s
  | .graceTimerExpiry x => Sys2Proof.Machine.execGraceTimerExpiry x s
  | .qualify p entry => Sys2Proof.Machine.execQualify p entry s
  | .signalReport p m => Sys2Proof.Machine.execSignalReport p m s
  | .realertTimerExpiry p => Sys2Proof.Machine.execRealertTimerExpiry p s
  | .clearTimerExpiry p => Sys2Proof.Machine.execClearTimerExpiry p s
  | .oneSecondMark => Sys2Proof.Machine.execOneSecondMark s
  | .parkTimerExpiry p => Sys2Proof.Machine.execParkTimerExpiry p s
  | .grantTimerExpiry p => Sys2Proof.Machine.execGrantTimerExpiry p s
  | .shortWordClockPeriod => Sys2Proof.Machine.execShortWordClockPeriod s
  | .resetAsserted => Sys2Proof.Machine.execResetAsserted s

end Sys2Proof.Machine
end

