-- ==== Sys2Proof/Machine/Tick.lean ====
section
/-! DEFINITION. The timebase on an empty queue (00_scope.md, "time"; log entry 2): what is due inside the part, and one
millisecond of TBASE. -/

namespace Sys2Proof.Machine

/-- A running timer with a millisecond less. -/
def countDown (t : Option Nat) : Option Nat := t.map fun n => n - 1

def PartyRec.tick (r : PartyRec) : PartyRec :=
  { r with
    realert := countDown r.realert, clear := countDown r.clear, park := countDown r.park,
    handover := r.handover.map fun h => { h with left := h.left - 1 } }

def PortRec.tick (r : PortRec) : PortRec := { r with grace := countDown r.grace }

/-- The millisecond count, the one-second mark (R28) and the 1 ms check of the word clock (R160). -/
def Tbase.tick (t : Tbase) : Tbase :=
  { ms := if 1000 ≤ t.ms + 1 then 0 else t.ms + 1,
    markDue := t.markDue || decide (1000 ≤ t.ms + 1),
    edgeSeen := false,
    checkDue := t.checkDue || !t.edgeSeen }

/-- One millisecond of TBASE. The word clock need not run. -/
def State.tick (s : State) : State :=
  { s with
    parties := tab fun p => (s.party p).tick,
    ports := { lp0 := s.ports.lp0.tick, lp1 := s.ports.lp1.tick, sp := s.ports.sp.tick },
    tbase := s.tbase.tick }

/-- A grace timer that has run out. -/
def State.duePort (s : State) (x : PortId) : Option Instr :=
  if (s.port x).grace = some 0 then some (.graceTimerExpiry x) else none

/-- A timer of a party that has run out; of several, the re-alert, clear, park and grant timers in this order (log entry 32). -/
def State.dueParty (s : State) (p : Party) : Option Instr :=
  if (s.party p).realert = some 0 then some (.realertTimerExpiry p)
  else if (s.party p).clear = some 0 then some (.clearTimerExpiry p)
  else if (s.party p).park = some 0 then some (.parkTimerExpiry p)
  else if ((s.party p).handover.map fun h => h.left) = some 0 then some (.grantTimerExpiry p)
  else none

/-- The report of SMON that has waited longest for CALL (R37; log entry 52). -/
def State.dueReport (s : State) : Option Instr :=
  s.smon.reports.head?.map fun r => .signalReport r.party r.meaning

/-- What happens next inside the part before time goes on: a waiting report, the 1 ms check, the one-second mark, a grace
timer, a party timer. The manual leaves the order of independent claims open (R8; log entry 32). -/
def State.dueCommand (s : State) : Option Instr :=
  s.dueReport.or
    (if s.tbase.checkDue then some .missingClockCheck
     else if s.tbase.markDue then some .oneSecondMark
     else ([PortId.lp0, .lp1, .sp].findSome? s.duePort).or (allParties.findSome? s.dueParty))

end Sys2Proof.Machine
end

