-- ==== Sys2Proof/Machine/Idle.lean ====
section
/-! DEFINITION. What a step does on an empty queue (DESIGN CHOICE, log entry 2). -/

namespace Sys2Proof.Machine

/-- On an empty queue what is due inside the part is taken; where nothing is due, a millisecond of TBASE passes. -/
def State.idle (s : State) : Host.Outcome State Fault Refusal :=
  match s.dueCommand with
  | some c => exec c s
  | none => .next s.tick

end Sys2Proof.Machine
end

