-- ==== Sys2Proof/Safety.lean ====
section
/-! DEFINITION. What counts as a safe state, and what a command is said to leave as it was: the laws that the manual
states of the whole part, and the frames that the statements use. -/

namespace Sys2Proof.Machine

/-! ### Frames -/

/-- What no request and no event of a party writes: the queue of commands, SMON, ART, the ports, the STIM values, TBASE,
the straps' values and the RESET pin. -/
def State.sameBase (s t : State) : Prop :=
  t.pending = s.pending ∧ t.smon = s.smon ∧ t.regions = s.regions ∧ t.ports = s.ports ∧ t.times = s.times
    ∧ t.tbase = s.tbase ∧ t.supervisor = s.supervisor ∧ t.rate = s.rate ∧ t.resetHeld = s.resetHeld

/-- A link record to which events may have been offered, and nothing else happened: what was queued stays at the
head, in order (R174). -/
def LinkRec.offered (l m : LinkRec) : Prop :=
  m.requests = l.requests ∧ m.sending = l.sending ∧ m.waiting = l.waiting ∧ m.mask = l.mask
    ∧ m.attnEnable = l.attnEnable ∧ m.attnThreshold = l.attnThreshold ∧ m.away = l.away ∧ l.events <+: m.events

def State.onlyOffers (s t : State) : Prop := ∀ j, (s.link j).offered (t.link j)

/-- RMIX's own settings and the samples last formed. -/
def State.sameHold (s t : State) : Prop :=
  t.rmix.holdSource = s.rmix.holdSource ∧ t.rmix.holdGain = s.rmix.holdGain
    ∧ t.rmix.lastReturns = s.rmix.lastReturns

/-- Every party record but one. -/
def State.otherParties (s t : State) (p : Party) : Prop := ∀ q, q ≠ p → t.party q = s.party q

/-- Every talkback list but one, the talk settings and the count of arrivals. -/
def State.otherLists (s t : State) (p : Party) : Prop :=
  t.tarb.settings = s.tarb.settings ∧ t.tarb.arrivals = s.tarb.arrivals ∧ ∀ q, q ≠ p → t.talkList q = s.talkList q

/-- The split, the floors, and the sources with their gains. -/
def State.sameStudios (s t : State) : Prop :=
  t.stud.split = s.stud.split ∧ t.stud.floorA = s.stud.floorA ∧ t.stud.floorB = s.stud.floorB
    ∧ t.stud.sources = s.stud.sources

/-- What a change of party `p` leaves as it was: everything but its record, the collections it stands in, events, the
targets of returns, and the count of free choices. -/
def State.partyFrame (s t : State) (p : Party) : Prop :=
  s.sameBase t ∧ s.onlyOffers t ∧ s.sameHold t ∧ s.otherParties t p ∧ s.otherLists t p ∧ s.sameStudios t

/-- An accepted request of link `k` that names party `p`: where `k` owns the party and its park timer runs, the timer
restarts for TPRK with reminder count 0, and nothing else of the party changes (R7, R136). -/
def PartyRec.named (r : PartyRec) (k : Link) (tprk : Nat) : PartyRec :=
  if r.owner = some k ∧ r.state = .parked ∧ r.park.isSome then { r with park := some (tprk * 1000), reminders := 0 }
  else r

/-- The same as a change of the part's party records: that of `p` as named by `k`, and no other. -/
def State.onlyNamed (s t : State) (k : Link) (p : Party) : Prop :=
  t.party p = (s.party p).named k s.times.tprk ∧ s.otherParties t p

/-- Party `p` is out of both ready queues, the later entries closed up, and nothing else of STUD has changed (R62). -/
def State.outOfQueue (s t : State) (p : Party) : Prop :=
  t.stud = { s.stud with
    queueA := s.stud.queueA.filter (· != p), queueB := s.stud.queueB.filter (· != p) }

/-- Party `p` is off its air slot, and nothing else of STUD has changed (R67). -/
def State.offSlot (s t : State) (p : Party) : Prop :=
  t.stud = { s.stud with slots := t.stud.slots }
    ∧ ∀ n, row t.stud.slots n
        = if (row s.stud.slots n).map (fun o => o.party) = some p then none else row s.stud.slots n

/-- Party `p` is out of its group, a group left empty has lost its owner, and no other group has changed (R48). -/
def State.outOfGroup (s t : State) (p : Party) : Prop :=
  ∀ g, (p ∉ (s.group g).members → t.group g = s.group g)
    ∧ (p ∈ (s.group g).members → (t.group g).members = (s.group g).members.filter (· != p)
        ∧ (t.group g).owner = if (t.group g).members = [] then none else (s.group g).owner)

/-- The removals of STUD and CONF as party `p` leaves its state for one in which it stands in no collection (R26). -/
def State.removed (s t : State) (p : Party) : Prop :=
  ((s.party p).state = .queued → s.outOfQueue t p) ∧ ((s.party p).state = .onAir → s.offSlot t p)
    ∧ ((s.party p).state ≠ .queued → (s.party p).state ≠ .onAir → t.stud = s.stud)
    ∧ ((s.party p).state = .screening → s.outOfGroup t p) ∧ ((s.party p).state ≠ .screening → t.conf = s.conf)

/-- The links hold what the given offers leave them, and nothing else has happened to them (R174). -/
def State.offersExactly (s t : State) (os : List Offer) : Prop :=
  ∀ j, t.link j = ((os.filter fun o => o.receives j).map fun o => o.event).foldl LinkRec.receive (s.link j)

/-- The given event of party `p` is offered before any other, to each link with VIEW on the party and to the links `a` and
`b` (R27, R174). -/
def State.offersFirst (s t : State) (p : Party) (e : Event) (a b : Option Link) : Prop :=
  ∃ more, s.offersExactly t ({ event := e, receives := fun j => s.views j p || a == some j || b == some j } :: more)

/-- Party `p` has the record `r` and the links what the offers leave them; nothing else has changed. -/
def State.writes (s t : State) (p : Party) (r : PartyRec) (os : List Offer) : Prop :=
  t.party p = r ∧ s.otherParties t p ∧ s.offersExactly t os ∧ t = { s with parties := t.parties, links := t.links }

/-- TAKE_RESULT of a handover that link `r` asked of party `p`: the outcome, and the owner after it; to the requester and
to the owner at the start (R139). -/
def State.resultOf (s : State) (p : Party) (r : Link) (outcome : Nat) (owner : Option Link) : Offer :=
  { event := { partyEvent .takeResult p with
      link := some r, value1 := some outcome, value2 := some (match owner with | some k => k.val | none => 0xFFFF) },
    receives := fun j => j == r || (s.party p).owner == some j }

/-- Party `p` passes to link `r` (R131): the lock no, no handover pending, out of its group, a PARKED party's park timer
started anew with reminder count 0, and everything else of the party kept; the offers `first`, OWNER_CHANGED with the given
cause to the links with VIEW and to both owners (R139), and `last`; RMIX has targets to change for a SCREENING party only. -/
def State.passes (s t : State) (p : Party) (r : Link) (cause : Nat) (first last : List Offer) : Prop :=
  t.party p = { s.party p with
      owner := some r, lock := false, handover := none,
      park := if (s.party p).state = .parked then some (s.times.tprk * 1000) else (s.party p).park,
      reminders := if (s.party p).state = .parked then 0 else (s.party p).reminders }
    ∧ s.outOfGroup t p ∧ s.otherParties t p
    ∧ s.offersExactly t (first
        ++ [{ event := { partyEvent .ownerChanged p with
                link := some r, group := s.groupOf p,
                value1 := some (match (s.party p).owner with | some k => k.val | none => 0xFFFF), value2 := some cause },
              receives := fun j => s.views j p || j == r || (s.party p).owner == some j }]
        ++ last)
    ∧ t = { s with parties := t.parties, conf := t.conf, links := t.links, rmix := t.rmix } ∧ s.sameHold t
    ∧ ((s.party p).state ≠ .screening → t.rmix = s.rmix)

/-! ### Timers -/

/-- A timer of the party has run out. -/
def PartyRec.runOut (r : PartyRec) : Prop :=
  r.realert = some 0 ∨ r.clear = some 0 ∨ r.park = some 0 ∨ r.handover.map (fun h => h.left) = some 0

/-! ### The feed law -/

/-- The talk gain of a link as its talk path carries it: OFF where the link has no talk source (R80, R103). -/
def State.talkGain (s : State) (k : Link) : Gain := if (s.settings k).source.isSome then (s.settings k).gain else .off

/-- The gain of an identity in a studio mix; OFF where the mix does not hold it (R81). -/
def State.mixGain (s : State) (x : Studio) : Ident → Gain
  | .source n => if (s.source n).inStudio x then (s.source n).gainIn x else .off
  | .party q => if (s.party q).state = .onAir ∧ s.studioOf q = some x then (s.airGainOf q).getD .off else .off
  | .talk _ => .off

/-- The feed gain of an identity in the return of party `p`; OFF where the feed does not name it (R77, R80, R83). -/
def State.feedGain (s : State) (p : Party) (i : Ident) : Gain :=
  if i = .party p then .off
  else match (s.party p).state with
    | .vacant | .alerting | .clearing | .fault => .off
    | .screening =>
      match i with
      | .talk k => if (s.party p).owner = some k then s.talkGain k else .off
      | .party q => if (s.groupOf p).isSome ∧ s.groupOf q = s.groupOf p then .half 0 else .off
      | .source _ => .off
    | .parked => if s.rmix.holdSource.map Ident.source = some i then s.rmix.holdGain else .off
    | .queued | .onAir =>
      match s.studioOf p with
      | some x => s.mixGain x i
      | none => .off
    | .looptest => if (s.party p).loopSource.map Ident.source = some i then .half 0 else .off

/-- The target of an identity that a feed gain leaves under the active entry `a`: the gain lowered by the entry's depth, and
for the entry's own talk path, which no feed under talkback holds, its talk gain (R87). -/
def State.underTalk (s : State) (a : Option Duck) (i : Ident) (feed : Gain) : Gain :=
  match a with
  | none => feed
  | some d =>
    match feed with
    | .half h => d.depth.lower h
    | .off => if i = .talk d.link then s.talkGain d.link else .off

/-- The target of an identity in the return of party `p` (R80, R87). -/
def State.targetOf (s : State) (p : Party) (i : Ident) : Gain := s.underTalk (s.ret p).active i (s.feedGain p i)

/-- Party `p` hears what the feed law gives it (R78, R80, R87): every ingredient of its return has the target of its
identity, and every identity with a target other than OFF is in the return. -/
def State.hears (s : State) (p : Party) : Prop :=
  (∀ i ∈ (s.ret p).ingredients, i.level.target = s.targetOf p i.ident)
    ∧ ∀ i, s.targetOf p i ≠ .off → ∃ j ∈ (s.ret p).ingredients, j.ident = i

/-! ### An audio frame -/

/-- A level after one audio frame on its way to `goal` (R90): at rest it stays; its ramp goes one frame further along the
straight line in decibels from its start, and stands at the goal when its frames are done. -/
def Level.moves (l m : Level) (goal : Int) : Prop :=
  (l.ramp.running = false → m = l)
    ∧ (l.ramp.running = true → l.ramp.done + 1 < l.ramp.len →
        m = { l with
          applied := l.ramp.start + (goal - l.ramp.start) * (l.ramp.done + 1 : Nat) / (l.ramp.len : Rat),
          ramp := { l.ramp with done := l.ramp.done + 1 } })
    ∧ (l.ramp.running = true → l.ramp.len ≤ l.ramp.done + 1 →
        m = { l with applied := goal, ramp := { l.ramp with done := l.ramp.len, running := false } })

/-- An ingredient leaves in this audio frame (R78): its target is OFF, and it stands at −80.0 dB after the frame, because it
stood there, its ramp began there, or its ramp ends. -/
def Ingredient.goesOut (i : Ingredient) : Prop :=
  i.level.target = .off
    ∧ ((i.level.ramp.running = false ∧ i.level.applied = -160)
      ∨ (i.level.ramp.running = true ∧ (i.level.ramp.start = -160 ∨ i.level.ramp.len ≤ i.level.ramp.done + 1)))

/-- An ingredient after one audio frame, RAMP being `ms`: on its way to its target, OFF being −80.0 dB (R90); a talk path that
dips goes to −80.0 dB with its old source, takes the new one at the end of its ramp (log entry 54), and begins its way back
over RAMP (R104). -/
def Ingredient.framed (ms : Nat) (i j : Ingredient) : Prop :=
  j.ident = i.ident ∧ j.level.target = i.level.target
    ∧ (i.dipTo = none → j.carries = i.carries ∧ j.dipTo = none
        ∧ i.level.moves j.level (match i.level.target with | .off => -160 | .half h => h))
    ∧ ∀ src, i.dipTo = some src → i.level.ramp.running = true →
        (i.level.ramp.done + 1 < i.level.ramp.len →
          j.carries = i.carries ∧ j.dipTo = i.dipTo ∧ i.level.moves j.level (-160))
        ∧ (i.level.ramp.len ≤ i.level.ramp.done + 1 →
          j.carries = some src ∧ j.dipTo = none ∧ j.level.applied = -160
            ∧ j.level.ramp = { start := -160, len := ms * 48, done := 0, running := true })

/-- A list of ingredients after one audio frame: those that do not leave, each moved (R78, R90). -/
def framedList (ms : Nat) (is js : List Ingredient) : Prop :=
  (∀ i ∈ is, ¬ i.goesOut → ∃ j ∈ js, i.framed ms j) ∧ ∀ j ∈ js, ∃ i ∈ is, ¬ i.goesOut ∧ i.framed ms j

/-- An ingredient after its ramp has been completed, RAMP being `ms` (R90): at its target, OFF being −80.0 dB; a talk path that
dips is at −80.0 dB with the new source and begins its way back (R104); one whose ramp does not run is left as it is. -/
def Ingredient.completed (ms : Nat) (i j : Ingredient) : Prop :=
  (i.level.ramp.running = false → j = i)
    ∧ (i.level.ramp.running = true → i.dipTo = none →
        j = { i with level := { i.level with
          applied := (match i.level.target with | .off => -160 | .half h => h),
          ramp := { i.level.ramp with done := i.level.ramp.len, running := false } } })
    ∧ ∀ src, i.level.ramp.running = true → i.dipTo = some src →
        j = { i with
          carries := some src, dipTo := none,
          level := { i.level with
            applied := -160, ramp := { start := -160, len := ms * 48, done := 0, running := true } } }

/-- A list of ingredients after the completion of the ramp of identity `x`: the others stay, one with target OFF whose ramp ran
leaves (R78), and any other of that identity is completed. -/
def completedList (ms : Nat) (x : Ident) (is js : List Ingredient) : Prop :=
  (∀ i ∈ is, (i.ident ≠ x → i ∈ js)
    ∧ (i.ident = x → ¬ (i.level.ramp.running = true ∧ i.level.target = .off) → ∃ j ∈ js, i.completed ms j))
  ∧ ∀ j ∈ js, (j ∈ is ∧ j.ident ≠ x)
    ∨ ∃ i ∈ is, i.ident = x ∧ ¬ (i.level.ramp.running = true ∧ i.level.target = .off) ∧ i.completed ms j

/-- The cue gain of a place after its ramp has been completed. -/
def CuePlace.completed (c : CuePlace) : CuePlace :=
  if c.level.ramp.running then
    { c with level := { c.level with
      applied := (match c.level.target with | .off => -160 | .half h => h),
      ramp := { c.level.ramp with done := c.level.ramp.len, running := false } } }
  else c

/-- A cue place after one audio frame: its cue gain and its members moved (R53, R98). -/
def CuePlace.framed (ms : Nat) (c d : CuePlace) : Prop :=
  d.selection = c.selection ∧ c.level.moves d.level (match c.level.target with | .off => -160 | .half h => h)
    ∧ framedList ms c.members d.members

/-- The samples of one audio frame: of each studio source, line, party input and return. -/
structure Signals where
  source : Source → Int
  line : Party → Int
  input : Party → Int
  ret : Party → Int

/-- A slot of a port delivers samples: the port is LOCKED and the slot enabled (R95, R163). -/
def State.hasSignal (s : State) (x : PortId) (slot : Nat) : Prop := (s.port x).sync = .locked ∧ ((s.port x).slot slot).enable

/-- The sample that an ingredient brings to a sum, before its gain (R76, R95). -/
def Signals.of (g : Signals) (input : Party → Int) (i : Ingredient) : Int :=
  match i.ident with
  | .source n => g.source n
  | .party q => input q
  | .talk _ => match i.carries with | some n => g.source n | none => 0

/-- The sum of ingredients, each at its applied gain (R79), not held to 24 bits (log entry 50). -/
def Signals.sum (g : Signals) (input : Party → Int) (is : List Ingredient) : Int :=
  (is.map fun i => atGain i.level.applied (g.of input i)).sum

/-- What a place of a cue brings to its output, at its cue gain (R53, R97, R98); not held to 24 bits (log entry 50). -/
def Signals.cue (g : Signals) : Option CuePlace → Int
  | none => 0
  | some c => atGain c.level.applied (match c.selection with
      | .input p => g.input p
      | .ret p => g.ret p
      | .group _ => g.sum g.input c.members)

/-- The samples of the frame that leads from `s` to `t`. A slot without signal is silent, and one with signal brings its word
of the inbound frame in its format (R95, R157, R163); without an inbound frame a LOCKED port brings what the manual leaves open
(log entry 10). The return of a party in LOOPTEST stands for its line, silent while its loop source is (R84). A return is the
sum of its ingredients, held in its slot's format (R79); a return of LOOPTEST that still holds the input of another party in
LOOPTEST takes the return of the frame before (log entry 13). -/
def State.signals (s t : State) (g : Signals) : Prop :=
  (∀ n, (¬ s.hasSignal .sp n.val → g.source n = 0)
    ∧ ∀ b, s.hasSignal .sp n.val → s.ports.sp.inbound = some b →
        g.source n = (s.ports.sp.slot n.val).format.decode (b.extractLsb' (472 - 24 * n.val) 24))
  ∧ (∀ p, (¬ s.hasSignal (portOf p) (slotIndexOf p) → g.line p = 0)
    ∧ ∀ b, s.hasSignal (portOf p) (slotIndexOf p) → (s.port (portOf p)).inbound = some b →
        g.line p = (s.partySlot p).format.decode (b.extractLsb' (472 - 32 * slotIndexOf p) 24))
  ∧ (∀ p, ((s.party p).state ≠ .looptest → g.input p = g.line p)
    ∧ ∀ n, (s.party p).state = .looptest → (s.party p).loopSource = some n →
        (s.hasSignal .sp n.val → g.input p = g.ret p) ∧ (¬ s.hasSignal .sp n.val → g.input p = 0))
  ∧ t.rmix.lastReturns = tab g.ret
  ∧ ∀ p, ∃ input : Party → Int,
    (∀ q, (s.party p).state ≠ .looptest ∨ (s.party q).state ≠ .looptest → input q = g.input q)
    ∧ (∀ q n, (s.party p).state = .looptest → (s.party q).state = .looptest → (s.party q).loopSource = some n →
        (s.hasSignal .sp n.val → input q = row s.rmix.lastReturns q) ∧ (¬ s.hasSignal .sp n.val → input q = 0))
    ∧ g.ret p = (s.partySlot p).format.hold (g.sum input (t.ret p).ingredients)

/-- What a slot of an outbound frame carries: nothing where it is disabled, and else the sample in the slot's format, held at
full scale, with the signalling word of a line-side slot (R79, R155, R157). -/
def SlotSetting.drives (c : SlotSetting) (x : Int) (w : Option Byte) : Option OutSlot :=
  if c.enable then some { audio := c.format.encode (c.format.hold x), signalling := w } else none

/-! ### Laws -/

/-- The law of the event queues (R173): at most 48 events. -/
def State.eventLaw (s : State) : Prop := ∀ k, (s.link k).events.length ≤ 48

/-- The law of the returns (R77): return n holds no ingredient PARTY n. -/
def State.returnLaw (s : State) : Prop := ∀ p, ∀ i ∈ (s.ret p).ingredients, i.ident ≠ .party p

/-- The law of a party record: which optional fields its state makes present (R2), its signal-out (R6, R21), its lock and
pending handover (R2, R120, R123), its timers and its counters (R28). -/
def PartyRec.lawful (r : PartyRec) : Prop :=
  (r.state ∈ [.vacant, .alerting, .fault] → r.owner = none)
    ∧ (r.state ∈ [.screening, .queued, .onAir, .clearing, .looptest] → r.owner.isSome)
    ∧ (r.lock → r.owner.isSome)
    ∧ (∀ h, r.handover = some h → r.state.answered ∧ r.owner.isSome ∧ r.owner ≠ some h.requester)
    ∧ (r.loopSource.isSome ↔ r.state = .looptest)
    ∧ (r.park.isSome → r.state = .parked ∧ r.owner.isSome)
    ∧ (r.realert.isSome → r.state = .alerting)
    ∧ (r.clear.isSome → r.state = .clearing ∨ r.state = .vacant)
    ∧ r.signalOut = (if r.state = .vacant ∧ r.clear.isSome then .clear else r.state.signal)
    ∧ r.callSeconds ≤ 65535 ∧ r.airSeconds ≤ r.callSeconds ∧ r.alertCount ≤ 255 ∧ r.reminders ≤ 15

/-- Every party record is lawful, and no handover is pending on a party whose owner is AWAY (R121 line 9, R135). -/
def State.recordLaw (s : State) : Prop :=
  ∀ p, (s.party p).lawful
    ∧ ∀ k, (s.party p).handover.isSome → (s.party p).owner = some k → (s.link k).away = false

/-- An entry stands ahead of another: a higher priority, or the same priority and an earlier arrival (R106). -/
def TalkEntry.ahead (a b : TalkEntry) : Prop := b.priority < a.priority ∨ (a.priority = b.priority ∧ a.arrival < b.arrival)

/-- The law of the talkback lists (R105, R106): one entry per link, in order, and none outside PARKED, QUEUED and
ON_AIR; every arrival is that of a TALK already taken. -/
def State.talkLaw (s : State) : Prop :=
  ∀ p, (s.talkList p).Pairwise TalkEntry.ahead ∧ ((s.talkList p).map fun e => e.link).Nodup
    ∧ (s.talkList p ≠ [] → (s.party p).state.talkable) ∧ ∀ e ∈ s.talkList p, e.arrival < s.tarb.arrivals

/-- The law of the places (R54, R58, R64): a party stands in at most one ready queue, once, exactly while it is QUEUED, and
on at most one air slot exactly while it is ON_AIR; a queue holds at most 12. -/
def State.placesLaw (s : State) : Prop :=
  (s.stud.queueA ++ s.stud.queueB).Nodup
    ∧ (∀ p, p ∈ s.stud.queueA ++ s.stud.queueB ↔ (s.party p).state = .queued)
    ∧ (∀ p, (∃ n o, row s.stud.slots n = some o ∧ o.party = p) ↔ (s.party p).state = .onAir)
    ∧ (∀ n m o w, row s.stud.slots n = some o → row s.stud.slots m = some w → o.party = w.party → n = m)
    ∧ s.stud.queueA.length ≤ 12 ∧ s.stud.queueB.length ≤ 12

/-- The law of the groups (R43): every member is SCREENING and owned by the group's owner, a group holds at most 8
parties, each once, and a party belongs to at most one group. -/
def State.groupLaw (s : State) : Prop :=
  ∀ g, (s.group g).members.Nodup ∧ (s.group g).members.length ≤ 8
    ∧ ((s.group g).members = [] ↔ (s.group g).owner = none)
    ∧ (∀ p ∈ (s.group g).members, (s.party p).state = .screening ∧ (s.party p).owner = (s.group g).owner
        ∧ ∀ h, p ∈ (s.group h).members → h = g)

/-- The order of the ingredient lists (R77): identity order, each identity at most once. -/
def State.listLaw (s : State) : Prop :=
  ∀ p, (s.ret p).ingredients.Pairwise fun i j => identCode i.ident < identCode j.ident

/-- The law of the links (R169, R171): at most 4 requests in the buffer, and at most 4 OVERRUN responses that have not
begun. -/
def State.bufferLaw (s : State) : Prop :=
  ∀ k, (s.link k).requests.length ≤ 4 ∧ ((s.link k).waiting.filter Response.isOverrun).length ≤ 4

/-- The law of the region table (R142, R150): a PARTIES entry runs over 1 to 24 parties and not past party 23, and a locked
entry is valid. -/
def State.regionLaw (s : State) : Prop :=
  ∀ i, ((s.region i).locked = true → (s.region i).valid = true)
    ∧ ∀ f n, (s.region i).cover = .parties f n → 1 ≤ n ∧ f + n ≤ 24

/-- Entry `i` with the content of `r` covers some party or some studio that entry `j` covers (R149). -/
def State.covers (s : State) (r : Region) (j : Fin 8) : Prop :=
  (∃ p, r.coversParty p = true ∧ (s.region j).coversParty p = true)
    ∨ ∃ x, r.coversStudio x = true ∧ (s.region j).coversStudio x = true

/-- The entry at index `i` is locked with the content of `r` (R150). -/
def State.lockedAs (s : State) (i : Fin 8) (r : Region) : Prop := s.region i = r ∧ r.locked = true

/-! ### The requests -/

/-- The link, the tag, the code and the taking of a request command (11.2); `none` for the commands that are no
request. -/
def asked : Instr → Option (Link × Byte × Byte × (State → Answer))
  | .unknownRequest k tag code => some (k, tag, code, fun s => refuse s .unknownRequest)
  | .ansr k tag a => some (k, tag, 0x01, askAnsr k a)
  | .park k tag a => some (k, tag, 0x02, askPark k a)
  | .queu k tag a b => some (k, tag, 0x03, askQueu k a b)
  | .airp k tag a => some (k, tag, 0x04, askAirp k a)
  | .next k tag a => some (k, tag, 0x05, askNext k a)
  | .offa k tag a => some (k, tag, 0x06, askOffa k a)
  | .unqu k tag a => some (k, tag, 0x07, askUnqu k a)
  | .move k tag a b => some (k, tag, 0x08, askMove k a b)
  | .rlse k tag a => some (k, tag, 0x09, askRlse k a)
  | .loop k tag a b => some (k, tag, 0x0A, askLoop k a b)
  | .lend k tag a => some (k, tag, 0x0B, askLend k a)
  | .prst k tag a => some (k, tag, 0x0C, askPrst k a)
  | .sknd k tag a b => some (k, tag, 0x0D, askSknd k a b)
  | .join k tag a b => some (k, tag, 0x10, askJoin k a b)
  | .leav k tag a => some (k, tag, 0x11, askLeav k a)
  | .lstn k tag a b => some (k, tag, 0x12, askLstn k a b)
  | .gain k tag a b c d => some (k, tag, 0x13, askGain k a b c d)
  | .talk k tag a b c d => some (k, tag, 0x18, askTalk k a b c d)
  | .tend k tag a b => some (k, tag, 0x19, askTend k a b)
  | .stlk k tag a b c d => some (k, tag, 0x1A, askStlk k a b c d)
  | .take k tag a => some (k, tag, 0x20, askTake k a)
  | .give k tag a b => some (k, tag, 0x21, askGive k a b)
  | .keep k tag a b => some (k, tag, 0x22, askKeep k a b)
  | .tcan k tag a => some (k, tag, 0x23, askTcan k a)
  | .lock k tag a => some (k, tag, 0x24, askLock k a)
  | .ulck k tag a => some (k, tag, 0x25, askUlck k a)
  | .away k tag a => some (k, tag, 0x26, askAway k a)
  | .sreg k tag a b c d e f g h i => some (k, tag, 0x28, askSreg k a b c d e f g h i)
  | .lreg k tag a => some (k, tag, 0x29, askLreg k a)
  | .rdrg k tag a b => some (k, tag, 0x2A, askRdrg k a b)
  | .sprt k tag a b c => some (k, tag, 0x30, askSprt k a b c)
  | .ssrc k tag a b => some (k, tag, 0x31, askSsrc k a b)
  | .shld k tag a b => some (k, tag, 0x32, askShld k a b)
  | .splt k tag a => some (k, tag, 0x33, askSplt k a)
  | .sflr k tag a b => some (k, tag, 0x34, askSflr k a b)
  | .stim k tag a b c d e f g => some (k, tag, 0x35, askStim k a b c d e f g)
  | .spat k tag a b c d e f g => some (k, tag, 0x36, askSpat k a b c d e f g)
  | .emsk k tag a => some (k, tag, 0x38, askEmsk k a)
  | .ftch k tag a => some (k, tag, 0x39, askFtch k a)
  | .atcf k tag a b => some (k, tag, 0x3A, askAtcf k a b)
  | .lrst k tag => some (k, tag, 0x3B, askLrst k)
  | .idnt k tag => some (k, tag, 0x3C, askIdnt k)
  | .rdpy k tag a => some (k, tag, 0x40, askRdpy k a)
  | .rdqu k tag a => some (k, tag, 0x41, askRdqu k a)
  | .rdrt k tag a b => some (k, tag, 0x42, askRdrt k a b)
  | .rdpt k tag => some (k, tag, 0x43, askRdpt)
  | .powerOnReset _ _ | .linkFrameReceived _ _ | .responseSent _ | .audioFrame | .rampComplete _
  | .inboundFrame _ _ | .missingClockCheck | .syncFound _ | .syncLost _ _ | .graceTimerExpiry _ | .qualify _ _
  | .signalReport _ _ | .realertTimerExpiry _ | .clearTimerExpiry _ | .oneSecondMark | .parkTimerExpiry _
  | .grantTimerExpiry _ | .shortWordClockPeriod | .resetAsserted => none

end Sys2Proof.Machine
end

