-- ==== Sys2Proof/Certificates/Slice0/Obligations.lean ====
section
/-! DEFINITION. The statements for the provers, one `def Obligations.<Name> : Prop` each. -/

open Sys2Proof Sys2Proof.Machine

/-! ### The queue, the reset pin and the links -/

/-- A step takes the command at the front of the queue and runs it on the state with the queue's rest. -/
def Obligations.StepRunsTheFrontCommand : Prop :=
  ∀ (c : Instr) (rest : List Instr) (s : State), s.pending = c :: rest → step s = exec c { s with pending := rest }

/-- On an empty queue a step takes what is due inside the part, else lets one millisecond of TBASE pass: running timers
count down, the millisecond count goes on, from 999 to 0 with a one-second mark, and a millisecond without a word-clock
edge makes the 1 ms check due (the model's choice, log entry 2). Due are, in this order (the model's choice, log entry 32), the
report that has waited longest (log entry 52), the 1 ms check, the one-second mark, the grace timer of a port at 0, ports in the
order LP0, LP1, SP, and a timer at 0 of the lowest party that has one, its re-alert, clear, park and grant timer in this order;
and nothing else. -/
def Obligations.EmptyQueueLetsTimePass : Prop :=
  (∀ s : State, s.pending = [] →
    (∀ c, s.dueCommand = some c → step s = exec c s)
      ∧ (s.dueCommand = none → ∃ t, step s = .next t
          ∧ (∀ p, t.party p = { s.party p with
              realert := (s.party p).realert.map (· - 1), clear := (s.party p).clear.map (· - 1),
              park := (s.party p).park.map (· - 1),
              handover := (s.party p).handover.map fun h => { h with left := h.left - 1 } })
          ∧ (∀ x, t.port x = { s.port x with grace := (s.port x).grace.map (· - 1) })
          ∧ t.tbase.ms = (if 999 ≤ s.tbase.ms then 0 else s.tbase.ms + 1)
          ∧ (t.tbase.markDue ↔ s.tbase.markDue ∨ 999 ≤ s.tbase.ms)
          ∧ (t.tbase.checkDue ↔ s.tbase.checkDue ∨ s.tbase.edgeSeen = false) ∧ t.tbase.edgeSeen = false
          ∧ t = { s with parties := t.parties, ports := t.ports, tbase := t.tbase }))
  ∧ ∀ s : State,
    (∀ r rest, s.smon.reports = r :: rest → s.dueCommand = some (.signalReport r.party r.meaning))
    ∧ (s.smon.reports = [] →
      (s.tbase.checkDue = true → s.dueCommand = some .missingClockCheck)
      ∧ (s.tbase.checkDue = false → s.tbase.markDue = true → s.dueCommand = some .oneSecondMark)
      ∧ (s.tbase.checkDue = false → s.tbase.markDue = false →
        (∀ x, (s.port x).grace = some 0 → (∀ y, portCode y < portCode x → (s.port y).grace ≠ some 0) →
          s.dueCommand = some (.graceTimerExpiry x))
        ∧ ((∀ x, (s.port x).grace ≠ some 0) →
          (∀ p, (s.party p).runOut → (∀ q, q < p → ¬ (s.party q).runOut) →
            s.dueCommand = some (
              if (s.party p).realert = some 0 then .realertTimerExpiry p
              else if (s.party p).clear = some 0 then .clearTimerExpiry p
              else if (s.party p).park = some 0 then .parkTimerExpiry p
              else .grantTimerExpiry p))
          ∧ ((∀ p, ¬ (s.party p).runOut) → s.dueCommand = none))))

/-- POWER_ON_RESET gives every party record, monitor record, pattern, group, queue, air slot, source, return, cue, talk
setting, talkback list, region, port and link its power-on value, and no report of SMON waits. The commands that wait in the
queue stay (the model's choice, log entry 37). -/
def Obligations.PowerOnResetGivesThePowerOnValues : Prop :=
  ∀ (supv baud : BitVec 2) (s : State), ∃ t, exec (.powerOnReset supv baud) s = .next t
    ∧ (∀ p, (t.party p).state = .vacant ∧ (t.party p).kind = .line ∧ t.inService p = false ∧ (t.party p).owner = none
        ∧ (t.party p).lock = false ∧ t.studioOf p = none ∧ t.positionOf p = none ∧ t.slotOf p = none
        ∧ t.airGainOf p = none ∧ t.groupOf p = none ∧ (t.party p).loopSource = none ∧ (t.party p).callSeconds = 0
        ∧ (t.party p).airSeconds = 0 ∧ (t.party p).alertCount = 0 ∧ (t.party p).handover = none
        ∧ (t.party p).reminders = 0 ∧ (t.party p).signalOut = .idle ∧ (t.party p).realert = none
        ∧ (t.party p).clear = none ∧ (t.party p).park = none
        ∧ t.monitor p = { candidate := none, matchCount := 0, qualified := none }
        ∧ t.ret p = { ingredients := [], active := none } ∧ t.talkList p = [])
    ∧ (∀ i, row t.smon.patterns i
        = { valid := false, key := 0, mask := 0, meaning := .seize, appliesTo := .both, count := 1 })
    ∧ (∀ g, t.group g = { members := [], owner := none })
    ∧ (∀ x, t.queue x = [] ∧ t.floor x = 0) ∧ (∀ n, row t.stud.slots n = none) ∧ t.stud.split = 4
    ∧ (∀ n, t.source n = { inA := false, inB := false, gainA := .off, gainB := .off })
    ∧ (∀ k, t.cue k = { current := none, previous := none }
        ∧ t.settings k = { source := none, gain := .half 0, maxPriority := 7 })
    ∧ t.rmix.holdSource = none ∧ t.rmix.holdGain = .half 0
    ∧ (∀ i, (t.region i).valid = false ∧ (t.region i).cover = .parties 0 1 ∧ (t.region i).locked = false
        ∧ ∀ k, row (t.region i).perms k = { view := false, control := false, talk := false })
    ∧ (∀ x, (t.port x).enable = false ∧ (t.port x).sync = .disabled ∧ (t.port x).aligned = 0
        ∧ (t.port x).missed = 0 ∧ (t.port x).grace = none ∧ (t.port x).slots.length = slotsOf x
        ∧ ∀ c ∈ (t.port x).slots, c = { enable := false, format := .lin24 })
    ∧ (∀ k, t.link k = { requests := [], sending := none, waiting := [], events := [], mask := ClassSet.all,
                         summaries := ClassSet.empty, overflow := false, attnEnable := true, attnThreshold := 1,
                         away := false } ∧ t.attn k = false)
    ∧ t.times = { ramp := 20, datk := 5, drel := 150, talr := 6, tprk := 45, nprk := 3, tgiv := 5 }
    ∧ t.smon.reports = [] ∧ t.resetHeld = false ∧ t.pending = s.pending

/-- IDNT from any link is accepted, changes nothing, and answers part code 6A24h, revision 01h, the supervisor link and the
requesting link. The straps sampled at the release of RESET name the supervisor link and the link rate, and no other command
changes them. -/
def Obligations.IdntAnswersTheSupervisorThatTheStrapsNamed : Prop :=
  (∀ (k : Link) (tag : Byte) (s : State),
    exec (.idnt k tag) s
      = .next ((accept s [0x6A, 0x24, 0x01, byte s.supervisor.val, byte k.val]).deliver k tag 0x3C))
  ∧ (∀ (supv baud : BitVec 2) (s : State), ∃ t, exec (.powerOnReset supv baud) s = .next t
    ∧ t.supervisor.val = (if supv.toNat = 3 then 0 else supv.toNat)
    ∧ (baud.toNat = 0 → t.rate = .bps115200) ∧ (baud.toNat = 1 → t.rate = .bps230400)
    ∧ (baud.toNat = 2 → t.rate = .bps460800) ∧ (baud.toNat = 3 → t.rate = .bps921600))
  ∧ ∀ (c : Instr) (s t : State), exec c s = .next t → (∀ supv baud, c ≠ .powerOnReset supv baud) →
      t.supervisor = s.supervisor ∧ t.rate = s.rate

/-- Every request is answered, on its own link, with its own tag and code; a request that is not accepted changes nothing
else and offers no event, and its response is the status byte alone. A code that names no request is
answered UNKNOWN_REQUEST. -/
def Obligations.EveryRequestIsAnsweredAndARefusedOneChangesNothing : Prop :=
  (∀ (c : Instr) (k : Link) (tag code : Byte) (ask : State → Answer) (s : State), asked c = some (k, tag, code, ask) →
    exec c s = .next ((ask s).deliver k tag code)
      ∧ ((ask s).reply.status ≠ .ok → (ask s).reply.status ≠ .pending →
          (ask s).state = s ∧ (ask s).reply.data = []))
  ∧ ∀ (k : Link) (tag code : Byte) (s : State),
    exec (.unknownRequest k tag code) s
      = .next (({ state := s, reply := { status := .unknownRequest, data := [] } } : Answer).deliver k tag code)
    ∧ ∀ payload, code ∉ requestCodes →
        askRequest k { tag := tag, code := code, payload := payload } s = refuse s .unknownRequest

/-- A response begins to be sent where nothing is being sent and nothing waits, and joins the tail of the list else; it
changes nothing but its link's transmitter. -/
def Obligations.AResponseJoinsTheTailOrBegins : Prop :=
  ∀ (a : Answer) (k : Link) (tag code : Byte),
    let r : Response := { tag := tag, code := code, payload := byte (statusCode a.reply.status) :: a.reply.data }
    let t := a.deliver k tag code
    t = { a.state with links := t.links } ∧ (∀ j, j ≠ k → t.link j = a.state.link j)
      ∧ t.link k = { a.state.link k with sending := (t.link k).sending, waiting := (t.link k).waiting }
      ∧ ((a.state.link k).sending = none ∧ (a.state.link k).waiting = [] →
          (t.link k).sending = some r ∧ (t.link k).waiting = [])
      ∧ (¬ ((a.state.link k).sending = none ∧ (a.state.link k).waiting = []) →
          (t.link k).sending = (a.state.link k).sending ∧ (t.link k).waiting = (a.state.link k).waiting ++ [r])

/-- A request frame as a position sends it is read back as it was: for every tag, code and payload of at most 64 bytes,
the stuffed bytes with their CRC hold no flag byte and are accepted as that request. A receiver that runs the CRC register
over any bytes and their two CRC bytes, high byte first, ends at 0000h. -/
def Obligations.ARequestFrameIsReadBackAsItWasSent : Prop :=
  (∀ bs : List Byte, crc (bs ++ [byte ((crc bs).toNat / 256), byte ((crc bs).toNat % 256)]) = 0)
  ∧ ∀ (s : State) (tag code : Byte) (payload : List Byte), payload.length ≤ 64 → s.resetHeld = false →
    let body := [0x01, tag, code, byte payload.length] ++ payload
    let bytes := stuff (body ++ [byte ((crc body).toNat / 256), byte ((crc body).toNat % 256)])
    flagByte ∉ bytes
      ∧ s.received { bytes := bytes, framingError := false, begunInReset := false }
          = some { tag := tag, code := code, payload := payload }

/-- A frame with a framing error, begun before RESET was released, with an escape byte that no stuffed value follows, with
a kind other than REQ, with a length field above 64 or other than the payload's length, or with a CRC that does not
match leaves no trace. RESET driven low changes nothing but that, from then on, the links take in no frame (that nothing else
changes while it is low is the model's choice, log entry 23). -/
def Obligations.ADiscardedFrameLeavesNoTrace : Prop :=
  (∀ (k : Link) (f : RawFrame) (s : State),
    f.framingError = true ∨ f.begunInReset = true ∨ unstuff f.bytes = none
      ∨ (∃ bs, unstuff f.bytes = some bs ∧ (bs.length < 6 ∨ bs[0]? ≠ some 0x01
          ∨ (∃ n : Byte, bs[3]? = some n ∧ (64 < n.toNat ∨ bs.length ≠ n.toNat + 6)) ∨ crc bs ≠ 0)) →
    exec (.linkFrameReceived k f) s = .next s)
  ∧ ∀ s : State, ∃ t, exec .resetAsserted s = .next t ∧ t = { s with resetHeld := true }
    ∧ ∀ (k : Link) (f : RawFrame), exec (.linkFrameReceived k f) t = .next t

/-- An accepted frame whose link is free to take it is taken in the moment it arrives, and its response is formed in the
same taking; LRST of length 0 is taken whatever the buffer holds. A frame that arrives while an earlier response waits
unbegun joins the buffer while that holds fewer than 4; with 4 it is answered OVERRUN ahead of every response to a taken
request and behind the earlier OVERRUN responses; and with 4 OVERRUN responses waiting it leaves no trace. -/
def Obligations.AnAcceptedFrameIsTakenBufferedOrRefused : Prop :=
  (∀ (k : Link) (f : RawFrame) (r : Request) (s : State), s.received f = some r →
    (r.code = 0x3B ∧ r.payload = [] →
      exec (.linkFrameReceived k f) s = .next ((askLrst k s).deliver k r.tag 0x3B))
    ∧ (¬ (r.code = 0x3B ∧ r.payload = []) → (s.link k).requests = [] →
        ((s.link k).waiting.all fun x => x.isOverrun) = true →
      exec (.linkFrameReceived k f) s = .next ((askRequest k r s).deliver k r.tag r.code)))
  ∧ ∀ (k : Link) (f : RawFrame) (r : Request) (s : State), s.received f = some r →
    ¬ (r.code = 0x3B ∧ r.payload = []) → (s.link k).sending.isSome →
    ((s.link k).waiting.all fun x => x.isOverrun) = false →
      ((s.link k).requests.length < 4 →
        exec (.linkFrameReceived k f) s
          = .next (s.setLink k { s.link k with requests := (s.link k).requests ++ [r] }))
      ∧ (4 ≤ (s.link k).requests.length → ((s.link k).waiting.filter Response.isOverrun).length < 4 →
        exec (.linkFrameReceived k f) s
          = .next (s.setLink k { s.link k with
              waiting := (s.link k).waiting.filter Response.isOverrun
                ++ [{ tag := r.tag, code := r.code, payload := [0x11] }]
                ++ (s.link k).waiting.filter fun x => !x.isOverrun }))
      ∧ (4 ≤ (s.link k).requests.length → 4 ≤ ((s.link k).waiting.filter Response.isOverrun).length →
        exec (.linkFrameReceived k f) s = .next s)

/-- A response that ends lets the next one begin; where no response to an earlier request then waits unbegun, the link takes
the request at the head of its buffer, and goes on taking for as long as it may. Where nothing is being sent nothing ends (log
entry 37). -/
def Obligations.ResponseSentBeginsTheNextAndTakesARequest : Prop :=
  (∀ (k : Link) (s : State), (s.link k).sending = none → exec (.responseSent k) s = .next s)
  ∧ ∀ (k : Link) (s : State) (now : Response), (s.link k).sending = some now →
    let begun := s.setLink k { s.link k with sending := (s.link k).waiting.head?, waiting := (s.link k).waiting.tail }
    ((s.link k).requests = [] ∨ ((s.link k).waiting.tail.all fun x => x.isOverrun) = false →
      exec (.responseSent k) s = .next begun)
    ∧ ∀ r rest, (s.link k).requests = r :: rest → ((s.link k).waiting.tail.all fun x => x.isOverrun) = true →
      exec (.responseSent k) s
        = .next (((askRequest k r (begun.setLink k { begun.link k with requests := rest })).deliver k r.tag
            r.code).takeRequests k rest.length)

/-! ### Parties and their calls -/

/-- An accepted ANSR takes an ALERTING party to SCREENING, owned by the answering link with the lock no, both counters 0,
the re-alert timer stopped and signal-out ANSWER, and offers ANSWERED naming that link. The party then hears the screening
feed. -/
def Obligations.AnsrTakesARingingPartyToScreening : Prop :=
  ∀ (k : Link) (tag b : Byte) (p : Party) (s : State), partyArg b = some p → s.controls k p = true →
    (s.party p).state = .alerting → ∃ t, exec (.ansr k tag b) s = .next ((accept t []).deliver k tag 0x01)
      ∧ t.party p = { s.party p with
          state := .screening, owner := some k, lock := false, callSeconds := 0, airSeconds := 0, loopSource := none,
          signalOut := .answer, realert := none, clear := none, park := none }
      ∧ t.stud = s.stud ∧ t.conf = s.conf ∧ t.talkList p = [] ∧ s.partyFrame t p
      ∧ s.offersFirst t p { partyEvent .answered p with link := some k } (s.party p).owner (some k)
      ∧ (s.groupLaw → t.hears p)

/-- An accepted PARK, OFFA or UNQU takes the party to PARKED: out of its group, its ready queue or its air slot, the owner,
the lock, the talkback list and a pending handover kept, and the park timer started for TPRK with reminder count 0. -/
def Obligations.ParkOffaAndUnquPark : Prop :=
  ∀ (c : Instr) (k : Link) (tag b code : Byte) (p : Party) (s : State), partyArg b = some p →
    (c = .park k tag b ∧ code = 0x02 ∧ s.controls k p = true ∧ (s.party p).owner = some k
        ∧ ((s.party p).state = .screening ∨ (s.party p).state = .queued ∨ (s.party p).state = .onAir))
      ∨ (c = .offa k tag b ∧ code = 0x06 ∧ (s.party p).state = .onAir
        ∧ (s.controlsItsStudio k p = true ∨ (s.party p).owner = some k))
      ∨ (c = .unqu k tag b ∧ code = 0x07 ∧ (s.party p).state = .queued
        ∧ (s.controlsItsStudio k p = true ∨ (s.party p).owner = some k)) →
    ∃ t, exec c s = .next ((accept t []).deliver k tag code)
      ∧ t.party p = { s.party p with
          state := .parked, loopSource := none, signalOut := .answer, realert := none, clear := none,
          park := some (s.times.tprk * 1000), reminders := 0 }
      ∧ s.removed t p ∧ t.talkList p = s.talkList p ∧ s.partyFrame t p
      ∧ (s.placesLaw → s.offersFirst t p
          { partyEvent .state p with
            studio := s.studioOf p, group := if (s.party p).state = .screening then s.groupOf p else none,
            value1 := some 3, value2 := some (stateCode (s.party p).state) }
          (s.party p).owner (s.party p).owner)

/-- An accepted QUEU takes a SCREENING or PARKED party to the tail of the named studio's ready queue and answers the new
count, one byte (log entry 48); an orphan becomes the queuing link's with the lock no, and another owner stays. An owner's
QUEU of a party whose park timer runs leaves its reminder count at 0. STATE, QUEUE_CHANGED JOINED and, for an orphan,
OWNER_CHANGED are offered, in this order, and no other event; the party then hears the studio's mix. -/
def Obligations.QueuPutsAPartyAtTheTail : Prop :=
  ∀ (k : Link) (tag b d : Byte) (p : Party) (x : Studio) (s : State), partyArg b = some p → studioArg d = some x →
    s.controlsStudio k x = true → (s.party p).owner = some k ∨ s.controls k p = true →
    (s.party p).state = .screening ∨ (s.party p).state = .parked → (s.queue x).length < 12 →
    ∃ t, exec (.queu k tag b d) s = .next ((accept t [byte ((s.queue x).length + 1)]).deliver k tag 0x03)
      ∧ t.party p = { (s.party p).named k s.times.tprk with
          state := .queued, owner := if (s.party p).owner = none then some k else (s.party p).owner,
          lock := if (s.party p).owner = none then false else (s.party p).lock, loopSource := none,
          signalOut := .answer, realert := none, clear := none, park := none }
      ∧ t.queue x = s.queue x ++ [p] ∧ (∀ y, y ≠ x → t.queue y = s.queue y) ∧ t.stud.slots = s.stud.slots
      ∧ ((s.party p).state = .screening → s.outOfGroup t p) ∧ ((s.party p).state ≠ .screening → t.conf = s.conf)
      ∧ t.talkList p = s.talkList p ∧ s.partyFrame t p
      ∧ (s.placesLaw → t.hears p ∧
          let left := if (s.party p).state = .screening then s.groupOf p else none
          let both : Link → Bool := fun j => (s.party p).owner == some j || (t.party p).owner == some j
          s.offersExactly t (
            [{ event := { partyEvent .state p with
                 studio := some x, group := left, value1 := some 4, value2 := some (stateCode (s.party p).state) },
               receives := fun j => s.views j p || both j },
             { event := { partyEvent .queueChanged p with
                 studio := some x, link := some k, value1 := some 0x35,
                 value2 := some ((s.queue x).length + 1) },
               receives := fun j => s.views j p || s.viewsStudio j x || both j }]
            ++ if (s.party p).owner = none then
                [{ event := { partyEvent .ownerChanged p with
                     link := some k, group := left, value1 := some 0xFFFF, value2 := some 0x42 },
                   receives := fun j => s.views j p || j == k }]
              else []))

/-- An accepted AIRP takes the named QUEUED party, and an accepted NEXT the head of the named queue, to the lowest-numbered
free slot of the studio's share at an air gain of 0.0 dB; both answer the slot, and NEXT the party before it, one byte each
(log entry 48). STATE, QUEUE_CHANGED LEFT, AIR_SLOT TAKEN and, where the studio's floor stands above the first talk entry,
TALK_HELD FLOOR are offered, in this order, and no other event. Every party QUEUED or ON_AIR in the studio then hears the
studio's mix less its own input. -/
def Obligations.AirpAndNextTakeAPartyToAir : Prop :=
  ∀ (c : Instr) (k : Link) (tag b code : Byte) (data : List Byte) (p : Party) (x : Studio) (n : AirSlot) (s : State),
    (c = .airp k tag b ∧ code = 0x04 ∧ data = [byte n.val] ∧ partyArg b = some p ∧ s.queueOf p = some x)
      ∨ (c = .next k tag b ∧ code = 0x05 ∧ data = [byte p.val, byte n.val] ∧ studioArg b = some x
        ∧ (s.queue x).head? = some p) →
    s.controlsStudio k x = true → (s.party p).state = .queued →
    s.studioOfSlot n = x → row s.stud.slots n = none →
    (∀ m, m < n → s.studioOfSlot m = x → (row s.stud.slots m).isSome) →
    ∃ t, exec c s = .next ((accept t data).deliver k tag code)
      ∧ t.party p = { s.party p with
          state := .onAir, loopSource := none, signalOut := .answer, realert := none, clear := none, park := none }
      ∧ t.stud = { s.stud with
          queueA := s.stud.queueA.filter (· != p), queueB := s.stud.queueB.filter (· != p),
          slots := put s.stud.slots n (some { party := p, gain := .half 0 }) }
      ∧ t.conf = s.conf ∧ t.talkList p = s.talkList p ∧ s.partyFrame t p
      ∧ (s.placesLaw → (∀ q, (t.party q).state = .queued ∨ (t.party q).state = .onAir → t.studioOf q = some x → t.hears q)
        ∧ (s.talkLaw →
          let owner : Link → Bool := fun j => (s.party p).owner == some j
          s.offersExactly t (
            [{ event := { partyEvent .state p with studio := some x, value1 := some 5, value2 := some 4 },
               receives := fun j => s.views j p || owner j },
             { event := { partyEvent .queueChanged p with
                 studio := some x, link := some k, value1 := some 0x37, value2 := some 0 },
               receives := fun j => s.views j p || s.viewsStudio j x || owner j },
             { event := { partyEvent .airSlot p with
                 studio := some x, link := some k, value1 := some n.val, value2 := some 0x38 },
               receives := fun j => s.views j p || s.viewsStudio j x || owner j }]
            ++ match (s.talkList p).head? with
              | none => []
              | some e =>
                if e.priority < s.floor x then
                  [{ event := { partyEvent .talkHeld p with
                       link := some e.link, value1 := some e.priority, value2 := some 0x3B },
                     receives := fun j => j == e.link || owner j }]
                else [])))

/-- An accepted RLSE takes an answered party to CLEARING with its owner kept: out of every collection, the talkback list
empty, no handover pending, the lock no, signal-out CLEAR, the park timer stopped, a reminder count of a running one at 0,
and the clear timer started for 3 s. STATE, then QUEUE_CHANGED LEFT or AIR_SLOT FREED for the place left, TALK_ENDED for
each entry in list order, and TAKE_RESULT GONE for a handover are offered, in this order, and no other event; the party
hears nothing any more. -/
def Obligations.RlseClearsTheCallDown : Prop :=
  ∀ (k : Link) (tag b : Byte) (p : Party) (s : State), partyArg b = some p → s.controls k p = true →
    (s.party p).state.answered = true → (s.party p).owner = some k →
    ∃ t, exec (.rlse k tag b) s = .next ((accept t []).deliver k tag 0x09)
      ∧ t.party p = { (s.party p).named k s.times.tprk with
          state := .clearing, lock := false, handover := none, loopSource := none, signalOut := .clear,
          realert := none, clear := some 3000, park := none }
      ∧ s.removed t p ∧ t.talkList p = [] ∧ s.partyFrame t p
      ∧ t.hears p
      ∧ (s.placesLaw →
          let owner : Link → Bool := fun j => j == k
          s.offersExactly t (
            [{ event := { partyEvent .state p with
                 studio := s.studioOf p, group := if (s.party p).state = .screening then s.groupOf p else none,
                 value1 := some 6, value2 := some (stateCode (s.party p).state) },
               receives := fun j => s.views j p || owner j }]
            ++ (match s.queueOf p with
              | none => []
              | some x =>
                [{ event := { partyEvent .queueChanged p with
                     studio := some x, link := some k, value1 := some 0x37, value2 := some 0 },
                   receives := fun j => s.views j p || s.viewsStudio j x || owner j }])
            ++ (match s.slotOf p with
              | none => []
              | some n =>
                [{ event := { partyEvent .airSlot p with
                     studio := some (s.studioOfSlot n), link := some k, value1 := some n.val, value2 := some 0x39 },
                   receives := fun j => s.views j p || s.viewsStudio j (s.studioOfSlot n) || owner j }])
            ++ ((s.talkList p).map fun e =>
                { event := { partyEvent .talkEnded p with
                    link := some e.link, value1 := some 6, value2 := some e.priority },
                  receives := fun j => j == e.link || owner j })
            ++ match (s.party p).handover with
              | none => []
              | some h => [s.resultOf p h.requester 0x4B (some k)]))

/-- An accepted LOOP puts a VACANT party in service under loop test, owned by the requesting link, with a clear period
ended. LEND is refused WRONG_STATE where the party is not under loop test and NOT_OWNER where the link does not own it; its
owner's LEND is accepted whatever the regions and ends the test with LOOP_ENDED, cause LEND, new state VACANT. -/
def Obligations.LoopBeginsALoopTestAndLendEndsIt : Prop :=
  ∀ (k : Link) (tag b d : Byte) (p : Party) (s : State), partyArg b = some p →
    (∀ src, sourceArg d = some src → s.controls k p = true → (s.party p).state = .vacant → s.inService p = true →
      ∃ t, exec (.loop k tag b d) s = .next ((accept t []).deliver k tag 0x0A)
        ∧ t.party p = { s.party p with
            state := .looptest, owner := some k, lock := false, loopSource := some src, signalOut := .idle,
            realert := none, clear := none, park := none }
        ∧ t.stud = s.stud ∧ t.conf = s.conf ∧ t.talkList p = [] ∧ s.partyFrame t p
        ∧ (s.placesLaw → s.offersFirst t p { partyEvent .state p with value1 := some 7, value2 := some 0 }
            (s.party p).owner (some k)))
    ∧ ((s.party p).state ≠ .looptest →
      exec (.lend k tag b) s = .next ((refuse s .wrongState).deliver k tag 0x0B))
    ∧ ((s.party p).state = .looptest → (s.party p).owner ≠ some k →
      exec (.lend k tag b) s = .next ((refuse s .notOwner).deliver k tag 0x0B))
    ∧ ((s.party p).state = .looptest → (s.party p).owner = some k →
      ∃ t, exec (.lend k tag b) s = .next ((accept t []).deliver k tag 0x0B)
        ∧ t.party p = { s.party p with
            state := .vacant, owner := none, lock := false, handover := none, loopSource := none,
            signalOut := .idle, realert := none, clear := none, park := none }
        ∧ t.stud = s.stud ∧ t.conf = s.conf ∧ t.talkList p = [] ∧ s.partyFrame t p
        ∧ s.offersFirst t p { partyEvent .loopEnded p with value1 := some 0x33, value2 := some 0 } (some k) none)

/-- An accepted PRST takes a party in any state to VACANT, out of every collection, and starts the clear period: signal-out
CLEAR, the clear timer at 3 s; where the supervisor owns the party and its park timer runs, the reminder count is 0 (the model's
choice, log entry 51); the event depends on the state left, and a party left in VACANT offers none. A party out of service starts
its clear period too (log entry 55). -/
def Obligations.PrstReturnsAPartyToVacant : Prop :=
  ∀ (tag b : Byte) (p : Party) (s : State), partyArg b = some p → s.controls s.supervisor p = true →
    ∃ t, exec (.prst s.supervisor tag b) s = .next ((accept t []).deliver s.supervisor tag 0x0C)
      ∧ t.party p = { (s.party p).named s.supervisor s.times.tprk with
          state := .vacant, owner := none, lock := false, handover := none, loopSource := none, signalOut := .clear,
          realert := none, clear := some 3000, park := none }
      ∧ s.removed t p ∧ t.talkList p = [] ∧ s.partyFrame t p
      ∧ ((s.party p).state.onCall = true → s.offersFirst t p
          { partyEvent .cleared p with
            cause := 3, group := if (s.party p).state = .screening then s.groupOf p else none,
            value1 := some (s.party p).callSeconds, value2 := some (s.party p).airSeconds } (s.party p).owner none)
      ∧ ((s.party p).state = .alerting ∨ (s.party p).state = .fault → s.placesLaw → s.offersFirst t p
          { partyEvent .state p with value1 := some 0, value2 := some (stateCode (s.party p).state) }
          (s.party p).owner none)
      ∧ ((s.party p).state = .looptest → s.offersFirst t p
          { partyEvent .loopEnded p with value1 := some 0x32, value2 := some 0 } (s.party p).owner none)
      ∧ ((s.party p).state = .vacant → s.placesLaw → s.talkLaw → s.recordLaw → s.offersExactly t [])

/-- An accepted SKND writes the kind of a VACANT party and restarts its match count, and changes nothing else. -/
def Obligations.SkndSetsTheKind : Prop :=
  ∀ (tag b d : Byte) (p : Party) (kd : Kind) (s : State), partyArg b = some p → kindArg d = some kd →
    s.controls s.supervisor p = true → (s.party p).state = .vacant →
    ∃ t, exec (.sknd s.supervisor tag b d) s = .next ((accept t []).deliver s.supervisor tag 0x0D)
      ∧ t = { s with parties := t.parties, smon := { s.smon with monitors := t.smon.monitors } }
      ∧ t.party p = { s.party p with kind := kd } ∧ s.otherParties t p
      ∧ t.monitor p = { s.monitor p with matchCount := 0 } ∧ ∀ q, q ≠ p → t.monitor q = s.monitor q

/-- An accepted MOVE puts a QUEUED party at the named position of its queue, or at the tail where that lies beyond the
count, with the relative order of the others kept, and answers the position, one byte (log entry 48); QUEUE_CHANGED MOVED is
offered where the place has changed, and nothing where it has not. -/
def Obligations.MoveReordersAQueue : Prop :=
  ∀ (k : Link) (tag b d : Byte) (p : Party) (x : Studio) (s : State), partyArg b = some p → 1 ≤ d.toNat →
    (s.party p).state = .queued → s.queueOf p = some x → (s.queue x).Nodup → s.controlsStudio k x = true →
    let place := min d.toNat (s.queue x).length
    ∃ t, exec (.move k tag b d) s = .next ((accept t [byte place]).deliver k tag 0x08)
      ∧ (t.queue x).idxOf p + 1 = place ∧ (t.queue x).length = (s.queue x).length
      ∧ (t.queue x).filter (· != p) = (s.queue x).filter (· != p) ∧ (∀ y, y ≠ x → t.queue y = s.queue y)
      ∧ t = { s with stud := { s.stud with queueA := t.stud.queueA, queueB := t.stud.queueB }, links := t.links }
      ∧ s.offersExactly t
          (if (s.queue x).idxOf p + 1 = place then []
           else [{ event := { partyEvent .queueChanged p with
                     studio := some x, link := some k, value1 := some 0x36, value2 := some place },
                   receives := fun j => s.views j p || s.viewsStudio j x || (s.party p).owner == some j }])

/-! ### Groups, studios and cues -/

/-- An accepted JOIN of a party already in the named group changes nothing; any other puts the party at the tail of the
group, out of the group it was in, an empty group taking the requesting link as its owner. The response carries the group,
the position, the members and the group left, 0 where none was (for a party already in the named group the model's reading,
log entry 17), each number one byte (log entry 48). Every member then hears the others at 0.0 dB and its owner's talk
path. -/
def Obligations.JoinPutsAPartyAtTheTailOfAGroup : Prop :=
  ∀ (k : Link) (tag b d : Byte) (p : Party) (g : Group) (s : State), partyArg b = some p → groupArg d = some g →
    s.controls k p = true → (s.party p).state = .screening → (s.party p).owner = some k →
    (s.group g).members = [] ∨ (s.group g).owner = some k →
    (p ∈ (s.group g).members →
      exec (.join k tag b d) s = .next ((accept s
        ([d, byte ((s.group g).members.idxOf p + 1), byte (s.group g).members.length]
          ++ (s.group g).members.map (fun q => byte q.val) ++ [0])).deliver k tag 0x10))
    ∧ (p ∉ (s.group g).members → (s.group g).members.length < 8 →
      ∃ t, exec (.join k tag b d) s = .next ((accept t
          ([d, byte ((s.group g).members.length + 1), byte ((s.group g).members.length + 1)]
            ++ ((s.group g).members ++ [p]).map (fun q => byte q.val)
            ++ [match s.groupOf p with | some h => byte (h.val + 1) | none => 0])).deliver k tag 0x10)
        ∧ t.group g = { members := (s.group g).members ++ [p],
                        owner := if (s.group g).members = [] then some k else (s.group g).owner }
        ∧ (∀ h, h ≠ g → p ∉ (s.group h).members → t.group h = s.group h)
        ∧ (∀ h, h ≠ g → p ∈ (s.group h).members → (t.group h).members = (s.group h).members.filter (· != p)
            ∧ (t.group h).owner = if (t.group h).members = [] then none else (s.group h).owner)
        ∧ t = { s with conf := t.conf, rmix := t.rmix } ∧ s.sameHold t
        ∧ (s.groupLaw → ∀ q ∈ (t.group g).members, t.hears q))

/-- An accepted LEAV takes a SCREENING party out of its group and answers the group left and the members that remain, one
byte each (log entry 48); the party's record stays as it is. -/
def Obligations.LeavTakesAPartyOutOfItsGroup : Prop :=
  ∀ (k : Link) (tag b : Byte) (p : Party) (g : Group) (s : State), partyArg b = some p → s.controls k p = true →
    (s.party p).state = .screening → (s.party p).owner = some k → s.groupOf p = some g →
    ∃ t, exec (.leav k tag b) s
        = .next ((accept t [byte (g.val + 1), byte (t.group g).members.length]).deliver k tag 0x11)
      ∧ s.outOfGroup t p ∧ t.groupOf p = none ∧ t = { s with conf := t.conf, rmix := t.rmix } ∧ s.sameHold t

/-- An accepted LSTN of a selection other than the current one drops the previous one, makes the current one the previous on
its way to OFF, and lets the new one rise to 0.0 dB from −80.0 dB or from where it stood as the previous one; the current
selection named again changes nothing. A party named by its owner has its park timer restarted. -/
def Obligations.LstnSetsTheCueSelection : Prop :=
  ∀ (k : Link) (tag b d : Byte) (want : Option Selection) (s : State),
    (∃ p, b = 0 ∧ partyArg d = some p ∧ s.mayRead k p = true ∧ want = some (.input p))
      ∨ (∃ p, b = 1 ∧ partyArg d = some p ∧ s.mayRead k p = true ∧ want = some (.ret p))
      ∨ (∃ g, b = 2 ∧ groupArg d = some g ∧ want = some (.group g)) ∨ (b = 3 ∧ d = 0xFF ∧ want = none) →
    ∃ t, exec (.lstn k tag b d) s = .next ((accept t []).deliver k tag 0x12)
      ∧ t = { s with rmix := { s.rmix with cues := t.rmix.cues }, parties := t.parties }
      ∧ (∀ j, j ≠ k → t.cue j = s.cue j)
      ∧ (∀ p, want = some (.input p) ∨ want = some (.ret p) → s.onlyNamed t k p)
      ∧ ((∀ p, want ≠ some (.input p) ∧ want ≠ some (.ret p)) → t.parties = s.parties)
      ∧ ((s.cue k).current.map (fun c => c.selection) = want → t.cue k = s.cue k)
      ∧ ((s.cue k).current.map (fun c => c.selection) ≠ want →
          ((s.cue k).current = none → (t.cue k).previous = none)
          ∧ (∀ old, (s.cue k).current = some old → ∃ w, (t.cue k).previous = some w
              ∧ w.selection = old.selection ∧ w.level.target = .off ∧ w.level.applied = old.level.applied)
          ∧ (want = none → (t.cue k).current = none)
          ∧ (∀ x, want = some x → ∃ w, (t.cue k).current = some w ∧ w.selection = x ∧ w.level.target = .half 0
              ∧ (∀ old, (s.cue k).previous = some old → old.selection = x →
                  w.level.applied = old.level.applied)
              ∧ ((∀ old, (s.cue k).previous = some old → old.selection ≠ x) → w.level.applied = -160)))

/-- An accepted GAIN sets the air gain of a member source in the named studio, or of a party ON_AIR in it, and answers it; a
gain in force changes nothing. A changed one is heard in the return of every party QUEUED or ON_AIR in the studio but the named
one; the returns that do not hear the studio, and the named party's own, are not touched. -/
def Obligations.GainSetsAnAirGain : Prop :=
  ∀ (k : Link) (tag b d code : Byte) (x : Studio) (g : Gain) (s : State), studioArg b = some x →
    gainArg code = some g → s.controlsStudio k x = true →
    (∀ n, sourceArg d = some n → (s.source n).inStudio x = true →
      ∃ t, exec (.gain k tag b 0 d code) s = .next ((accept t [code]).deliver k tag 0x13)
        ∧ (t.source n).gainIn x = g ∧ (∀ y, y ≠ x → (t.source n).gainIn y = (s.source n).gainIn y)
        ∧ (∀ y, (t.source n).inStudio y = (s.source n).inStudio y) ∧ (∀ m, m ≠ n → t.source m = s.source m)
        ∧ t = { s with stud := { s.stud with sources := t.stud.sources }, rmix := t.rmix } ∧ s.sameHold t
        ∧ ((s.source n).gainIn x = g → t = s)
        ∧ (∀ p, ¬ (((s.party p).state = .queued ∨ (s.party p).state = .onAir) ∧ s.studioOf p = some x) →
            t.ret p = s.ret p)
        ∧ (s.placesLaw → ∀ q, (s.party q).state = .queued ∨ (s.party q).state = .onAir → s.studioOf q = some x →
            (s.source n).gainIn x ≠ g ∨ s.hears q → t.hears q))
    ∧ (∀ p n o, partyArg d = some p → (s.party p).state = .onAir → s.slotOf p = some n → s.studioOfSlot n = x →
      row s.stud.slots n = some o →
      ∃ t, exec (.gain k tag b 1 d code) s = .next ((accept t [code]).deliver k tag 0x13)
        ∧ row t.stud.slots n = some { party := p, gain := g }
        ∧ (∀ m, m ≠ n → row t.stud.slots m = row s.stud.slots m)
        ∧ t = { s with stud := { s.stud with slots := t.stud.slots }, rmix := t.rmix } ∧ s.sameHold t
        ∧ (o.gain = g → t = s) ∧ t.ret p = s.ret p
        ∧ (∀ q, ¬ (((s.party q).state = .queued ∨ (s.party q).state = .onAir) ∧ s.studioOf q = some x) →
            t.ret q = s.ret q)
        ∧ (s.placesLaw → ∀ q, (s.party q).state = .queued ∨ (s.party q).state = .onAir → s.studioOf q = some x →
            (o.gain ≠ g ∧ q ≠ p) ∨ s.hears q → t.hears q))

/-- An accepted SSRC sets a source's membership and keeps its two air gains; every party QUEUED or ON_AIR in a studio whose
membership changes then hears the new mix. The returns of the studios whose membership is as it was, and of parties that hear no
mix, are not touched, and they go on hearing their feeds. -/
def Obligations.SsrcSetsAMembership : Prop :=
  ∀ (tag b d : Byte) (n : Source) (inA inB : Bool) (s : State), sourceArg b = some n →
    membershipArg d = some (inA, inB) → ((s.source n).inA = inA ∨ s.controlsStudio s.supervisor .a = true) →
    ((s.source n).inB = inB ∨ s.controlsStudio s.supervisor .b = true) →
    ∃ t, exec (.ssrc s.supervisor tag b d) s = .next ((accept t []).deliver s.supervisor tag 0x31)
      ∧ t.source n = { s.source n with inA := inA, inB := inB } ∧ (∀ m, m ≠ n → t.source m = s.source m)
      ∧ t = { s with stud := { s.stud with sources := t.stud.sources }, rmix := t.rmix } ∧ s.sameHold t
      ∧ (∀ p, (∀ x, s.studioOf p = some x → (s.source n).inStudio x = (t.source n).inStudio x) →
          t.ret p = s.ret p)
      ∧ (s.placesLaw → ∀ q x, (s.party q).state = .queued ∨ (s.party q).state = .onAir → s.studioOf q = some x →
          (s.source n).inStudio x ≠ (t.source n).inStudio x ∨ s.hears q → t.hears q)

/-- An accepted SPLT sets the air split, while no party is ON_AIR, and changes nothing else. -/
def Obligations.SpltSetsTheAirSplit : Prop :=
  ∀ (tag b : Byte) (s : State), b.toNat ≤ 8 → s.controlsStudio s.supervisor .a = true →
    s.controlsStudio s.supervisor .b = true → (∀ p, (s.party p).state ≠ .onAir) →
    exec (.splt s.supervisor tag b) s
      = .next ((accept { s with stud := { s.stud with split := b.toNat } } []).deliver s.supervisor tag 0x33)

/-- An accepted SFLR sets the named studio's air talk floor and takes no entry off a list. The active entry of each party ON_AIR
in the studio is worked out afresh: one that the floor holds back offers TALK_HELD FLOOR, one that comes in offers TALK_ACTIVE,
and no other event is offered. The returns of the parties that are not ON_AIR in the studio stay as they were, and the floor in
force changes nothing. -/
def Obligations.SflrSetsTheAirTalkFloor : Prop :=
  ∀ (tag b d : Byte) (x : Studio) (s : State), studioArg b = some x → d.toNat ≤ 8 →
    s.controlsStudio s.supervisor x = true →
    ∃ t, exec (.sflr s.supervisor tag b d) s = .next ((accept t []).deliver s.supervisor tag 0x34)
      ∧ t.floor x = d.toNat ∧ (∀ y, y ≠ x → t.floor y = s.floor y)
      ∧ t = { s with
          stud := { s.stud with floorA := t.stud.floorA, floorB := t.stud.floorB }, links := t.links, rmix := t.rmix }
      ∧ s.sameHold t
      ∧ (∀ p, ¬ ((s.party p).state = .onAir ∧ s.studioOf p = some x) → t.ret p = s.ret p)
      ∧ (∀ p, (s.party p).state = .onAir → s.studioOf p = some x →
          (t.ret p).active = (t.activeEntry p).map fun e => { link := e.link, depth := e.depth })
      ∧ (∃ os, s.offersExactly t os ∧ ∀ o ∈ os, (o.event.kind = .talkActive ∨ o.event.kind = .talkHeld)
          ∧ ∃ p, o.event.subject = .party p ∧ (s.party p).state = .onAir ∧ s.studioOf p = some x)
      ∧ (s.talkLaw →
        (∀ p, (s.party p).state = .onAir → s.studioOf p = some x →
          t.activeEntry p = (s.talkList p).head?.filter fun e => d.toNat ≤ e.priority)
        ∧ s.offersExactly t ((allParties.filter fun p => (s.party p).state == .onAir && s.studioOf p == some x).flatMap
            fun p =>
              match s.activeEntry p, t.activeEntry p with
              | some e, none =>
                [{ event := { partyEvent .talkHeld p with
                     link := some e.link, value1 := some e.priority, value2 := some 0x3B },
                   receives := fun j => j == e.link || (s.party p).owner == some j }]
              | none, some e =>
                [{ event := { partyEvent .talkActive p with
                     link := some e.link, value1 := some e.priority, value2 := some (depthCode e.depth) },
                   receives := fun j => j == e.link || (s.party p).owner == some j }]
              | _, _ => []))
      ∧ (s.floor x = d.toNat → t.links = s.links ∧ t.stud = s.stud
        ∧ ∀ p, ((s.ret p).active = (s.activeEntry p).map fun e => { link := e.link, depth := e.depth }) →
            t.ret p = s.ret p)

/-! ### Talkback -/

/-- An accepted TALK puts one entry of the requesting link, with the capped priority, the depth and the latest arrival, on
the list of every party of the target set that is PARKED, QUEUED or ON_AIR and on which the link holds TALK: behind every
entry of its priority or a higher one, in place of the link's old entry. The response opens with the five counts, one byte
each (log entry 48). -/
def Obligations.TalkPutsAnEntryOnEveryPartyItReaches : Prop :=
  ∀ (k : Link) (tag b d n dep : Byte) (target : TalkTarget) (depth : Depth) (s : State),
    targetArg b d = some target → n.toNat ≤ 7 → depthArg dep = some depth → (s.settings k).source.isSome = true →
    let reached := fun p => s.inTarget k p target = true ∧ (s.party p).state.talkable = true
      ∧ (s.partyPerms k p).talk = true
    let e : TalkEntry :=
      { link := k, priority := min n.toNat (s.settings k).maxPriority, depth := depth, arrival := s.tarb.arrivals }
    ∃ t data, exec (.talk k tag b d n dep) s = .next ((accept t data).deliver k tag 0x18)
      ∧ (∀ p, reached p → (t.party p = (s.party p).named k s.times.tprk
          ∧ ∃ l m, t.talkList p = l ++ e :: m ∧ (s.talkList p).filter (fun x => x.link != k) = l ++ m
            ∧ (∀ x ∈ l, e.priority ≤ x.priority) ∧ (∀ x ∈ m.head?, x.priority < e.priority)))
      ∧ (∀ p, ¬ reached p → t.party p = s.party p ∧ t.talkList p = s.talkList p ∧ t.ret p = s.ret p)
      ∧ t = { s with
          parties := t.parties, tarb := { s.tarb with lists := t.tarb.lists, arrivals := s.tarb.arrivals + 1 },
          links := t.links, rmix := t.rmix }
      ∧ s.onlyOffers t ∧ s.sameHold t
      ∧ data.take 2 = [byte (s.targetSet k target).length,
          byte ((s.targetSet k target).filter (s.talkReaches k)).length]
      ∧ (data.drop 2).take 3
          = [byte (((s.targetSet k target).filter (s.talkReaches k)).filter fun p =>
                ((t.activeEntry p).map fun a => a.link) == some k).length,
             byte ((s.targetSet k target).filter fun p => !(s.party p).state.talkable).length,
             byte ((s.targetSet k target).filter fun p =>
                (s.party p).state.talkable && !(s.partyPerms k p).talk).length]

/-- A TALK to a PARKED or QUEUED party whose list is empty is heard: its entry is active, TALK_ACTIVE goes to the link and to
the party's owner, every ingredient of the feed takes its feed gain lowered by the duck depth, the link's talk path takes
its talk gain, and every other identity takes OFF. -/
def Obligations.TalkIsHeardAndDucksTheFeed : Prop :=
  ∀ (k : Link) (tag d n dep : Byte) (p : Party) (depth : Depth) (src : Source) (h : Int) (s : State),
    partyArg d = some p → n.toNat ≤ 7 → depthArg dep = some depth → (s.partyPerms k p).talk = true →
    (s.party p).state = .parked ∨ (s.party p).state = .queued → s.talkList p = [] → (s.ret p).active = none →
    (s.settings k).source = some src → (s.settings k).gain = .half h → ((s.feed p).map fun w => w.ident).Nodup →
    ∃ t data, exec (.talk k tag 0 d n dep) s = .next ((accept t data).deliver k tag 0x18)
      ∧ (t.ret p).active = some { link := k, depth := depth }
      ∧ (∀ i ∈ (t.ret p).ingredients,
          (i.ident = .talk k → i.level.target = .half h)
          ∧ (∀ w ∈ s.feed p, w.ident = i.ident → i.level.target = depth.lower w.gain)
          ∧ (i.ident ≠ .talk k → (∀ w ∈ s.feed p, w.ident ≠ i.ident) → i.level.target = .off))
      ∧ (∃ i ∈ (t.ret p).ingredients, i.ident = .talk k)
      ∧ (∀ w ∈ s.feed p, depth ≠ .full → ∃ i ∈ (t.ret p).ingredients, i.ident = w.ident)
      ∧ s.offersExactly t
          [{ event := { partyEvent .talkActive p with
               link := some k, value1 := some (min n.toNat (s.settings k).maxPriority),
               value2 := some (depthCode depth) },
             receives := fun j => j == k || (s.party p).owner == some j }]

/-- An accepted TEND takes the requesting link's entry off the list of every party of the target set, answers the size of
the set and the number removed, one byte each (log entry 48), and needs no permission. -/
def Obligations.TendRemovesTheLinksEntries : Prop :=
  ∀ (k : Link) (tag b d : Byte) (target : TalkTarget) (s : State), targetArg b d = some target →
    ∃ t, exec (.tend k tag b d) s
        = .next ((accept t [byte (s.targetSet k target).length,
            byte ((s.targetSet k target).filter fun p => (s.talkList p).any fun e => e.link == k).length]).deliver k tag
              0x19)
      ∧ (∀ p, s.inTarget k p target = true → t.talkList p = (s.talkList p).filter (fun e => e.link != k)
          ∧ ((s.talkList p).any (fun e => e.link == k) = true → t.party p = (s.party p).named k s.times.tprk)
          ∧ ((s.talkList p).any (fun e => e.link == k) = false → t.party p = s.party p))
      ∧ (∀ p, ¬ (s.inTarget k p target = true) →
          t.party p = s.party p ∧ t.talkList p = s.talkList p ∧ t.ret p = s.ret p)
      ∧ t = { s with
          parties := t.parties, tarb := { s.tarb with lists := t.tarb.lists }, links := t.links, rmix := t.rmix }
      ∧ s.onlyOffers t ∧ s.sameHold t

/-- An accepted STLK sets the three talk settings of the named link and answers them, the priority in one byte (log entry
48); the lists and the other links' settings stay, and the settings in force change nothing. A changed source or gain is
heard in the return of every SCREENING party that the link owns, of every return on which it holds the active entry, and of
every return that holds its talk path; the other returns stay and go on hearing their feeds. The talk path takes its new
target over RAMP, and where the source passes from one to another it dips: it goes over RAMP to −80.0 dB with the old
source, for the new one. One that falls to OFF dips too, and falls on as it does where the source does not pass from one to
another (log entry 41); one that carries the new source already does not dip (log entry 53). -/
def Obligations.StlkSetsALinksTalkSettings : Prop :=
  ∀ (tag b c d n : Byte) (j : Link) (src : Option Source) (g : Gain) (s : State), linkArg b = some j →
    sourceOrNoneArg c = some src → gainArg d = some g → n.toNat ≤ 7 →
    ∃ t, exec (.stlk s.supervisor tag b c d n) s = .next ((accept t [c, d, n]).deliver s.supervisor tag 0x1A)
      ∧ t.settings j = { source := src, gain := g, maxPriority := n.toNat } ∧ (∀ i, i ≠ j → t.settings i = s.settings i)
      ∧ t = { s with tarb := { s.tarb with settings := t.tarb.settings }, rmix := t.rmix } ∧ s.sameHold t
      ∧ t.rmix.cues = s.rmix.cues ∧ ((s.settings j).source = src → (s.settings j).gain = g → t.rmix = s.rmix)
      ∧ (let concerned := fun p => ((s.party p).state = .screening ∧ (s.party p).owner = some j)
          ∨ (s.ret p).active.map (fun a => a.link) = some j ∨ ∃ i ∈ (s.ret p).ingredients, i.ident = .talk j
        let changed := (s.settings j).source ≠ src ∨ (s.settings j).gain ≠ g
        (∀ p, ¬ concerned p → t.ret p = s.ret p) ∧ (∀ p, (t.ret p).active = (s.ret p).active)
        ∧ (s.placesLaw → s.groupLaw → ∀ p,
            ((changed ∧ concerned p) ∨ s.hears p → t.hears p)
            ∧ (changed → ∀ i ∈ (s.ret p).ingredients, i.ident = .talk j → i.dipTo = none →
                let goal := t.targetOf p (.talk j)
                let level : Level :=
                  { target := goal, applied := i.level.applied,
                    ramp := { start := i.level.applied, len := s.times.ramp * 48, done := 0, running := true } }
                (goal ≠ i.level.target →
                  src = i.carries ∨ (goal = .off
                    ∧ ((s.settings j).source = none ∨ src = none ∨ (s.settings j).source = src)) →
                  { i with level := level } ∈ (t.ret p).ingredients)
                ∧ (goal = .off → i.level.target = .off →
                    (s.settings j).source = none ∨ src = none ∨ (s.settings j).source = src → i ∈ (t.ret p).ingredients)
                ∧ (∀ a b, i.carries = some a → (s.settings j).source = some a → src = some b → a ≠ b →
                  { i with level := level, dipTo := some b } ∈ (t.ret p).ingredients))))

/-! ### Ownership -/

/-- An accepted TAKE: of the link's own party, outcome OWNER; of an orphan, and of an unlocked party whose owner is AWAY, an
immediate transfer with outcome GRANTED; of a locked party by the supervisor, the override; of any other, a handover asked
of the owner, answered PENDING, with the grant timer started for TGIV. A pending handover answers BUSY, and a lock LOCKED.
The owner in a response is one byte, FFh for NONE (log entry 44), and so is TGIV (log entry 48). -/
def Obligations.TakeFollowsItsLines : Prop :=
  ∀ (k : Link) (tag b : Byte) (p : Party) (s : State), partyArg b = some p → s.controls k p = true →
    (s.party p).state.answered = true →
    ((s.party p).owner = some k →
      ∃ t, exec (.take k tag b) s = .next ((accept t [0x4F]).deliver k tag 0x20)
        ∧ s.writes t p ((s.party p).named k s.times.tprk) [])
    ∧ ((s.party p).owner = none →
      ∃ t, exec (.take k tag b) s
          = .next ((accept t [0x48, byte (stateCode (s.party p).state), 0xFF]).deliver k tag 0x20)
        ∧ s.passes t p k 0x38 [] [])
    ∧ ∀ o, (s.party p).owner = some o → o ≠ k →
      ((s.party p).handover.isSome → exec (.take k tag b) s = .next ((refuse s .busy).deliver k tag 0x20))
      ∧ ((s.party p).handover = none → (s.party p).lock = true → k = s.supervisor →
        ∃ t, exec (.take k tag b) s = .next ((accept t [0x50, byte o.val]).deliver k tag 0x20)
          ∧ s.passes t p k 0x41 []
              [{ event := { partyEvent .overridden p with
                   link := some k, value1 := some (stateCode (s.party p).state) },
                 receives := fun j => j == o }])
      ∧ ((s.party p).handover = none → (s.party p).lock = true → k ≠ s.supervisor →
        exec (.take k tag b) s = .next ((refuse s .locked).deliver k tag 0x20))
      ∧ ((s.party p).handover = none → (s.party p).lock = false → (s.link o).away = true →
        ∃ t, exec (.take k tag b) s
            = .next ((accept t [0x48, byte (stateCode (s.party p).state), byte o.val]).deliver k tag 0x20)
          ∧ s.passes t p k 0x3D [] [])
      ∧ ((s.party p).handover = none → (s.party p).lock = false → (s.link o).away = false →
        ∃ t, exec (.take k tag b) s
            = .next (({ state := t, reply := { status := .pending, data := [byte o.val, byte s.times.tgiv] } }
                : Answer).deliver k tag 0x20)
          ∧ s.writes t p
              { s.party p with handover := some { requester := k, left := s.times.tgiv * 1000 } }
              [{ event := { partyEvent .takeAsked p with
                   link := some k, value1 := some s.times.tgiv, value2 := some (stateCode (s.party p).state) },
                 receives := fun j => j == o }])

/-- A pending handover ends: by the owner's GIVE with GRANTED and by the grant timer with TIMEOUT_GRANTED, the party passing to
the requester where it still holds CONTROL, and with DENIED_REGION, the owner staying, where it does not; by the owner's KEEP
with DENIED and by the requester's TCAN with CANCELLED, the owner staying. TCAN is refused BAD_ARGUMENT for a number that is
no party, and NO_HANDOVER for a party on which no handover of the link is pending. A stopped grant timer does not expire. -/
def Obligations.AHandoverEndsByGiveKeepTcanOrTheGrantTimer : Prop :=
  (∀ (k : Link) (tag b : Byte) (s : State),
    (partyArg b = none → exec (.tcan k tag b) s = .next ((refuse s .badArgument).deliver k tag 0x23))
    ∧ ∀ p, partyArg b = some p → (∀ h, (s.party p).handover = some h → h.requester ≠ k) →
        exec (.tcan k tag b) s = .next ((refuse s .noHandover).deliver k tag 0x23))
  ∧ (∀ (p : Party) (s : State), (s.party p).handover = none → exec (.grantTimerExpiry p) s = .next s)
  ∧ ∀ (k : Link) (tag b d : Byte) (p : Party) (h : Handover) (s : State), partyArg b = some p →
    (s.party p).handover = some h → (s.party p).owner = some k → linkArg d = some h.requester → h.requester ≠ k →
    let r := h.requester
    (s.controls r p = true →
      (∃ t, exec (.give k tag b d) s = .next ((accept t [0x48]).deliver k tag 0x21)
        ∧ s.passes t p r 0x40 [s.resultOf p r 0x48 (some r)] [])
      ∧ ∃ t, exec (.grantTimerExpiry p) s = .next t ∧ s.passes t p r 0x30 [s.resultOf p r 0x4A (some r)] [])
    ∧ (s.controls r p = false →
      (∃ t, exec (.give k tag b d) s = .next ((accept t [0x4E]).deliver k tag 0x21)
        ∧ s.writes t p (({ s.party p with handover := none } : PartyRec).named k s.times.tprk)
            [s.resultOf p r 0x4E (some k)])
      ∧ ∃ t, exec (.grantTimerExpiry p) s = .next t
        ∧ s.writes t p { s.party p with handover := none } [s.resultOf p r 0x4E (some k)])
    ∧ (∃ t, exec (.keep k tag b d) s = .next ((accept t []).deliver k tag 0x22)
        ∧ s.writes t p (({ s.party p with handover := none } : PartyRec).named k s.times.tprk)
            [s.resultOf p r 0x49 (some k)])
    ∧ ∃ t, exec (.tcan r tag b) s = .next ((accept t []).deliver r tag 0x23)
        ∧ s.writes t p { s.party p with handover := none } [s.resultOf p r 0x4D (some k)]

/-- LOCK and ULCK are refused BAD_ARGUMENT for a number that is no party, WRONG_STATE for a party that is not answered and
NOT_OWNER for a link that does not own it. An accepted LOCK sets the lock and ends a pending handover with LOCKED; an accepted
ULCK sets the lock to no and offers no event. Both are requests of the owner that name the party. -/
def Obligations.LockAndUlckSetTheLock : Prop :=
  ∀ (k : Link) (tag b : Byte) (s : State),
    let refused := fun e : Status => exec (.lock k tag b) s = .next ((refuse s e).deliver k tag 0x24)
      ∧ exec (.ulck k tag b) s = .next ((refuse s e).deliver k tag 0x25)
    (partyArg b = none → refused .badArgument)
    ∧ ∀ p, partyArg b = some p →
      ((s.party p).state.answered = false → refused .wrongState)
      ∧ ((s.party p).state.answered = true → (s.party p).owner ≠ some k → refused .notOwner)
      ∧ ((s.party p).state.answered = true → (s.party p).owner = some k →
        (∃ t, exec (.lock k tag b) s = .next ((accept t []).deliver k tag 0x24)
          ∧ s.writes t p (({ s.party p with handover := none, lock := true } : PartyRec).named k s.times.tprk)
              (match (s.party p).handover with
                | some h => [s.resultOf p h.requester 0x4C (some k)]
                | none => []))
        ∧ ∃ t, exec (.ulck k tag b) s = .next ((accept t []).deliver k tag 0x25)
          ∧ s.writes t p (({ s.party p with lock := false } : PartyRec).named k s.times.tprk) [])

/-- AWAY sets the requesting link's presence. PRESENT changes nothing else. AWAY ends every handover pending on a party of
the link: the party passes to its requester where that still holds CONTROL, and stays where it does not; the response
carries how many were granted and how many denied, one byte each (log entry 48). -/
def Obligations.AwaySetsThePresenceAndGrantsHandovers : Prop :=
  ∀ (k : Link) (tag : Byte) (s : State),
    exec (.away k tag 0) s
        = .next ((accept (s.setLink k { s.link k with away := false }) []).deliver k tag 0x26)
    ∧ ∃ t, exec (.away k tag 1) s
        = .next ((accept t
            [byte (allParties.filter fun p => (s.party p).owner == some k
                && (s.party p).handover.any fun h => s.controls h.requester p).length,
             byte (allParties.filter fun p => (s.party p).owner == some k
                && (s.party p).handover.any fun h => !s.controls h.requester p).length]).deliver k tag 0x26)
      ∧ (t.link k).away = true
      ∧ (∀ p h, (s.party p).owner = some k → (s.party p).handover = some h → s.controls h.requester p = true →
          t.party p = { s.party p with
            owner := some h.requester, lock := false, handover := none,
            park := if (s.party p).state = .parked then some (s.times.tprk * 1000) else (s.party p).park,
            reminders := if (s.party p).state = .parked then 0 else (s.party p).reminders })
      ∧ (∀ p h, (s.party p).owner = some k → (s.party p).handover = some h → s.controls h.requester p = false →
          t.party p = { s.party p with handover := none })
      ∧ (∀ p, (s.party p).owner ≠ some k ∨ (s.party p).handover = none → t.party p = s.party p)
      ∧ (∀ g, (∀ p ∈ (s.group g).members, (s.party p).owner ≠ some k ∨ (s.party p).handover = none) →
          t.group g = s.group g)
      ∧ (s.setLink k { s.link k with away := true }).onlyOffers t
      ∧ t = { s with parties := t.parties, conf := t.conf, links := t.links, rmix := t.rmix } ∧ s.sameHold t

/-! ### Access regions and reads -/

/-- An SREG of the supervisor to an unlocked entry writes valid, range and permissions whole and leaves the locked field, and
answers the entry as stored (absent bytes FFh, log entry 15; laid out as in RDRG, log entry 45), unless the entry shadows a
locked one above it before the write or would shadow it after; then, and for a locked entry, it is refused REGION_LOCKED. An
LREG of a valid entry locks it. -/
def Obligations.SregWritesAnEntryAndLregLocksIt : Prop :=
  ∀ (tag b v kd st f n b0 b1 b2 : Byte) (i : Fin 8) (valid : Bool) (c : Cover) (p0 p1 p2 : Perms) (s : State),
    s.regionLaw → numberArg 8 b = some i →
    (yesNoArg v = some valid → coverArg kd st f n = some c → permsArg b0 = some p0 → permsArg b1 = some p1 →
      permsArg b2 = some p2 →
      let r : Region := { valid := valid, cover := c, perms := #v[p0, p1, p2], locked := false }
      ((s.region i).locked = false →
        (∀ j, i < j → (s.region j).locked = true → ¬ s.covers (s.region i) j ∧ ¬ s.covers r j) →
        ∃ t, exec (.sreg s.supervisor tag b v kd st f n b0 b1 b2) s
            = .next ((accept t
                (v :: (match c with
                    | .parties first count => [0, byte first, byte count, 0xFF]
                    | .studio x => [1, 0, 1, byte (studioCode x)])
                  ++ [b0, b1, b2, 0])).deliver s.supervisor tag 0x28)
          ∧ t = { s with regions := t.regions } ∧ t.region i = r ∧ ∀ j, j ≠ i → t.region j = s.region j)
      ∧ ((s.region i).locked = true
          ∨ (∃ j, i < j ∧ (s.region j).locked = true ∧ (s.covers (s.region i) j ∨ s.covers r j)) →
        exec (.sreg s.supervisor tag b v kd st f n b0 b1 b2) s
          = .next ((refuse s .regionLocked).deliver s.supervisor tag 0x28)))
    ∧ ((s.region i).valid = true →
      ∃ t, exec (.lreg s.supervisor tag b) s = .next ((accept t []).deliver s.supervisor tag 0x29)
        ∧ t = { s with regions := t.regions } ∧ t.region i = { s.region i with locked := true }
        ∧ ∀ j, j ≠ i → t.region j = s.region j)

/-- The reads change nothing, but that RDPY and RDRT are requests of the owner that name the party. Each carries the items
that its rule lists, in the shapes of 11.6, an absent item FFh (log entries 15 and 25): RDPY the party record, the monitor
record and the talkback list with each entry's standing; RDQU the queue, the share (an empty one by log entry 40), its
slots, the floor and the sources; RDRT the state, the active entry and up to 12 ingredients from the index named, the
applied gain rounded to the nearest half decibel, a midway one upward; RDPT the three port records, the count of a line-side
port behind its own slots (log entry 49); RDRG an entry as stored, or the applying entry, its lock and the permissions that
the link holds under it, and for a party whether the link owns it. -/
def Obligations.ReadsChangeNothingButTheOwnersParkTimer : Prop :=
  ∀ (k : Link) (tag b d : Byte) (s : State),
    let portBytes : PortRec → List Byte := fun r =>
      [yesNo r.enable, byte (syncCode r.sync)] ++ bytes16 (if r.sync = .grace then r.grace.getD 0 else 0) ++ slotBytes r.slots
    let inUse : PortId → Byte := fun x =>
      byte (allParties.filter fun p => portOf p == x && (s.party p).state != .vacant).length
    (∀ p, partyArg b = some p → s.views k p = true ∨ (s.party p).owner = some k →
      (∃ t, exec (.rdpy k tag b) s = .next ((accept t (
            [byte (stateCode (s.party p).state), byte (kindCode (s.party p).kind), yesNo (s.inService p),
              optByte ((s.party p).owner.map fun j => j.val), yesNo (s.party p).lock,
              optByte ((s.studioOf p).map studioCode), optByte (s.positionOf p),
              optByte ((s.slotOf p).map fun n => n.val), optByte ((s.airGainOf p).map gainCode),
              optByte ((s.groupOf p).map groupCode), optByte ((s.party p).loopSource.map fun n => n.val)]
            ++ bytes16 (s.party p).callSeconds ++ bytes16 (s.party p).airSeconds
            ++ [byte (s.party p).alertCount, optByte ((s.party p).handover.map fun h => h.requester.val)]
            ++ optBytes16 ((s.party p).handover.map fun h => h.left)
            ++ [byte (s.party p).reminders, byte (signalCode (s.party p).signalOut)]
            ++ [byte (optMeaningCode (s.monitor p).candidate), byte (s.monitor p).matchCount,
              byte (optMeaningCode (s.monitor p).qualified)]
            ++ byte (s.talkList p).length :: (s.talkList p).flatMap fun e =>
                [byte e.link.val, byte e.priority, byte (depthCode e.depth + 4 * (
                  if e.priority < s.talkFloor p then 2 else if s.activeEntry p = some e then 0 else 1))])).deliver k tag
              0x40)
        ∧ s.writes t p ((s.party p).named k s.times.tprk) [])
      ∧ (d.toNat ≤ 41 → ∃ t, exec (.rdrt k tag b d) s = .next ((accept t (
            [byte (stateCode (s.party p).state), byte (s.ret p).ingredients.length, d,
              optByte ((s.activeEntry p).map fun e => e.link.val),
              optByte ((s.activeEntry p).map fun e => depthCode e.depth)]
            ++ (((s.ret p).ingredients.drop d.toNat).take 12).flatMap fun i =>
                [byte (identCode i.ident + if i.level.ramp.running = true then 0x80 else 0),
                  byte (gainCode (.half (i.level.applied + 1 / 2).floor)), byte (gainCode i.level.target)])).deliver k tag
              0x42)
        ∧ s.writes t p ((s.party p).named k s.times.tprk) []))
    ∧ (∀ x, studioArg b = some x → s.viewsStudio k x = true →
      exec (.rdqu k tag b) s = .next ((accept s (
        byte (s.queue x).length :: (List.range 12).map (fun i => optByte ((s.queue x)[i]?.map fun p => p.val))
        ++ (match x with
          | .a => [0, byte s.stud.split]
          | .b => [byte s.stud.split, byte (8 - s.stud.split)])
        ++ allSlots.flatMap (fun n => match row s.stud.slots n with
          | none => [0xFF, 0xFF]
          | some o => if s.studioOfSlot n = x then [byte o.party.val, byte (gainCode o.gain)] else [0xFF, 0xFF])
        ++ [byte (s.floor x)]
        ++ bytes16 (allSources.map fun n => if (s.source n).inStudio x = true then 2 ^ n.val else 0).sum
        ++ allSources.map fun n => byte (gainCode ((s.source n).gainIn x)))).deliver k tag 0x41))
    ∧ (∀ i, numberArg 8 d = some i →
      exec (.rdrg k tag 0 d) s = .next ((accept s (
        yesNo (s.region i).valid :: (match (s.region i).cover with
          | .parties first count => [0, byte first, byte count, 0xFF]
          | .studio x => [1, 0, 1, byte (studioCode x)])
        ++ [byte (permsCode (row (s.region i).perms 0)), byte (permsCode (row (s.region i).perms 1)),
          byte (permsCode (row (s.region i).perms 2)), yesNo (s.region i).locked])).deliver k tag 0x2A))
    ∧ (∀ p, partyArg d = some p →
      let owns : Byte := if (s.party p).owner = some k then 1 else 0
      (∀ i, (s.region i).coversParty p = true → (∀ j, j < i → (s.region j).coversParty p = false) →
        exec (.rdrg k tag 1 d) s = .next ((accept s
          [byte i.val, yesNo (s.region i).locked,
            if k = s.supervisor ∧ (s.region i).locked = false then 7 else byte (permsCode (row (s.region i).perms k)),
            owns]).deliver k tag 0x2A))
      ∧ ((∀ i, (s.region i).coversParty p = false) →
        exec (.rdrg k tag 1 d) s
          = .next ((accept s [0xFF, 0xFF, if k = s.supervisor then 7 else 0, owns]).deliver k tag 0x2A)))
    ∧ (∀ x, studioArg d = some x →
      (∀ i, (s.region i).coversStudio x = true → (∀ j, j < i → (s.region j).coversStudio x = false) →
        exec (.rdrg k tag 2 d) s = .next ((accept s
          [byte i.val, yesNo (s.region i).locked,
            if k = s.supervisor ∧ (s.region i).locked = false then 7
            else byte (permsCode (row (s.region i).perms k))]).deliver k tag 0x2A))
      ∧ ((∀ i, (s.region i).coversStudio x = false) →
        exec (.rdrg k tag 2 d) s
          = .next ((accept s [0xFF, 0xFF, if k = s.supervisor then 7 else 0]).deliver k tag 0x2A)))
    ∧ exec (.rdpt k tag) s = .next ((accept s (
        portBytes s.ports.lp0 ++ [inUse .lp0] ++ portBytes s.ports.lp1 ++ [inUse .lp1]
          ++ portBytes s.ports.sp)).deliver k tag 0x43)

/-! ### Configuration -/

/-- An accepted SPRT writes the port's enable and slot settings whole: an enabled port enters SEEKING and a disabled one
DISABLED, with both runs 0 and a disabled one's grace timer stopped; the monitor record of a party of the port is reset where
the enable changes or the party's slot becomes disabled. The reports that wait are kept (log entry 56). -/
def Obligations.SprtWritesAPort : Prop :=
  ∀ (tag b d : Byte) (bytes : List Byte) (x : PortId) (en : Bool) (ss : List SlotSetting) (s : State),
    portArg b = some x → yesNoArg d = some en → slotsArg (slotsOf x) bytes = some ss →
    (∀ p, portOf p = x → (s.party p).state ≠ .vacant → ∀ c, ss[slotIndexOf p]? = some c →
      ((s.partySlot p).enable = true → c.enable = true) ∧ c.format = (s.partySlot p).format) →
    ((s.port x).enable = true → en = false → ∀ p, portOf p = x → (s.party p).state = .vacant) →
    ∃ t data, exec (.sprt s.supervisor tag b d bytes) s
        = .next ((accept t data).deliver s.supervisor tag 0x30)
      ∧ t = { s with ports := t.ports, smon := { s.smon with monitors := t.smon.monitors } }
      ∧ (∀ y, y ≠ x → t.port y = s.port y)
      ∧ t.port x = { s.port x with
          enable := en, slots := ss,
          sync := if (s.port x).enable = en then (s.port x).sync else if en then .seeking else .disabled,
          aligned := if (s.port x).enable = en then (s.port x).aligned else 0,
          missed := if (s.port x).enable = en then (s.port x).missed else 0,
          grace := if (s.port x).enable = true ∧ en = false then none else (s.port x).grace }
      ∧ (∀ p, t.monitor p
          = if portOf p = x ∧ ((s.port x).enable ≠ en ∨ ((s.partySlot p).enable = true ∧ t.inService p = false)) then
              { candidate := none, matchCount := 0, qualified := none }
            else s.monitor p)

/-- An accepted SHLD stores the hold source and the hold gain and answers them; where a value changes, the return of a PARKED
party takes the hold source at the hold gain, lowered where a talk entry is active, as its only feed, and keeps the talk path of
the active entry at its link's talk gain. The values in force change nothing. -/
def Obligations.ShldSetsTheHoldFeed : Prop :=
  ∀ (tag b d : Byte) (src : Option Source) (g : Int) (s : State), sourceOrNoneArg b = some src →
    gainArg d = some (.half g) →
    ∃ t, exec (.shld s.supervisor tag b d) s = .next ((accept t [b, d]).deliver s.supervisor tag 0x32)
      ∧ t = { s with rmix := t.rmix } ∧ t.rmix.holdSource = src ∧ t.rmix.holdGain = .half g
      ∧ t.rmix.cues = s.rmix.cues ∧ t.rmix.lastReturns = s.rmix.lastReturns
      ∧ (∀ p, (s.party p).state ≠ .parked → t.ret p = s.ret p)
      ∧ (s.rmix.holdSource = src → s.rmix.holdGain = .half g → t = s)
      ∧ (∀ p, (s.party p).state = .parked → (s.rmix.holdSource ≠ src ∨ s.rmix.holdGain ≠ .half g) →
          (t.ret p).active = (s.ret p).active
          ∧ ((s.ret p).active = none →
            (∀ i ∈ (t.ret p).ingredients, ∀ n, i.ident = .source n →
              i.level.target = if src = some n then .half g else .off)
            ∧ (∀ i ∈ (t.ret p).ingredients, (∀ n, i.ident ≠ .source n) → i.level.target = .off)
            ∧ (∀ n, src = some n → ∃ i ∈ (t.ret p).ingredients, i.ident = .source n))
          ∧ ∀ a, (s.ret p).active = some a →
            (∀ i ∈ (t.ret p).ingredients, ∀ n, i.ident = .source n →
              i.level.target = if src = some n then a.depth.lower g else .off)
            ∧ (∀ i ∈ (t.ret p).ingredients, ∀ j, i.ident = .talk j →
              i.level.target = if j = a.link then s.talkGain j else .off)
            ∧ (∀ i ∈ (t.ret p).ingredients, ∀ q, i.ident = .party q → i.level.target = .off)
            ∧ (∀ n, src = some n → a.depth ≠ .full → ∃ i ∈ (t.ret p).ingredients, i.ident = .source n)
            ∧ (s.talkGain a.link ≠ .off → ∃ i ∈ (t.ret p).ingredients, i.ident = .talk a.link))

/-- An accepted STIM writes its seven values whole and answers them, and touches no ramp and no timer; a value out of range
makes the whole STIM refused BAD_ARGUMENT. -/
def Obligations.StimWritesItsSevenValues : Prop :=
  ∀ (tag nprk tgiv : Byte) (ramp datk drel talr tprk : Word16) (s : State),
    (ramp.toNat ≤ 250 → datk.toNat ≤ 50 → drel.toNat ≤ 1000 → 1 ≤ talr.toNat ∧ talr.toNat ≤ 60 →
      5 ≤ tprk.toNat ∧ tprk.toNat ≤ 600 → nprk.toNat ≤ 15 → 1 ≤ tgiv.toNat ∧ tgiv.toNat ≤ 30 →
      ∃ data, exec (.stim s.supervisor tag ramp datk drel talr tprk nprk tgiv) s
          = .next ((accept { s with
              times := { ramp := ramp.toNat, datk := datk.toNat, drel := drel.toNat, talr := talr.toNat,
                         tprk := tprk.toNat, nprk := nprk.toNat, tgiv := tgiv.toNat } } data).deliver s.supervisor tag
              0x35)
        ∧ data = [byte (ramp.toNat / 256), byte (ramp.toNat % 256), byte (datk.toNat / 256), byte (datk.toNat % 256),
            byte (drel.toNat / 256), byte (drel.toNat % 256), byte (talr.toNat / 256), byte (talr.toNat % 256),
            byte (tprk.toNat / 256), byte (tprk.toNat % 256), nprk, tgiv])
    ∧ (250 < ramp.toNat ∨ 50 < datk.toNat ∨ 1000 < drel.toNat ∨ talr.toNat < 1 ∨ 60 < talr.toNat ∨ tprk.toNat < 5
          ∨ 600 < tprk.toNat ∨ 15 < nprk.toNat ∨ tgiv.toNat < 1 ∨ 30 < tgiv.toNat →
        ∀ k, exec (.stim k tag ramp datk drel talr tprk nprk tgiv) s
          = .next ((refuse s .badArgument).deliver k tag 0x35))

/-- An accepted SPAT replaces one pattern entry and answers it as stored, the qualify count in one byte (log entry 48); every
party's match count restarts at 0, and the candidates and the qualified meanings stay. -/
def Obligations.SpatWritesAPatternAndRestartsTheCounts : Prop :=
  ∀ (tag b v key mask m a n : Byte) (i : Fin 6) (valid : Bool) (meaning : Meaning) (to_ : AppliesTo) (s : State),
    numberArg 6 b = some i → yesNoArg v = some valid → meaningArg m = some meaning → appliesToArg a = some to_ →
    1 ≤ n.toNat →
    ∃ t, exec (.spat s.supervisor tag b v key mask m a n) s
        = .next ((accept t [v, key, mask, m, a, n]).deliver s.supervisor tag 0x36)
      ∧ t = { s with smon := { s.smon with monitors := t.smon.monitors, patterns := t.smon.patterns } }
      ∧ row t.smon.patterns i
          = { valid := valid, key := key, mask := mask, meaning := meaning, appliesTo := to_, count := n.toNat }
      ∧ (∀ j, j ≠ i → row t.smon.patterns j = row s.smon.patterns j)
      ∧ ∀ p, t.monitor p = { s.monitor p with matchCount := 0 }

/-! ### The links' own settings -/

/-- An accepted EMSK makes the named classes the link's mask, and queues the SUMMARY records that are due, in class order,
while the queue holds fewer than 48; an accepted ATCF sets the attention enable and threshold and answers them, one byte
each (log entry 48), and the line is decided by them. -/
def Obligations.EmskAndAtcfSetALinksMaskAndAttention : Prop :=
  ∀ (k : Link) (tag b d : Byte) (s : State),
    (∀ c, maskArg b = some c →
      let due := allClasses.filter fun e => c.has e && (s.link k).summaries.has e
      let room := 48 - (s.link k).events.length
      ∃ t, exec (.emsk k tag b) s = .next ((accept t [b]).deliver k tag 0x38)
        ∧ t = s.setLink k { s.link k with
            mask := c, events := (s.link k).events ++ (due.take room).map summaryOf,
            summaries := (t.link k).summaries }
        ∧ ∀ e, (t.link k).summaries.has e = ((s.link k).summaries.has e && !(due.take room).contains e))
    ∧ (∀ on, yesNoArg b = some on → 1 ≤ d.toNat → d.toNat ≤ 48 →
      ∃ t, exec (.atcf k tag b d) s = .next ((accept t [b, d]).deliver k tag 0x3A)
        ∧ t = s.setLink k { s.link k with attnEnable := on, attnThreshold := d.toNat }
        ∧ (t.attn k = true ↔ on = true ∧ (d.toNat ≤ (s.link k).events.length
            ∨ ∃ e ∈ (s.link k).events, e.kind = .takeAsked ∨ e.kind = .orphaned)))

/-- An accepted FTCH of n takes the oldest n records out of the link's own queue into the response, in order, reads and clears
the overflow flag, queues the SUMMARY records that are due as far as there is room, and answers how many records are left. -/
def Obligations.FtchTakesTheOldestEvents : Prop :=
  ∀ (k : Link) (tag b : Byte) (s : State), 1 ≤ b.toNat → b.toNat ≤ 8 →
    let old := s.link k
    let due := allClasses.filter fun e => old.mask.has e && old.summaries.has e
    let room := 48 - (old.events.drop b.toNat).length
    ∃ t, exec (.ftch k tag b) s
        = .next ((accept t
            ([byte (min b.toNat old.events.length), byte (t.link k).events.length, if old.overflow then 1 else 0]
              ++ (old.events.take b.toNat).flatMap Event.bytes)).deliver k tag 0x39)
      ∧ t = s.setLink k { old with
          events := old.events.drop b.toNat ++ (due.take room).map summaryOf, overflow := false,
          summaries := (t.link k).summaries }
      ∧ ∀ e, (t.link k).summaries.has e = (old.summaries.has e && !(due.take room).contains e)

/-- LRST empties its link's request buffer and event queue and drops its responses not yet begun, admits all classes, clears
the summary flags and the overflow flag, and sets the attention settings and the presence to their power-on values; it removes
the link's talk entries and the handovers it asked for, and turns its cue off. In the emptied queue stands only what the removal
of its talk entries then offers the link as an owner: TALK_ACTIVE for each of its parties on which another link's entry takes
over from its own, in ascending party number. Everything else is kept but what other links are told and the targets of
returns. The link's number in the response is one byte (log entry 44). -/
def Obligations.LrstResetsItsLink : Prop :=
  ∀ (k : Link) (tag : Byte) (s : State),
    ∃ t, exec (.lrst k tag) s = .next ((accept t [byte k.val]).deliver k tag 0x3B)
      ∧ (t.link k).requests = [] ∧ (t.link k).waiting = [] ∧ (t.link k).sending = (s.link k).sending
      ∧ (t.link k).mask = ClassSet.all ∧ (t.link k).summaries = ClassSet.empty ∧ (t.link k).attnEnable = true
      ∧ (t.link k).attnThreshold = 1 ∧ (t.link k).away = false
      ∧ (∀ e ∈ (t.link k).events, e.kind = .talkActive ∨ e.kind = .takeResult)
      ∧ (s.recordLaw → (t.link k).overflow = false
        ∧ (t.link k).events = allParties.filterMap fun p =>
            if (s.party p).owner = some k ∧ (s.activeEntry p).map (fun e => e.link) = some k then
              (t.activeEntry p).map fun e =>
                { partyEvent .talkActive p with
                  link := some e.link, value1 := some e.priority, value2 := some (depthCode e.depth) }
            else none)
      ∧ (∀ j, j ≠ k → (s.link j).offered (t.link j))
      ∧ (∀ p, t.talkList p = (s.talkList p).filter fun e => e.link != k)
      ∧ (∀ p, t.party p
          = { s.party p with handover := (s.party p).handover.filter fun h => h.requester != k })
      ∧ (t.cue k).current = none ∧ (∀ j, j ≠ k → t.cue j = s.cue j) ∧ s.sameHold t
      ∧ (∀ p, (s.talkList p).all (fun e => e.link != k) = true → t.ret p = s.ret p)
      ∧ t = { s with
          parties := t.parties, tarb := { s.tarb with lists := t.tarb.lists }, links := t.links, rmix := t.rmix }

/-! ### The mixer -/

/-- In each audio frame every running ramp moves its applied gain one step along a straight line in decibels, and reaches its
end in the frame that brings the frames done to its length (the gain held exactly, log entry 11); what is at rest stays. So for
the ingredients of every return, a talk path that dips going by −80.0 dB to its new source at the end of its ramp, one that
began there too (log entry 54); for the cue gains of both places of every cue; and for the members of a cue's group. An
ingredient at −80.0 dB with target OFF leaves, and a previous selection at −80.0 dB is dropped. -/
def Obligations.AudioFrameMovesEveryRamp : Prop :=
  ∀ s : State, ∃ t, exec .audioFrame s = .next t
    ∧ t = { s with rmix := t.rmix, ports := t.ports, tbase := t.tbase, choices := t.choices }
    ∧ t.rmix.holdSource = s.rmix.holdSource ∧ t.rmix.holdGain = s.rmix.holdGain
    ∧ (∀ p, (t.ret p).active = (s.ret p).active
      ∧ framedList s.times.ramp (s.ret p).ingredients (t.ret p).ingredients)
    ∧ ∀ k, ((s.cue k).current = none → (t.cue k).current = none)
      ∧ ((s.cue k).previous = none → (t.cue k).previous = none)
      ∧ (∀ c, (s.cue k).current = some c → ∃ d, c.framed s.times.ramp d ∧ (t.cue k).current = some d)
      ∧ ∀ c, (s.cue k).previous = some c →
          ∃ d, c.framed s.times.ramp d ∧ (t.cue k).previous = if d.level.applied = -160 then none else some d

/-- A port is driven in an audio frame while LOCKED and in no other state: with the alignment code, its enabled slots and no
other. A line-side slot carries its party's return and its outgoing word, 00h for IDLE, 05h for ANSWER and 0Ah for CLEAR; an air
slot the input of the party on it at unity, and silence while it is free; a cue slot the current selection and the previous
one, each at its cue gain. What reaches −80.0 dB and leaves in this frame is out of its sums (log entry 12). The returns, the
inputs and the samples are those of `State.signals` (log entries 10 and 13), and a sample at a gain is the product where that is whole, and else one of the two samples next to it (log entry 8); only the sum of
an output is held at full scale (log entry 50). The inbound frames are used up (the model's choice, log entry 10). -/
def Obligations.AudioFrameDrivesOnlyLockedPorts : Prop :=
  (∀ (h : Rat) (x : Int), atGain h 0 = 0 ∧ atGain 0 x = x
    ∧ |(atGain h x : ℝ) - x * (10 : ℝ) ^ ((h : ℝ) / 40)| < 1
    ∧ ∀ n : Int, (n : ℝ) = x * (10 : ℝ) ^ ((h : ℝ) / 40) → atGain h x = n)
  ∧ ∀ s : State, ∃ t g, exec .audioFrame s = .next t ∧ s.signals t g
    ∧ (∀ x, t.port x = { s.port x with outbound := (t.port x).outbound, inbound := none })
    ∧ (∀ x, (s.port x).sync ≠ .locked → (t.port x).outbound = none)
    ∧ (∀ x, (s.port x).sync = .locked → ∃ f, (t.port x).outbound = some f ∧ f.alignment = 0xB16D#16
        ∧ f.slots.length = (match x with | .lp0 => 12 | .lp1 => 12 | .sp => 11))
    ∧ (∀ p f, (t.port (portOf p)).outbound = some f →
        f.slots[slotIndexOf p]? = some ((s.partySlot p).drives (g.ret p)
          (some (match (s.party p).signalOut with | .idle => 0x00 | .answer => 0x05 | .clear => 0x0A))))
    ∧ (∀ f (n : AirSlot), (t.port .sp).outbound = some f →
        f.slots[n.val]? = some ((s.ports.sp.slot (16 + n.val)).drives
          (match row s.stud.slots n with | some o => g.input o.party | none => 0) none))
    ∧ (∀ f (k : Link), (t.port .sp).outbound = some f →
        f.slots[8 + k.val]? = some ((s.ports.sp.slot (24 + k.val)).drives
          (g.cue (t.cue k).current + g.cue (t.cue k).previous) none))

/-- The completion of a ramp leaves the applied gain at the ramp's end, and what it does not name as it was: an ingredient of a
return, or a member of a cue's group, is at its target, leaves where that is OFF, and where it dips takes its new source at
−80.0 dB and begins its way back over RAMP; the cue gain of a place is at its target, and a previous selection at −80.0 dB is
dropped. A ramp that does not run is left as it is. -/
def Obligations.RampCompleteReachesTheTarget : Prop :=
  ∀ s : State,
    (∀ p i, ∃ t, exec (.rampComplete (.ingredient p i)) s = .next t
      ∧ t = { s with rmix := { s.rmix with returns := t.rmix.returns } } ∧ (∀ q, q ≠ p → t.ret q = s.ret q)
      ∧ (t.ret p).active = (s.ret p).active
      ∧ completedList s.times.ramp i (s.ret p).ingredients (t.ret p).ingredients)
    ∧ (∀ k, ∃ t, exec (.rampComplete (.cue k .current)) s = .next t
      ∧ t = { s with rmix := { s.rmix with cues := t.rmix.cues } } ∧ (∀ j, j ≠ k → t.cue j = s.cue j)
      ∧ (t.cue k).previous = (s.cue k).previous ∧ (t.cue k).current = (s.cue k).current.map CuePlace.completed)
    ∧ (∀ k, ∃ t, exec (.rampComplete (.cue k .previous)) s = .next t
      ∧ t = { s with rmix := { s.rmix with cues := t.rmix.cues } } ∧ (∀ j, j ≠ k → t.cue j = s.cue j)
      ∧ (t.cue k).current = (s.cue k).current
      ∧ ((s.cue k).previous = none → (t.cue k).previous = none)
      ∧ ∀ c, (s.cue k).previous = some c →
          (c.level.ramp.running = false → (t.cue k).previous = some c)
          ∧ (c.level.ramp.running = true →
              (t.cue k).previous = if c.completed.level.applied = -160 then none else some c.completed))
    ∧ (∀ k side q, ∃ t, exec (.rampComplete (.cueMember k side q)) s = .next t
      ∧ t = { s with rmix := { s.rmix with cues := t.rmix.cues } } ∧ (∀ j, j ≠ k → t.cue j = s.cue j)
      ∧ (match side with
          | .current => (t.cue k).previous = (s.cue k).previous
          | .previous => (t.cue k).current = (s.cue k).current)
      ∧ let place := fun u : State => match side with | .current => (u.cue k).current | .previous => (u.cue k).previous
        (place s = none → place t = none)
        ∧ ∀ c, place s = some c → ∃ ms, place t = some { c with members := ms }
            ∧ completedList s.times.ramp (.party q) c.members ms)

/-! ### The audio ports -/

/-- An inbound frame of an enabled port is checked for the alignment code: an aligned one raises the aligned run to at most 4
and clears the missed run, and the fourth finds sync; a misaligned one clears the aligned run, and in LOCKED raises the missed
run, of which the third loses sync. A DISABLED port checks nothing. A LOCKED port also counts a millisecond without a
word-clock edge, and a period without its 256 bit periods, as misaligned. -/
def Obligations.AlignmentRunsFindAndLoseSync : Prop :=
  (∀ (x : PortId) (bits : BitVec 512) (s : State), (s.port x).sync ≠ .disabled →
    ∃ t, exec (.inboundFrame x bits) s = .next t
      ∧ (∀ y, y ≠ x → t.port y = s.port y) ∧ t.tbase = { s.tbase with edgeSeen := true }
      ∧ (t.port x).enable = (s.port x).enable ∧ (t.port x).slots = (s.port x).slots
      ∧ t = { s with ports := t.ports, smon := t.smon, links := t.links, tbase := t.tbase }
      ∧ (bits.extractLsb' 496 16 = 0xB16D#16 → (t.port x).missed = 0
          ∧ ((s.port x).sync = .locked → (t.port x).sync = .locked ∧ (t.port x).grace = (s.port x).grace
              ∧ (t.port x).aligned = min 4 ((s.port x).aligned + 1) ∧ t.links = s.links)
          ∧ ((s.port x).sync ≠ .locked → (s.port x).aligned + 1 < 4 →
              (t.port x).sync = (s.port x).sync ∧ (t.port x).grace = (s.port x).grace
              ∧ (t.port x).aligned = (s.port x).aligned + 1 ∧ t.links = s.links)
          ∧ ((s.port x).sync ≠ .locked → 4 ≤ (s.port x).aligned + 1 →
              (t.port x).sync = .locked ∧ (t.port x).grace = none ∧ (t.port x).aligned = 4))
      ∧ (bits.extractLsb' 496 16 ≠ 0xB16D#16 → (t.port x).aligned = 0
          ∧ ((s.port x).sync ≠ .locked → (t.port x).sync = (s.port x).sync ∧ (t.port x).missed = (s.port x).missed
              ∧ (t.port x).grace = (s.port x).grace ∧ t.links = s.links)
          ∧ ((s.port x).sync = .locked → (s.port x).missed + 1 < 3 → (t.port x).sync = .locked
              ∧ (t.port x).missed = (s.port x).missed + 1 ∧ (t.port x).grace = (s.port x).grace ∧ t.links = s.links)
          ∧ ((s.port x).sync = .locked → 3 ≤ (s.port x).missed + 1 →
              (t.port x).sync = .grace ∧ (t.port x).missed = 0 ∧ (t.port x).grace = some 250)))
  ∧ (∀ (x : PortId) (bits : BitVec 512) (s : State), (s.port x).sync = .disabled →
    exec (.inboundFrame x bits) s = .next { s with tbase := { s.tbase with edgeSeen := true } })
  ∧ ∀ (c : Instr) (s : State), c = .missingClockCheck ∨ c = .shortWordClockPeriod →
    ∃ t, exec c s = .next t
      ∧ t = { s with ports := t.ports, smon := t.smon, links := t.links, tbase := t.tbase }
      ∧ (∀ x, (s.port x).sync ≠ .locked → t.port x = s.port x)
      ∧ (∀ x, (s.port x).sync = .locked → (s.port x).missed + 1 < 3 →
          t.port x = { s.port x with aligned := 0, missed := (s.port x).missed + 1 })
      ∧ (∀ x, (s.port x).sync = .locked → 3 ≤ (s.port x).missed + 1 →
          t.port x = { s.port x with sync := .grace, aligned := 0, missed := 0, grace := some 250 })
      ∧ (c = .missingClockCheck → t.tbase = { s.tbase with checkDue := false })
      ∧ (c = .shortWordClockPeriod → t.tbase = { s.tbase with edgeSeen := true })

/-- The sync states move as R161 gives, with the monitor records of the port's parties as R40 gives: SYNC_FOUND takes SEEKING,
GRACE and FAILED to LOCKED and offers PORT_BACK; SYNC_LOST takes LOCKED to GRACE, starts the grace timer for 250 ms and offers
PORT_LOST; the expiry of that timer takes GRACE to FAILED, offers PORT_FAILED before any other event, and the failure takes
every party of the port that is not VACANT to FAULT, and one under loop test to VACANT, out of its queue, slot and group, with
an empty talkback list; every other party stays as it was in its place, with its list. The reports that wait are kept, through
a failure too (log entry 57). In every other state they change nothing. -/
def Obligations.SyncStatesMoveByR161 : Prop :=
  ∀ (x : PortId) (s : State),
    ((s.port x).sync = .locked ∨ (s.port x).sync = .disabled → exec (.syncFound x) s = .next s)
    ∧ ((s.port x).sync ≠ .locked → ∀ cause, exec (.syncLost x cause) s = .next s)
    ∧ ((s.port x).sync ≠ .grace ∨ (s.port x).grace = none → exec (.graceTimerExpiry x) s = .next s)
    ∧ ((s.port x).sync = .seeking ∨ (s.port x).sync = .grace ∨ (s.port x).sync = .failed →
      ∃ t, exec (.syncFound x) s = .next t
        ∧ t = { s with ports := t.ports, smon := { s.smon with monitors := t.smon.monitors }, links := t.links }
        ∧ t.port x = { s.port x with sync := .locked, aligned := 4, missed := 0, grace := none }
        ∧ (∀ y, y ≠ x → t.port y = s.port y)
        ∧ (∀ p, t.monitor p = if portOf p ≠ x then s.monitor p
            else if (s.port x).sync = .grace then { s.monitor p with matchCount := 0 }
            else { candidate := none, matchCount := 0, qualified := none })
        ∧ s.offersExactly t
            [{ event := { kind := .portBack, subject := .port x, cause := 0, studio := none, link := none, group := none,
                          value1 := some (match (s.port x).sync with | .seeking => 0x11 | .grace => 0x13 | _ => 0x14),
                          value2 := some (if (s.port x).sync = .grace then 250 - (s.port x).grace.getD 0 else 0) },
               receives := fun _ => true }])
    ∧ ((s.port x).sync = .locked → ∀ cause,
      ∃ t, exec (.syncLost x cause) s = .next t
        ∧ t = { s with ports := t.ports, smon := { s.smon with monitors := t.smon.monitors }, links := t.links }
        ∧ t.port x = { s.port x with sync := .grace, aligned := 0, missed := 0, grace := some 250 }
        ∧ (∀ y, y ≠ x → t.port y = s.port y)
        ∧ (∀ p, t.monitor p = if portOf p ≠ x then s.monitor p
            else { s.monitor p with candidate := none, matchCount := 0 })
        ∧ s.offersExactly t
            [{ event := { kind := .portLost, subject := .port x, cause := 0, studio := none, link := none, group := none,
                          value1 := some (match cause with | .alignment => 0x3E | .clock => 0x3F),
                          value2 := some (allParties.filter fun p =>
                            portOf p == x && (s.party p).state != .vacant).length },
               receives := fun _ => true }])
    ∧ ((s.port x).sync = .grace → (s.port x).grace.isSome →
      ∃ t, exec (.graceTimerExpiry x) s = .next t
        ∧ t.port x = { s.port x with sync := .failed, grace := none } ∧ (∀ y, y ≠ x → t.port y = s.port y)
        ∧ (∀ p, t.monitor p = if portOf p ≠ x then s.monitor p
            else { candidate := none, matchCount := 0, qualified := none })
        ∧ t = { s with
            parties := t.parties, smon := { s.smon with monitors := t.smon.monitors }, conf := t.conf,
            stud := { s.stud with queueA := t.stud.queueA, queueB := t.stud.queueB, slots := t.stud.slots },
            rmix := t.rmix, tarb := { s.tarb with lists := t.tarb.lists }, ports := t.ports, links := t.links,
            choices := t.choices }
        ∧ s.sameHold t
        ∧ (let fails : Party → Bool := fun p =>
            portOf p == x && (s.party p).state != .vacant && (s.party p).state != .fault
          (∀ p, fails p = false → t.party p = s.party p ∧ t.talkList p = s.talkList p)
          ∧ (∀ p, fails p = true → t.talkList p = [] ∧ t.party p = { s.party p with
              state := if (s.party p).state = .looptest then .vacant else .fault, owner := none, lock := false,
              handover := none, loopSource := none, signalOut := .idle, realert := none, clear := none, park := none })
          ∧ (∀ y, t.queue y = (s.queue y).filter fun p => !(fails p && (s.party p).state == .queued))
          ∧ (∀ n, row t.stud.slots n
              = (row s.stud.slots n).filter fun o => !(fails o.party && (s.party o.party).state == .onAir))
          ∧ ∀ g, (t.group g).members
                = (s.group g).members.filter (fun p => !(fails p && (s.party p).state == .screening))
              ∧ (t.group g).owner
                = if (t.group g).members = [] ∧ (s.group g).members ≠ [] then none else (s.group g).owner)
        ∧ ∃ more, s.offersExactly t
            ({ event := { kind := .portFailed, subject := .port x, cause := 0, studio := none, link := none,
                          group := none, value1 := some (allParties.filter fun p =>
                            portOf p == x && (s.party p).state != .vacant).length,
                          value2 := some 0 },
               receives := fun _ => true } :: more))

/-! ### Signalling -/

/-- An aligned frame of a LOCKED port is a monitored frame of each of its parties whose slot is enabled: the candidate is the
meaning of the lowest valid entry for the party's kind whose masked bits the word shows, the match count of an unchanged
candidate advances up to 255 and of a new one is 1, a candidate NONE becomes the qualified meaning at once, and a meaning that
reaches its entry's qualify count becomes it too and is reported, unless it is it already. QUALIFY is that last step taken by
itself (log entry 3), its report waiting behind the others (log entry 52); without a monitored frame to come about in, it
changes nothing. -/
def Obligations.AMonitoredFrameQualifiesAMeaning : Prop :=
  (∀ (x : PortId) (bits : BitVec 512) (p : Party) (s : State), portOf p = x → (s.port x).sync = .locked →
    bits.extractLsb' 496 16 = 0xB16D#16 →
    let word : Byte := bits.extractLsb' (464 - 32 * slotIndexOf p) 8
    let takes : Pattern → Bool := fun e => e.valid
      && (e.appliesTo == .both || (e.appliesTo == .line && (s.party p).kind == .line)
        || (e.appliesTo == .codec && (s.party p).kind == .codec))
      && (word &&& e.mask) == (e.key &&& e.mask)
    let m := s.monitor p
    ∃ t, exec (.inboundFrame x bits) s = .next t
      ∧ (s.inService p = false → t.monitor p = m)
      ∧ (s.inService p = true → (∀ i, takes (row s.smon.patterns i) = false) →
          t.monitor p
            = { candidate := none, matchCount := if m.candidate = none then min 255 (m.matchCount + 1) else 1,
                qualified := none })
      ∧ (∀ i, s.inService p = true → takes (row s.smon.patterns i) = true →
          (∀ j, j < i → takes (row s.smon.patterns j) = false) →
          let e := row s.smon.patterns i
          let count := if m.candidate = some e.meaning then min 255 (m.matchCount + 1) else 1
          t.monitor p
            = { candidate := some e.meaning, matchCount := count,
                qualified := if e.count ≤ count then some e.meaning else m.qualified }
          ∧ (e.count ≤ count → m.qualified ≠ some e.meaning → { party := p, meaning := e.meaning } ∈ t.smon.reports)))
  ∧ (∀ (p : Party) (i : Fin 6) (s : State), (s.port (portOf p)).sync ≠ .locked ∨ s.inService p = false
      ∨ (row s.smon.patterns i).valid = false → exec (.qualify p i) s = .next s)
  ∧ ∀ (p : Party) (i : Fin 6) (s : State), (s.port (portOf p)).sync = .locked → s.inService p = true →
    let e := row s.smon.patterns i
    e.valid = true → (e.appliesTo = .both ∨ (e.appliesTo = .line ∧ (s.party p).kind = .line)
      ∨ (e.appliesTo = .codec ∧ (s.party p).kind = .codec)) →
    ∃ t, exec (.qualify p i) s = .next t
      ∧ t = { s with smon := { s.smon with monitors := t.smon.monitors, reports := t.smon.reports } }
      ∧ (t.monitor p).candidate = some e.meaning ∧ (t.monitor p).qualified = some e.meaning
      ∧ e.count ≤ (t.monitor p).matchCount ∧ (∀ q, q ≠ p → t.monitor q = s.monitor q)
      ∧ t.smon.reports = s.smon.reports
          ++ if (s.monitor p).qualified = some e.meaning then [] else [{ party := p, meaning := e.meaning }]

/-- A reported meaning takes a party in service, whose port is not DISABLED, by the state it is in: SEIZE rings a VACANT or
looped one (alert count 1, the re-alert timer at TALR); ONHOOK ends an alert, a call, a clearing or a fault in VACANT with the
counters kept; FAULT takes any but a faulted one to FAULT; FLASH offers its event for an answered one. Every other meeting of
meaning and state changes nothing, as does any report for a party out of service or on a DISABLED port. What has happened to the
slot and the port since the meaning qualified does not count (log entries 56 and 57). -/
def Obligations.ASignalReportMovesAPartyByItsState : Prop :=
  ∀ (p : Party) (m : Meaning) (s : State),
    let ringing := m = .seize ∧ ((s.party p).state = .vacant ∨ (s.party p).state = .looptest)
    let ending := m = .onhook ∧ ((s.party p).state = .alerting ∨ (s.party p).state.onCall = true
      ∨ (s.party p).state = .fault)
    let flashing := m = .flash ∧ (s.party p).state.answered = true
    let faulting := m = .fault ∧ (s.party p).state ≠ .fault
    let taken := { s with smon := { s.smon with reports := s.smon.reports.erase { party := p, meaning := m } } }
    (s.inService p = false ∨ (s.port (portOf p)).sync = .disabled → exec (.signalReport p m) s = .next taken)
    ∧ (s.inService p = true → (s.port (portOf p)).sync ≠ .disabled →
      (¬ ringing → ¬ ending → ¬ flashing → ¬ faulting → exec (.signalReport p m) s = .next taken)
      ∧ (ringing → ∃ t, exec (.signalReport p m) s = .next t
        ∧ t.party p = { s.party p with
            state := .alerting, owner := none, lock := false, loopSource := none, signalOut := .idle, alertCount := 1,
            realert := some (s.times.talr * 1000), clear := none, park := none }
        ∧ t.stud = s.stud ∧ t.conf = s.conf ∧ t.talkList p = [] ∧ taken.partyFrame t p
        ∧ ((s.party p).state = .vacant →
            s.offersFirst t p { partyEvent .alert p with value1 := some 1 } (s.party p).owner none))
      ∧ (ending → ∃ t, exec (.signalReport p m) s = .next t
        ∧ t.party p = { s.party p with
            state := .vacant, owner := none, lock := false, handover := none, loopSource := none, signalOut := .idle,
            realert := none, clear := none, park := none }
        ∧ s.removed t p ∧ t.talkList p = [] ∧ taken.partyFrame t p
        ∧ ((s.party p).state.answered = true →
            s.offersFirst t p
              { partyEvent .hangup p with
                group := if (s.party p).state = .screening then s.groupOf p else none,
                value1 := some (s.party p).callSeconds, value2 := some (s.party p).airSeconds } (s.party p).owner none))
      ∧ (faulting → ∃ t, exec (.signalReport p m) s = .next t
        ∧ t.party p = { s.party p with
            state := .fault, owner := none, lock := false, handover := none, loopSource := none, signalOut := .idle,
            realert := none, clear := none, park := none }
        ∧ s.removed t p ∧ t.talkList p = [] ∧ taken.partyFrame t p
        ∧ ((s.party p).state ≠ .looptest →
            s.offersFirst t p
              { partyEvent .partyFault p with
                group := if (s.party p).state = .screening then s.groupOf p else none,
                value1 := some 0x34, value2 := some (stateCode (s.party p).state) } (s.party p).owner none))
      ∧ (flashing → ∃ t, exec (.signalReport p m) s = .next t ∧ t = { taken with links := t.links }
        ∧ s.offersExactly t
            [{ event := { partyEvent .flash p with link := (s.party p).owner },
               receives := fun j => s.views j p || (s.party p).owner == some j }]))

/-! ### Timers -/

/-- The re-alert timer rings an ALERTING party again with the count advanced up to 255; the clear timer ends CLEARING in VACANT
with CLEARED, cause TIMEOUT, and a clear period with signal-out IDLE and no event. At each one-second mark the call seconds of
every party in SCREENING, PARKED, QUEUED, ON_AIR or CLEARING advance by 1, the air seconds of every party in ON_AIR advance by 1,
and a counter at 65535 stays at 65535. A stopped timer does not expire. -/
def Obligations.ReAlertClearTimerAndOneSecondMark : Prop :=
  (∀ (p : Party) (s : State), ((s.party p).realert = none → exec (.realertTimerExpiry p) s = .next s)
    ∧ ((s.party p).clear = none → exec (.clearTimerExpiry p) s = .next s))
  ∧ (∀ (p : Party) (s : State),
    ((s.party p).state = .alerting → (s.party p).realert.isSome →
      ∃ t, exec (.realertTimerExpiry p) s = .next t
        ∧ s.writes t p
            { s.party p with
              alertCount := min 255 ((s.party p).alertCount + 1), realert := some (s.times.talr * 1000) }
            [{ event := { partyEvent .alert p with value1 := some (min 255 ((s.party p).alertCount + 1)) },
               receives := fun j => s.views j p || (s.party p).owner == some j }])
    ∧ ((s.party p).state = .clearing → (s.party p).clear.isSome →
      ∃ t, exec (.clearTimerExpiry p) s = .next t
        ∧ t.party p = { s.party p with
            state := .vacant, owner := none, lock := false, handover := none, loopSource := none, signalOut := .idle,
            realert := none, clear := none, park := none }
        ∧ t.stud = s.stud ∧ t.conf = s.conf ∧ s.partyFrame t p
        ∧ s.offersFirst t p
            { partyEvent .cleared p with
              cause := 1, value1 := some (s.party p).callSeconds, value2 := some (s.party p).airSeconds }
            (s.party p).owner none)
    ∧ ((s.party p).state = .vacant → (s.party p).clear.isSome →
      ∃ t, exec (.clearTimerExpiry p) s = .next t
        ∧ s.writes t p { s.party p with signalOut := .idle, clear := none } []))
  ∧ ∀ s : State, ∃ t, exec .oneSecondMark s = .next t
    ∧ t = { s with parties := t.parties, tbase := { s.tbase with markDue := false } }
    ∧ ∀ p, t.party p = { s.party p with
        callSeconds := if (s.party p).state ∈ [.screening, .parked, .queued, .onAir, .clearing]
          then min 65535 ((s.party p).callSeconds + 1) else (s.party p).callSeconds,
        airSeconds := if (s.party p).state = .onAir
          then min 65535 ((s.party p).airSeconds + 1) else (s.party p).airSeconds }

/-- The expiry of a park timer: an AWAY owner loses the party at once; a PRESENT owner is reminded while NPRK is 0 or the count
plus 1 lies below it, the timer starting anew; then the party is orphaned, or, with a handover pending, passes to its
requester, or stays where that one no longer holds CONTROL, the timer starting anew. A stopped timer does not expire. -/
def Obligations.TheParkTimerRemindsThenOrphans : Prop :=
  (∀ (p : Party) (s : State), (s.party p).park = none → exec (.parkTimerExpiry p) s = .next s)
  ∧ ∀ (p : Party) (o : Link) (s : State), (s.party p).park.isSome → (s.party p).owner = some o →
    let orphan := fun (t : State) (cause : Nat) => s.writes t p
      { s.party p with owner := none, lock := false, park := none }
      [{ event := { partyEvent .orphaned p with
           link := some o, value1 := some (s.party p).reminders, value2 := some cause },
         receives := fun j => s.views j p || o == j }]
    ((s.link o).away = true → ∃ t, exec (.parkTimerExpiry p) s = .next t ∧ orphan t 0x3D)
    ∧ ((s.link o).away = false →
      (s.times.nprk = 0 ∨ (s.party p).reminders + 1 < s.times.nprk →
        ∃ t, exec (.parkTimerExpiry p) s = .next t
          ∧ s.writes t p
              { s.party p with
                reminders := min 15 ((s.party p).reminders + 1), park := some (s.times.tprk * 1000) }
              [{ event := { partyEvent .parkRemind p with
                   link := some o, value1 := some (min 15 ((s.party p).reminders + 1)), value2 := some s.times.nprk },
                 receives := fun j => o == j }])
      ∧ (1 ≤ s.times.nprk → s.times.nprk ≤ (s.party p).reminders + 1 →
        ((s.party p).handover = none → ∃ t, exec (.parkTimerExpiry p) s = .next t ∧ orphan t 0x3C)
        ∧ (∀ h, (s.party p).handover = some h → s.controls h.requester p = true →
          ∃ t, exec (.parkTimerExpiry p) s = .next t
            ∧ s.passes t p h.requester 0x30 [s.resultOf p h.requester 0x4A (some h.requester)] [])
        ∧ (∀ h, (s.party p).handover = some h → s.controls h.requester p = false →
          ∃ t, exec (.parkTimerExpiry p) s = .next t
            ∧ s.writes t p { s.party p with handover := none, park := some (s.times.tprk * 1000) }
                [s.resultOf p h.requester 0x4E (some o)])))

/-! ### Laws that every step keeps -/

/-- Every step keeps the laws of the links: at most 48 events, at most 4 buffered requests and at most 4 OVERRUN responses that
have not begun. -/
def Obligations.EveryStepKeepsTheLinkLaws : Prop :=
  ∀ s t : State, s.eventLaw → s.bufferLaw → step s = .next t → t.eventLaw ∧ t.bufferLaw

/-- Every step keeps the law of the region table, and a locked entry keeps its content under every command but
POWER_ON_RESET. -/
def Obligations.ALockedRegionKeepsItsContent : Prop :=
  (∀ s t : State, s.regionLaw → step s = .next t → t.regionLaw)
  ∧ ∀ (c : Instr) (i : Fin 8) (r : Region) (s t : State), (∀ supv baud, c ≠ .powerOnReset supv baud) → s.lockedAs i r →
      exec c s = .next t → t.lockedAs i r

/-- Every step keeps the law of the returns, that no party hears its own input, and, where parties stand in their places and
groups as the laws say, the order and the uniqueness of every ingredient list. -/
def Obligations.NoPartyHearsItself : Prop :=
  (∀ s t : State, s.returnLaw → step s = .next t → t.returnLaw)
  ∧ ∀ s t : State, s.placesLaw → s.groupLaw → s.listLaw → step s = .next t → t.listLaw

/-- Every step keeps the law of the places: a party stands in one ready queue, once, exactly while QUEUED, and on one air slot
exactly while ON_AIR, and a queue holds at most 12. -/
def Obligations.EveryStepKeepsPartiesInTheirPlaces : Prop :=
  ∀ s t : State, s.placesLaw → step s = .next t → t.placesLaw

/-- Every step keeps the law of the groups: the members are SCREENING and the group owner's, each in one group, at most 8. -/
def Obligations.EveryStepKeepsTheGroupLaw : Prop :=
  ∀ s t : State, s.recordLaw → s.groupLaw → step s = .next t → t.groupLaw

/-- Every step keeps the law of the talkback lists: one entry a link, in the order of priority and arrival, and none outside
PARKED, QUEUED and ON_AIR. -/
def Obligations.EveryStepKeepsTheTalkLaw : Prop :=
  ∀ s t : State, s.talkLaw → step s = .next t → t.talkLaw

/-- Every step keeps the law of the party records: owner, lock, handover, loop source, timers and signal-out are present as the
state says, a handover's requester is not the owner, air seconds stay at or below call seconds, and no counter passes its
end. -/
def Obligations.EveryStepKeepsTheRecordLaw : Prop :=
  ∀ s t : State, s.placesLaw → s.recordLaw → step s = .next t → t.recordLaw

/-- The state after reset has every law. -/
def Obligations.ResetHasEveryLaw : Prop :=
  State.reset.eventLaw ∧ State.reset.bufferLaw ∧ State.reset.regionLaw ∧ State.reset.returnLaw ∧ State.reset.listLaw
    ∧ State.reset.placesLaw ∧ State.reset.groupLaw ∧ State.reset.talkLaw ∧ State.reset.recordLaw
end

