-- ==== Sys2Proof/Laws/Audio.lean ====
section
/-! SUPPORT. What one audio frame does to a level, to a list of ingredients and to a cue place. -/

namespace Sys2Proof.Machine

theorem Level.advance_target (l : Level) (goal : Int) : (l.advance goal).target = l.target := by
  unfold Level.advance Level.finished
  split
  · rfl
  · split <;> rfl

/-- One frame of a level is the movement of R90. -/
theorem Level.advance_moves (l : Level) (goal : Int) : l.moves (l.advance goal) goal := by
  unfold Level.moves Level.advance
  refine ⟨fun h => by simp [h], fun h g => ?_, fun h g => ?_⟩
  · rw [if_neg (by simp [h]), if_neg (by omega)]
  · rw [if_neg (by simp [h]), if_pos g]
    rfl

/-- A line towards −80.0 dB that has not come to its end stands there only where it began there. -/
theorem onTheWayDown (a : Rat) (d n : Nat) (h : d < n) :
    a + (((-160 : Int) : Rat) - a) * (d : Rat) / (n : Rat) = -160 ↔ a = -160 := by
  have hn : (n : Rat) ≠ 0 := by
    have : n ≠ 0 := by omega
    exact_mod_cast this
  have hd : (n : Rat) - d ≠ 0 := by
    have : (d : Rat) < n := by exact_mod_cast h
    linarith
  constructor
  · intro q
    have q' : a * n + ((-160) - a) * d = -160 * n := by
      have := congrArg (· * (n : Rat)) q
      simp only [add_mul] at this
      rw [div_mul_cancel₀ _ hn] at this
      push_cast at this
      exact this
    have : (a + 160) * ((n : Rat) - d) = 0 := by linarith
    rcases mul_eq_zero.mp this with h | h
    · linarith
    · exact absurd h hd
  · rintro rfl
    push_cast
    ring

/-- Where a level stands at −80.0 dB after a frame on its way there. -/
theorem Level.advance_silent (l : Level) :
    (l.advance (-160)).applied = -160
      ↔ (l.ramp.running = false ∧ l.applied = -160)
        ∨ (l.ramp.running = true ∧ (l.ramp.start = -160 ∨ l.ramp.len ≤ l.ramp.done + 1)) := by
  unfold Level.advance Level.finished
  cases h : l.ramp.running
  · simp
  · by_cases q : l.ramp.len ≤ l.ramp.done + 1
    · simp [q]
    · have := onTheWayDown l.ramp.start (l.ramp.done + 1) l.ramp.len (by omega)
      push_cast at this
      simp [q, this]

/-- An ingredient after one frame, before it is asked whether it leaves. -/
theorem Ingredient.swap_facts (i : Ingredient) (ms : Nat) :
    (i.swap ms).ident = i.ident ∧ (i.swap ms).level.target = i.level.target
      ∧ (i.swap ms).level.applied = i.level.applied
      ∧ (i.dipTo = none ∨ i.level.ramp.running = true → i.swap ms = i) := by
  unfold Ingredient.swap
  cases h : i.dipTo with
  | none => simp
  | some x => cases g : i.level.ramp.running <;> simp

/-- An ingredient leaves in a frame exactly where R78 says so. -/
theorem Ingredient.leaves_iff (i : Ingredient) (ms : Nat) :
    ({ i with level := i.level.advance i.goal }.swap ms).leaves = true ↔ i.goesOut := by
  obtain ⟨_, f2, f3, _⟩ := Ingredient.swap_facts { i with level := i.level.advance i.goal } ms
  unfold Ingredient.leaves Ingredient.goesOut
  simp only [f2, f3, Level.advance_target, Bool.and_eq_true, decide_eq_true_eq]
  refine and_congr_right fun ho => ?_
  have hg : i.goal = -160 := by
    unfold Ingredient.goal
    split <;> simp [floorGain, ho, Gain.goal]
  have : (floorGain : Rat) = -160 := by simp [floorGain]
  rw [this, hg]
  exact i.level.advance_silent

/-- One frame of an ingredient that does not leave. -/
theorem Ingredient.framed_swap (i : Ingredient) (ms : Nat) :
    i.framed ms ({ i with level := i.level.advance i.goal }.swap ms) := by
  obtain ⟨f1, f2, _, f4⟩ := Ingredient.swap_facts { i with level := i.level.advance i.goal } ms
  refine ⟨f1, f2.trans (Level.advance_target _ _), fun h => ?_, fun src h hr => ⟨fun hl => ?_, fun hl => ?_⟩⟩
  · rw [f4 (Or.inl h)]
    have hg : i.goal = i.level.target.goal := by simp [Ingredient.goal, h]
    refine ⟨rfl, h, ?_⟩
    rw [hg]
    have := Level.advance_moves i.level i.level.target.goal
    cases q : i.level.target <;> rw [q] at this <;> exact this
  · have hg : i.goal = -160 := by simp [Ingredient.goal, h, floorGain]
    have run : (i.level.advance i.goal).ramp.running = true := by
      unfold Level.advance
      simp [hr, Nat.not_le.mpr hl]
    rw [f4 (Or.inr run)]
    refine ⟨rfl, rfl, ?_⟩
    rw [hg]
    exact Level.advance_moves _ _
  · have hg : i.goal = -160 := by simp [Ingredient.goal, h, floorGain]
    have e : i.level.advance i.goal = i.level.finished (-160) := by
      unfold Level.advance
      simp [hr, hl, hg]
    rw [e]
    simp [Ingredient.swap, h, Level.finished, Ramp.begin, floorGain, rampFrames, Config.framesPerMs]

/-- One frame of a list of ingredients. -/
theorem framedList_advance (is : List Ingredient) (ms : Nat) :
    framedList ms is (is.filterMap fun i => i.advance ms) := by
  refine ⟨fun i hi h => ⟨_, List.mem_filterMap.mpr ⟨i, hi, ?_⟩, i.framed_swap ms⟩, fun j hj => ?_⟩
  · unfold Ingredient.advance
    dsimp only
    rw [if_neg (by rw [i.leaves_iff ms]; exact h)]
  · obtain ⟨i, hi, h⟩ := List.mem_filterMap.mp hj
    unfold Ingredient.advance at h
    dsimp only at h
    split at h
    · cases h
    · rename_i q
      cases h
      exact ⟨i, hi, by rw [← i.leaves_iff ms]; exact q, i.framed_swap ms⟩

/-- One frame of a cue place. -/
theorem CuePlace.framed_advance (c : CuePlace) (ms : Nat) : c.framed ms (c.advance ms) := by
  refine ⟨rfl, ?_, framedList_advance _ _⟩
  have := Level.advance_moves c.level c.level.target.goal
  unfold CuePlace.advance
  cases q : c.level.target <;> rw [q] at this <;> exact this

/-! ### The end of a ramp -/

/-- RAMP_COMPLETE of an ingredient: one that falls to OFF leaves, and any other is left as the end of its ramp leaves it. -/
theorem Ingredient.complete_completed (i : Ingredient) (ms : Nat) :
    (i.level.ramp.running = true ∧ i.level.target = .off → i.complete ms = none)
      ∧ (¬ (i.level.ramp.running = true ∧ i.level.target = .off) → ∃ j, i.complete ms = some j ∧ i.completed ms j) := by
  unfold Ingredient.complete
  cases hr : i.level.ramp.running
  · simp [Ingredient.completed, hr]
  · simp only [Bool.not_true]
    cases hd : i.dipTo with
    | none =>
      cases ht : i.level.target with
      | off =>
        simp [Ingredient.swap, hd, Ingredient.leaves, ht, Level.finished, Ingredient.goal, Gain.goal, floorGain]
      | half h =>
        refine ⟨by simp, fun _ => ⟨{ i with level := i.level.finished i.goal }, ?_, ?_⟩⟩
        · simp [Ingredient.swap, hd, Ingredient.leaves, ht, Level.finished]
        · simp [Ingredient.completed, hr, hd, ht, Ingredient.goal, Gain.goal, Level.finished]
    | some src =>
      cases ht : i.level.target with
      | off => simp [Ingredient.swap, Ingredient.leaves, ht, Level.finished, Ingredient.goal, hd, floorGain]
      | half h =>
        refine ⟨by simp, fun _ => ⟨{ i with
          carries := some src, dipTo := none,
          level := { i.level with
            applied := -160, ramp := { start := -160, len := ms * 48, done := 0, running := true } } }, ?_, ?_⟩⟩
        · simp [Ingredient.swap, Ingredient.leaves, ht, Level.finished, Ingredient.goal, hd, floorGain, Ramp.begin,
            rampFrames, Config.framesPerMs]
        · simp [Ingredient.completed, hr, hd, ht]

/-- RAMP_COMPLETE of one identity of a list of ingredients. -/
theorem completedList_completeIn (is : List Ingredient) (x : Ident) (ms : Nat) :
    completedList ms x is (completeIn is x ms) := by
  refine ⟨fun i hi => ⟨fun h => ?_, fun h hn => ?_⟩, fun j hj => ?_⟩
  · exact List.mem_filterMap.mpr ⟨i, hi, by simp [h]⟩
  · obtain ⟨j, h1, h2⟩ := (i.complete_completed ms).2 hn
    exact ⟨j, List.mem_filterMap.mpr ⟨i, hi, by simp [h, h1]⟩, h2⟩
  · obtain ⟨i, hi, e⟩ := List.mem_filterMap.mp hj
    split at e
    · rename_i h
      by_cases hn : i.level.ramp.running = true ∧ i.level.target = .off
      · rw [(i.complete_completed ms).1 hn] at e; cases e
      · obtain ⟨j', h1, h2⟩ := (i.complete_completed ms).2 hn
        rw [h1] at e; cases e
        exact .inr ⟨i, hi, h, hn, h2⟩
    · rename_i h; cases e; exact .inl ⟨hi, h⟩

/-- RAMP_COMPLETE of a cue place. -/
theorem CuePlace.complete_completed (c : CuePlace) : c.complete = c.completed := by
  unfold CuePlace.complete CuePlace.completed Level.finished
  split
  · cases h : c.level.target <;> simp [Gain.goal, floorGain, h]
  · rfl

end Sys2Proof.Machine
end

