-- ==== Sys2Proof/Laws/State.lean ====
section
/-! SUPPORT. One lemma per field per update: what an update of the state leaves as it was. -/

namespace Sys2Proof.Machine

variable (s : State)

/-! `setParty` changes `parties`. -/

@[simp] theorem State.setParty_pending (p : Party) (r : PartyRec) : (s.setParty p r).pending = s.pending := rfl
@[simp] theorem State.setParty_smon (p : Party) (r : PartyRec) : (s.setParty p r).smon = s.smon := rfl
@[simp] theorem State.setParty_conf (p : Party) (r : PartyRec) : (s.setParty p r).conf = s.conf := rfl
@[simp] theorem State.setParty_stud (p : Party) (r : PartyRec) : (s.setParty p r).stud = s.stud := rfl
@[simp] theorem State.setParty_rmix (p : Party) (r : PartyRec) : (s.setParty p r).rmix = s.rmix := rfl
@[simp] theorem State.setParty_tarb (p : Party) (r : PartyRec) : (s.setParty p r).tarb = s.tarb := rfl
@[simp] theorem State.setParty_regions (p : Party) (r : PartyRec) : (s.setParty p r).regions = s.regions := rfl
@[simp] theorem State.setParty_ports (p : Party) (r : PartyRec) : (s.setParty p r).ports = s.ports := rfl
@[simp] theorem State.setParty_links (p : Party) (r : PartyRec) : (s.setParty p r).links = s.links := rfl
@[simp] theorem State.setParty_times (p : Party) (r : PartyRec) : (s.setParty p r).times = s.times := rfl
@[simp] theorem State.setParty_tbase (p : Party) (r : PartyRec) : (s.setParty p r).tbase = s.tbase := rfl
@[simp] theorem State.setParty_supervisor (p : Party) (r : PartyRec) : (s.setParty p r).supervisor = s.supervisor := rfl
@[simp] theorem State.setParty_rate (p : Party) (r : PartyRec) : (s.setParty p r).rate = s.rate := rfl
@[simp] theorem State.setParty_resetHeld (p : Party) (r : PartyRec) : (s.setParty p r).resetHeld = s.resetHeld := rfl
@[simp] theorem State.setParty_choices (p : Party) (r : PartyRec) : (s.setParty p r).choices = s.choices := rfl

/-! `modParty` changes `parties`. -/

@[simp] theorem State.modParty_pending (p : Party) (f : PartyRec → PartyRec) : (s.modParty p f).pending = s.pending := rfl
@[simp] theorem State.modParty_smon (p : Party) (f : PartyRec → PartyRec) : (s.modParty p f).smon = s.smon := rfl
@[simp] theorem State.modParty_conf (p : Party) (f : PartyRec → PartyRec) : (s.modParty p f).conf = s.conf := rfl
@[simp] theorem State.modParty_stud (p : Party) (f : PartyRec → PartyRec) : (s.modParty p f).stud = s.stud := rfl
@[simp] theorem State.modParty_rmix (p : Party) (f : PartyRec → PartyRec) : (s.modParty p f).rmix = s.rmix := rfl
@[simp] theorem State.modParty_tarb (p : Party) (f : PartyRec → PartyRec) : (s.modParty p f).tarb = s.tarb := rfl
@[simp] theorem State.modParty_regions (p : Party) (f : PartyRec → PartyRec) : (s.modParty p f).regions = s.regions := rfl
@[simp] theorem State.modParty_ports (p : Party) (f : PartyRec → PartyRec) : (s.modParty p f).ports = s.ports := rfl
@[simp] theorem State.modParty_links (p : Party) (f : PartyRec → PartyRec) : (s.modParty p f).links = s.links := rfl
@[simp] theorem State.modParty_times (p : Party) (f : PartyRec → PartyRec) : (s.modParty p f).times = s.times := rfl
@[simp] theorem State.modParty_tbase (p : Party) (f : PartyRec → PartyRec) : (s.modParty p f).tbase = s.tbase := rfl
@[simp] theorem State.modParty_supervisor (p : Party) (f : PartyRec → PartyRec) : (s.modParty p f).supervisor = s.supervisor := rfl
@[simp] theorem State.modParty_rate (p : Party) (f : PartyRec → PartyRec) : (s.modParty p f).rate = s.rate := rfl
@[simp] theorem State.modParty_resetHeld (p : Party) (f : PartyRec → PartyRec) : (s.modParty p f).resetHeld = s.resetHeld := rfl
@[simp] theorem State.modParty_choices (p : Party) (f : PartyRec → PartyRec) : (s.modParty p f).choices = s.choices := rfl

/-! `setMonitor` changes `smon`. -/

@[simp] theorem State.setMonitor_pending (p : Party) (m : Monitor) : (s.setMonitor p m).pending = s.pending := rfl
@[simp] theorem State.setMonitor_parties (p : Party) (m : Monitor) : (s.setMonitor p m).parties = s.parties := rfl
@[simp] theorem State.setMonitor_conf (p : Party) (m : Monitor) : (s.setMonitor p m).conf = s.conf := rfl
@[simp] theorem State.setMonitor_stud (p : Party) (m : Monitor) : (s.setMonitor p m).stud = s.stud := rfl
@[simp] theorem State.setMonitor_rmix (p : Party) (m : Monitor) : (s.setMonitor p m).rmix = s.rmix := rfl
@[simp] theorem State.setMonitor_tarb (p : Party) (m : Monitor) : (s.setMonitor p m).tarb = s.tarb := rfl
@[simp] theorem State.setMonitor_regions (p : Party) (m : Monitor) : (s.setMonitor p m).regions = s.regions := rfl
@[simp] theorem State.setMonitor_ports (p : Party) (m : Monitor) : (s.setMonitor p m).ports = s.ports := rfl
@[simp] theorem State.setMonitor_links (p : Party) (m : Monitor) : (s.setMonitor p m).links = s.links := rfl
@[simp] theorem State.setMonitor_times (p : Party) (m : Monitor) : (s.setMonitor p m).times = s.times := rfl
@[simp] theorem State.setMonitor_tbase (p : Party) (m : Monitor) : (s.setMonitor p m).tbase = s.tbase := rfl
@[simp] theorem State.setMonitor_supervisor (p : Party) (m : Monitor) : (s.setMonitor p m).supervisor = s.supervisor := rfl
@[simp] theorem State.setMonitor_rate (p : Party) (m : Monitor) : (s.setMonitor p m).rate = s.rate := rfl
@[simp] theorem State.setMonitor_resetHeld (p : Party) (m : Monitor) : (s.setMonitor p m).resetHeld = s.resetHeld := rfl
@[simp] theorem State.setMonitor_choices (p : Party) (m : Monitor) : (s.setMonitor p m).choices = s.choices := rfl

/-! `report` changes `smon`. -/

@[simp] theorem State.report_pending (p : Party) (m : Meaning) : (s.report p m).pending = s.pending := rfl
@[simp] theorem State.report_parties (p : Party) (m : Meaning) : (s.report p m).parties = s.parties := rfl
@[simp] theorem State.report_conf (p : Party) (m : Meaning) : (s.report p m).conf = s.conf := rfl
@[simp] theorem State.report_stud (p : Party) (m : Meaning) : (s.report p m).stud = s.stud := rfl
@[simp] theorem State.report_rmix (p : Party) (m : Meaning) : (s.report p m).rmix = s.rmix := rfl
@[simp] theorem State.report_tarb (p : Party) (m : Meaning) : (s.report p m).tarb = s.tarb := rfl
@[simp] theorem State.report_regions (p : Party) (m : Meaning) : (s.report p m).regions = s.regions := rfl
@[simp] theorem State.report_ports (p : Party) (m : Meaning) : (s.report p m).ports = s.ports := rfl
@[simp] theorem State.report_links (p : Party) (m : Meaning) : (s.report p m).links = s.links := rfl
@[simp] theorem State.report_times (p : Party) (m : Meaning) : (s.report p m).times = s.times := rfl
@[simp] theorem State.report_tbase (p : Party) (m : Meaning) : (s.report p m).tbase = s.tbase := rfl
@[simp] theorem State.report_supervisor (p : Party) (m : Meaning) : (s.report p m).supervisor = s.supervisor := rfl
@[simp] theorem State.report_rate (p : Party) (m : Meaning) : (s.report p m).rate = s.rate := rfl
@[simp] theorem State.report_resetHeld (p : Party) (m : Meaning) : (s.report p m).resetHeld = s.resetHeld := rfl
@[simp] theorem State.report_choices (p : Party) (m : Meaning) : (s.report p m).choices = s.choices := rfl

/-! `takeReport` changes `smon`. -/

@[simp] theorem State.takeReport_pending (p : Party) (m : Meaning) : (s.takeReport p m).pending = s.pending := rfl
@[simp] theorem State.takeReport_parties (p : Party) (m : Meaning) : (s.takeReport p m).parties = s.parties := rfl
@[simp] theorem State.takeReport_conf (p : Party) (m : Meaning) : (s.takeReport p m).conf = s.conf := rfl
@[simp] theorem State.takeReport_stud (p : Party) (m : Meaning) : (s.takeReport p m).stud = s.stud := rfl
@[simp] theorem State.takeReport_rmix (p : Party) (m : Meaning) : (s.takeReport p m).rmix = s.rmix := rfl
@[simp] theorem State.takeReport_tarb (p : Party) (m : Meaning) : (s.takeReport p m).tarb = s.tarb := rfl
@[simp] theorem State.takeReport_regions (p : Party) (m : Meaning) : (s.takeReport p m).regions = s.regions := rfl
@[simp] theorem State.takeReport_ports (p : Party) (m : Meaning) : (s.takeReport p m).ports = s.ports := rfl
@[simp] theorem State.takeReport_links (p : Party) (m : Meaning) : (s.takeReport p m).links = s.links := rfl
@[simp] theorem State.takeReport_times (p : Party) (m : Meaning) : (s.takeReport p m).times = s.times := rfl
@[simp] theorem State.takeReport_tbase (p : Party) (m : Meaning) : (s.takeReport p m).tbase = s.tbase := rfl
@[simp] theorem State.takeReport_supervisor (p : Party) (m : Meaning) : (s.takeReport p m).supervisor = s.supervisor := rfl
@[simp] theorem State.takeReport_rate (p : Party) (m : Meaning) : (s.takeReport p m).rate = s.rate := rfl
@[simp] theorem State.takeReport_resetHeld (p : Party) (m : Meaning) : (s.takeReport p m).resetHeld = s.resetHeld := rfl
@[simp] theorem State.takeReport_choices (p : Party) (m : Meaning) : (s.takeReport p m).choices = s.choices := rfl

/-! `monitors` changes `smon`. -/

@[simp] theorem State.monitors_pending (x : PortId) (f : Monitor → Monitor) : (s.monitors x f).pending = s.pending := rfl
@[simp] theorem State.monitors_parties (x : PortId) (f : Monitor → Monitor) : (s.monitors x f).parties = s.parties := rfl
@[simp] theorem State.monitors_conf (x : PortId) (f : Monitor → Monitor) : (s.monitors x f).conf = s.conf := rfl
@[simp] theorem State.monitors_stud (x : PortId) (f : Monitor → Monitor) : (s.monitors x f).stud = s.stud := rfl
@[simp] theorem State.monitors_rmix (x : PortId) (f : Monitor → Monitor) : (s.monitors x f).rmix = s.rmix := rfl
@[simp] theorem State.monitors_tarb (x : PortId) (f : Monitor → Monitor) : (s.monitors x f).tarb = s.tarb := rfl
@[simp] theorem State.monitors_regions (x : PortId) (f : Monitor → Monitor) : (s.monitors x f).regions = s.regions := rfl
@[simp] theorem State.monitors_ports (x : PortId) (f : Monitor → Monitor) : (s.monitors x f).ports = s.ports := rfl
@[simp] theorem State.monitors_links (x : PortId) (f : Monitor → Monitor) : (s.monitors x f).links = s.links := rfl
@[simp] theorem State.monitors_times (x : PortId) (f : Monitor → Monitor) : (s.monitors x f).times = s.times := rfl
@[simp] theorem State.monitors_tbase (x : PortId) (f : Monitor → Monitor) : (s.monitors x f).tbase = s.tbase := rfl
@[simp] theorem State.monitors_supervisor (x : PortId) (f : Monitor → Monitor) : (s.monitors x f).supervisor = s.supervisor := rfl
@[simp] theorem State.monitors_rate (x : PortId) (f : Monitor → Monitor) : (s.monitors x f).rate = s.rate := rfl
@[simp] theorem State.monitors_resetHeld (x : PortId) (f : Monitor → Monitor) : (s.monitors x f).resetHeld = s.resetHeld := rfl
@[simp] theorem State.monitors_choices (x : PortId) (f : Monitor → Monitor) : (s.monitors x f).choices = s.choices := rfl

/-! `ungroup` changes `conf`. -/

@[simp] theorem State.ungroup_pending (p : Party) : (s.ungroup p).pending = s.pending := rfl
@[simp] theorem State.ungroup_parties (p : Party) : (s.ungroup p).parties = s.parties := rfl
@[simp] theorem State.ungroup_smon (p : Party) : (s.ungroup p).smon = s.smon := rfl
@[simp] theorem State.ungroup_stud (p : Party) : (s.ungroup p).stud = s.stud := rfl
@[simp] theorem State.ungroup_rmix (p : Party) : (s.ungroup p).rmix = s.rmix := rfl
@[simp] theorem State.ungroup_tarb (p : Party) : (s.ungroup p).tarb = s.tarb := rfl
@[simp] theorem State.ungroup_regions (p : Party) : (s.ungroup p).regions = s.regions := rfl
@[simp] theorem State.ungroup_ports (p : Party) : (s.ungroup p).ports = s.ports := rfl
@[simp] theorem State.ungroup_links (p : Party) : (s.ungroup p).links = s.links := rfl
@[simp] theorem State.ungroup_times (p : Party) : (s.ungroup p).times = s.times := rfl
@[simp] theorem State.ungroup_tbase (p : Party) : (s.ungroup p).tbase = s.tbase := rfl
@[simp] theorem State.ungroup_supervisor (p : Party) : (s.ungroup p).supervisor = s.supervisor := rfl
@[simp] theorem State.ungroup_rate (p : Party) : (s.ungroup p).rate = s.rate := rfl
@[simp] theorem State.ungroup_resetHeld (p : Party) : (s.ungroup p).resetHeld = s.resetHeld := rfl
@[simp] theorem State.ungroup_choices (p : Party) : (s.ungroup p).choices = s.choices := rfl

/-! `setQueue` changes `stud`. -/

@[simp] theorem State.setQueue_pending (x : Studio) (q : List Party) : (s.setQueue x q).pending = s.pending := by cases x <;> rfl
@[simp] theorem State.setQueue_parties (x : Studio) (q : List Party) : (s.setQueue x q).parties = s.parties := by cases x <;> rfl
@[simp] theorem State.setQueue_smon (x : Studio) (q : List Party) : (s.setQueue x q).smon = s.smon := by cases x <;> rfl
@[simp] theorem State.setQueue_conf (x : Studio) (q : List Party) : (s.setQueue x q).conf = s.conf := by cases x <;> rfl
@[simp] theorem State.setQueue_rmix (x : Studio) (q : List Party) : (s.setQueue x q).rmix = s.rmix := by cases x <;> rfl
@[simp] theorem State.setQueue_tarb (x : Studio) (q : List Party) : (s.setQueue x q).tarb = s.tarb := by cases x <;> rfl
@[simp] theorem State.setQueue_regions (x : Studio) (q : List Party) : (s.setQueue x q).regions = s.regions := by cases x <;> rfl
@[simp] theorem State.setQueue_ports (x : Studio) (q : List Party) : (s.setQueue x q).ports = s.ports := by cases x <;> rfl
@[simp] theorem State.setQueue_links (x : Studio) (q : List Party) : (s.setQueue x q).links = s.links := by cases x <;> rfl
@[simp] theorem State.setQueue_times (x : Studio) (q : List Party) : (s.setQueue x q).times = s.times := by cases x <;> rfl
@[simp] theorem State.setQueue_tbase (x : Studio) (q : List Party) : (s.setQueue x q).tbase = s.tbase := by cases x <;> rfl
@[simp] theorem State.setQueue_supervisor (x : Studio) (q : List Party) : (s.setQueue x q).supervisor = s.supervisor := by cases x <;> rfl
@[simp] theorem State.setQueue_rate (x : Studio) (q : List Party) : (s.setQueue x q).rate = s.rate := by cases x <;> rfl
@[simp] theorem State.setQueue_resetHeld (x : Studio) (q : List Party) : (s.setQueue x q).resetHeld = s.resetHeld := by cases x <;> rfl
@[simp] theorem State.setQueue_choices (x : Studio) (q : List Party) : (s.setQueue x q).choices = s.choices := by cases x <;> rfl

/-! `setSlot` changes `stud`. -/

@[simp] theorem State.setSlot_pending (n : AirSlot) (o : Option OnSlot) : (s.setSlot n o).pending = s.pending := rfl
@[simp] theorem State.setSlot_parties (n : AirSlot) (o : Option OnSlot) : (s.setSlot n o).parties = s.parties := rfl
@[simp] theorem State.setSlot_smon (n : AirSlot) (o : Option OnSlot) : (s.setSlot n o).smon = s.smon := rfl
@[simp] theorem State.setSlot_conf (n : AirSlot) (o : Option OnSlot) : (s.setSlot n o).conf = s.conf := rfl
@[simp] theorem State.setSlot_rmix (n : AirSlot) (o : Option OnSlot) : (s.setSlot n o).rmix = s.rmix := rfl
@[simp] theorem State.setSlot_tarb (n : AirSlot) (o : Option OnSlot) : (s.setSlot n o).tarb = s.tarb := rfl
@[simp] theorem State.setSlot_regions (n : AirSlot) (o : Option OnSlot) : (s.setSlot n o).regions = s.regions := rfl
@[simp] theorem State.setSlot_ports (n : AirSlot) (o : Option OnSlot) : (s.setSlot n o).ports = s.ports := rfl
@[simp] theorem State.setSlot_links (n : AirSlot) (o : Option OnSlot) : (s.setSlot n o).links = s.links := rfl
@[simp] theorem State.setSlot_times (n : AirSlot) (o : Option OnSlot) : (s.setSlot n o).times = s.times := rfl
@[simp] theorem State.setSlot_tbase (n : AirSlot) (o : Option OnSlot) : (s.setSlot n o).tbase = s.tbase := rfl
@[simp] theorem State.setSlot_supervisor (n : AirSlot) (o : Option OnSlot) : (s.setSlot n o).supervisor = s.supervisor := rfl
@[simp] theorem State.setSlot_rate (n : AirSlot) (o : Option OnSlot) : (s.setSlot n o).rate = s.rate := rfl
@[simp] theorem State.setSlot_resetHeld (n : AirSlot) (o : Option OnSlot) : (s.setSlot n o).resetHeld = s.resetHeld := rfl
@[simp] theorem State.setSlot_choices (n : AirSlot) (o : Option OnSlot) : (s.setSlot n o).choices = s.choices := rfl

/-! `dequeue` changes `stud`. -/

@[simp] theorem State.dequeue_pending (p : Party) : (s.dequeue p).pending = s.pending := rfl
@[simp] theorem State.dequeue_parties (p : Party) : (s.dequeue p).parties = s.parties := rfl
@[simp] theorem State.dequeue_smon (p : Party) : (s.dequeue p).smon = s.smon := rfl
@[simp] theorem State.dequeue_conf (p : Party) : (s.dequeue p).conf = s.conf := rfl
@[simp] theorem State.dequeue_rmix (p : Party) : (s.dequeue p).rmix = s.rmix := rfl
@[simp] theorem State.dequeue_tarb (p : Party) : (s.dequeue p).tarb = s.tarb := rfl
@[simp] theorem State.dequeue_regions (p : Party) : (s.dequeue p).regions = s.regions := rfl
@[simp] theorem State.dequeue_ports (p : Party) : (s.dequeue p).ports = s.ports := rfl
@[simp] theorem State.dequeue_links (p : Party) : (s.dequeue p).links = s.links := rfl
@[simp] theorem State.dequeue_times (p : Party) : (s.dequeue p).times = s.times := rfl
@[simp] theorem State.dequeue_tbase (p : Party) : (s.dequeue p).tbase = s.tbase := rfl
@[simp] theorem State.dequeue_supervisor (p : Party) : (s.dequeue p).supervisor = s.supervisor := rfl
@[simp] theorem State.dequeue_rate (p : Party) : (s.dequeue p).rate = s.rate := rfl
@[simp] theorem State.dequeue_resetHeld (p : Party) : (s.dequeue p).resetHeld = s.resetHeld := rfl
@[simp] theorem State.dequeue_choices (p : Party) : (s.dequeue p).choices = s.choices := rfl

/-! `freeAir` changes `stud`. -/

@[simp] theorem State.freeAir_pending (p : Party) : (s.freeAir p).pending = s.pending := rfl
@[simp] theorem State.freeAir_parties (p : Party) : (s.freeAir p).parties = s.parties := rfl
@[simp] theorem State.freeAir_smon (p : Party) : (s.freeAir p).smon = s.smon := rfl
@[simp] theorem State.freeAir_conf (p : Party) : (s.freeAir p).conf = s.conf := rfl
@[simp] theorem State.freeAir_rmix (p : Party) : (s.freeAir p).rmix = s.rmix := rfl
@[simp] theorem State.freeAir_tarb (p : Party) : (s.freeAir p).tarb = s.tarb := rfl
@[simp] theorem State.freeAir_regions (p : Party) : (s.freeAir p).regions = s.regions := rfl
@[simp] theorem State.freeAir_ports (p : Party) : (s.freeAir p).ports = s.ports := rfl
@[simp] theorem State.freeAir_links (p : Party) : (s.freeAir p).links = s.links := rfl
@[simp] theorem State.freeAir_times (p : Party) : (s.freeAir p).times = s.times := rfl
@[simp] theorem State.freeAir_tbase (p : Party) : (s.freeAir p).tbase = s.tbase := rfl
@[simp] theorem State.freeAir_supervisor (p : Party) : (s.freeAir p).supervisor = s.supervisor := rfl
@[simp] theorem State.freeAir_rate (p : Party) : (s.freeAir p).rate = s.rate := rfl
@[simp] theorem State.freeAir_resetHeld (p : Party) : (s.freeAir p).resetHeld = s.resetHeld := rfl
@[simp] theorem State.freeAir_choices (p : Party) : (s.freeAir p).choices = s.choices := rfl

/-! `setSource` changes `stud`. -/

@[simp] theorem State.setSource_pending (n : Source) (r : SourceRec) : (s.setSource n r).pending = s.pending := rfl
@[simp] theorem State.setSource_parties (n : Source) (r : SourceRec) : (s.setSource n r).parties = s.parties := rfl
@[simp] theorem State.setSource_smon (n : Source) (r : SourceRec) : (s.setSource n r).smon = s.smon := rfl
@[simp] theorem State.setSource_conf (n : Source) (r : SourceRec) : (s.setSource n r).conf = s.conf := rfl
@[simp] theorem State.setSource_rmix (n : Source) (r : SourceRec) : (s.setSource n r).rmix = s.rmix := rfl
@[simp] theorem State.setSource_tarb (n : Source) (r : SourceRec) : (s.setSource n r).tarb = s.tarb := rfl
@[simp] theorem State.setSource_regions (n : Source) (r : SourceRec) : (s.setSource n r).regions = s.regions := rfl
@[simp] theorem State.setSource_ports (n : Source) (r : SourceRec) : (s.setSource n r).ports = s.ports := rfl
@[simp] theorem State.setSource_links (n : Source) (r : SourceRec) : (s.setSource n r).links = s.links := rfl
@[simp] theorem State.setSource_times (n : Source) (r : SourceRec) : (s.setSource n r).times = s.times := rfl
@[simp] theorem State.setSource_tbase (n : Source) (r : SourceRec) : (s.setSource n r).tbase = s.tbase := rfl
@[simp] theorem State.setSource_supervisor (n : Source) (r : SourceRec) : (s.setSource n r).supervisor = s.supervisor := rfl
@[simp] theorem State.setSource_rate (n : Source) (r : SourceRec) : (s.setSource n r).rate = s.rate := rfl
@[simp] theorem State.setSource_resetHeld (n : Source) (r : SourceRec) : (s.setSource n r).resetHeld = s.resetHeld := rfl
@[simp] theorem State.setSource_choices (n : Source) (r : SourceRec) : (s.setSource n r).choices = s.choices := rfl

/-! `setSplit` changes `stud`. -/

@[simp] theorem State.setSplit_pending (n : Nat) : (s.setSplit n).pending = s.pending := rfl
@[simp] theorem State.setSplit_parties (n : Nat) : (s.setSplit n).parties = s.parties := rfl
@[simp] theorem State.setSplit_smon (n : Nat) : (s.setSplit n).smon = s.smon := rfl
@[simp] theorem State.setSplit_conf (n : Nat) : (s.setSplit n).conf = s.conf := rfl
@[simp] theorem State.setSplit_rmix (n : Nat) : (s.setSplit n).rmix = s.rmix := rfl
@[simp] theorem State.setSplit_tarb (n : Nat) : (s.setSplit n).tarb = s.tarb := rfl
@[simp] theorem State.setSplit_regions (n : Nat) : (s.setSplit n).regions = s.regions := rfl
@[simp] theorem State.setSplit_ports (n : Nat) : (s.setSplit n).ports = s.ports := rfl
@[simp] theorem State.setSplit_links (n : Nat) : (s.setSplit n).links = s.links := rfl
@[simp] theorem State.setSplit_times (n : Nat) : (s.setSplit n).times = s.times := rfl
@[simp] theorem State.setSplit_tbase (n : Nat) : (s.setSplit n).tbase = s.tbase := rfl
@[simp] theorem State.setSplit_supervisor (n : Nat) : (s.setSplit n).supervisor = s.supervisor := rfl
@[simp] theorem State.setSplit_rate (n : Nat) : (s.setSplit n).rate = s.rate := rfl
@[simp] theorem State.setSplit_resetHeld (n : Nat) : (s.setSplit n).resetHeld = s.resetHeld := rfl
@[simp] theorem State.setSplit_choices (n : Nat) : (s.setSplit n).choices = s.choices := rfl

/-! `setFloor` changes `stud`. -/

@[simp] theorem State.setFloor_pending (x : Studio) (n : Nat) : (s.setFloor x n).pending = s.pending := by cases x <;> rfl
@[simp] theorem State.setFloor_parties (x : Studio) (n : Nat) : (s.setFloor x n).parties = s.parties := by cases x <;> rfl
@[simp] theorem State.setFloor_smon (x : Studio) (n : Nat) : (s.setFloor x n).smon = s.smon := by cases x <;> rfl
@[simp] theorem State.setFloor_conf (x : Studio) (n : Nat) : (s.setFloor x n).conf = s.conf := by cases x <;> rfl
@[simp] theorem State.setFloor_rmix (x : Studio) (n : Nat) : (s.setFloor x n).rmix = s.rmix := by cases x <;> rfl
@[simp] theorem State.setFloor_tarb (x : Studio) (n : Nat) : (s.setFloor x n).tarb = s.tarb := by cases x <;> rfl
@[simp] theorem State.setFloor_regions (x : Studio) (n : Nat) : (s.setFloor x n).regions = s.regions := by cases x <;> rfl
@[simp] theorem State.setFloor_ports (x : Studio) (n : Nat) : (s.setFloor x n).ports = s.ports := by cases x <;> rfl
@[simp] theorem State.setFloor_links (x : Studio) (n : Nat) : (s.setFloor x n).links = s.links := by cases x <;> rfl
@[simp] theorem State.setFloor_times (x : Studio) (n : Nat) : (s.setFloor x n).times = s.times := by cases x <;> rfl
@[simp] theorem State.setFloor_tbase (x : Studio) (n : Nat) : (s.setFloor x n).tbase = s.tbase := by cases x <;> rfl
@[simp] theorem State.setFloor_supervisor (x : Studio) (n : Nat) : (s.setFloor x n).supervisor = s.supervisor := by cases x <;> rfl
@[simp] theorem State.setFloor_rate (x : Studio) (n : Nat) : (s.setFloor x n).rate = s.rate := by cases x <;> rfl
@[simp] theorem State.setFloor_resetHeld (x : Studio) (n : Nat) : (s.setFloor x n).resetHeld = s.resetHeld := by cases x <;> rfl
@[simp] theorem State.setFloor_choices (x : Studio) (n : Nat) : (s.setFloor x n).choices = s.choices := by cases x <;> rfl

/-! `setReturn` changes `rmix`. -/

@[simp] theorem State.setReturn_pending (p : Party) (r : Return) : (s.setReturn p r).pending = s.pending := rfl
@[simp] theorem State.setReturn_parties (p : Party) (r : Return) : (s.setReturn p r).parties = s.parties := rfl
@[simp] theorem State.setReturn_smon (p : Party) (r : Return) : (s.setReturn p r).smon = s.smon := rfl
@[simp] theorem State.setReturn_conf (p : Party) (r : Return) : (s.setReturn p r).conf = s.conf := rfl
@[simp] theorem State.setReturn_stud (p : Party) (r : Return) : (s.setReturn p r).stud = s.stud := rfl
@[simp] theorem State.setReturn_tarb (p : Party) (r : Return) : (s.setReturn p r).tarb = s.tarb := rfl
@[simp] theorem State.setReturn_regions (p : Party) (r : Return) : (s.setReturn p r).regions = s.regions := rfl
@[simp] theorem State.setReturn_ports (p : Party) (r : Return) : (s.setReturn p r).ports = s.ports := rfl
@[simp] theorem State.setReturn_links (p : Party) (r : Return) : (s.setReturn p r).links = s.links := rfl
@[simp] theorem State.setReturn_times (p : Party) (r : Return) : (s.setReturn p r).times = s.times := rfl
@[simp] theorem State.setReturn_tbase (p : Party) (r : Return) : (s.setReturn p r).tbase = s.tbase := rfl
@[simp] theorem State.setReturn_supervisor (p : Party) (r : Return) : (s.setReturn p r).supervisor = s.supervisor := rfl
@[simp] theorem State.setReturn_rate (p : Party) (r : Return) : (s.setReturn p r).rate = s.rate := rfl
@[simp] theorem State.setReturn_resetHeld (p : Party) (r : Return) : (s.setReturn p r).resetHeld = s.resetHeld := rfl
@[simp] theorem State.setReturn_choices (p : Party) (r : Return) : (s.setReturn p r).choices = s.choices := rfl

/-! `setCue` changes `rmix`. -/

@[simp] theorem State.setCue_pending (k : Link) (c : Cue) : (s.setCue k c).pending = s.pending := rfl
@[simp] theorem State.setCue_parties (k : Link) (c : Cue) : (s.setCue k c).parties = s.parties := rfl
@[simp] theorem State.setCue_smon (k : Link) (c : Cue) : (s.setCue k c).smon = s.smon := rfl
@[simp] theorem State.setCue_conf (k : Link) (c : Cue) : (s.setCue k c).conf = s.conf := rfl
@[simp] theorem State.setCue_stud (k : Link) (c : Cue) : (s.setCue k c).stud = s.stud := rfl
@[simp] theorem State.setCue_tarb (k : Link) (c : Cue) : (s.setCue k c).tarb = s.tarb := rfl
@[simp] theorem State.setCue_regions (k : Link) (c : Cue) : (s.setCue k c).regions = s.regions := rfl
@[simp] theorem State.setCue_ports (k : Link) (c : Cue) : (s.setCue k c).ports = s.ports := rfl
@[simp] theorem State.setCue_links (k : Link) (c : Cue) : (s.setCue k c).links = s.links := rfl
@[simp] theorem State.setCue_times (k : Link) (c : Cue) : (s.setCue k c).times = s.times := rfl
@[simp] theorem State.setCue_tbase (k : Link) (c : Cue) : (s.setCue k c).tbase = s.tbase := rfl
@[simp] theorem State.setCue_supervisor (k : Link) (c : Cue) : (s.setCue k c).supervisor = s.supervisor := rfl
@[simp] theorem State.setCue_rate (k : Link) (c : Cue) : (s.setCue k c).rate = s.rate := rfl
@[simp] theorem State.setCue_resetHeld (k : Link) (c : Cue) : (s.setCue k c).resetHeld = s.resetHeld := rfl
@[simp] theorem State.setCue_choices (k : Link) (c : Cue) : (s.setCue k c).choices = s.choices := rfl

/-! `retargetFeed` changes `rmix`. -/

@[simp] theorem State.retargetFeed_pending (p : Party) : (s.retargetFeed p).pending = s.pending := rfl
@[simp] theorem State.retargetFeed_parties (p : Party) : (s.retargetFeed p).parties = s.parties := rfl
@[simp] theorem State.retargetFeed_smon (p : Party) : (s.retargetFeed p).smon = s.smon := rfl
@[simp] theorem State.retargetFeed_conf (p : Party) : (s.retargetFeed p).conf = s.conf := rfl
@[simp] theorem State.retargetFeed_stud (p : Party) : (s.retargetFeed p).stud = s.stud := rfl
@[simp] theorem State.retargetFeed_tarb (p : Party) : (s.retargetFeed p).tarb = s.tarb := rfl
@[simp] theorem State.retargetFeed_regions (p : Party) : (s.retargetFeed p).regions = s.regions := rfl
@[simp] theorem State.retargetFeed_ports (p : Party) : (s.retargetFeed p).ports = s.ports := rfl
@[simp] theorem State.retargetFeed_links (p : Party) : (s.retargetFeed p).links = s.links := rfl
@[simp] theorem State.retargetFeed_times (p : Party) : (s.retargetFeed p).times = s.times := rfl
@[simp] theorem State.retargetFeed_tbase (p : Party) : (s.retargetFeed p).tbase = s.tbase := rfl
@[simp] theorem State.retargetFeed_supervisor (p : Party) : (s.retargetFeed p).supervisor = s.supervisor := rfl
@[simp] theorem State.retargetFeed_rate (p : Party) : (s.retargetFeed p).rate = s.rate := rfl
@[simp] theorem State.retargetFeed_resetHeld (p : Party) : (s.retargetFeed p).resetHeld = s.resetHeld := rfl
@[simp] theorem State.retargetFeed_choices (p : Party) : (s.retargetFeed p).choices = s.choices := rfl

/-! `retargetActive` changes `rmix`. -/

@[simp] theorem State.retargetActive_pending (p : Party) (f : List Wanted) (a : Option Duck) : (s.retargetActive p f a).pending = s.pending := rfl
@[simp] theorem State.retargetActive_parties (p : Party) (f : List Wanted) (a : Option Duck) : (s.retargetActive p f a).parties = s.parties := rfl
@[simp] theorem State.retargetActive_smon (p : Party) (f : List Wanted) (a : Option Duck) : (s.retargetActive p f a).smon = s.smon := rfl
@[simp] theorem State.retargetActive_conf (p : Party) (f : List Wanted) (a : Option Duck) : (s.retargetActive p f a).conf = s.conf := rfl
@[simp] theorem State.retargetActive_stud (p : Party) (f : List Wanted) (a : Option Duck) : (s.retargetActive p f a).stud = s.stud := rfl
@[simp] theorem State.retargetActive_tarb (p : Party) (f : List Wanted) (a : Option Duck) : (s.retargetActive p f a).tarb = s.tarb := rfl
@[simp] theorem State.retargetActive_regions (p : Party) (f : List Wanted) (a : Option Duck) : (s.retargetActive p f a).regions = s.regions := rfl
@[simp] theorem State.retargetActive_ports (p : Party) (f : List Wanted) (a : Option Duck) : (s.retargetActive p f a).ports = s.ports := rfl
@[simp] theorem State.retargetActive_links (p : Party) (f : List Wanted) (a : Option Duck) : (s.retargetActive p f a).links = s.links := rfl
@[simp] theorem State.retargetActive_times (p : Party) (f : List Wanted) (a : Option Duck) : (s.retargetActive p f a).times = s.times := rfl
@[simp] theorem State.retargetActive_tbase (p : Party) (f : List Wanted) (a : Option Duck) : (s.retargetActive p f a).tbase = s.tbase := rfl
@[simp] theorem State.retargetActive_supervisor (p : Party) (f : List Wanted) (a : Option Duck) : (s.retargetActive p f a).supervisor = s.supervisor := rfl
@[simp] theorem State.retargetActive_rate (p : Party) (f : List Wanted) (a : Option Duck) : (s.retargetActive p f a).rate = s.rate := rfl
@[simp] theorem State.retargetActive_resetHeld (p : Party) (f : List Wanted) (a : Option Duck) : (s.retargetActive p f a).resetHeld = s.resetHeld := rfl
@[simp] theorem State.retargetActive_choices (p : Party) (f : List Wanted) (a : Option Duck) : (s.retargetActive p f a).choices = s.choices := rfl

/-! `retargetCues` changes `rmix`. -/

@[simp] theorem State.retargetCues_pending : (s.retargetCues).pending = s.pending := rfl
@[simp] theorem State.retargetCues_parties : (s.retargetCues).parties = s.parties := rfl
@[simp] theorem State.retargetCues_smon : (s.retargetCues).smon = s.smon := rfl
@[simp] theorem State.retargetCues_conf : (s.retargetCues).conf = s.conf := rfl
@[simp] theorem State.retargetCues_stud : (s.retargetCues).stud = s.stud := rfl
@[simp] theorem State.retargetCues_tarb : (s.retargetCues).tarb = s.tarb := rfl
@[simp] theorem State.retargetCues_regions : (s.retargetCues).regions = s.regions := rfl
@[simp] theorem State.retargetCues_ports : (s.retargetCues).ports = s.ports := rfl
@[simp] theorem State.retargetCues_links : (s.retargetCues).links = s.links := rfl
@[simp] theorem State.retargetCues_times : (s.retargetCues).times = s.times := rfl
@[simp] theorem State.retargetCues_tbase : (s.retargetCues).tbase = s.tbase := rfl
@[simp] theorem State.retargetCues_supervisor : (s.retargetCues).supervisor = s.supervisor := rfl
@[simp] theorem State.retargetCues_rate : (s.retargetCues).rate = s.rate := rfl
@[simp] theorem State.retargetCues_resetHeld : (s.retargetCues).resetHeld = s.resetHeld := rfl
@[simp] theorem State.retargetCues_choices : (s.retargetCues).choices = s.choices := rfl

/-! `dipFalling` changes `rmix`. -/

@[simp] theorem State.dipFalling_pending (j : Link) (src : Option Source) : (s.dipFalling j src).pending = s.pending := rfl
@[simp] theorem State.dipFalling_parties (j : Link) (src : Option Source) : (s.dipFalling j src).parties = s.parties := rfl
@[simp] theorem State.dipFalling_smon (j : Link) (src : Option Source) : (s.dipFalling j src).smon = s.smon := rfl
@[simp] theorem State.dipFalling_conf (j : Link) (src : Option Source) : (s.dipFalling j src).conf = s.conf := rfl
@[simp] theorem State.dipFalling_stud (j : Link) (src : Option Source) : (s.dipFalling j src).stud = s.stud := rfl
@[simp] theorem State.dipFalling_tarb (j : Link) (src : Option Source) : (s.dipFalling j src).tarb = s.tarb := rfl
@[simp] theorem State.dipFalling_regions (j : Link) (src : Option Source) : (s.dipFalling j src).regions = s.regions := rfl
@[simp] theorem State.dipFalling_ports (j : Link) (src : Option Source) : (s.dipFalling j src).ports = s.ports := rfl
@[simp] theorem State.dipFalling_links (j : Link) (src : Option Source) : (s.dipFalling j src).links = s.links := rfl
@[simp] theorem State.dipFalling_times (j : Link) (src : Option Source) : (s.dipFalling j src).times = s.times := rfl
@[simp] theorem State.dipFalling_tbase (j : Link) (src : Option Source) : (s.dipFalling j src).tbase = s.tbase := rfl
@[simp] theorem State.dipFalling_supervisor (j : Link) (src : Option Source) : (s.dipFalling j src).supervisor = s.supervisor := rfl
@[simp] theorem State.dipFalling_rate (j : Link) (src : Option Source) : (s.dipFalling j src).rate = s.rate := rfl
@[simp] theorem State.dipFalling_resetHeld (j : Link) (src : Option Source) : (s.dipFalling j src).resetHeld = s.resetHeld := rfl
@[simp] theorem State.dipFalling_choices (j : Link) (src : Option Source) : (s.dipFalling j src).choices = s.choices := rfl

/-! `setTalkList` changes `tarb`. -/

@[simp] theorem State.setTalkList_pending (p : Party) (l : List TalkEntry) : (s.setTalkList p l).pending = s.pending := rfl
@[simp] theorem State.setTalkList_parties (p : Party) (l : List TalkEntry) : (s.setTalkList p l).parties = s.parties := rfl
@[simp] theorem State.setTalkList_smon (p : Party) (l : List TalkEntry) : (s.setTalkList p l).smon = s.smon := rfl
@[simp] theorem State.setTalkList_conf (p : Party) (l : List TalkEntry) : (s.setTalkList p l).conf = s.conf := rfl
@[simp] theorem State.setTalkList_stud (p : Party) (l : List TalkEntry) : (s.setTalkList p l).stud = s.stud := rfl
@[simp] theorem State.setTalkList_rmix (p : Party) (l : List TalkEntry) : (s.setTalkList p l).rmix = s.rmix := rfl
@[simp] theorem State.setTalkList_regions (p : Party) (l : List TalkEntry) : (s.setTalkList p l).regions = s.regions := rfl
@[simp] theorem State.setTalkList_ports (p : Party) (l : List TalkEntry) : (s.setTalkList p l).ports = s.ports := rfl
@[simp] theorem State.setTalkList_links (p : Party) (l : List TalkEntry) : (s.setTalkList p l).links = s.links := rfl
@[simp] theorem State.setTalkList_times (p : Party) (l : List TalkEntry) : (s.setTalkList p l).times = s.times := rfl
@[simp] theorem State.setTalkList_tbase (p : Party) (l : List TalkEntry) : (s.setTalkList p l).tbase = s.tbase := rfl
@[simp] theorem State.setTalkList_supervisor (p : Party) (l : List TalkEntry) : (s.setTalkList p l).supervisor = s.supervisor := rfl
@[simp] theorem State.setTalkList_rate (p : Party) (l : List TalkEntry) : (s.setTalkList p l).rate = s.rate := rfl
@[simp] theorem State.setTalkList_resetHeld (p : Party) (l : List TalkEntry) : (s.setTalkList p l).resetHeld = s.resetHeld := rfl
@[simp] theorem State.setTalkList_choices (p : Party) (l : List TalkEntry) : (s.setTalkList p l).choices = s.choices := rfl

/-! `setSettings` changes `tarb`. -/

@[simp] theorem State.setSettings_pending (j : Link) (r : TalkSettings) : (s.setSettings j r).pending = s.pending := rfl
@[simp] theorem State.setSettings_parties (j : Link) (r : TalkSettings) : (s.setSettings j r).parties = s.parties := rfl
@[simp] theorem State.setSettings_smon (j : Link) (r : TalkSettings) : (s.setSettings j r).smon = s.smon := rfl
@[simp] theorem State.setSettings_conf (j : Link) (r : TalkSettings) : (s.setSettings j r).conf = s.conf := rfl
@[simp] theorem State.setSettings_stud (j : Link) (r : TalkSettings) : (s.setSettings j r).stud = s.stud := rfl
@[simp] theorem State.setSettings_rmix (j : Link) (r : TalkSettings) : (s.setSettings j r).rmix = s.rmix := rfl
@[simp] theorem State.setSettings_regions (j : Link) (r : TalkSettings) : (s.setSettings j r).regions = s.regions := rfl
@[simp] theorem State.setSettings_ports (j : Link) (r : TalkSettings) : (s.setSettings j r).ports = s.ports := rfl
@[simp] theorem State.setSettings_links (j : Link) (r : TalkSettings) : (s.setSettings j r).links = s.links := rfl
@[simp] theorem State.setSettings_times (j : Link) (r : TalkSettings) : (s.setSettings j r).times = s.times := rfl
@[simp] theorem State.setSettings_tbase (j : Link) (r : TalkSettings) : (s.setSettings j r).tbase = s.tbase := rfl
@[simp] theorem State.setSettings_supervisor (j : Link) (r : TalkSettings) : (s.setSettings j r).supervisor = s.supervisor := rfl
@[simp] theorem State.setSettings_rate (j : Link) (r : TalkSettings) : (s.setSettings j r).rate = s.rate := rfl
@[simp] theorem State.setSettings_resetHeld (j : Link) (r : TalkSettings) : (s.setSettings j r).resetHeld = s.resetHeld := rfl
@[simp] theorem State.setSettings_choices (j : Link) (r : TalkSettings) : (s.setSettings j r).choices = s.choices := rfl

/-! `setRegion` changes `regions`. -/

@[simp] theorem State.setRegion_pending (i : Fin 8) (r : Region) : (s.setRegion i r).pending = s.pending := rfl
@[simp] theorem State.setRegion_parties (i : Fin 8) (r : Region) : (s.setRegion i r).parties = s.parties := rfl
@[simp] theorem State.setRegion_smon (i : Fin 8) (r : Region) : (s.setRegion i r).smon = s.smon := rfl
@[simp] theorem State.setRegion_conf (i : Fin 8) (r : Region) : (s.setRegion i r).conf = s.conf := rfl
@[simp] theorem State.setRegion_stud (i : Fin 8) (r : Region) : (s.setRegion i r).stud = s.stud := rfl
@[simp] theorem State.setRegion_rmix (i : Fin 8) (r : Region) : (s.setRegion i r).rmix = s.rmix := rfl
@[simp] theorem State.setRegion_tarb (i : Fin 8) (r : Region) : (s.setRegion i r).tarb = s.tarb := rfl
@[simp] theorem State.setRegion_ports (i : Fin 8) (r : Region) : (s.setRegion i r).ports = s.ports := rfl
@[simp] theorem State.setRegion_links (i : Fin 8) (r : Region) : (s.setRegion i r).links = s.links := rfl
@[simp] theorem State.setRegion_times (i : Fin 8) (r : Region) : (s.setRegion i r).times = s.times := rfl
@[simp] theorem State.setRegion_tbase (i : Fin 8) (r : Region) : (s.setRegion i r).tbase = s.tbase := rfl
@[simp] theorem State.setRegion_supervisor (i : Fin 8) (r : Region) : (s.setRegion i r).supervisor = s.supervisor := rfl
@[simp] theorem State.setRegion_rate (i : Fin 8) (r : Region) : (s.setRegion i r).rate = s.rate := rfl
@[simp] theorem State.setRegion_resetHeld (i : Fin 8) (r : Region) : (s.setRegion i r).resetHeld = s.resetHeld := rfl
@[simp] theorem State.setRegion_choices (i : Fin 8) (r : Region) : (s.setRegion i r).choices = s.choices := rfl

/-! `setPort` changes `ports`. -/

@[simp] theorem State.setPort_pending (x : PortId) (r : PortRec) : (s.setPort x r).pending = s.pending := by cases x <;> rfl
@[simp] theorem State.setPort_parties (x : PortId) (r : PortRec) : (s.setPort x r).parties = s.parties := by cases x <;> rfl
@[simp] theorem State.setPort_smon (x : PortId) (r : PortRec) : (s.setPort x r).smon = s.smon := by cases x <;> rfl
@[simp] theorem State.setPort_conf (x : PortId) (r : PortRec) : (s.setPort x r).conf = s.conf := by cases x <;> rfl
@[simp] theorem State.setPort_stud (x : PortId) (r : PortRec) : (s.setPort x r).stud = s.stud := by cases x <;> rfl
@[simp] theorem State.setPort_rmix (x : PortId) (r : PortRec) : (s.setPort x r).rmix = s.rmix := by cases x <;> rfl
@[simp] theorem State.setPort_tarb (x : PortId) (r : PortRec) : (s.setPort x r).tarb = s.tarb := by cases x <;> rfl
@[simp] theorem State.setPort_regions (x : PortId) (r : PortRec) : (s.setPort x r).regions = s.regions := by cases x <;> rfl
@[simp] theorem State.setPort_links (x : PortId) (r : PortRec) : (s.setPort x r).links = s.links := by cases x <;> rfl
@[simp] theorem State.setPort_times (x : PortId) (r : PortRec) : (s.setPort x r).times = s.times := by cases x <;> rfl
@[simp] theorem State.setPort_tbase (x : PortId) (r : PortRec) : (s.setPort x r).tbase = s.tbase := by cases x <;> rfl
@[simp] theorem State.setPort_supervisor (x : PortId) (r : PortRec) : (s.setPort x r).supervisor = s.supervisor := by cases x <;> rfl
@[simp] theorem State.setPort_rate (x : PortId) (r : PortRec) : (s.setPort x r).rate = s.rate := by cases x <;> rfl
@[simp] theorem State.setPort_resetHeld (x : PortId) (r : PortRec) : (s.setPort x r).resetHeld = s.resetHeld := by cases x <;> rfl
@[simp] theorem State.setPort_choices (x : PortId) (r : PortRec) : (s.setPort x r).choices = s.choices := by cases x <;> rfl

/-! `setLink` changes `links`. -/

@[simp] theorem State.setLink_pending (k : Link) (l : LinkRec) : (s.setLink k l).pending = s.pending := rfl
@[simp] theorem State.setLink_parties (k : Link) (l : LinkRec) : (s.setLink k l).parties = s.parties := rfl
@[simp] theorem State.setLink_smon (k : Link) (l : LinkRec) : (s.setLink k l).smon = s.smon := rfl
@[simp] theorem State.setLink_conf (k : Link) (l : LinkRec) : (s.setLink k l).conf = s.conf := rfl
@[simp] theorem State.setLink_stud (k : Link) (l : LinkRec) : (s.setLink k l).stud = s.stud := rfl
@[simp] theorem State.setLink_rmix (k : Link) (l : LinkRec) : (s.setLink k l).rmix = s.rmix := rfl
@[simp] theorem State.setLink_tarb (k : Link) (l : LinkRec) : (s.setLink k l).tarb = s.tarb := rfl
@[simp] theorem State.setLink_regions (k : Link) (l : LinkRec) : (s.setLink k l).regions = s.regions := rfl
@[simp] theorem State.setLink_ports (k : Link) (l : LinkRec) : (s.setLink k l).ports = s.ports := rfl
@[simp] theorem State.setLink_times (k : Link) (l : LinkRec) : (s.setLink k l).times = s.times := rfl
@[simp] theorem State.setLink_tbase (k : Link) (l : LinkRec) : (s.setLink k l).tbase = s.tbase := rfl
@[simp] theorem State.setLink_supervisor (k : Link) (l : LinkRec) : (s.setLink k l).supervisor = s.supervisor := rfl
@[simp] theorem State.setLink_rate (k : Link) (l : LinkRec) : (s.setLink k l).rate = s.rate := rfl
@[simp] theorem State.setLink_resetHeld (k : Link) (l : LinkRec) : (s.setLink k l).resetHeld = s.resetHeld := rfl
@[simp] theorem State.setLink_choices (k : Link) (l : LinkRec) : (s.setLink k l).choices = s.choices := rfl

/-! `modLink` changes `links`. -/

@[simp] theorem State.modLink_pending (k : Link) (f : LinkRec → LinkRec) : (s.modLink k f).pending = s.pending := rfl
@[simp] theorem State.modLink_parties (k : Link) (f : LinkRec → LinkRec) : (s.modLink k f).parties = s.parties := rfl
@[simp] theorem State.modLink_smon (k : Link) (f : LinkRec → LinkRec) : (s.modLink k f).smon = s.smon := rfl
@[simp] theorem State.modLink_conf (k : Link) (f : LinkRec → LinkRec) : (s.modLink k f).conf = s.conf := rfl
@[simp] theorem State.modLink_stud (k : Link) (f : LinkRec → LinkRec) : (s.modLink k f).stud = s.stud := rfl
@[simp] theorem State.modLink_rmix (k : Link) (f : LinkRec → LinkRec) : (s.modLink k f).rmix = s.rmix := rfl
@[simp] theorem State.modLink_tarb (k : Link) (f : LinkRec → LinkRec) : (s.modLink k f).tarb = s.tarb := rfl
@[simp] theorem State.modLink_regions (k : Link) (f : LinkRec → LinkRec) : (s.modLink k f).regions = s.regions := rfl
@[simp] theorem State.modLink_ports (k : Link) (f : LinkRec → LinkRec) : (s.modLink k f).ports = s.ports := rfl
@[simp] theorem State.modLink_times (k : Link) (f : LinkRec → LinkRec) : (s.modLink k f).times = s.times := rfl
@[simp] theorem State.modLink_tbase (k : Link) (f : LinkRec → LinkRec) : (s.modLink k f).tbase = s.tbase := rfl
@[simp] theorem State.modLink_supervisor (k : Link) (f : LinkRec → LinkRec) : (s.modLink k f).supervisor = s.supervisor := rfl
@[simp] theorem State.modLink_rate (k : Link) (f : LinkRec → LinkRec) : (s.modLink k f).rate = s.rate := rfl
@[simp] theorem State.modLink_resetHeld (k : Link) (f : LinkRec → LinkRec) : (s.modLink k f).resetHeld = s.resetHeld := rfl
@[simp] theorem State.modLink_choices (k : Link) (f : LinkRec → LinkRec) : (s.modLink k f).choices = s.choices := rfl

/-! `offer` changes `links`. -/

@[simp] theorem State.offer_pending (o : Offer) : (s.offer o).pending = s.pending := rfl
@[simp] theorem State.offer_parties (o : Offer) : (s.offer o).parties = s.parties := rfl
@[simp] theorem State.offer_smon (o : Offer) : (s.offer o).smon = s.smon := rfl
@[simp] theorem State.offer_conf (o : Offer) : (s.offer o).conf = s.conf := rfl
@[simp] theorem State.offer_stud (o : Offer) : (s.offer o).stud = s.stud := rfl
@[simp] theorem State.offer_rmix (o : Offer) : (s.offer o).rmix = s.rmix := rfl
@[simp] theorem State.offer_tarb (o : Offer) : (s.offer o).tarb = s.tarb := rfl
@[simp] theorem State.offer_regions (o : Offer) : (s.offer o).regions = s.regions := rfl
@[simp] theorem State.offer_ports (o : Offer) : (s.offer o).ports = s.ports := rfl
@[simp] theorem State.offer_times (o : Offer) : (s.offer o).times = s.times := rfl
@[simp] theorem State.offer_tbase (o : Offer) : (s.offer o).tbase = s.tbase := rfl
@[simp] theorem State.offer_supervisor (o : Offer) : (s.offer o).supervisor = s.supervisor := rfl
@[simp] theorem State.offer_rate (o : Offer) : (s.offer o).rate = s.rate := rfl
@[simp] theorem State.offer_resetHeld (o : Offer) : (s.offer o).resetHeld = s.resetHeld := rfl
@[simp] theorem State.offer_choices (o : Offer) : (s.offer o).choices = s.choices := rfl

/-! What an update writes. -/

@[simp] theorem State.setParty_party (p q : Party) (r : PartyRec) :
    (s.setParty p r).party q = if q = p then r else s.party q := row_put _ _ _ _

@[simp] theorem State.modParty_party (p q : Party) (f : PartyRec → PartyRec) :
    (s.modParty p f).party q = if q = p then f (s.party p) else s.party q := row_put _ _ _ _

@[simp] theorem State.setMonitor_monitor (p q : Party) (m : Monitor) :
    (s.setMonitor p m).monitor q = if q = p then m else s.monitor q := row_put _ _ _ _

@[simp] theorem State.setReturn_ret (p q : Party) (r : Return) :
    (s.setReturn p r).ret q = if q = p then r else s.ret q := row_put _ _ _ _

@[simp] theorem State.setCue_cue (k j : Link) (c : Cue) :
    (s.setCue k c).cue j = if j = k then c else s.cue j := row_put _ _ _ _

@[simp] theorem State.setTalkList_talkList (p q : Party) (l : List TalkEntry) :
    (s.setTalkList p l).talkList q = if q = p then l else s.talkList q := row_put _ _ _ _

@[simp] theorem State.setSettings_settings (k j : Link) (r : TalkSettings) :
    (s.setSettings k r).settings j = if j = k then r else s.settings j := row_put _ _ _ _

@[simp] theorem State.setRegion_region (i j : Fin 8) (r : Region) :
    (s.setRegion i r).region j = if j = i then r else s.region j := row_put _ _ _ _

@[simp] theorem State.setLink_link (k j : Link) (l : LinkRec) :
    (s.setLink k l).link j = if j = k then l else s.link j := row_put _ _ _ _

@[simp] theorem State.modLink_link (k j : Link) (f : LinkRec → LinkRec) :
    (s.modLink k f).link j = if j = k then f (s.link k) else s.link j := row_put _ _ _ _

@[simp] theorem State.setSource_source (n m : Source) (r : SourceRec) :
    (s.setSource n r).source m = if m = n then r else s.source m := row_put _ _ _ _

@[simp] theorem State.setPort_port_same (x : PortId) (r : PortRec) : (s.setPort x r).port x = r := by
  cases x <;> rfl

theorem State.setPort_port_other (x y : PortId) (r : PortRec) (h : y ≠ x) : (s.setPort x r).port y = s.port y := by
  cases x <;> cases y <;> first | rfl | exact absurd rfl h

@[simp] theorem State.ungroup_group (p : Party) (g : Group) :
    (s.ungroup p).group g = if (s.group g).members.contains p then (s.group g).without p else s.group g :=
  row_tab _ _

@[simp] theorem State.offer_link (o : Offer) (k : Link) :
    (s.offer o).link k = if o.receives k then (s.link k).receive o.event else s.link k := row_tab _ _

end Sys2Proof.Machine
end

