-- ==== Sys2Proof/Laws/Ops.lean ====
section
/-! SUPPORT. The shared operations over events, reports and answers: what each leaves as it was, field by field. -/

namespace Sys2Proof.Machine

variable (s : State)

/-- A fold keeps whatever each of its steps keeps. -/
theorem foldl_keeps {α β : Type} (g : State → β) (f : State → α → State) (h : ∀ s a, g (f s a) = g s) (l : List α) (s : State) :
    g (l.foldl f s) = g s := by
  induction l generalizing s with
  | nil => rfl
  | cons a l ih => exact (ih (f s a)).trans (h s a)

/-! `offerAll` changes no field but `links`. -/

@[simp] theorem State.offerAll_pending (os : List Offer) : (s.offerAll os).pending = s.pending := foldl_keeps (fun t => t.pending) State.offer (fun _ _ => rfl) os s
@[simp] theorem State.offerAll_parties (os : List Offer) : (s.offerAll os).parties = s.parties := foldl_keeps (fun t => t.parties) State.offer (fun _ _ => rfl) os s
@[simp] theorem State.offerAll_smon (os : List Offer) : (s.offerAll os).smon = s.smon := foldl_keeps (fun t => t.smon) State.offer (fun _ _ => rfl) os s
@[simp] theorem State.offerAll_conf (os : List Offer) : (s.offerAll os).conf = s.conf := foldl_keeps (fun t => t.conf) State.offer (fun _ _ => rfl) os s
@[simp] theorem State.offerAll_stud (os : List Offer) : (s.offerAll os).stud = s.stud := foldl_keeps (fun t => t.stud) State.offer (fun _ _ => rfl) os s
@[simp] theorem State.offerAll_rmix (os : List Offer) : (s.offerAll os).rmix = s.rmix := foldl_keeps (fun t => t.rmix) State.offer (fun _ _ => rfl) os s
@[simp] theorem State.offerAll_tarb (os : List Offer) : (s.offerAll os).tarb = s.tarb := foldl_keeps (fun t => t.tarb) State.offer (fun _ _ => rfl) os s
@[simp] theorem State.offerAll_regions (os : List Offer) : (s.offerAll os).regions = s.regions := foldl_keeps (fun t => t.regions) State.offer (fun _ _ => rfl) os s
@[simp] theorem State.offerAll_ports (os : List Offer) : (s.offerAll os).ports = s.ports := foldl_keeps (fun t => t.ports) State.offer (fun _ _ => rfl) os s
@[simp] theorem State.offerAll_times (os : List Offer) : (s.offerAll os).times = s.times := foldl_keeps (fun t => t.times) State.offer (fun _ _ => rfl) os s
@[simp] theorem State.offerAll_tbase (os : List Offer) : (s.offerAll os).tbase = s.tbase := foldl_keeps (fun t => t.tbase) State.offer (fun _ _ => rfl) os s
@[simp] theorem State.offerAll_supervisor (os : List Offer) : (s.offerAll os).supervisor = s.supervisor := foldl_keeps (fun t => t.supervisor) State.offer (fun _ _ => rfl) os s
@[simp] theorem State.offerAll_rate (os : List Offer) : (s.offerAll os).rate = s.rate := foldl_keeps (fun t => t.rate) State.offer (fun _ _ => rfl) os s
@[simp] theorem State.offerAll_resetHeld (os : List Offer) : (s.offerAll os).resetHeld = s.resetHeld := foldl_keeps (fun t => t.resetHeld) State.offer (fun _ _ => rfl) os s
@[simp] theorem State.offerAll_choices (os : List Offer) : (s.offerAll os).choices = s.choices := foldl_keeps (fun t => t.choices) State.offer (fun _ _ => rfl) os s

/-! `reportFeeds` changes no field but `rmix`. -/

@[simp] theorem State.reportFeeds_pending (ps : List Party) : (s.reportFeeds ps).pending = s.pending := foldl_keeps (fun t => t.pending) State.retargetFeed (fun _ _ => rfl) ps s
@[simp] theorem State.reportFeeds_parties (ps : List Party) : (s.reportFeeds ps).parties = s.parties := foldl_keeps (fun t => t.parties) State.retargetFeed (fun _ _ => rfl) ps s
@[simp] theorem State.reportFeeds_smon (ps : List Party) : (s.reportFeeds ps).smon = s.smon := foldl_keeps (fun t => t.smon) State.retargetFeed (fun _ _ => rfl) ps s
@[simp] theorem State.reportFeeds_conf (ps : List Party) : (s.reportFeeds ps).conf = s.conf := foldl_keeps (fun t => t.conf) State.retargetFeed (fun _ _ => rfl) ps s
@[simp] theorem State.reportFeeds_stud (ps : List Party) : (s.reportFeeds ps).stud = s.stud := foldl_keeps (fun t => t.stud) State.retargetFeed (fun _ _ => rfl) ps s
@[simp] theorem State.reportFeeds_tarb (ps : List Party) : (s.reportFeeds ps).tarb = s.tarb := foldl_keeps (fun t => t.tarb) State.retargetFeed (fun _ _ => rfl) ps s
@[simp] theorem State.reportFeeds_regions (ps : List Party) : (s.reportFeeds ps).regions = s.regions := foldl_keeps (fun t => t.regions) State.retargetFeed (fun _ _ => rfl) ps s
@[simp] theorem State.reportFeeds_ports (ps : List Party) : (s.reportFeeds ps).ports = s.ports := foldl_keeps (fun t => t.ports) State.retargetFeed (fun _ _ => rfl) ps s
@[simp] theorem State.reportFeeds_links (ps : List Party) : (s.reportFeeds ps).links = s.links := foldl_keeps (fun t => t.links) State.retargetFeed (fun _ _ => rfl) ps s
@[simp] theorem State.reportFeeds_times (ps : List Party) : (s.reportFeeds ps).times = s.times := foldl_keeps (fun t => t.times) State.retargetFeed (fun _ _ => rfl) ps s
@[simp] theorem State.reportFeeds_tbase (ps : List Party) : (s.reportFeeds ps).tbase = s.tbase := foldl_keeps (fun t => t.tbase) State.retargetFeed (fun _ _ => rfl) ps s
@[simp] theorem State.reportFeeds_supervisor (ps : List Party) : (s.reportFeeds ps).supervisor = s.supervisor := foldl_keeps (fun t => t.supervisor) State.retargetFeed (fun _ _ => rfl) ps s
@[simp] theorem State.reportFeeds_rate (ps : List Party) : (s.reportFeeds ps).rate = s.rate := foldl_keeps (fun t => t.rate) State.retargetFeed (fun _ _ => rfl) ps s
@[simp] theorem State.reportFeeds_resetHeld (ps : List Party) : (s.reportFeeds ps).resetHeld = s.resetHeld := foldl_keeps (fun t => t.resetHeld) State.retargetFeed (fun _ _ => rfl) ps s
@[simp] theorem State.reportFeeds_choices (ps : List Party) : (s.reportFeeds ps).choices = s.choices := foldl_keeps (fun t => t.choices) State.retargetFeed (fun _ _ => rfl) ps s

/-! `select` changes no field but `rmix`. -/

@[simp] theorem State.select_pending (k : Link) (x : Option Selection) : (s.select k x).pending = s.pending := by unfold State.select; dsimp only; split <;> rfl
@[simp] theorem State.select_parties (k : Link) (x : Option Selection) : (s.select k x).parties = s.parties := by unfold State.select; dsimp only; split <;> rfl
@[simp] theorem State.select_smon (k : Link) (x : Option Selection) : (s.select k x).smon = s.smon := by unfold State.select; dsimp only; split <;> rfl
@[simp] theorem State.select_conf (k : Link) (x : Option Selection) : (s.select k x).conf = s.conf := by unfold State.select; dsimp only; split <;> rfl
@[simp] theorem State.select_stud (k : Link) (x : Option Selection) : (s.select k x).stud = s.stud := by unfold State.select; dsimp only; split <;> rfl
@[simp] theorem State.select_tarb (k : Link) (x : Option Selection) : (s.select k x).tarb = s.tarb := by unfold State.select; dsimp only; split <;> rfl
@[simp] theorem State.select_regions (k : Link) (x : Option Selection) : (s.select k x).regions = s.regions := by unfold State.select; dsimp only; split <;> rfl
@[simp] theorem State.select_ports (k : Link) (x : Option Selection) : (s.select k x).ports = s.ports := by unfold State.select; dsimp only; split <;> rfl
@[simp] theorem State.select_links (k : Link) (x : Option Selection) : (s.select k x).links = s.links := by unfold State.select; dsimp only; split <;> rfl
@[simp] theorem State.select_times (k : Link) (x : Option Selection) : (s.select k x).times = s.times := by unfold State.select; dsimp only; split <;> rfl
@[simp] theorem State.select_tbase (k : Link) (x : Option Selection) : (s.select k x).tbase = s.tbase := by unfold State.select; dsimp only; split <;> rfl
@[simp] theorem State.select_supervisor (k : Link) (x : Option Selection) : (s.select k x).supervisor = s.supervisor := by unfold State.select; dsimp only; split <;> rfl
@[simp] theorem State.select_rate (k : Link) (x : Option Selection) : (s.select k x).rate = s.rate := by unfold State.select; dsimp only; split <;> rfl
@[simp] theorem State.select_resetHeld (k : Link) (x : Option Selection) : (s.select k x).resetHeld = s.resetHeld := by unfold State.select; dsimp only; split <;> rfl
@[simp] theorem State.select_choices (k : Link) (x : Option Selection) : (s.select k x).choices = s.choices := by unfold State.select; dsimp only; split <;> rfl

/-! `ownerNamed` changes no field but `parties`. -/

@[simp] theorem State.ownerNamed_pending (k : Link) (p : Party) : (s.ownerNamed k p).pending = s.pending := by unfold State.ownerNamed; dsimp only; split <;> rfl
@[simp] theorem State.ownerNamed_smon (k : Link) (p : Party) : (s.ownerNamed k p).smon = s.smon := by unfold State.ownerNamed; dsimp only; split <;> rfl
@[simp] theorem State.ownerNamed_conf (k : Link) (p : Party) : (s.ownerNamed k p).conf = s.conf := by unfold State.ownerNamed; dsimp only; split <;> rfl
@[simp] theorem State.ownerNamed_stud (k : Link) (p : Party) : (s.ownerNamed k p).stud = s.stud := by unfold State.ownerNamed; dsimp only; split <;> rfl
@[simp] theorem State.ownerNamed_rmix (k : Link) (p : Party) : (s.ownerNamed k p).rmix = s.rmix := by unfold State.ownerNamed; dsimp only; split <;> rfl
@[simp] theorem State.ownerNamed_tarb (k : Link) (p : Party) : (s.ownerNamed k p).tarb = s.tarb := by unfold State.ownerNamed; dsimp only; split <;> rfl
@[simp] theorem State.ownerNamed_regions (k : Link) (p : Party) : (s.ownerNamed k p).regions = s.regions := by unfold State.ownerNamed; dsimp only; split <;> rfl
@[simp] theorem State.ownerNamed_ports (k : Link) (p : Party) : (s.ownerNamed k p).ports = s.ports := by unfold State.ownerNamed; dsimp only; split <;> rfl
@[simp] theorem State.ownerNamed_links (k : Link) (p : Party) : (s.ownerNamed k p).links = s.links := by unfold State.ownerNamed; dsimp only; split <;> rfl
@[simp] theorem State.ownerNamed_times (k : Link) (p : Party) : (s.ownerNamed k p).times = s.times := by unfold State.ownerNamed; dsimp only; split <;> rfl
@[simp] theorem State.ownerNamed_tbase (k : Link) (p : Party) : (s.ownerNamed k p).tbase = s.tbase := by unfold State.ownerNamed; dsimp only; split <;> rfl
@[simp] theorem State.ownerNamed_supervisor (k : Link) (p : Party) : (s.ownerNamed k p).supervisor = s.supervisor := by unfold State.ownerNamed; dsimp only; split <;> rfl
@[simp] theorem State.ownerNamed_rate (k : Link) (p : Party) : (s.ownerNamed k p).rate = s.rate := by unfold State.ownerNamed; dsimp only; split <;> rfl
@[simp] theorem State.ownerNamed_resetHeld (k : Link) (p : Party) : (s.ownerNamed k p).resetHeld = s.resetHeld := by unfold State.ownerNamed; dsimp only; split <;> rfl
@[simp] theorem State.ownerNamed_choices (k : Link) (p : Party) : (s.ownerNamed k p).choices = s.choices := by unfold State.ownerNamed; dsimp only; split <;> rfl

/-! `reworkActive` changes no field but `links`, `rmix`. -/

@[simp] theorem State.reworkActive_pending (b : State) (p : Party) (own : Option Link) : (s.reworkActive b p own).pending = s.pending := by unfold State.reworkActive; dsimp only; split <;> simp
@[simp] theorem State.reworkActive_parties (b : State) (p : Party) (own : Option Link) : (s.reworkActive b p own).parties = s.parties := by unfold State.reworkActive; dsimp only; split <;> simp
@[simp] theorem State.reworkActive_smon (b : State) (p : Party) (own : Option Link) : (s.reworkActive b p own).smon = s.smon := by unfold State.reworkActive; dsimp only; split <;> simp
@[simp] theorem State.reworkActive_conf (b : State) (p : Party) (own : Option Link) : (s.reworkActive b p own).conf = s.conf := by unfold State.reworkActive; dsimp only; split <;> simp
@[simp] theorem State.reworkActive_stud (b : State) (p : Party) (own : Option Link) : (s.reworkActive b p own).stud = s.stud := by unfold State.reworkActive; dsimp only; split <;> simp
@[simp] theorem State.reworkActive_tarb (b : State) (p : Party) (own : Option Link) : (s.reworkActive b p own).tarb = s.tarb := by unfold State.reworkActive; dsimp only; split <;> simp
@[simp] theorem State.reworkActive_regions (b : State) (p : Party) (own : Option Link) : (s.reworkActive b p own).regions = s.regions := by unfold State.reworkActive; dsimp only; split <;> simp
@[simp] theorem State.reworkActive_ports (b : State) (p : Party) (own : Option Link) : (s.reworkActive b p own).ports = s.ports := by unfold State.reworkActive; dsimp only; split <;> simp
@[simp] theorem State.reworkActive_times (b : State) (p : Party) (own : Option Link) : (s.reworkActive b p own).times = s.times := by unfold State.reworkActive; dsimp only; split <;> simp
@[simp] theorem State.reworkActive_tbase (b : State) (p : Party) (own : Option Link) : (s.reworkActive b p own).tbase = s.tbase := by unfold State.reworkActive; dsimp only; split <;> simp
@[simp] theorem State.reworkActive_supervisor (b : State) (p : Party) (own : Option Link) : (s.reworkActive b p own).supervisor = s.supervisor := by unfold State.reworkActive; dsimp only; split <;> simp
@[simp] theorem State.reworkActive_rate (b : State) (p : Party) (own : Option Link) : (s.reworkActive b p own).rate = s.rate := by unfold State.reworkActive; dsimp only; split <;> simp
@[simp] theorem State.reworkActive_resetHeld (b : State) (p : Party) (own : Option Link) : (s.reworkActive b p own).resetHeld = s.resetHeld := by unfold State.reworkActive; dsimp only; split <;> simp
@[simp] theorem State.reworkActive_choices (b : State) (p : Party) (own : Option Link) : (s.reworkActive b p own).choices = s.choices := by unfold State.reworkActive; dsimp only; split <;> simp

/-! `reportParty` changes no field but `rmix`. -/

@[simp] theorem State.reportParty_pending (b : State) (p : Party) : (s.reportParty b p).pending = s.pending := by unfold State.reportParty; dsimp only; split <;> simp
@[simp] theorem State.reportParty_parties (b : State) (p : Party) : (s.reportParty b p).parties = s.parties := by unfold State.reportParty; dsimp only; split <;> simp
@[simp] theorem State.reportParty_smon (b : State) (p : Party) : (s.reportParty b p).smon = s.smon := by unfold State.reportParty; dsimp only; split <;> simp
@[simp] theorem State.reportParty_conf (b : State) (p : Party) : (s.reportParty b p).conf = s.conf := by unfold State.reportParty; dsimp only; split <;> simp
@[simp] theorem State.reportParty_stud (b : State) (p : Party) : (s.reportParty b p).stud = s.stud := by unfold State.reportParty; dsimp only; split <;> simp
@[simp] theorem State.reportParty_tarb (b : State) (p : Party) : (s.reportParty b p).tarb = s.tarb := by unfold State.reportParty; dsimp only; split <;> simp
@[simp] theorem State.reportParty_regions (b : State) (p : Party) : (s.reportParty b p).regions = s.regions := by unfold State.reportParty; dsimp only; split <;> simp
@[simp] theorem State.reportParty_ports (b : State) (p : Party) : (s.reportParty b p).ports = s.ports := by unfold State.reportParty; dsimp only; split <;> simp
@[simp] theorem State.reportParty_links (b : State) (p : Party) : (s.reportParty b p).links = s.links := by unfold State.reportParty; dsimp only; split <;> simp
@[simp] theorem State.reportParty_times (b : State) (p : Party) : (s.reportParty b p).times = s.times := by unfold State.reportParty; dsimp only; split <;> simp
@[simp] theorem State.reportParty_tbase (b : State) (p : Party) : (s.reportParty b p).tbase = s.tbase := by unfold State.reportParty; dsimp only; split <;> simp
@[simp] theorem State.reportParty_supervisor (b : State) (p : Party) : (s.reportParty b p).supervisor = s.supervisor := by unfold State.reportParty; dsimp only; split <;> simp
@[simp] theorem State.reportParty_rate (b : State) (p : Party) : (s.reportParty b p).rate = s.rate := by unfold State.reportParty; dsimp only; split <;> simp
@[simp] theorem State.reportParty_resetHeld (b : State) (p : Party) : (s.reportParty b p).resetHeld = s.resetHeld := by unfold State.reportParty; dsimp only; split <;> simp
@[simp] theorem State.reportParty_choices (b : State) (p : Party) : (s.reportParty b p).choices = s.choices := by unfold State.reportParty; dsimp only; split <;> simp

/-! `reportTransition` changes no field but `rmix`, `choices`. -/

@[simp] theorem State.reportTransition_pending (b : State) (p : Party) : (s.reportTransition b p).pending = s.pending := by unfold State.reportTransition; dsimp only; split <;> [skip; split] <;> simp
@[simp] theorem State.reportTransition_parties (b : State) (p : Party) : (s.reportTransition b p).parties = s.parties := by unfold State.reportTransition; dsimp only; split <;> [skip; split] <;> simp
@[simp] theorem State.reportTransition_smon (b : State) (p : Party) : (s.reportTransition b p).smon = s.smon := by unfold State.reportTransition; dsimp only; split <;> [skip; split] <;> simp
@[simp] theorem State.reportTransition_conf (b : State) (p : Party) : (s.reportTransition b p).conf = s.conf := by unfold State.reportTransition; dsimp only; split <;> [skip; split] <;> simp
@[simp] theorem State.reportTransition_stud (b : State) (p : Party) : (s.reportTransition b p).stud = s.stud := by unfold State.reportTransition; dsimp only; split <;> [skip; split] <;> simp
@[simp] theorem State.reportTransition_tarb (b : State) (p : Party) : (s.reportTransition b p).tarb = s.tarb := by unfold State.reportTransition; dsimp only; split <;> [skip; split] <;> simp
@[simp] theorem State.reportTransition_regions (b : State) (p : Party) : (s.reportTransition b p).regions = s.regions := by unfold State.reportTransition; dsimp only; split <;> [skip; split] <;> simp
@[simp] theorem State.reportTransition_ports (b : State) (p : Party) : (s.reportTransition b p).ports = s.ports := by unfold State.reportTransition; dsimp only; split <;> [skip; split] <;> simp
@[simp] theorem State.reportTransition_links (b : State) (p : Party) : (s.reportTransition b p).links = s.links := by unfold State.reportTransition; dsimp only; split <;> [skip; split] <;> simp
@[simp] theorem State.reportTransition_times (b : State) (p : Party) : (s.reportTransition b p).times = s.times := by unfold State.reportTransition; dsimp only; split <;> [skip; split] <;> simp
@[simp] theorem State.reportTransition_tbase (b : State) (p : Party) : (s.reportTransition b p).tbase = s.tbase := by unfold State.reportTransition; dsimp only; split <;> [skip; split] <;> simp
@[simp] theorem State.reportTransition_supervisor (b : State) (p : Party) : (s.reportTransition b p).supervisor = s.supervisor := by unfold State.reportTransition; dsimp only; split <;> [skip; split] <;> simp
@[simp] theorem State.reportTransition_rate (b : State) (p : Party) : (s.reportTransition b p).rate = s.rate := by unfold State.reportTransition; dsimp only; split <;> [skip; split] <;> simp
@[simp] theorem State.reportTransition_resetHeld (b : State) (p : Party) : (s.reportTransition b p).resetHeld = s.resetHeld := by unfold State.reportTransition; dsimp only; split <;> [skip; split] <;> simp

/-! `conclude` changes no field but `links`, `rmix`, `choices`. -/

@[simp] theorem State.conclude_pending (b : State) (p : Party) (j : Option Link) (call : List Event) (tail : List Offer) : (s.conclude b p j call tail).pending = s.pending := by simp [State.conclude]
@[simp] theorem State.conclude_parties (b : State) (p : Party) (j : Option Link) (call : List Event) (tail : List Offer) : (s.conclude b p j call tail).parties = s.parties := by simp [State.conclude]
@[simp] theorem State.conclude_smon (b : State) (p : Party) (j : Option Link) (call : List Event) (tail : List Offer) : (s.conclude b p j call tail).smon = s.smon := by simp [State.conclude]
@[simp] theorem State.conclude_conf (b : State) (p : Party) (j : Option Link) (call : List Event) (tail : List Offer) : (s.conclude b p j call tail).conf = s.conf := by simp [State.conclude]
@[simp] theorem State.conclude_stud (b : State) (p : Party) (j : Option Link) (call : List Event) (tail : List Offer) : (s.conclude b p j call tail).stud = s.stud := by simp [State.conclude]
@[simp] theorem State.conclude_tarb (b : State) (p : Party) (j : Option Link) (call : List Event) (tail : List Offer) : (s.conclude b p j call tail).tarb = s.tarb := by simp [State.conclude]
@[simp] theorem State.conclude_regions (b : State) (p : Party) (j : Option Link) (call : List Event) (tail : List Offer) : (s.conclude b p j call tail).regions = s.regions := by simp [State.conclude]
@[simp] theorem State.conclude_ports (b : State) (p : Party) (j : Option Link) (call : List Event) (tail : List Offer) : (s.conclude b p j call tail).ports = s.ports := by simp [State.conclude]
@[simp] theorem State.conclude_times (b : State) (p : Party) (j : Option Link) (call : List Event) (tail : List Offer) : (s.conclude b p j call tail).times = s.times := by simp [State.conclude]
@[simp] theorem State.conclude_tbase (b : State) (p : Party) (j : Option Link) (call : List Event) (tail : List Offer) : (s.conclude b p j call tail).tbase = s.tbase := by simp [State.conclude]
@[simp] theorem State.conclude_supervisor (b : State) (p : Party) (j : Option Link) (call : List Event) (tail : List Offer) : (s.conclude b p j call tail).supervisor = s.supervisor := by simp [State.conclude]
@[simp] theorem State.conclude_rate (b : State) (p : Party) (j : Option Link) (call : List Event) (tail : List Offer) : (s.conclude b p j call tail).rate = s.rate := by simp [State.conclude]
@[simp] theorem State.conclude_resetHeld (b : State) (p : Party) (j : Option Link) (call : List Event) (tail : List Offer) : (s.conclude b p j call tail).resetHeld = s.resetHeld := by simp [State.conclude]

/-! `reportTransfer` changes no field but `rmix`. -/

@[simp] theorem State.reportTransfer_pending (b : State) (p : Party) : (s.reportTransfer b p).pending = s.pending := by unfold State.reportTransfer; split <;> simp
@[simp] theorem State.reportTransfer_parties (b : State) (p : Party) : (s.reportTransfer b p).parties = s.parties := by unfold State.reportTransfer; split <;> simp
@[simp] theorem State.reportTransfer_smon (b : State) (p : Party) : (s.reportTransfer b p).smon = s.smon := by unfold State.reportTransfer; split <;> simp
@[simp] theorem State.reportTransfer_conf (b : State) (p : Party) : (s.reportTransfer b p).conf = s.conf := by unfold State.reportTransfer; split <;> simp
@[simp] theorem State.reportTransfer_stud (b : State) (p : Party) : (s.reportTransfer b p).stud = s.stud := by unfold State.reportTransfer; split <;> simp
@[simp] theorem State.reportTransfer_tarb (b : State) (p : Party) : (s.reportTransfer b p).tarb = s.tarb := by unfold State.reportTransfer; split <;> simp
@[simp] theorem State.reportTransfer_regions (b : State) (p : Party) : (s.reportTransfer b p).regions = s.regions := by unfold State.reportTransfer; split <;> simp
@[simp] theorem State.reportTransfer_ports (b : State) (p : Party) : (s.reportTransfer b p).ports = s.ports := by unfold State.reportTransfer; split <;> simp
@[simp] theorem State.reportTransfer_links (b : State) (p : Party) : (s.reportTransfer b p).links = s.links := by unfold State.reportTransfer; split <;> simp
@[simp] theorem State.reportTransfer_times (b : State) (p : Party) : (s.reportTransfer b p).times = s.times := by unfold State.reportTransfer; split <;> simp
@[simp] theorem State.reportTransfer_tbase (b : State) (p : Party) : (s.reportTransfer b p).tbase = s.tbase := by unfold State.reportTransfer; split <;> simp
@[simp] theorem State.reportTransfer_supervisor (b : State) (p : Party) : (s.reportTransfer b p).supervisor = s.supervisor := by unfold State.reportTransfer; split <;> simp
@[simp] theorem State.reportTransfer_rate (b : State) (p : Party) : (s.reportTransfer b p).rate = s.rate := by unfold State.reportTransfer; split <;> simp
@[simp] theorem State.reportTransfer_resetHeld (b : State) (p : Party) : (s.reportTransfer b p).resetHeld = s.resetHeld := by unfold State.reportTransfer; split <;> simp
@[simp] theorem State.reportTransfer_choices (b : State) (p : Party) : (s.reportTransfer b p).choices = s.choices := by unfold State.reportTransfer; split <;> simp

/-! `Answer.deliver` changes the links alone. -/

@[simp] theorem Answer.deliver_pending (a : Answer) (k : Link) (tag code : Byte) : (a.deliver k tag code).pending = a.state.pending := rfl
@[simp] theorem Answer.deliver_parties (a : Answer) (k : Link) (tag code : Byte) : (a.deliver k tag code).parties = a.state.parties := rfl
@[simp] theorem Answer.deliver_smon (a : Answer) (k : Link) (tag code : Byte) : (a.deliver k tag code).smon = a.state.smon := rfl
@[simp] theorem Answer.deliver_conf (a : Answer) (k : Link) (tag code : Byte) : (a.deliver k tag code).conf = a.state.conf := rfl
@[simp] theorem Answer.deliver_stud (a : Answer) (k : Link) (tag code : Byte) : (a.deliver k tag code).stud = a.state.stud := rfl
@[simp] theorem Answer.deliver_rmix (a : Answer) (k : Link) (tag code : Byte) : (a.deliver k tag code).rmix = a.state.rmix := rfl
@[simp] theorem Answer.deliver_tarb (a : Answer) (k : Link) (tag code : Byte) : (a.deliver k tag code).tarb = a.state.tarb := rfl
@[simp] theorem Answer.deliver_regions (a : Answer) (k : Link) (tag code : Byte) : (a.deliver k tag code).regions = a.state.regions := rfl
@[simp] theorem Answer.deliver_ports (a : Answer) (k : Link) (tag code : Byte) : (a.deliver k tag code).ports = a.state.ports := rfl
@[simp] theorem Answer.deliver_times (a : Answer) (k : Link) (tag code : Byte) : (a.deliver k tag code).times = a.state.times := rfl
@[simp] theorem Answer.deliver_tbase (a : Answer) (k : Link) (tag code : Byte) : (a.deliver k tag code).tbase = a.state.tbase := rfl
@[simp] theorem Answer.deliver_supervisor (a : Answer) (k : Link) (tag code : Byte) : (a.deliver k tag code).supervisor = a.state.supervisor := rfl
@[simp] theorem Answer.deliver_rate (a : Answer) (k : Link) (tag code : Byte) : (a.deliver k tag code).rate = a.state.rate := rfl
@[simp] theorem Answer.deliver_resetHeld (a : Answer) (k : Link) (tag code : Byte) : (a.deliver k tag code).resetHeld = a.state.resetHeld := rfl
@[simp] theorem Answer.deliver_choices (a : Answer) (k : Link) (tag code : Byte) : (a.deliver k tag code).choices = a.state.choices := rfl

@[simp] theorem Answer.deliver_link (a : Answer) (k j : Link) (tag code : Byte) :
    (a.deliver k tag code).link j
      = if j = k then (a.state.link k).respond (a.reply.response tag code) else a.state.link j :=
  State.setLink_link _ _ _ _

/-! `State.leave` changes the groups, the studios and the talkback lists. -/

@[simp] theorem State.leave_pending (p : Party) (into : PartyState) : (s.leave p into).pending = s.pending := by
  unfold State.leave; dsimp only; split <;> split <;> split <;> split <;> simp
@[simp] theorem State.leave_parties (p : Party) (into : PartyState) : (s.leave p into).parties = s.parties := by
  unfold State.leave; dsimp only; split <;> split <;> split <;> split <;> simp
@[simp] theorem State.leave_smon (p : Party) (into : PartyState) : (s.leave p into).smon = s.smon := by
  unfold State.leave; dsimp only; split <;> split <;> split <;> split <;> simp
@[simp] theorem State.leave_rmix (p : Party) (into : PartyState) : (s.leave p into).rmix = s.rmix := by
  unfold State.leave; dsimp only; split <;> split <;> split <;> split <;> simp
@[simp] theorem State.leave_regions (p : Party) (into : PartyState) : (s.leave p into).regions = s.regions := by
  unfold State.leave; dsimp only; split <;> split <;> split <;> split <;> simp
@[simp] theorem State.leave_ports (p : Party) (into : PartyState) : (s.leave p into).ports = s.ports := by
  unfold State.leave; dsimp only; split <;> split <;> split <;> split <;> simp
@[simp] theorem State.leave_links (p : Party) (into : PartyState) : (s.leave p into).links = s.links := by
  unfold State.leave; dsimp only; split <;> split <;> split <;> split <;> simp
@[simp] theorem State.leave_times (p : Party) (into : PartyState) : (s.leave p into).times = s.times := by
  unfold State.leave; dsimp only; split <;> split <;> split <;> split <;> simp
@[simp] theorem State.leave_tbase (p : Party) (into : PartyState) : (s.leave p into).tbase = s.tbase := by
  unfold State.leave; dsimp only; split <;> split <;> split <;> split <;> simp
@[simp] theorem State.leave_supervisor (p : Party) (into : PartyState) : (s.leave p into).supervisor = s.supervisor := by
  unfold State.leave; dsimp only; split <;> split <;> split <;> split <;> simp
@[simp] theorem State.leave_rate (p : Party) (into : PartyState) : (s.leave p into).rate = s.rate := by
  unfold State.leave; dsimp only; split <;> split <;> split <;> split <;> simp
@[simp] theorem State.leave_resetHeld (p : Party) (into : PartyState) : (s.leave p into).resetHeld = s.resetHeld := by
  unfold State.leave; dsimp only; split <;> split <;> split <;> split <;> simp
@[simp] theorem State.leave_choices (p : Party) (into : PartyState) : (s.leave p into).choices = s.choices := by
  unfold State.leave; dsimp only; split <;> split <;> split <;> split <;> simp

/-! `State.enter` changes the parties, the groups, the studios and the talkback lists. -/

@[simp] theorem State.enter_pending (p : Party) (into : PartyState) : (s.enter p into).pending = s.pending := by
  simp [State.enter]
@[simp] theorem State.enter_smon (p : Party) (into : PartyState) : (s.enter p into).smon = s.smon := by
  simp [State.enter]
@[simp] theorem State.enter_conf (p : Party) (into : PartyState) : (s.enter p into).conf = (s.leave p into).conf := rfl
@[simp] theorem State.enter_stud (p : Party) (into : PartyState) : (s.enter p into).stud = (s.leave p into).stud := rfl
@[simp] theorem State.enter_rmix (p : Party) (into : PartyState) : (s.enter p into).rmix = s.rmix := by
  simp [State.enter]
@[simp] theorem State.enter_tarb (p : Party) (into : PartyState) : (s.enter p into).tarb = (s.leave p into).tarb := rfl
@[simp] theorem State.enter_regions (p : Party) (into : PartyState) : (s.enter p into).regions = s.regions := by
  simp [State.enter]
@[simp] theorem State.enter_ports (p : Party) (into : PartyState) : (s.enter p into).ports = s.ports := by
  simp [State.enter]
@[simp] theorem State.enter_links (p : Party) (into : PartyState) : (s.enter p into).links = s.links := by
  simp [State.enter]
@[simp] theorem State.enter_times (p : Party) (into : PartyState) : (s.enter p into).times = s.times := by
  simp [State.enter]
@[simp] theorem State.enter_tbase (p : Party) (into : PartyState) : (s.enter p into).tbase = s.tbase := by
  simp [State.enter]
@[simp] theorem State.enter_supervisor (p : Party) (into : PartyState) : (s.enter p into).supervisor = s.supervisor := by
  simp [State.enter]
@[simp] theorem State.enter_rate (p : Party) (into : PartyState) : (s.enter p into).rate = s.rate := by
  simp [State.enter]
@[simp] theorem State.enter_resetHeld (p : Party) (into : PartyState) : (s.enter p into).resetHeld = s.resetHeld := by
  simp [State.enter]
@[simp] theorem State.enter_choices (p : Party) (into : PartyState) : (s.enter p into).choices = s.choices := by
  simp [State.enter]

/-- The record of a party that enters a state, and the other records. -/
@[simp] theorem State.enter_party (p q : Party) (into : PartyState) :
    (s.enter p into).party q = if q = p then (s.party p).enter into else s.party q := by
  unfold State.enter
  rw [State.setParty_party]
  simp [State.party]

/-- The talkback lists after the removals (R26). -/
theorem State.leave_talkList (p q : Party) (into : PartyState) :
    (s.leave p into).talkList q = if q = p ∧ into.talkable = false then [] else s.talkList q := by
  have h : ∀ t : State, t.tarb = s.tarb → (if into.talkable then t else t.setTalkList p []).talkList q
      = if q = p ∧ into.talkable = false then [] else s.talkList q := by
    intro t ht
    by_cases hk : into.talkable = true <;> by_cases hq : q = p <;> simp [hk, hq, State.talkList, State.setTalkList, ht]
  unfold State.leave
  dsimp only
  refine h _ ?_
  split <;> split <;> split <;> simp

end Sys2Proof.Machine
end

