-- ==== Sys2Proof/Laws/Links.lean ====
section
/-! SUPPORT. What the offering of events and the answering of requests do to the links. -/

namespace Sys2Proof.Machine

/-! ### One link -/

theorem LinkRec.offered_refl (l : LinkRec) : l.offered l := by simp [LinkRec.offered]

theorem LinkRec.offered_trans {l m n : LinkRec} (h : l.offered m) (g : m.offered n) : l.offered n := by
  unfold LinkRec.offered at *
  obtain ⟨h1, h2, h3, h4, h5, h6, h7, h8⟩ := h
  obtain ⟨g1, g2, g3, g4, g5, g6, g7, g8⟩ := g
  exact ⟨g1.trans h1, g2.trans h2, g3.trans h3, g4.trans h4, g5.trans h5, g6.trans h6, g7.trans h7, h8.trans g8⟩

/-- An offered event changes the event queue and the flags alone, and joins at the tail. -/
theorem LinkRec.receive_offered (l : LinkRec) (e : Event) : l.offered (l.receive e) := by
  unfold LinkRec.receive
  split <;> split <;> try split
  all_goals simp [LinkRec.offered]

/-- An offered event keeps the law of the event queues. -/
theorem LinkRec.receive_length (l : LinkRec) (e : Event) (h : l.events.length ≤ 48) :
    (l.receive e).events.length ≤ 48 := by
  unfold LinkRec.receive
  split <;> split <;> try split
  all_goals simp_all [Config.eventRoom]

theorem LinkRec.summarise_length (l : LinkRec) (c : EventClass) (h : l.events.length ≤ 48) :
    (l.summarise c).events.length ≤ 48 := by
  unfold LinkRec.summarise
  split
  · rename_i g
    have hl : l.events.length < 48 := of_decide_eq_true (Bool.and_eq_true _ _ ▸ g).2
    simp only [List.length_append, List.length_singleton]
    omega
  · exact h

theorem LinkRec.summariseAll_length (l : LinkRec) (h : l.events.length ≤ 48) :
    l.summariseAll.events.length ≤ 48 := by
  unfold LinkRec.summariseAll
  generalize allClasses = cs
  induction cs generalizing l with
  | nil => exact h
  | cons c cs ih => exact ih _ (l.summarise_length c h)

/-- A summary changes the event queue and the pending-summary flags alone. -/
theorem LinkRec.summarise_kept (l : LinkRec) (c : EventClass) :
    (l.summarise c).requests = l.requests ∧ (l.summarise c).sending = l.sending
      ∧ (l.summarise c).waiting = l.waiting ∧ (l.summarise c).mask = l.mask ∧ (l.summarise c).overflow = l.overflow
      ∧ (l.summarise c).attnEnable = l.attnEnable ∧ (l.summarise c).attnThreshold = l.attnThreshold
      ∧ (l.summarise c).away = l.away := by
  unfold LinkRec.summarise
  split <;> simp

theorem LinkRec.summariseAll_kept (l : LinkRec) :
    l.summariseAll.requests = l.requests ∧ l.summariseAll.sending = l.sending
      ∧ l.summariseAll.waiting = l.waiting ∧ l.summariseAll.mask = l.mask ∧ l.summariseAll.overflow = l.overflow
      ∧ l.summariseAll.attnEnable = l.attnEnable ∧ l.summariseAll.attnThreshold = l.attnThreshold
      ∧ l.summariseAll.away = l.away := by
  unfold LinkRec.summariseAll
  generalize allClasses = cs
  induction cs generalizing l with
  | nil => simp
  | cons c cs ih =>
    have h := ih (l.summarise c)
    have g := l.summarise_kept c
    simp only [List.foldl_cons]
    simp_all

/-- A response changes the transmitter alone. -/
theorem LinkRec.respond_kept (l : LinkRec) (r : Response) :
    (l.respond r).requests = l.requests ∧ (l.respond r).events = l.events ∧ (l.respond r).mask = l.mask
      ∧ (l.respond r).summaries = l.summaries ∧ (l.respond r).overflow = l.overflow
      ∧ (l.respond r).attnEnable = l.attnEnable ∧ (l.respond r).attnThreshold = l.attnThreshold
      ∧ (l.respond r).away = l.away := by
  unfold LinkRec.respond
  split <;> [split; skip] <;> simp

/-! ### Offers -/

/-- What a link receives of several events, in order (R174). -/
theorem State.offerAll_link (s : State) (os : List Offer) (j : Link) :
    (s.offerAll os).link j = ((os.filter fun o => o.receives j).map fun o => o.event).foldl LinkRec.receive (s.link j) := by
  unfold State.offerAll
  induction os generalizing s with
  | nil => rfl
  | cons o os ih =>
    rw [List.foldl_cons, ih, State.offer_link]
    by_cases h : o.receives j <;> simp [h]

theorem foldl_receive_offered (es : List Event) (l : LinkRec) : l.offered (es.foldl LinkRec.receive l) := by
  induction es generalizing l with
  | nil => exact l.offered_refl
  | cons e es ih => exact LinkRec.offered_trans (l.receive_offered e) (ih _)

theorem foldl_receive_length (es : List Event) (l : LinkRec) (h : l.events.length ≤ 48) :
    (es.foldl LinkRec.receive l).events.length ≤ 48 := by
  induction es generalizing l with
  | nil => exact h
  | cons e es ih => exact ih _ (l.receive_length e h)

theorem State.onlyOffers_refl (s : State) : s.onlyOffers s := fun j => (s.link j).offered_refl

theorem State.onlyOffers_trans {s t u : State} (h : s.onlyOffers t) (g : t.onlyOffers u) : s.onlyOffers u :=
  fun j => LinkRec.offered_trans (h j) (g j)

theorem State.onlyOffers_of_links {s t : State} (h : t.links = s.links) : s.onlyOffers t := by
  intro j
  have : t.link j = s.link j := by simp [State.link, h]
  rw [this]
  exact (s.link j).offered_refl

theorem State.offerAll_onlyOffers (s : State) (os : List Offer) : s.onlyOffers (s.offerAll os) := fun j => by
  rw [s.offerAll_link]
  exact foldl_receive_offered _ _

theorem State.offerAll_eventLaw (s : State) (os : List Offer) (h : s.eventLaw) : (s.offerAll os).eventLaw := fun j => by
  rw [s.offerAll_link]
  exact foldl_receive_length _ _ (h j)

theorem State.eventLaw_of_links {s t : State} (e : t.links = s.links) (h : s.eventLaw) : t.eventLaw := fun j => by
  have : t.link j = s.link j := by simp [State.link, e]
  rw [this]
  exact h j

/-- The links after TARB's work are those after its events. -/
theorem State.reworkActive_links (s b : State) (p : Party) (own : Option Link) :
    (s.reworkActive b p own).links = (s.offerAll (activeOffers b s p own)).links := by
  unfold State.reworkActive
  dsimp only
  split <;> simp

/-- The links after a transition are those after its events. -/
theorem State.conclude_links (s b : State) (p : Party) (j : Option Link) (call : List Event) (tail : List Offer) :
    (s.conclude b p j call tail).links = (s.offerAll (transitionOffers b s p j call ++ tail)).links := by
  simp [State.conclude]

theorem State.passTo_links (s : State) (p : Party) (r : Link) (cause : Nat) (first last : List Offer) :
    (s.passTo p r cause first last).links
      = ((s.transferTo p r).offerAll (first ++ [ownerOffer s (s.transferTo p r) p r cause] ++ last)).links := by
  simp [State.passTo]

end Sys2Proof.Machine
end

