-- ==== Sys2Proof/Laws/Base.lean ====
section
/-! SUPPORT. Which operations and requests leave the base of the state as it was: SMON, ART, the ports, the STIM values,
TBASE, the straps' values and the RESET pin. -/

namespace Sys2Proof.Machine

theorem State.sameBase_refl (s : State) : s.sameBase s := by simp [State.sameBase]

theorem State.sameBase_trans {s t u : State} (h : s.sameBase t) (g : t.sameBase u) : s.sameBase u := by
  simp only [State.sameBase] at *
  simp [*]

theorem sameBase_foldl {α : Type} (f : State → α → State) (h : ∀ (s : State) (a : α), s.sameBase (f s a)) (l : List α) (s : State) :
    s.sameBase (l.foldl f s) := by
  induction l generalizing s with
  | nil => exact s.sameBase_refl
  | cons a l ih => exact State.sameBase_trans (h s a) (ih _)

/-! ### Operations -/

theorem State.conclude_sameBase {s t : State} (b : State) (p : Party) (j : Option Link) (call : List Event)
    (tail : List Offer) (h : s.sameBase t) : s.sameBase (t.conclude b p j call tail) := by
  simpa [State.sameBase] using h

theorem State.enter_sameBase (s : State) (p : Party) (into : PartyState) : s.sameBase (s.enter p into) := by
  simp [State.sameBase]

theorem State.toVacant_sameBase (s : State) (p : Party) (call : State → State → List Event) :
    s.sameBase (s.toVacant p call) := by simp [State.sameBase, State.toVacant]

theorem State.toFault_sameBase (s : State) (p : Party) (cause : Nat) : s.sameBase (s.toFault p cause) := by
  simp [State.sameBase, State.toFault]

theorem State.toAlerting_sameBase (s : State) (p : Party) : s.sameBase (s.toAlerting p) := by
  simp [State.sameBase, State.toAlerting]

theorem State.toParked_sameBase (s : State) (p : Party) (k : Link) : s.sameBase (s.toParked p k) := by
  simp [State.sameBase, State.toParked]

theorem State.toAir_sameBase (s : State) (p : Party) (n : AirSlot) (k : Link) : s.sameBase (s.toAir p n k) := by
  simp [State.sameBase, State.toAir]

theorem State.portFailure_sameBase (s : State) (p : Party) : s.sameBase (s.portFailure p) := by
  unfold State.portFailure
  split
  all_goals first
    | with_reducible exact s.toFault_sameBase p _
    | with_reducible exact s.toVacant_sameBase p _
    | with_reducible exact s.sameBase_refl

theorem State.ownerNamed_sameBase (s : State) (k : Link) (p : Party) : s.sameBase (s.ownerNamed k p) := by
  simp [State.sameBase]

theorem State.passTo_sameBase (s : State) (p : Party) (r : Link) (cause : Nat) (first last : List Offer) :
    s.sameBase (s.passTo p r cause first last) := by
  simp [State.sameBase, State.passTo, State.transferTo]

theorem State.endHandover_sameBase (s : State) (p : Party) (outcome : Nat) : s.sameBase (s.endHandover p outcome) := by
  unfold State.endHandover
  split <;> simp [State.sameBase]

theorem State.cancelHandover_sameBase (s : State) (p : Party) : s.sameBase (s.cancelHandover p) := by
  unfold State.cancelHandover
  split <;> simp [State.sameBase]

theorem State.grantHandover_sameBase (s : State) (p : Party) (outcome cause : Nat) :
    s.sameBase (s.grantHandover p outcome cause) := by
  unfold State.grantHandover
  split <;> [split; skip]
  · exact s.passTo_sameBase p _ _ _ _
  · exact s.endHandover_sameBase p _
  · exact s.sameBase_refl

theorem State.orphan_sameBase (s : State) (p : Party) (cause : Nat) : s.sameBase (s.orphan p cause) := by
  simp [State.sameBase, State.orphan]

theorem State.makeEntry_sameBase (s : State) (e : TalkEntry) (p : Party) : s.sameBase (s.makeEntry e p) := by
  simp [State.sameBase, State.makeEntry]

theorem State.dropEntry_sameBase (s : State) (k : Link) (p : Party) : s.sameBase (s.dropEntry k p) := by
  simp [State.sameBase, State.dropEntry]

/-! ### Requests -/

/-- The requests that write a part of the base: SKND, SREG, LREG, SPRT, STIM and SPAT. -/
def Instr.writesBase : Instr → Bool
  | .sknd _ _ _ _ | .sreg _ _ _ _ _ _ _ _ _ _ _ | .lreg _ _ _ | .sprt _ _ _ _ _ | .stim _ _ _ _ _ _ _ _ _
  | .spat _ _ _ _ _ _ _ _ _ => true
  | _ => false

theorem acceptNaming_sameBase {s t : State} (k : Link) (p : Party) (data : List Byte) (h : s.sameBase t) :
    s.sameBase (acceptNaming t k p data).state := State.sameBase_trans h (t.ownerNamed_sameBase k p)

section
variable (k : Link) (a b c d : Byte) (s : State)

theorem askAnsr_sameBase : s.sameBase (askAnsr k a s).state := by
  unfold askAnsr
  repeat' split
  all_goals first
    | exact s.sameBase_refl
    | exact acceptNaming_sameBase _ _ _ (by simp [State.sameBase, State.answer])

theorem askPark_sameBase : s.sameBase (askPark k a s).state := by
  unfold askPark
  repeat' split
  all_goals first
    | exact s.sameBase_refl
    | exact acceptNaming_sameBase _ _ _ (s.toParked_sameBase _ _)

theorem askQueu_sameBase : s.sameBase (askQueu k a b s).state := by
  unfold askQueu
  repeat' split
  all_goals first
    | exact s.sameBase_refl
    | simp [State.sameBase, State.toQueue, accept]

theorem askAirp_sameBase : s.sameBase (askAirp k a s).state := by
  unfold askAirp
  repeat' split
  all_goals first
    | exact s.sameBase_refl
    | exact acceptNaming_sameBase _ _ _ (s.toAir_sameBase _ _ _)

theorem askNext_sameBase : s.sameBase (askNext k a s).state := by
  unfold askNext
  repeat' split
  all_goals first
    | exact s.sameBase_refl
    | exact s.toAir_sameBase _ _ _

theorem askOffa_sameBase : s.sameBase (askOffa k a s).state := by
  unfold askOffa
  repeat' split
  all_goals first
    | exact s.sameBase_refl
    | exact acceptNaming_sameBase _ _ _ (s.toParked_sameBase _ _)

theorem askUnqu_sameBase : s.sameBase (askUnqu k a s).state := by
  unfold askUnqu
  repeat' split
  all_goals first
    | exact s.sameBase_refl
    | exact acceptNaming_sameBase _ _ _ (s.toParked_sameBase _ _)

theorem askMove_sameBase : s.sameBase (askMove k a b s).state := by
  unfold askMove
  repeat' split
  all_goals first
    | exact s.sameBase_refl
    | refine acceptNaming_sameBase _ _ _ ?_
      unfold State.moveQueued
      dsimp only
      split <;> simp [State.sameBase]

theorem askRlse_sameBase : s.sameBase (askRlse k a s).state := by
  unfold askRlse
  repeat' split
  all_goals first
    | exact s.sameBase_refl
    | simp [State.sameBase, State.release, accept]

theorem askLoop_sameBase : s.sameBase (askLoop k a b s).state := by
  unfold askLoop
  repeat' split
  all_goals first
    | exact s.sameBase_refl
    | exact acceptNaming_sameBase _ _ _ (by simp [State.sameBase, State.startLoop])

theorem askLend_sameBase : s.sameBase (askLend k a s).state := by
  unfold askLend
  repeat' split
  all_goals first
    | exact s.sameBase_refl
    | exact acceptNaming_sameBase _ _ _ (s.toVacant_sameBase _ _)

theorem askPrst_sameBase : s.sameBase (askPrst k a s).state := by
  unfold askPrst
  repeat' split
  all_goals first
    | exact s.sameBase_refl
    | simp [State.sameBase, State.partyReset, accept]

theorem askJoin_sameBase : s.sameBase (askJoin k a b s).state := by
  unfold askJoin
  repeat' split
  all_goals first
    | exact s.sameBase_refl
    | exact acceptNaming_sameBase _ _ _ (by simp [State.sameBase, State.moveToGroup])

theorem askLeav_sameBase : s.sameBase (askLeav k a s).state := by
  unfold askLeav
  repeat' split
  all_goals first
    | exact s.sameBase_refl
    | exact acceptNaming_sameBase _ _ _ (by simp [State.sameBase, State.leaveGroup])

theorem askListen_sameBase (sel : Party → Selection) : s.sameBase (askListen k a sel s).state := by
  unfold askListen
  repeat' split
  all_goals first
    | exact s.sameBase_refl
    | exact acceptNaming_sameBase _ _ _ (by simp [State.sameBase])

theorem askLstn_sameBase : s.sameBase (askLstn k a b s).state := by
  unfold askLstn
  repeat' split
  all_goals first
    | exact s.sameBase_refl
    | exact askListen_sameBase _ _ _ _
    | simp [State.sameBase, accept]

theorem askGain_sameBase : s.sameBase (askGain k a b c d s).state := by
  unfold askGain askGainSource askGainParty
  repeat' split
  all_goals first
    | exact s.sameBase_refl
    | refine acceptNaming_sameBase _ _ _ ?_
      unfold State.gainParty
      split <;> simp [State.sameBase]
    | unfold State.gainSource
      split <;> simp [State.sameBase, accept]

theorem askTalk_sameBase : s.sameBase (askTalk k a b c d s).state := by
  unfold askTalk
  repeat' split
  all_goals first
    | exact s.sameBase_refl
    | exact State.sameBase_trans (by simp [State.sameBase])
        (sameBase_foldl _ (fun t p => t.makeEntry_sameBase _ p) _ { s with tarb := _ })

theorem askTend_sameBase : s.sameBase (askTend k a b s).state := by
  unfold askTend
  split
  · exact sameBase_foldl _ (fun t p => State.sameBase_trans (t.dropEntry_sameBase k p) (State.ownerNamed_sameBase _ _ _)) _ _
  · exact s.sameBase_refl

theorem askStlk_sameBase : s.sameBase (askStlk k a b c d s).state := by
  unfold askStlk
  repeat' split
  all_goals first
    | exact s.sameBase_refl
    | unfold State.setTalk
      dsimp only [accept]
      split <;> [skip; split] <;> simp [State.sameBase]

theorem askTake_sameBase : s.sameBase (askTake k a s).state := by
  unfold askTake takeAnswered takeNow takeOver takePending
  repeat' split
  all_goals first
    | exact s.sameBase_refl
    | exact s.passTo_sameBase _ _ _ _ _
    | exact acceptNaming_sameBase _ _ _ s.sameBase_refl

theorem askGive_sameBase : s.sameBase (askGive k a b s).state := by
  unfold askGive
  repeat' split
  all_goals first
    | exact s.sameBase_refl
    | exact acceptNaming_sameBase _ _ _ (s.grantHandover_sameBase _ _ _)

theorem askKeep_sameBase : s.sameBase (askKeep k a b s).state := by
  unfold askKeep
  repeat' split
  all_goals first
    | exact s.sameBase_refl
    | exact acceptNaming_sameBase _ _ _ (s.endHandover_sameBase _ _)

theorem askTcan_sameBase : s.sameBase (askTcan k a s).state := by
  unfold askTcan
  repeat' split
  all_goals first
    | exact s.sameBase_refl
    | exact s.endHandover_sameBase _ _

theorem askLock_sameBase : s.sameBase (askLock k a s).state := by
  unfold askLock
  repeat' split
  all_goals first
    | exact s.sameBase_refl
    | exact acceptNaming_sameBase _ _ _
        (by simpa [State.sameBase, State.lockParty] using s.endHandover_sameBase _ Result.locked)

theorem askUlck_sameBase : s.sameBase (askUlck k a s).state := by
  unfold askUlck
  repeat' split
  all_goals first
    | exact s.sameBase_refl
    | exact acceptNaming_sameBase _ _ _ (by simp [State.sameBase, State.unlockParty])

theorem askAway_sameBase : s.sameBase (askAway k a s).state := by
  unfold askAway
  split
  · exact s.sameBase_refl
  · simp [State.sameBase, accept, State.setAway]
  · exact State.sameBase_trans (by simp [State.sameBase, State.setAway])
      (sameBase_foldl _ (fun t p => t.grantHandover_sameBase p _ _) _ (s.setAway k true))

theorem askRdrg_sameBase : (askRdrg k a b s).state = s := by
  unfold askRdrg
  repeat' split
  all_goals rfl

theorem askSsrc_sameBase : s.sameBase (askSsrc k a b s).state := by
  unfold askSsrc
  split
  · dsimp only
    repeat' split
    all_goals first
      | exact s.sameBase_refl
      | simp [State.sameBase, accept, State.setMembership]
  · exact s.sameBase_refl

theorem askShld_sameBase : s.sameBase (askShld k a b s).state := by
  unfold askShld
  repeat' split
  all_goals first
    | exact s.sameBase_refl
    | unfold State.setHold
      dsimp only [accept]
      split <;> simp [State.sameBase]

theorem askSplt_sameBase : s.sameBase (askSplt k a s).state := by
  unfold askSplt
  repeat' split
  all_goals exact s.sameBase_refl

theorem askSflr_sameBase : s.sameBase (askSflr k a b s).state := by
  unfold askSflr
  repeat' split
  all_goals first
    | exact s.sameBase_refl
    | exact State.sameBase_trans (by simp [State.sameBase])
        (sameBase_foldl (fun (t : State) p => t.reworkActive s p none) (fun t p => by simp [State.sameBase]) _
          (s.setFloor _ _))

theorem askEmsk_sameBase : s.sameBase (askEmsk k a s).state := by
  unfold askEmsk
  split <;> simp [State.sameBase, accept, refuse]

theorem askFtch_sameBase : s.sameBase (askFtch k a s).state := by
  unfold askFtch
  split <;> simp [State.sameBase, accept, refuse]

theorem askAtcf_sameBase : s.sameBase (askAtcf k a b s).state := by
  unfold askAtcf
  split <;> simp [State.sameBase, accept, refuse]

theorem dropEntries_sameBase : s.sameBase (s.dropEntries k) :=
  sameBase_foldl _ (fun t p => t.dropEntry_sameBase k p) _ _

theorem cancelHandovers_sameBase : s.sameBase (s.cancelHandovers k) :=
  sameBase_foldl _ (fun t p => t.cancelHandover_sameBase p) _ _

theorem askLrst_sameBase : s.sameBase (askLrst k s).state := by
  have h1 : s.sameBase (s.modLink k LinkRec.cleared) := by simp [State.sameBase]
  have h2 : ∀ t : State, t.sameBase (t.leaveStation k) := fun t => by simp [State.sameBase, State.leaveStation]
  exact State.sameBase_trans (State.sameBase_trans (State.sameBase_trans h1 (dropEntries_sameBase k _))
    (cancelHandovers_sameBase k _)) (h2 _)

theorem askRdpy_sameBase : s.sameBase (askRdpy k a s).state := by
  unfold askRdpy
  repeat' split
  all_goals first
    | exact s.sameBase_refl
    | exact acceptNaming_sameBase _ _ _ s.sameBase_refl

theorem askRdqu_same : (askRdqu k a s).state = s := by
  unfold askRdqu
  repeat' split
  all_goals rfl

theorem askRdrt_sameBase : s.sameBase (askRdrt k a b s).state := by
  unfold askRdrt
  repeat' split
  all_goals first
    | exact s.sameBase_refl
    | exact acceptNaming_sameBase _ _ _ s.sameBase_refl

end

end Sys2Proof.Machine
end

