-- ==== Sys2Proof/Laws/Moves.lean ====
section
/-! SUPPORT. What a party transition leaves as it was, what its removals do, and which of its events comes first. -/

namespace Sys2Proof.Machine

variable (s : State)

/-! ### RMIX's own settings under every report -/

@[simp] theorem State.retargetFeed_holdSource (p : Party) : (s.retargetFeed p).rmix.holdSource = s.rmix.holdSource := by rfl
@[simp] theorem State.retargetFeed_holdGain (p : Party) : (s.retargetFeed p).rmix.holdGain = s.rmix.holdGain := by rfl
@[simp] theorem State.retargetFeed_lastReturns (p : Party) : (s.retargetFeed p).rmix.lastReturns = s.rmix.lastReturns := by rfl

@[simp] theorem State.reportFeeds_holdSource (ps : List Party) : (s.reportFeeds ps).rmix.holdSource = s.rmix.holdSource := by exact foldl_keeps (fun t => t.rmix.holdSource) State.retargetFeed (fun _ _ => rfl) ps s
@[simp] theorem State.reportFeeds_holdGain (ps : List Party) : (s.reportFeeds ps).rmix.holdGain = s.rmix.holdGain := by exact foldl_keeps (fun t => t.rmix.holdGain) State.retargetFeed (fun _ _ => rfl) ps s
@[simp] theorem State.reportFeeds_lastReturns (ps : List Party) : (s.reportFeeds ps).rmix.lastReturns = s.rmix.lastReturns := by exact foldl_keeps (fun t => t.rmix.lastReturns) State.retargetFeed (fun _ _ => rfl) ps s

@[simp] theorem State.retargetActive_holdSource (p : Party) (f : List Wanted) (a : Option Duck) : (s.retargetActive p f a).rmix.holdSource = s.rmix.holdSource := by rfl
@[simp] theorem State.retargetActive_holdGain (p : Party) (f : List Wanted) (a : Option Duck) : (s.retargetActive p f a).rmix.holdGain = s.rmix.holdGain := by rfl
@[simp] theorem State.retargetActive_lastReturns (p : Party) (f : List Wanted) (a : Option Duck) : (s.retargetActive p f a).rmix.lastReturns = s.rmix.lastReturns := by rfl

@[simp] theorem State.retargetCues_holdSource : (s.retargetCues).rmix.holdSource = s.rmix.holdSource := by rfl
@[simp] theorem State.retargetCues_holdGain : (s.retargetCues).rmix.holdGain = s.rmix.holdGain := by rfl
@[simp] theorem State.retargetCues_lastReturns : (s.retargetCues).rmix.lastReturns = s.rmix.lastReturns := by rfl

@[simp] theorem State.dipFalling_cues (j : Link) (src : Option Source) : (s.dipFalling j src).rmix.cues = s.rmix.cues := by rfl
@[simp] theorem State.dipFalling_holdSource (j : Link) (src : Option Source) : (s.dipFalling j src).rmix.holdSource = s.rmix.holdSource := by rfl
@[simp] theorem State.dipFalling_holdGain (j : Link) (src : Option Source) : (s.dipFalling j src).rmix.holdGain = s.rmix.holdGain := by rfl
@[simp] theorem State.dipFalling_lastReturns (j : Link) (src : Option Source) : (s.dipFalling j src).rmix.lastReturns = s.rmix.lastReturns := by rfl

@[simp] theorem State.select_holdSource (k : Link) (x : Option Selection) : (s.select k x).rmix.holdSource = s.rmix.holdSource := by unfold State.select; dsimp only; split <;> rfl
@[simp] theorem State.select_holdGain (k : Link) (x : Option Selection) : (s.select k x).rmix.holdGain = s.rmix.holdGain := by unfold State.select; dsimp only; split <;> rfl
@[simp] theorem State.select_lastReturns (k : Link) (x : Option Selection) : (s.select k x).rmix.lastReturns = s.rmix.lastReturns := by unfold State.select; dsimp only; split <;> rfl

@[simp] theorem State.reportParty_holdSource (b : State) (p : Party) : (s.reportParty b p).rmix.holdSource = s.rmix.holdSource := by unfold State.reportParty; dsimp only; split <;> simp
@[simp] theorem State.reportParty_holdGain (b : State) (p : Party) : (s.reportParty b p).rmix.holdGain = s.rmix.holdGain := by unfold State.reportParty; dsimp only; split <;> simp
@[simp] theorem State.reportParty_lastReturns (b : State) (p : Party) : (s.reportParty b p).rmix.lastReturns = s.rmix.lastReturns := by unfold State.reportParty; dsimp only; split <;> simp

@[simp] theorem State.reportTransition_holdSource (b : State) (p : Party) : (s.reportTransition b p).rmix.holdSource = s.rmix.holdSource := by unfold State.reportTransition; dsimp only; split <;> [skip; split] <;> simp
@[simp] theorem State.reportTransition_holdGain (b : State) (p : Party) : (s.reportTransition b p).rmix.holdGain = s.rmix.holdGain := by unfold State.reportTransition; dsimp only; split <;> [skip; split] <;> simp
@[simp] theorem State.reportTransition_lastReturns (b : State) (p : Party) : (s.reportTransition b p).rmix.lastReturns = s.rmix.lastReturns := by unfold State.reportTransition; dsimp only; split <;> [skip; split] <;> simp

@[simp] theorem State.conclude_holdSource (b : State) (p : Party) (j : Option Link) (call : List Event) (tail : List Offer) : (s.conclude b p j call tail).rmix.holdSource = s.rmix.holdSource := by simp [State.conclude]
@[simp] theorem State.conclude_holdGain (b : State) (p : Party) (j : Option Link) (call : List Event) (tail : List Offer) : (s.conclude b p j call tail).rmix.holdGain = s.rmix.holdGain := by simp [State.conclude]
@[simp] theorem State.conclude_lastReturns (b : State) (p : Party) (j : Option Link) (call : List Event) (tail : List Offer) : (s.conclude b p j call tail).rmix.lastReturns = s.rmix.lastReturns := by simp [State.conclude]

@[simp] theorem State.reworkActive_holdSource (b : State) (p : Party) (own : Option Link) : (s.reworkActive b p own).rmix.holdSource = s.rmix.holdSource := by unfold State.reworkActive; dsimp only; split <;> simp
@[simp] theorem State.reworkActive_holdGain (b : State) (p : Party) (own : Option Link) : (s.reworkActive b p own).rmix.holdGain = s.rmix.holdGain := by unfold State.reworkActive; dsimp only; split <;> simp
@[simp] theorem State.reworkActive_lastReturns (b : State) (p : Party) (own : Option Link) : (s.reworkActive b p own).rmix.lastReturns = s.rmix.lastReturns := by unfold State.reworkActive; dsimp only; split <;> simp

@[simp] theorem State.reportTransfer_holdSource (b : State) (p : Party) : (s.reportTransfer b p).rmix.holdSource = s.rmix.holdSource := by unfold State.reportTransfer; split <;> simp
@[simp] theorem State.reportTransfer_holdGain (b : State) (p : Party) : (s.reportTransfer b p).rmix.holdGain = s.rmix.holdGain := by unfold State.reportTransfer; split <;> simp
@[simp] theorem State.reportTransfer_lastReturns (b : State) (p : Party) : (s.reportTransfer b p).rmix.lastReturns = s.rmix.lastReturns := by unfold State.reportTransfer; split <;> simp

/-! ### The removals of R26 -/

theorem State.outOfGroup_of_ungroup {s t : State} (p : Party) (h : t.conf = (s.ungroup p).conf) :
    s.outOfGroup t p := by
  intro m
  have hg : t.group m = if (s.group m).members.contains p then (s.group m).without p else s.group m := by
    show row t.conf m = _
    rw [h]
    simp [State.ungroup]
  refine ⟨fun k => ?_, fun k => ?_⟩
  · rw [hg, if_neg (by simpa using k)]
  · rw [hg, if_pos (by simpa using k)]
    simp [GroupRec.without]

theorem State.removed_of_leave {s t : State} (p : Party) (into : PartyState)
    (h : into ≠ .queued ∧ into ≠ .onAir ∧ into ≠ .screening) (hs : t.stud = (s.leave p into).stud)
    (hc : t.conf = (s.leave p into).conf) : s.removed t p := by
  obtain ⟨h1, h2, h3⟩ := h
  unfold State.leave at hs hc
  have e : ∀ u : State, (if into.talkable then u else u.setTalkList p []).stud = u.stud := fun u => by
    split <;> rfl
  have g : ∀ u : State, (if into.talkable then u else u.setTalkList p []).conf = u.conf := fun u => by
    split <;> rfl
  simp only [e, g] at hs hc
  refine ⟨fun q => ?_, fun q => ?_, fun q r => ?_, fun q => ?_, fun q => ?_⟩
  · simp [q, h1, State.dequeue] at hs
    simpa [State.outOfQueue] using hs
  · simp [q, h2, State.freeAir] at hs
    refine ⟨by rw [hs], fun n => ?_⟩
    rw [hs]
    simp only [row_tab]
    rcases row s.stud.slots n with _ | o
    · simp
    · simp
  · rw [hs]
    simp only [q, r, false_and, if_false]
    split <;> simp [State.ungroup]
  · refine State.outOfGroup_of_ungroup p ?_
    simpa [q, h3] using hc
  · rw [hc]
    simp only [q, false_and, if_false]
    split <;> split <;> simp [State.dequeue, State.freeAir]

/-- A move into an answered state from VACANT, ALERTING or such takes the party from no collection. -/
theorem State.leave_stud_none (p : Party) (into : PartyState) (h : (s.party p).state ≠ .queued)
    (g : (s.party p).state ≠ .onAir) : (s.leave p into).stud = s.stud := by
  unfold State.leave
  simp only [h, g, false_and, if_false]
  split <;> split <;> simp [State.ungroup, State.setTalkList]

theorem State.leave_conf_none (p : Party) (into : PartyState) (h : (s.party p).state ≠ .screening) :
    (s.leave p into).conf = s.conf := by
  unfold State.leave
  simp only [h, false_and, if_false]
  split <;> split <;> split <;> simp [State.setTalkList, State.dequeue, State.freeAir]

theorem State.leave_stud_queued (p : Party) (into : PartyState) (h : (s.party p).state = .queued)
    (g : into ≠ .queued) : (s.leave p into).stud
      = { s.stud with queueA := s.stud.queueA.filter (· != p), queueB := s.stud.queueB.filter (· != p) } := by
  unfold State.leave
  simp [h, g]
  split <;> simp [State.setTalkList, State.dequeue]

theorem State.leave_conf_screening (p : Party) (into : PartyState) (h : (s.party p).state = .screening)
    (g : into ≠ .screening) : (s.leave p into).conf = (s.ungroup p).conf := by
  unfold State.leave
  simp [h, g]
  split <;> simp [State.setTalkList]

/-! ### Frames of a transition -/

theorem State.sameStudios_leave (p : Party) (into : PartyState) : s.sameStudios (s.leave p into) := by
  unfold State.leave State.sameStudios
  dsimp only
  split <;> split <;> split <;> split <;>
    simp [State.setTalkList, State.dequeue, State.freeAir, State.ungroup]

/-- A transition that enters a state, changes the record of its party again, and concludes: the frame of R26 and R27. -/
theorem State.conclude_frame {s t : State} (b : State) (p : Party) (j : Option Link) (call : List Event)
    (tail : List Offer) (h : s.sameBase t) (hl : t.links = s.links) (hr : t.rmix = s.rmix)
    (hp : ∀ q, q ≠ p → t.party q = s.party q) (ht : s.otherLists t p) (hs : s.sameStudios t) :
    s.partyFrame (t.conclude b p j call tail) p := by
  refine ⟨State.conclude_sameBase b p j call tail h, ?_, ?_, ?_, ?_, ?_⟩
  · intro k
    have : (t.conclude b p j call tail).link k
        = (t.offerAll (transitionOffers b t p j call ++ tail)).link k := by
      simp only [State.link, State.conclude_links]
    rw [this]
    have g := t.offerAll_onlyOffers (transitionOffers b t p j call ++ tail) k
    have e : t.link k = s.link k := by simp [State.link, hl]
    rwa [e] at g
  · simp [State.sameHold, hr]
  · intro q hq
    have : (t.conclude b p j call tail).party q = t.party q := by simp [State.party]
    rw [this]
    exact hp q hq
  · simpa [State.otherLists, State.talkList] using ht
  · simpa [State.sameStudios] using hs

theorem State.enter_otherLists (p : Party) (into : PartyState) : s.otherLists (s.enter p into) p := by
  refine ⟨?_, ?_, ?_⟩
  · simp only [State.enter_tarb]
    unfold State.leave
    dsimp only
    split <;> split <;> split <;> split <;> simp [State.setTalkList, State.dequeue, State.freeAir, State.ungroup]
  · simp only [State.enter_tarb]
    unfold State.leave
    dsimp only
    split <;> split <;> split <;> split <;> simp [State.setTalkList, State.dequeue, State.freeAir, State.ungroup]
  · intro q hq
    have : (s.enter p into).talkList q = (s.leave p into).talkList q := by simp [State.talkList]
    rw [this, State.leave_talkList]
    simp [hq]

theorem State.enter_talkList (p : Party) (into : PartyState) :
    (s.enter p into).talkList p = if into.talkable then s.talkList p else [] := by
  have : (s.enter p into).talkList p = (s.leave p into).talkList p := by simp [State.talkList]
  rw [this, State.leave_talkList]
  cases into.talkable <;> simp

theorem State.enter_sameStudios (p : Party) (into : PartyState) : s.sameStudios (s.enter p into) := by
  have h := s.sameStudios_leave p into
  simpa [State.sameStudios] using h

/-! ### The first event of a transition -/

theorem State.views_eq {s t : State} (hr : t.regions = s.regions) (hv : t.supervisor = s.supervisor) (k : Link)
    (p : Party) : t.views k p = s.views k p := by
  simp [State.views, State.partyPerms, State.permsUnder, State.partyRegion, State.region, hr, hv]

theorem State.viewsStudio_eq {s t : State} (hr : t.regions = s.regions) (hv : t.supervisor = s.supervisor) (k : Link)
    (x : Studio) : t.viewsStudio k x = s.viewsStudio k x := by
  simp [State.viewsStudio, State.studioPerms, State.permsUnder, State.studioRegion, State.region, hr, hv]

theorem State.conclude_first {s t : State} (p : Party) (j : Option Link) (e : Event) (call : List Event)
    (tail : List Offer) (hl : t.links = s.links) (hr : t.regions = s.regions) (hv : t.supervisor = s.supervisor) :
    s.offersFirst (t.conclude s p j (e :: call) tail) p e (s.party p).owner (t.party p).owner := by
  refine ⟨(transitionOffers s t p j call ++ tail), fun k => ?_⟩
  have h1 : (t.conclude s p j (e :: call) tail).link k
      = (t.offerAll (transitionOffers s t p j (e :: call) ++ tail)).link k := by
    simp only [State.link, State.conclude_links]
  have h2 : t.link k = s.link k := by simp [State.link, hl]
  have h3 : ({ event := e, receives := fun j => s.views j p || (s.party p).owner == some j || (t.party p).owner == some j }
      : Offer) = viewOffer s t p e := by
    simp [viewOffer, State.views_eq hr hv]
  rw [h1, State.offerAll_link, h2, h3]
  simp [transitionOffers]

/-- A transition whose change has offered nothing yet offers exactly its events and what follows them (R27, R174). -/
theorem State.conclude_exactly {s t : State} (p : Party) (j : Option Link) (call : List Event) (tail : List Offer)
    (hl : t.links = s.links) :
    s.offersExactly (t.conclude s p j call tail) (transitionOffers s t p j call ++ tail) := by
  intro k
  have h1 : (t.conclude s p j call tail).link k
      = (t.offerAll (transitionOffers s t p j call ++ tail)).link k := by
    simp only [State.link, State.conclude_links]
  have h2 : t.link k = s.link k := by simp [State.link, hl]
  rw [h1, State.offerAll_link, h2]

/-! ### The places of a party -/

/-- Under the law of the places, only a QUEUED party stands in a ready queue. -/
theorem State.queueOf_none {s : State} {p : Party} (hl : s.placesLaw) (h : (s.party p).state ≠ .queued) :
    s.queueOf p = none := by
  have := (hl.2.1 p).not.2 h
  rw [List.mem_append, not_or] at this
  simp [State.queueOf, this]

/-- Under the law of the places, only a party ON_AIR is on an air slot. -/
theorem State.slotOf_none {s : State} {p : Party} (hl : s.placesLaw) (h : (s.party p).state ≠ .onAir) :
    s.slotOf p = none := by
  unfold State.slotOf
  rw [List.find?_eq_none]
  intro n _
  cases e : row s.stud.slots n with
  | none => simp
  | some o =>
    simp only [beq_iff_eq]
    intro q
    exact h ((hl.2.2.1 p).1 ⟨n, o, e, q⟩)

end Sys2Proof.Machine
end

