-- ==== Sys2Proof/Laws/Forms.lean ====
section
/-! SUPPORT. What each shared operation can change, said once: the form of its next state, the records it writes, and
the events it offers. -/

namespace Sys2Proof.Machine

/-! ### Equal but for some fields -/

theorem State.eq_but_rmix {s t : State} (h0 : t.pending = s.pending) (h1 : t.parties = s.parties) (h2 : t.smon = s.smon)
    (h3 : t.conf = s.conf) (h4 : t.stud = s.stud) (h5 : t.tarb = s.tarb) (h6 : t.regions = s.regions)
    (h7 : t.ports = s.ports) (h8 : t.links = s.links) (h9 : t.times = s.times) (h10 : t.tbase = s.tbase)
    (h11 : t.supervisor = s.supervisor) (h12 : t.rate = s.rate) (h13 : t.resetHeld = s.resetHeld)
    (h14 : t.choices = s.choices) : t = { s with rmix := t.rmix } := by
  cases t; cases s; simp_all

theorem State.eq_but_links_rmix {s t : State} (h0 : t.pending = s.pending) (h1 : t.parties = s.parties)
    (h2 : t.smon = s.smon) (h3 : t.conf = s.conf) (h4 : t.stud = s.stud) (h5 : t.tarb = s.tarb)
    (h6 : t.regions = s.regions) (h7 : t.ports = s.ports) (h9 : t.times = s.times) (h10 : t.tbase = s.tbase)
    (h11 : t.supervisor = s.supervisor) (h12 : t.rate = s.rate) (h13 : t.resetHeld = s.resetHeld)
    (h14 : t.choices = s.choices) : t = { s with links := t.links, rmix := t.rmix } := by
  cases t; cases s; simp_all

theorem State.eq_but_links {s t : State} (h0 : t.pending = s.pending) (h1 : t.parties = s.parties)
    (h2 : t.smon = s.smon) (h3 : t.conf = s.conf) (h4 : t.stud = s.stud) (h5 : t.tarb = s.tarb)
    (h6 : t.regions = s.regions) (h7 : t.ports = s.ports) (h8 : t.rmix = s.rmix) (h9 : t.times = s.times)
    (h10 : t.tbase = s.tbase) (h11 : t.supervisor = s.supervisor) (h12 : t.rate = s.rate)
    (h13 : t.resetHeld = s.resetHeld) (h14 : t.choices = s.choices) : t = { s with links := t.links } := by
  cases t; cases s; simp_all

theorem State.eq_but_parties_links {s t : State} (h0 : t.pending = s.pending) (h2 : t.smon = s.smon)
    (h3 : t.conf = s.conf) (h4 : t.stud = s.stud) (h5 : t.tarb = s.tarb) (h6 : t.regions = s.regions)
    (h7 : t.ports = s.ports) (h8 : t.rmix = s.rmix) (h9 : t.times = s.times) (h10 : t.tbase = s.tbase)
    (h11 : t.supervisor = s.supervisor) (h12 : t.rate = s.rate) (h13 : t.resetHeld = s.resetHeld)
    (h14 : t.choices = s.choices) : t = { s with parties := t.parties, links := t.links } := by
  cases t; cases s; simp_all

theorem State.offerAll_form (s : State) (os : List Offer) : s.offerAll os = { s with links := (s.offerAll os).links } := by
  apply State.eq_but_links <;> simp

theorem State.reportFeeds_form (s : State) (ps : List Party) :
    s.reportFeeds ps = { s with rmix := (s.reportFeeds ps).rmix } := by
  apply State.eq_but_rmix <;> simp

theorem State.reportTransfer_form (s b : State) (p : Party) :
    s.reportTransfer b p = { s with rmix := (s.reportTransfer b p).rmix } := by
  apply State.eq_but_rmix <;> simp

theorem State.reworkActive_form (s b : State) (p : Party) (own : Option Link) :
    s.reworkActive b p own
      = { s with links := (s.reworkActive b p own).links, rmix := (s.reworkActive b p own).rmix } := by
  apply State.eq_but_links_rmix <;> simp

theorem State.ownerNamed_form (s : State) (k : Link) (p : Party) :
    s.ownerNamed k p = { s with parties := (s.ownerNamed k p).parties } := by
  unfold State.ownerNamed
  dsimp only
  split <;> rfl

theorem State.select_form (s : State) (k : Link) (x : Option Selection) :
    s.select k x = { s with rmix := { s.rmix with cues := (s.select k x).rmix.cues } } := by
  unfold State.select
  dsimp only
  split <;> rfl

/-! ### Returns and cues -/

/-- A report to RMIX leaves the returns it does not name. -/
theorem State.reportFeeds_ret (ps : List Party) (s : State) (q : Party) (h : q ∉ ps) :
    (s.reportFeeds ps).ret q = s.ret q := by
  unfold State.reportFeeds
  induction ps generalizing s with
  | nil => rfl
  | cons a l ih =>
    simp only [List.mem_cons, not_or] at h
    rw [List.foldl_cons, ih _ h.2]
    simp [State.retargetFeed, State.setReturn, State.ret, h.1]

theorem State.reworkActive_ret (s b : State) (p q : Party) (own : Option Link) (h : q ≠ p) :
    (s.reworkActive b p own).ret q = s.ret q := by
  unfold State.reworkActive
  dsimp only
  split
  · simp [State.ret]
  · simp [State.retargetActive, State.setReturn, State.ret, h]

theorem State.reworkActive_onlyOffers (s b : State) (p : Party) (own : Option Link) :
    s.onlyOffers (s.reworkActive b p own) := by
  intro j
  have : (s.reworkActive b p own).link j = (s.offerAll (activeOffers b s p own)).link j := by
    simp only [State.link, State.reworkActive_links]
  rw [this]
  exact s.offerAll_onlyOffers _ j

/-- TARB's work leaves RMIX with the active entry of the return it names. -/
theorem State.reworkActive_active (s b : State) (p : Party) (own : Option Link) :
    ((s.reworkActive b p own).ret p).active = (s.activeEntry p).map TalkEntry.duck := by
  unfold State.reworkActive
  dsimp only
  split
  · assumption
  · simp [State.retargetActive, State.setReturn, State.ret]

/-- TARB's work on several returns changes links and RMIX alone, and offers what each return's change offers, in order. -/
theorem State.reworkActive_foldl (b : State) (ps : List Party) (s : State) :
    let t := ps.foldl (fun t p => t.reworkActive b p none) s
    t = { s with links := t.links, rmix := t.rmix }
      ∧ t.links = (s.offerAll (ps.flatMap fun p => activeOffers b s p none)).links := by
  induction ps generalizing s with
  | nil => exact ⟨rfl, rfl⟩
  | cons a l ih =>
    obtain ⟨h1, h2⟩ := ih (s.reworkActive b a none)
    refine ⟨by rw [List.foldl_cons, h1, State.reworkActive_form], ?_⟩
    have e : ∀ p, activeOffers b (s.reworkActive b a none) p none = activeOffers b s p none := fun p => by
      rw [State.reworkActive_form]
      rfl
    rw [List.foldl_cons, h2]
    simp only [e, List.flatMap_cons]
    refine row_ext fun j => ?_
    have h : (s.reworkActive b a none).link j = (s.offerAll (activeOffers b s a none)).link j := by
      simp only [State.link, State.reworkActive_links]
    show (State.offerAll _ _).link j = (State.offerAll _ _).link j
    rw [State.offerAll_link, State.offerAll_link, h, State.offerAll_link]
    simp

/-- TARB's work on several returns gives each its active entry and leaves every other return; a return whose active entry
RMIX knows already stays as it was. -/
theorem State.reworkActive_foldl_ret (b : State) (ps : List Party) (s : State) :
    let t := ps.foldl (fun t p => t.reworkActive b p none) s
    (∀ q, q ∉ ps → t.ret q = s.ret q) ∧ (∀ q ∈ ps, (t.ret q).active = (s.activeEntry q).map TalkEntry.duck)
      ∧ ∀ q, (s.ret q).active = (s.activeEntry q).map TalkEntry.duck → t.ret q = s.ret q := by
  induction ps generalizing s with
  | nil => exact ⟨fun _ _ => rfl, by simp, fun _ _ => rfl⟩
  | cons a l ih =>
    obtain ⟨h1, h2, h3⟩ := ih (s.reworkActive b a none)
    have e : ∀ q, (s.reworkActive b a none).activeEntry q = s.activeEntry q := fun q => by
      rw [State.reworkActive_form]
      rfl
    refine ⟨fun q hq => ?_, fun q hq => ?_, fun q hq => ?_⟩
    · simp only [List.mem_cons, not_or] at hq
      rw [List.foldl_cons, h1 q hq.2, State.reworkActive_ret _ _ _ _ _ hq.1]
    · by_cases hm : q ∈ l
      · rw [List.foldl_cons, h2 q hm, e]
      · simp only [List.mem_cons, hm, or_false] at hq
        subst hq
        rw [List.foldl_cons, h1 q hm, State.reworkActive_active]
    · have : (s.reworkActive b a none).ret q = s.ret q := by
        by_cases hqa : q = a
        · subst hqa
          have h : (s.offerAll (activeOffers b s q none)).ret q = s.ret q := by simp [State.ret]
          unfold State.reworkActive
          dsimp only
          rw [if_pos (by rw [h]; exact hq), h]
        · exact State.reworkActive_ret _ _ _ _ _ hqa
      rw [List.foldl_cons, h3 q (by rw [this, e]; exact hq), this]

theorem State.select_cue (s : State) (k j : Link) (x : Option Selection) (h : j ≠ k) : (s.select k x).cue j = s.cue j := by
  unfold State.select
  dsimp only
  split
  · rfl
  · simp [State.setCue, State.cue, h]

theorem Level.retarget_facts (l : Level) (g : Gain) (ms : Nat) :
    (l.retarget g ms).target = g ∧ (l.retarget g ms).applied = l.applied := by
  unfold Level.retarget
  split <;> simp_all

/-! ### Groups -/

theorem State.ungroup_groupOf (s : State) (p : Party) : (s.ungroup p).groupOf p = none := by
  unfold State.groupOf
  rw [List.find?_eq_none]
  intro h _
  rw [s.ungroup_group p h]
  by_cases q : p ∈ (s.group h).members <;> simp [q, GroupRec.without]

/-! ### One party's record with offers -/

theorem State.setParty_same (s : State) (p : Party) : s.setParty p (s.party p) = s := by
  have : put s.parties p (s.party p) = s.parties := row_ext fun i => by
    rw [row_put]
    split
    · rename_i h
      subst h
      rfl
    · rfl
  simp [State.setParty, this]

theorem State.ownerNamed_setParty (s : State) (k : Link) (p : Party) :
    s.ownerNamed k p = s.setParty p ((s.party p).named k s.times.tprk) := by
  unfold State.ownerNamed PartyRec.named
  dsimp only
  split
  · rfl
  · rw [State.setParty_same]

/-- A request of a link that does not own the party leaves the party's park timer. -/
theorem State.ownerNamed_other (s : State) (k : Link) (p : Party) (h : (s.party p).owner ≠ some k) :
    s.ownerNamed k p = s := by
  unfold State.ownerNamed
  simp [h]

theorem State.ownerNamed_notParked (s : State) (k : Link) (p : Party) (h : (s.party p).state ≠ .parked) :
    s.ownerNamed k p = s := by
  unfold State.ownerNamed
  simp [h]

theorem State.ownerNamed_onlyNamed (s : State) (k : Link) (p : Party) : s.onlyNamed (s.ownerNamed k p) k p := by
  rw [s.ownerNamed_setParty]
  exact ⟨by simp [State.party, State.setParty], fun q hq => by simp [State.party, State.setParty, hq]⟩

/-- A restart of the park timer changes the record of the party in its timer and its reminder count alone (R136). -/
theorem State.ownerNamed_party (s : State) (k : Link) (p q : Party) :
    (s.ownerNamed k p).party q = if q = p then (s.party p).named k s.times.tprk else s.party q := by
  rw [s.ownerNamed_setParty]
  simp only [State.party, State.setParty, row_put]

theorem PartyRec.named_same (r : PartyRec) (k : Link) (n : Nat) :
    r.named k n = { r with park := (r.named k n).park, reminders := (r.named k n).reminders } := by
  unfold PartyRec.named
  split <;> rfl

@[simp] theorem PartyRec.named_state (r : PartyRec) (k : Link) (n : Nat) : (r.named k n).state = r.state := by
  rw [r.named_same]

@[simp] theorem PartyRec.named_owner (r : PartyRec) (k : Link) (n : Nat) : (r.named k n).owner = r.owner := by
  rw [r.named_same]

@[simp] theorem PartyRec.named_lock (r : PartyRec) (k : Link) (n : Nat) : (r.named k n).lock = r.lock := by
  rw [r.named_same]

@[simp] theorem PartyRec.named_handover (r : PartyRec) (k : Link) (n : Nat) : (r.named k n).handover = r.handover := by
  rw [r.named_same]

@[simp] theorem PartyRec.named_callSeconds (r : PartyRec) (k : Link) (n : Nat) :
    (r.named k n).callSeconds = r.callSeconds := by
  rw [r.named_same]

@[simp] theorem PartyRec.named_airSeconds (r : PartyRec) (k : Link) (n : Nat) :
    (r.named k n).airSeconds = r.airSeconds := by
  rw [r.named_same]

theorem State.ownerNamed_state (s : State) (k : Link) (p q : Party) :
    ((s.ownerNamed k p).party q).state = (s.party q).state := by
  rw [s.ownerNamed_party]
  split <;> simp_all

/-- The places of the parties stay lawful as a park timer restarts. -/
theorem State.ownerNamed_placesLaw {s : State} (k : Link) (p : Party) (h : s.placesLaw) : (s.ownerNamed k p).placesLaw := by
  unfold State.placesLaw at *
  simp only [s.ownerNamed_state k p]
  rw [s.ownerNamed_form]
  exact h

/-- What leaves only party `p` as its frame says after a restart of its park timer does so before it. -/
theorem State.partyFrame_of_ownerNamed {s t : State} {k : Link} {p : Party} (h : (s.ownerNamed k p).partyFrame t p) :
    s.partyFrame t p := by
  obtain ⟨h1, h2, h3, h4, h5, h6⟩ := h
  have e := s.ownerNamed_form k p
  rw [e] at h1 h2 h3 h5 h6
  exact ⟨h1, h2, h3, fun q hq => by rw [h4 q hq, s.ownerNamed_party, if_neg hq], h5, h6⟩

theorem State.removed_of_ownerNamed {s t : State} {k : Link} {p : Party} (h : (s.ownerNamed k p).removed t p) :
    s.removed t p := by
  have e := s.ownerNamed_form k p
  unfold State.removed at *
  rw [s.ownerNamed_state] at h
  rw [e] at h
  exact h

theorem State.offersExactly_of_ownerNamed {s t : State} {k : Link} {p : Party} {os : List Offer}
    (h : (s.ownerNamed k p).offersExactly t os) : s.offersExactly t os := by
  rw [s.ownerNamed_form] at h
  exact h
theorem State.writes_offerAll (s : State) (p : Party) (r : PartyRec) (os : List Offer) :
    s.writes ((s.setParty p r).offerAll os) p r os := by
  refine ⟨by simp [State.party, State.setParty], fun q hq => by simp [State.party, State.setParty, hq], fun j => ?_, ?_⟩
  · rw [State.offerAll_link]
    rfl
  · rw [State.offerAll_form]
    rfl

theorem State.writes_ownerNamed (s : State) (k : Link) (p : Party) :
    s.writes (s.ownerNamed k p) p ((s.party p).named k s.times.tprk) [] := by
  rw [s.ownerNamed_setParty]
  exact s.writes_offerAll p _ []

/-- A further change of the same party's record. -/
theorem State.writes_modParty {s t : State} {p : Party} {r : PartyRec} {os : List Offer} (f : PartyRec → PartyRec)
    (h : s.writes t p r os) : s.writes (t.modParty p f) p (f r) os := by
  obtain ⟨h1, h2, h3, h4⟩ := h
  refine ⟨?_, fun q hq => ?_, fun j => ?_, ?_⟩
  · unfold State.modParty
    rw [h1]
    simp [State.party, State.setParty]
  · rw [← h2 q hq]
    simp [State.party, State.modParty, State.setParty, hq]
  · rw [← h3 j]
    rfl
  · apply State.eq_but_parties_links <;> simp <;> rw [h4]

/-- A change of one party by an accepted request that names it. -/
theorem State.writes_named {s t : State} {k : Link} {p : Party} {r : PartyRec} {os : List Offer} (h : s.writes t p r os) :
    s.writes (t.ownerNamed k p) p (r.named k s.times.tprk) os := by
  obtain ⟨h1, h2, h3, h4⟩ := h
  have ht : t.times = s.times := by rw [h4]
  rw [t.ownerNamed_setParty, h1, ht]
  refine ⟨by simp [State.party, State.setParty], fun q hq => ?_, fun j => ?_, ?_⟩
  · rw [← h2 q hq]
    simp [State.party, State.setParty, hq]
  · rw [← h3 j]
    rfl
  · unfold State.setParty
    conv => lhs; rw [h4]

theorem linkValue_match (o : Option Link) : linkValue o = match o with | some k => k.val | none => 0xFFFF := by
  cases o <;> rfl

theorem resultOffer_eq (s : State) (p : Party) (r : Link) (o : Nat) (k : Option Link) :
    resultOffer p r (s.party p).owner k o = s.resultOf p r o k := by
  cases k <;> rfl

/-- The end of a handover with the owner staying (R124). -/
theorem State.endHandover_writes (s : State) (p : Party) (h : Handover) (o : Nat) (e : (s.party p).handover = some h) :
    s.writes (s.endHandover p o) p { s.party p with handover := none } [s.resultOf p h.requester o (s.party p).owner] := by
  have : s.endHandover p o = (s.setParty p { s.party p with handover := none }).offerAll
      [s.resultOf p h.requester o (s.party p).owner] := by
    simp only [State.endHandover, e, ← resultOffer_eq]
    rfl
  rw [this]
  exact s.writes_offerAll p _ _

/-- A transfer of one party (R131). -/
theorem State.passTo_passes (s : State) (p : Party) (r : Link) (cause : Nat) (first last : List Offer) :
    s.passes (s.passTo p r cause first last) p r cause first last := by
  have hlinks := State.passTo_links s p r cause first last
  have hgl : groupLeft s (s.transferTo p r) p = s.groupOf p := by
    have : (s.transferTo p r).groupOf p = (s.ungroup p).groupOf p := rfl
    simp [groupLeft, this, State.ungroup_groupOf]
  have hform : s.passTo p r cause first last = { s with
      parties := (s.transferTo p r).parties, conf := (s.transferTo p r).conf,
      links := (s.passTo p r cause first last).links, rmix := (s.passTo p r cause first last).rmix } := by
    have e : (s.passTo p r cause first last).links
        = ((s.transferTo p r).offerAll (first ++ [ownerOffer s (s.transferTo p r) p r cause] ++ last)).links := hlinks
    rw [e]
    unfold State.passTo
    dsimp only
    rw [State.reportTransfer_form]
    congr 1 <;> simp [State.transferTo, State.modParty, State.setParty, State.ungroup]
  refine ⟨?_, ?_, ?_, ?_, ?_, ?_, ?_⟩
  · rw [hform]
    simp [State.party, State.transferTo, State.modParty, State.setParty, State.parkTime, State.ungroup]
    exact ⟨rfl, rfl⟩
  · apply State.outOfGroup_of_ungroup
    rw [hform]
    rfl
  · intro q hq
    rw [hform]
    simp [State.party, State.transferTo, State.modParty, State.setParty, hq, State.ungroup]
  · intro j
    have hv : ∀ j, (s.transferTo p r).views j p = s.views j p := fun j => State.views_eq rfl rfl j p
    have hl : (s.passTo p r cause first last).link j
        = ((s.transferTo p r).offerAll (first ++ [ownerOffer s (s.transferTo p r) p r cause] ++ last)).link j := by
      simp only [State.link, hlinks]
    rw [hl, State.offerAll_link]
    simp only [ownerOffer, hgl, hv, linkValue_match]
    rfl
  · rw [hform]
  · simp [State.sameHold, State.passTo, State.transferTo, State.modParty, State.setParty, State.ungroup]
  · intro h
    simp [State.passTo, State.reportTransfer, h, State.transferTo, State.modParty, State.setParty, State.ungroup]

/-! ### SUMMARY records -/

theorem ClassSet.has_with (c : ClassSet) (e f : EventClass) (b : Bool) :
    (c.with e b).has f = if f = e then b else c.has f := by
  cases e <;> cases f <;> simp [ClassSet.with, ClassSet.has]

theorem summarise_foldl (cs : List EventClass) (l : LinkRec) (hn : cs.Nodup) :
    cs.foldl LinkRec.summarise l = { l with
        events := l.events ++ ((cs.filter fun e => l.mask.has e && l.summaries.has e).take
          (48 - l.events.length)).map summaryOf,
        summaries := (cs.foldl LinkRec.summarise l).summaries }
      ∧ ∀ e, (cs.foldl LinkRec.summarise l).summaries.has e
        = (l.summaries.has e
          && !((cs.filter fun e => l.mask.has e && l.summaries.has e).take (48 - l.events.length)).contains e) := by
  induction cs generalizing l with
  | nil => simp
  | cons c cs ih =>
    rw [List.nodup_cons] at hn
    rw [List.foldl_cons]
    by_cases hd : (l.mask.has c && l.summaries.has c) = true
    · rw [List.filter_cons_of_pos (by exact hd)]
      by_cases hr : l.events.length < 48
      · have e : l.summarise c
            = { l with events := l.events ++ [summaryOf c], summaries := l.summaries.with c false } := by
          unfold LinkRec.summarise
          rw [if_pos]
          rw [hd]
          exact decide_eq_true hr
        obtain ⟨h1, h2⟩ := ih (l.summarise c) hn.2
        rw [e] at h1 h2 ⊢
        have hfil : (cs.filter fun e => l.mask.has e && (l.summaries.with c false).has e)
            = cs.filter fun e => l.mask.has e && l.summaries.has e := by
          apply List.filter_congr
          intro x hx
          have hxc : x ≠ c := fun y => hn.1 (y ▸ hx)
          rw [ClassSet.has_with, if_neg hxc]
        have hroom : 48 - l.events.length = (48 - (l.events ++ [summaryOf c]).length) + 1 := by
          simp only [List.length_append, List.length_singleton]
          omega
        dsimp only at h1 h2
        rw [hfil] at h1 h2
        rw [hroom, List.take_succ_cons]
        refine ⟨?_, fun x => ?_⟩
        · conv => lhs; rw [h1]
          simp
        · rw [h2 x, ClassSet.has_with]
          by_cases hx : x = c
          · simp [hx]
          · simp [hx]
      · have e : l.summarise c = l := by
          unfold LinkRec.summarise
          rw [if_neg]
          intro h
          rw [Bool.and_eq_true] at h
          exact hr (of_decide_eq_true h.2)
        have hz : 48 - l.events.length = 0 := by omega
        obtain ⟨h1, h2⟩ := ih l hn.2
        rw [hz, List.take_zero] at h1 h2
        rw [e, hz, List.take_zero]
        exact ⟨h1, h2⟩
    · have e : l.summarise c = l := by
        unfold LinkRec.summarise
        rw [if_neg]
        intro h
        rw [Bool.and_eq_true] at h
        exact hd h.1
      rw [List.filter_cons_of_neg (by exact hd), e]
      exact ih l hn.2

/-- Which SUMMARY records are queued, and which flags are left (R175, R176). -/
theorem LinkRec.summariseAll_facts (l : LinkRec) :
    l.summariseAll = { l with
        events := l.events ++ ((allClasses.filter fun e => l.mask.has e && l.summaries.has e).take
          (48 - l.events.length)).map summaryOf,
        summaries := l.summariseAll.summaries }
      ∧ ∀ e, l.summariseAll.summaries.has e
        = (l.summaries.has e
          && !((allClasses.filter fun e => l.mask.has e && l.summaries.has e).take (48 - l.events.length)).contains e) :=
  summarise_foldl allClasses l (by decide)

end Sys2Proof.Machine
end

