-- ==== Sys2Proof/Laws/Feed.lean ====
section
/-! SUPPORT. What a recomputation of a return does: its ingredients take the targets of the feed law. -/

namespace Sys2Proof.Machine

/-! ### One recomputation -/

/-- An ingredient given a goal has its target, and keeps its identity. -/
theorem Ingredient.retarget_target (i : Ingredient) (g : Goal) (ms rampMs : Nat) :
    (i.retarget g ms rampMs).level.target = g.target ∧ (i.retarget g ms rampMs).ident = i.ident := by
  unfold Ingredient.retarget Ingredient.retargetTalk
  repeat' split
  all_goals simp_all [Level.retarget_facts]

theorem mem_insertIngredient (i j : Ingredient) (l : List Ingredient) : j ∈ insertIngredient i l ↔ j = i ∨ j ∈ l := by
  induction l with
  | nil => simp [insertIngredient]
  | cons k l ih =>
    unfold insertIngredient
    split
    · simp
    · simp [ih]; tauto

theorem mem_foldl_insert (is l : List Ingredient) (j : Ingredient) :
    j ∈ is.foldl (fun acc i => insertIngredient i acc) l ↔ j ∈ is ∨ j ∈ l := by
  induction is generalizing l with
  | nil => simp
  | cons i is ih => simp [ih, mem_insertIngredient]; tauto

/-- The goal of an identity that the goals name once. -/
theorem goalOf_mem {gs : List Goal} {g : Goal} (hn : (gs.map fun g => g.ident).Nodup) (h : g ∈ gs) :
    goalOf gs g.ident = g := by
  unfold goalOf
  induction gs with
  | nil => simp at h
  | cons a gs ih =>
    simp only [List.map_cons, List.nodup_cons, List.mem_map, not_exists, not_and] at hn
    by_cases e : a.ident = g.ident
    · rcases List.mem_cons.mp h with rfl | hm
      · simp
      · exact absurd e.symm (hn.1 g hm)
    · rcases List.mem_cons.mp h with rfl | hm
      · exact absurd rfl e
      · simpa [e] using ih hn.2 hm

/-- An identity whose goal is not OFF is named by the goals. -/
theorem goalOf_named {gs : List Goal} {i : Ident} (h : (goalOf gs i).target ≠ .off) :
    goalOf gs i ∈ gs ∧ (goalOf gs i).ident = i := by
  unfold goalOf at *
  split at h
  · rename_i g hg
    exact ⟨List.mem_of_find?_eq_some hg, by simpa using List.find?_some hg⟩
  · exact absurd rfl h

/-- After a recomputation every ingredient has the target of its identity. -/
theorem State.recompute_target (s : State) (why : Because) (f : List Wanted) (gs : List Goal) (is : List Ingredient)
    (hn : (gs.map fun g => g.ident).Nodup) : ∀ i ∈ s.recompute why f gs is, i.level.target = (goalOf gs i.ident).target := by
  intro i hi
  unfold State.recompute at hi
  rcases (mem_foldl_insert _ _ _).mp hi with hj | hm
  · unfold State.joiners at hj
    obtain ⟨g, hg, e⟩ := List.mem_filterMap.mp hj
    split at e
    · cases e
    · cases e
      rw [goalOf_mem hn hg]
      rfl
  · obtain ⟨j, hj, rfl⟩ := List.mem_map.mp hm
    rw [(j.retarget_target _ _ _).1, (j.retarget_target _ _ _).2]

/-- After a recomputation every identity with a target other than OFF is in the list. -/
theorem State.recompute_present (s : State) (why : Because) (f : List Wanted) (gs : List Goal) (is : List Ingredient)
    (i : Ident) (h : (goalOf gs i).target ≠ .off) : ∃ j ∈ s.recompute why f gs is, j.ident = i := by
  unfold State.recompute
  obtain ⟨hg, hi⟩ := goalOf_named h
  by_cases hin : is.any fun j => j.ident == i
  · obtain ⟨j, hj, e⟩ := List.any_eq_true.mp hin
    exact ⟨_, (mem_foldl_insert _ _ _).mpr (.inr (List.mem_map.mpr ⟨j, hj, rfl⟩)),
      (j.retarget_target _ _ _).2.trans (by simpa using e)⟩
  · let j : Ingredient :=
      { ident := i, level := Level.joining (goalOf gs i).target
          (s.rampTime why (f.any fun w => w.ident == i) .off (goalOf gs i).target),
        carries := (goalOf gs i).carries, dipTo := none }
    refine ⟨j, (mem_foldl_insert _ _ _).mpr (.inl (List.mem_filterMap.mpr ⟨goalOf gs i, hg, ?_⟩)), rfl⟩
    rw [hi, if_neg (by simpa [h] using hin)]

/-! ### The feed as a gain of every identity -/

/-- The gain that a feed gives an identity; OFF where it does not name it. -/
def wantedGain (f : List Wanted) (i : Ident) : Gain :=
  match f.find? fun w => w.ident == i with
  | some w => .half w.gain
  | none => .off

theorem wantedGain_mem {f : List Wanted} {w : Wanted} (hn : (f.map fun w => w.ident).Nodup) (h : w ∈ f) :
    wantedGain f w.ident = .half w.gain := by
  unfold wantedGain
  induction f with
  | nil => simp at h
  | cons a f ih =>
    simp only [List.map_cons, List.nodup_cons, List.mem_map, not_exists, not_and] at hn
    by_cases e : a.ident = w.ident
    · rcases List.mem_cons.mp h with rfl | hm
      · simp
      · exact absurd e.symm (hn.1 w hm)
    · rcases List.mem_cons.mp h with rfl | hm
      · exact absurd rfl e
      · simpa [e] using ih hn.2 hm

theorem wantedGain_absent {f : List Wanted} {i : Ident} (h : ∀ w ∈ f, w.ident ≠ i) : wantedGain f i = .off := by
  unfold wantedGain
  rw [List.find?_eq_none.mpr (by simpa using h)]

/-- A feed that names each identity once, with the gain that a function gives it and none at OFF, is that function. -/
theorem wantedGain_eq {f : List Wanted} {g : Ident → Gain} (hn : (f.map fun w => w.ident).Nodup)
    (h1 : ∀ w ∈ f, g w.ident = .half w.gain) (h2 : ∀ i, g i ≠ .off → ∃ w ∈ f, w.ident = i) : ∀ i, wantedGain f i = g i := by
  intro i
  by_cases h : ∃ w ∈ f, w.ident = i
  · obtain ⟨w, hw, rfl⟩ := h
    rw [wantedGain_mem hn hw, h1 w hw]
  · rw [wantedGain_absent fun w hw e => h ⟨w, hw, e⟩]
    by_contra hc
    exact h (h2 i fun e => hc e.symm)

theorem State.talkPath_some {s : State} {k : Link} {w : Wanted} (h : w ∈ s.talkPath k) :
    w.ident = .talk k ∧ s.talkGain k = .half w.gain := by
  unfold State.talkPath State.talkGain at *
  split at h
  · rename_i src g h1 h2
    cases h
    simp [h1, h2]
  · cases h

theorem State.talkPath_none {s : State} {k : Link} (h : s.talkPath k = none) : s.talkGain k = .off := by
  unfold State.talkPath State.talkGain at *
  split at h
  · cases h
  · rename_i hs
    rcases h1 : (s.settings k).source with _ | src
    · simp
    · rcases h2 : (s.settings k).gain with _ | g
      · simp
      · exact absurd h2 (hs src g h1)

/-- The goals name each identity once, and give it the target that its feed gain and the active entry call for. -/
theorem State.goalOf_goals (s : State) (f : List Wanted) (a : Option Duck) (i : Ident)
    (hn : (f.map fun w => w.ident).Nodup) :
    ((s.goals f a).map fun g => g.ident).Nodup
    ∧ (goalOf (s.goals f a) i).target = s.underTalk a i (wantedGain f i) := by
  let low : List Goal := f.map fun w => { ident := w.ident, target := duckedBy a w.gain, carries := w.carries }
  have hlow : (low.map fun g => g.ident).Nodup := by simpa [low, Function.comp_def] using hn
  have hin : ∀ w ∈ f, w.ident = i → goalOf low i = { ident := w.ident, target := duckedBy a w.gain, carries := w.carries } := by
    rintro w hw rfl
    exact goalOf_mem (g := { ident := w.ident, target := duckedBy a w.gain, carries := w.carries }) hlow
      (List.mem_map.mpr ⟨w, hw, rfl⟩)
  have hout : (∀ w ∈ f, w.ident ≠ i) → low.find? (fun g => g.ident == i) = none := by
    intro h
    simp only [low, List.find?_eq_none, List.mem_map, beq_iff_eq]
    rintro g ⟨w, hw, rfl⟩
    exact h w hw
  have plain : (∀ d, a = some d → i = .talk d.link → (∃ w ∈ f, w.ident = i) ∨ s.talkGain d.link = .off) →
      (goalOf low i).target = s.underTalk a i (wantedGain f i) := by
    intro ht
    by_cases h : ∃ w ∈ f, w.ident = i
    · obtain ⟨w, hw, e⟩ := h
      rw [hin w hw e, ← e, wantedGain_mem hn hw]
      cases a <;> rfl
    · have h' : ∀ w ∈ f, w.ident ≠ i := fun w hw e => h ⟨w, hw, e⟩
      rw [wantedGain_absent h']
      unfold goalOf
      rw [hout h']
      cases a with
      | none => rfl
      | some d =>
        simp only [State.underTalk]
        split
        · rename_i e
          rcases ht d rfl e with h1 | h1
          · exact absurd h1 h
          · exact h1.symm
        · rfl
  unfold State.goals
  cases a with
  | none => exact ⟨by simpa [low] using hlow, by simpa [low] using plain (by simp)⟩
  | some d =>
    by_cases hany : (f.any fun w => w.ident == .talk d.link) = true
    · simp only [hany, if_true, List.append_nil]
      refine ⟨hlow, plain fun e he hi => .inl ?_⟩
      cases he
      obtain ⟨w, hw, e⟩ := List.any_eq_true.mp hany
      exact ⟨w, hw, by rw [hi]; simpa using e⟩
    · simp only [hany, if_neg Bool.false_ne_true]
      have hno : ∀ w ∈ f, w.ident ≠ .talk d.link := by simpa using hany
      cases hp : s.talkPath d.link with
      | none =>
        simp only [Option.toList_none, List.map_nil, List.append_nil]
        refine ⟨hlow, plain fun e he _ => .inr ?_⟩
        cases he
        exact State.talkPath_none hp
      | some w =>
        obtain ⟨hw, hg⟩ := State.talkPath_some (s := s) (k := d.link) (w := w) hp
        simp only [Option.toList_some, List.map_cons, List.map_nil]
        refine ⟨?_, ?_⟩
        · rw [List.map_append, List.nodup_append]
          refine ⟨hlow, by simp, ?_⟩
          intro a ha b hb
          simp only [List.mem_map] at ha
          obtain ⟨g, ⟨v, hv, rfl⟩, rfl⟩ := ha
          simp only [List.map_cons, List.map_nil, List.mem_singleton] at hb
          subst hb
          rw [hw]
          exact hno v hv
        · by_cases e : i = .talk d.link
          · subst e
            unfold goalOf
            rw [List.find?_append, hout hno, wantedGain_absent hno]
            simp [hw, hg, State.underTalk]
          · have hne : ¬ (w.ident == i) = true := by simpa [hw] using fun h => e h.symm
            have : goalOf (low ++ [{ ident := w.ident, target := .half w.gain, carries := w.carries }]) i = goalOf low i := by
              unfold goalOf
              rw [List.find?_append]
              simp only [List.find?_cons, hne, List.find?_nil, Option.or_none]
            rw [this]
            refine plain fun d' he hi => ?_
            cases he
            exact absurd hi e

/-! ### The feed of each state -/

/-- Where a party stands on air (R64): on its slot, in no ready queue, so in the studio of the slot's share. -/
theorem State.placesLaw.onAir {s : State} (h : s.placesLaw) {n : AirSlot} {o : OnSlot} (ho : row s.stud.slots n = some o) :
    (s.party o.party).state = .onAir ∧ s.slotOf o.party = some n ∧ s.studioOf o.party = some (s.studioOfSlot n)
      ∧ s.airGainOf o.party = some o.gain := by
  obtain ⟨-, hq, ha, hu, -, -⟩ := h
  have st : (s.party o.party).state = .onAir := (ha _).mp ⟨n, o, ho, rfl⟩
  have hsl : s.slotOf o.party = some n := by
    unfold State.slotOf
    rcases hf : allSlots.find? _ with _ | m
    · have := List.find?_eq_none.mp hf n (mem_upTo n)
      simp [ho] at this
    · have hm := List.find?_some hf
      rcases hr : row s.stud.slots m with _ | w
      · simp [hr] at hm
      · simp only [hr, beq_iff_eq] at hm
        rw [hu n m o w ho hr hm.symm]
  have hno : o.party ∉ s.stud.queueA ++ s.stud.queueB := fun hc => by
    have := (hq _).mp hc
    rw [st] at this
    cases this
  have hqo : s.queueOf o.party = none := by
    rw [List.mem_append, not_or] at hno
    simp [State.queueOf, hno]
  refine ⟨st, hsl, ?_, ?_⟩
  · simp [State.studioOf, hqo, hsl]
  · simp [State.airGainOf, hsl, ho]

/-- The slot of a party on air in a studio. -/
theorem State.placesLaw.slot {s : State} (h : s.placesLaw) {q : Party} {x : Studio} (hq : (s.party q).state = .onAir)
    (hx : s.studioOf q = some x) : ∃ n o, row s.stud.slots n = some o ∧ o.party = q ∧ s.studioOfSlot n = x
      ∧ s.airGainOf q = some o.gain := by
  obtain ⟨n, o, ho, rfl⟩ := (h.2.2.1 q).mpr hq
  obtain ⟨-, -, hs, hg⟩ := h.onAir ho
  exact ⟨n, o, ho, rfl, by simpa [hs] using hx, hg⟩

theorem State.mem_onAirOf (s : State) (x : Studio) (o : OnSlot) :
    o ∈ s.onAirOf x ↔ ∃ n, s.studioOfSlot n = x ∧ row s.stud.slots n = some o := by
  simp [State.onAirOf, State.share, allSlots]

theorem nodup_upTo (n : Nat) : (upTo n).Nodup := by
  unfold upTo
  exact List.nodup_ofFn.mpr fun _ _ h => h

/-- A studio mix names each identity once. -/
theorem State.placesLaw.mix_nodup {s : State} (h : s.placesLaw) (x : Studio) :
    ((s.mix x).map fun w => w.ident).Nodup := by
  unfold State.mix
  rw [List.map_append, List.nodup_append]
  refine ⟨?_, ?_, ?_⟩
  · unfold State.mixSources
    rw [List.Nodup, List.pairwise_map, List.pairwise_filterMap]
    refine (nodup_upTo 16).imp fun {a b} hab w hw v hv => ?_
    split at hw <;> [split at hw; skip] <;> cases hw
    split at hv <;> [split at hv; skip] <;> cases hv
    simpa using hab
  · unfold State.mixParties State.onAirOf
    rw [List.Nodup, List.pairwise_map, List.pairwise_filterMap, List.pairwise_filterMap]
    refine List.Pairwise.filter _ ((nodup_upTo 8).imp fun {a b} hab o ho u hu w hw v hv => ?_)
    split at hw <;> cases hw
    split at hv <;> cases hv
    simpa using fun e => hab (h.2.2.2.1 a b o u ho hu e)
  · intro a ha b hb hab
    subst hab
    simp only [State.mixSources, List.mem_map, List.mem_filterMap] at ha
    simp only [State.mixParties, List.mem_map, List.mem_filterMap] at hb
    obtain ⟨w, ⟨n, -, hw⟩, rfl⟩ := ha
    obtain ⟨v, ⟨o, -, hv⟩, e⟩ := hb
    split at hw <;> [split at hw; skip] <;> cases hw
    split at hv <;> cases hv
    cases e

/-- A studio mix gives each identity the gain of R81. -/
theorem State.placesLaw.mix_gain {s : State} (h : s.placesLaw) (x : Studio) :
    (∀ w ∈ s.mix x, s.mixGain x w.ident = .half w.gain)
      ∧ ∀ i, s.mixGain x i ≠ .off → ∃ w ∈ s.mix x, w.ident = i := by
  constructor
  · intro w hw
    rcases List.mem_append.mp hw with hw | hw
    · simp only [State.mixSources, List.mem_filterMap] at hw
      obtain ⟨n, -, hw⟩ := hw
      split at hw <;> [split at hw; skip] <;> cases hw
      simp_all [State.mixGain]
    · simp only [State.mixParties, List.mem_filterMap] at hw
      obtain ⟨o, ho, hw⟩ := hw
      obtain ⟨n, hx, hn⟩ := (s.mem_onAirOf x o).mp ho
      obtain ⟨h1, h2, h3, h4⟩ := h.onAir hn
      split at hw <;> cases hw
      rename_i hh
      simp [State.mixGain, h1, h3, h4, hx, hh]
  · intro i hi
    cases i with
    | source n =>
      simp only [State.mixGain] at hi
      split at hi
      · rename_i hm
        rcases hg : (s.source n).gainIn x with _ | g
        · exact absurd hg hi
        · exact ⟨{ ident := .source n, gain := g, carries := none }, List.mem_append.mpr (.inl (by
            simp only [State.mixSources, List.mem_filterMap]
            exact ⟨n, mem_upTo n, by simp [hm, hg]⟩)), rfl⟩
      · exact absurd rfl hi
    | party q =>
      simp only [State.mixGain] at hi
      split at hi
      · rename_i hm
        obtain ⟨n, o, ho, rfl, hx, hg⟩ := h.slot hm.1 hm.2
        rw [hg, Option.getD_some] at hi
        rcases hgo : o.gain with _ | g
        · exact absurd hgo hi
        · exact ⟨{ ident := .party o.party, gain := g, carries := none }, List.mem_append.mpr (.inr (by
            simp only [State.mixParties, List.mem_filterMap]
            exact ⟨o, (s.mem_onAirOf x o).mpr ⟨n, hx, ho⟩, by simp [hgo]⟩)), rfl⟩
      · exact absurd rfl hi
    | talk k => exact absurd rfl hi

/-- The group of a party, by its members (R43). -/
theorem State.groupOf_iff (s : State) (h : s.groupLaw) (p : Party) (g : Group) :
    s.groupOf p = some g ↔ p ∈ (s.group g).members := by
  unfold State.groupOf
  constructor
  · intro hf
    simpa using List.find?_some hf
  · intro hm
    rcases hf : allGroups.find? _ with _ | g'
    · have := List.find?_eq_none.mp hf g (mem_upTo g)
      simp [hm] at this
    · have hm' : p ∈ (s.group g').members := by simpa using List.find?_some hf
      rw [((h g).2.2.2 p hm).2.2 g' hm']

/-- The inputs of the other members of a group. -/
theorem State.mem_groupInputs (s : State) (h : s.groupLaw) (p : Party) (w : Wanted) :
    w ∈ s.groupInputs p ↔ ∃ q, q ≠ p ∧ (s.groupOf p).isSome ∧ s.groupOf q = s.groupOf p
      ∧ w = { ident := .party q, gain := 0, carries := none } := by
  unfold State.groupInputs
  cases hg : s.groupOf p with
  | none => simp
  | some g =>
    simp only [List.mem_map, List.mem_filter, bne_iff_ne, s.groupOf_iff h]
    constructor
    · rintro ⟨q, ⟨hm, hp⟩, rfl⟩
      exact ⟨q, hp, rfl, hm, rfl⟩
    · rintro ⟨q, hp, -, hm, rfl⟩
      exact ⟨q, ⟨hm, hp⟩, rfl⟩

/-- The feed of a party names each identity once and gives it the feed gain of R80. -/
theorem State.feed_gain (s : State) (p : Party)
    (hs : (s.party p).state = .queued ∨ (s.party p).state = .onAir → s.placesLaw)
    (hg : (s.party p).state = .screening → s.groupLaw) :
    ((s.feed p).map fun w => w.ident).Nodup ∧ ∀ i, wantedGain (s.feed p) i = s.feedGain p i := by
  have key : ∀ f : List Wanted, s.feed p = f → (f.map fun w => w.ident).Nodup →
      (∀ w ∈ f, s.feedGain p w.ident = .half w.gain) → (∀ i, s.feedGain p i ≠ .off → ∃ w ∈ f, w.ident = i) →
      ((s.feed p).map fun w => w.ident).Nodup ∧ ∀ i, wantedGain (s.feed p) i = s.feedGain p i := by
    intro f e h1 h2 h3
    rw [e]
    exact ⟨h1, wantedGain_eq h1 h2 h3⟩
  have mixed : ∀ x, s.studioOf p = some x → (s.party p).state = .queued ∨ (s.party p).state = .onAir →
      ((s.feed p).map fun w => w.ident).Nodup ∧ ∀ i, wantedGain (s.feed p) i = s.feedGain p i := by
    intro x hx hst
    replace hs := hs hst
    have e : s.feed p = (s.mix x).filter fun w => w.ident != .party p := by
      rcases hst with hst | hst <;> simp [State.feed, hst, hx]
    have eg : ∀ i, i ≠ .party p → s.feedGain p i = s.mixGain x i := by
      intro i hi
      rcases hst with hst | hst <;> simp [State.feedGain, hst, hx, hi]
    refine key _ e ?_ ?_ ?_
    · exact (hs.mix_nodup x).sublist (List.Sublist.map _ List.filter_sublist)
    · intro w hw
      obtain ⟨hw, hp⟩ := List.mem_filter.mp hw
      rw [eg _ (by simpa using hp)]
      exact (hs.mix_gain x).1 w hw
    · intro i hi
      have hp : i ≠ .party p := fun e => hi (by simp [State.feedGain, e])
      rw [eg i hp] at hi
      obtain ⟨w, hw, rfl⟩ := (hs.mix_gain x).2 i hi
      exact ⟨w, List.mem_filter.mpr ⟨hw, by simpa using hp⟩, rfl⟩
  rcases hst : (s.party p).state
  case queued | onAir =>
    rcases hx : s.studioOf p with _ | x
    · exact key [] (by simp [State.feed, hst, hx]) (by simp) (by simp) (by simp [State.feedGain, hst, hx])
    · exact mixed x hx (by simp [hst])
  case vacant | alerting | clearing | fault =>
    exact key [] (by simp [State.feed, hst]) (by simp) (by simp) (by simp [State.feedGain, hst])
  case looptest =>
    rcases hl : (s.party p).loopSource with _ | l
    · exact key [] (by simp [State.feed, hst, hl]) (by simp) (by simp) (by simp [State.feedGain, hst, hl])
    · refine key [{ ident := .source l, gain := 0, carries := none }] (by simp [State.feed, hst, hl]) (by simp)
        (by simp [State.feedGain, hst, hl]) ?_
      intro i hi
      simp only [State.feedGain, hst, hl, Option.map_some] at hi
      split at hi <;> [exact absurd rfl hi; split at hi <;> [skip; exact absurd rfl hi]]
      rename_i e
      exact ⟨_, List.mem_singleton_self _, Option.some.inj e⟩
  case parked =>
    have e : s.feed p = s.holdFeed := by simp [State.feed, hst]
    rcases hh : s.rmix.holdSource with _ | l
    · exact key [] (by simp [e, State.holdFeed, hh]) (by simp) (by simp) (by simp [State.feedGain, hst, hh])
    · rcases hgn : s.rmix.holdGain with _ | g
      · exact key [] (by simp [e, State.holdFeed, hh, hgn]) (by simp) (by simp) (by simp [State.feedGain, hst, hgn])
      · refine key [{ ident := .source l, gain := g, carries := none }] (by simp [e, State.holdFeed, hh, hgn]) (by simp)
          (by simp [State.feedGain, hst, hh, hgn]) ?_
        intro i hi
        simp only [State.feedGain, hst, hh, hgn, Option.map_some] at hi
        split at hi <;> [exact absurd rfl hi; split at hi <;> [skip; exact absurd rfl hi]]
        rename_i e
        exact ⟨_, List.mem_singleton_self _, Option.some.inj e⟩
  case screening =>
    replace hg := hg hst
    have hgi : ((s.groupInputs p).map fun w => w.ident).Nodup := by
      unfold State.groupInputs
      split
      · rename_i g _
        rw [List.map_map]
        exact ((hg g).1.filter _).map fun a b h => by simpa using h
      · simp
    have party : ∀ w ∈ s.groupInputs p, s.feedGain p w.ident = .half w.gain := by
      intro w hw
      obtain ⟨q, hq, h1, h2, rfl⟩ := (s.mem_groupInputs hg p w).mp hw
      simp [State.feedGain, hst, hq, h1, h2]
    rcases ho : (s.party p).owner with _ | k
    · refine key (s.groupInputs p) (by simp [State.feed, hst, ho]) hgi party ?_
      intro i hi
      cases i with
      | source n => simp [State.feedGain, hst] at hi
      | talk j => simp [State.feedGain, hst, ho] at hi
      | party q =>
        simp only [State.feedGain, hst] at hi
        split at hi <;> [exact absurd rfl hi; split at hi <;> [skip; exact absurd rfl hi]]
        rename_i h1 h2
        exact ⟨_, (s.mem_groupInputs hg p _).mpr ⟨q, by simpa using h1, h2.1, h2.2, rfl⟩, rfl⟩
    · refine key ((s.talkPath k).toList ++ s.groupInputs p) (by simp [State.feed, hst, ho]) ?_ ?_ ?_
      · rw [List.map_append, List.nodup_append]
        refine ⟨by cases s.talkPath k <;> simp, hgi, ?_⟩
        intro a ha b hb
        simp only [List.mem_map, Option.mem_toList] at ha hb
        obtain ⟨w, hw, rfl⟩ := ha
        obtain ⟨v, hv, rfl⟩ := hb
        obtain ⟨q, -, -, -, rfl⟩ := (s.mem_groupInputs hg p v).mp hv
        rw [(State.talkPath_some hw).1]
        simp
      · intro w hw
        rcases List.mem_append.mp hw with hw | hw
        · rw [Option.mem_toList] at hw
          obtain ⟨h1, h2⟩ := State.talkPath_some hw
          simp [State.feedGain, hst, h1, ho, h2]
        · exact party w hw
      · intro i hi
        cases i with
        | source n => simp [State.feedGain, hst] at hi
        | talk j =>
          simp only [State.feedGain, hst, ho] at hi
          split at hi <;> [exact absurd rfl hi; split at hi <;> [skip; exact absurd rfl hi]]
          rename_i e
          cases e
          rcases hp : s.talkPath k with _ | w
          · exact absurd (State.talkPath_none hp) hi
          · exact ⟨w, by simp, (State.talkPath_some hp).1⟩
        | party q =>
          simp only [State.feedGain, hst] at hi
          split at hi <;> [exact absurd rfl hi; split at hi <;> [skip; exact absurd rfl hi]]
          rename_i h1 h2
          exact ⟨_, List.mem_append.mpr (.inr ((s.mem_groupInputs hg p _).mpr ⟨q, by simpa using h1, h2.1, h2.2, rfl⟩)), rfl⟩

/-! ### What a report leaves a party to hear -/

/-- A return whose ingredients a recomputation with the feed as it stands has given their targets hears the feed law. -/
theorem State.hears_of_recompute {s t : State} {p : Party} (why : Because) (is : List Ingredient)
    (hs : (s.party p).state = .queued ∨ (s.party p).state = .onAir → s.placesLaw)
    (hg : (s.party p).state = .screening → s.groupLaw)
    (hr : (t.ret p).ingredients = s.recompute why (s.feed p) (s.goals (s.feed p) (t.ret p).active) is)
    (hf : ∀ i, t.feedGain p i = s.feedGain p i) (ht : ∀ k, t.talkGain k = s.talkGain k) : t.hears p := by
  obtain ⟨hn, hgain⟩ := s.feed_gain p hs hg
  have hgoal : ∀ i, (goalOf (s.goals (s.feed p) (t.ret p).active) i).target = t.targetOf p i := by
    intro i
    rw [(s.goalOf_goals (s.feed p) (t.ret p).active i hn).2]
    unfold State.targetOf State.underTalk
    simp only [hgain, hf, ht]
  have hnd := (s.goalOf_goals (s.feed p) (t.ret p).active (.source 0) hn).1
  refine ⟨fun i hi => ?_, fun i hi => ?_⟩
  · rw [hr] at hi
    rw [s.recompute_target why _ _ is hnd i hi, hgoal]
  · rw [hr]
    exact s.recompute_present why _ _ is i (by rw [hgoal]; exact hi)

/-- What the feed law of party `p` reads, beside its return. -/
def State.sameFeeds (s t : State) : Prop :=
  (∀ q, (t.party q).state = (s.party q).state ∧ (t.party q).owner = (s.party q).owner
    ∧ (t.party q).loopSource = (s.party q).loopSource)
    ∧ t.stud = s.stud ∧ t.conf = s.conf ∧ t.tarb.settings = s.tarb.settings ∧ t.rmix.holdSource = s.rmix.holdSource
    ∧ t.rmix.holdGain = s.rmix.holdGain

theorem State.sameFeeds.gains {s t : State} (h : s.sameFeeds t) :
    (∀ p i, t.feedGain p i = s.feedGain p i) ∧ ∀ k, t.talkGain k = s.talkGain k := by
  obtain ⟨hp, h1, h2, h3, h4, h5⟩ := h
  have ht : ∀ k, t.talkGain k = s.talkGain k := fun k => by
    have e : t.settings k = s.settings k := by simp only [State.settings, h3]
    unfold State.talkGain
    rw [e]
  have hsl : ∀ q, t.slotOf q = s.slotOf q := fun q => by simp only [State.slotOf, h1]
  have hst : ∀ q, t.studioOf q = s.studioOf q := fun q => by
    have e : t.studioOfSlot = s.studioOfSlot := funext fun n => by simp only [State.studioOfSlot, h1]
    simp only [State.studioOf, State.queueOf, hsl, h1, e]
  have hgr : ∀ q, t.groupOf q = s.groupOf q := fun q => by simp only [State.groupOf, State.group, h2]
  have hag : ∀ q, t.airGainOf q = s.airGainOf q := fun q => by simp only [State.airGainOf, hsl, h1]
  have hso : ∀ n, t.source n = s.source n := fun n => by simp only [State.source, h1]
  have hm : ∀ x i, t.mixGain x i = s.mixGain x i := fun x i => by
    cases i <;> simp only [State.mixGain, hso, hp, hst, hag]
  refine ⟨fun p i => ?_, ht⟩
  unfold State.feedGain
  simp only [hp, hst, hgr, hm, h4, h5, ht]

/-- A party whose return and whose feed are untouched goes on hearing the same. -/
theorem State.sameFeeds.hears {s t : State} (h : s.sameFeeds t) {p : Party} (hr : t.ret p = s.ret p) (hp : s.hears p) :
    t.hears p := by
  unfold State.hears State.targetOf State.underTalk at *
  simpa only [hr, h.gains.1, h.gains.2] using hp

/-- A return recomputed for its feed hears the feed law. -/
theorem State.retargetFeed_hears (s : State) (p : Party)
    (hs : (s.party p).state = .queued ∨ (s.party p).state = .onAir → s.placesLaw)
    (hg : (s.party p).state = .screening → s.groupLaw) : (s.retargetFeed p).hears p := by
  have hr : (s.retargetFeed p).ret p = { s.ret p with
      ingredients := s.recompute .feed (s.feed p) (s.goals (s.feed p) (s.ret p).active) (s.ret p).ingredients } := by
    unfold State.retargetFeed
    simp [State.ret, State.setReturn]
  refine State.hears_of_recompute .feed (s.ret p).ingredients hs hg (by rw [hr]) (fun i => rfl) (fun k => rfl)

/-! ### The reports -/

/-- A change that the feed law does not read leaves every feed as it is. -/
theorem State.sameFeeds.feed {s t : State} (h : s.sameFeeds t) (p : Party) : t.feed p = s.feed p := by
  obtain ⟨hp, h1, h2, h3, h4, h5⟩ := h
  have hsl : ∀ q, t.slotOf q = s.slotOf q := fun q => by simp only [State.slotOf, h1]
  have e : t.studioOfSlot = s.studioOfSlot := funext fun n => by simp only [State.studioOfSlot, h1]
  have hst : ∀ q, t.studioOf q = s.studioOf q := fun q => by simp only [State.studioOf, State.queueOf, hsl, h1, e]
  have hgr : ∀ q, t.groupOf q = s.groupOf q := fun q => by simp only [State.groupOf, State.group, h2]
  have hso : ∀ n, t.source n = s.source n := fun n => by simp only [State.source, h1]
  have ht : ∀ k, t.talkPath k = s.talkPath k := fun k => by
    have e : t.settings k = s.settings k := by simp only [State.settings, h3]
    simp only [State.talkPath, e]
  have hgi : t.groupInputs p = s.groupInputs p := by
    have e : ∀ g, t.group g = s.group g := fun g => by simp only [State.group, h2]
    simp only [State.groupInputs, hgr, e]
  have hm : ∀ x, t.mix x = s.mix x := fun x => by
    simp only [State.mix, State.mixSources, State.mixParties, State.onAirOf, State.share, hso, h1, e]
  simp only [State.feed, hp, hst, ht, hgi, hm, State.holdFeed, h4, h5]

theorem State.reportFeeds_sameFeeds (ps : List Party) (s : State) : s.sameFeeds (s.reportFeeds ps) := by
  refine ⟨fun q => ?_, by simp, by simp, by simp, by simp, by simp⟩
  simp [State.party]

theorem State.reportParty_sameFeeds (s b : State) (p : Party) : s.sameFeeds (s.reportParty b p) := by
  refine ⟨fun q => ?_, by simp, by simp, by simp, by simp, by simp⟩
  simp [State.party]

/-- Every return that a report concerns hears the feed law. -/
theorem State.reportFeeds_hears (ps : List Party) (s : State) (q : Party)
    (hs : (s.party q).state = .queued ∨ (s.party q).state = .onAir → s.placesLaw)
    (hg : (s.party q).state = .screening → s.groupLaw) (hq : q ∈ ps) : (s.reportFeeds ps).hears q := by
  induction ps generalizing s with
  | nil => cases hq
  | cons a ps ih =>
    by_cases ht : q ∈ ps
    · exact ih (s.retargetFeed a) hs hg ht
    · obtain rfl : q = a := by simpa [ht] using hq
      exact (State.reportFeeds_sameFeeds ps (s.retargetFeed q)).hears (State.reportFeeds_ret ps _ q ht)
        (s.retargetFeed_hears q hs hg)

theorem State.reportParty_hears (s b : State) (p q : Party)
    (hs : (s.party q).state = .queued ∨ (s.party q).state = .onAir → s.placesLaw)
    (hg : (s.party q).state = .screening → s.groupLaw) (hq : q ∈ concerned b s p) : (s.reportParty b p).hears q := by
  have h := State.reportFeeds_hears (concerned b s p) s q hs hg hq
  unfold State.reportParty
  dsimp only
  split
  · exact h
  · refine State.sameFeeds.hears (s := s.reportFeeds (concerned b s p)) ?_ rfl h
    exact ⟨fun _ => ⟨rfl, rfl, rfl⟩, rfl, rfl, rfl, rfl, rfl⟩

/-- A party transition leaves every return that it concerns hearing the feed law, whichever report RMIX takes first. -/
theorem State.reportTransition_hears (s b : State) (p q : Party)
    (hs : (s.party q).state = .queued ∨ (s.party q).state = .onAir → s.placesLaw)
    (hg : (s.party q).state = .screening → s.groupLaw) (hq : q ∈ concerned b s p) :
    (s.reportTransition b p).hears q := by
  unfold State.reportTransition
  dsimp only
  split
  · exact State.reportParty_hears s b p q hs hg hq
  · split
    · let u := { s with choices := s.choices + 1 }.retargetActive p (b.feed p) ((s.activeEntry p).map TalkEntry.duck)
      show (u.reportParty b p).hears q
      exact State.reportParty_hears u b p q hs hg hq
    · let s' := { s with choices := s.choices + 1 }
      let v := s'.reportParty b p
      have sf : s'.sameFeeds v := s'.reportParty_sameFeeds b p
      let w := v.retargetActive p (s'.feed p) ((s.activeEntry p).map TalkEntry.duck)
      have sw : v.sameFeeds w := ⟨fun _ => ⟨rfl, rfl, rfl⟩, rfl, rfl, rfl, rfl, rfl⟩
      show w.hears q
      by_cases e : q = p
      · subst e
        have hr : w.ret q
            = { ingredients := v.recompute .active (s'.feed q)
                  (v.goals (s'.feed q) ((s.activeEntry q).map TalkEntry.duck)) (v.ret q).ingredients,
                active := (s.activeEntry q).map TalkEntry.duck } := by
          show row (put _ q _) q = _
          simp
        have e1 : v.parties = s.parties := by simp [v, s']
        have e2 : v.stud = s.stud := by simp [v, s']
        have e3 : v.conf = s.conf := by simp [v, s']
        have ep : v.party q = s.party q := by simp only [State.party, e1]
        have hv1 : s.placesLaw → v.placesLaw := fun h => by
          unfold State.placesLaw State.party at *
          rwa [e1, e2]
        have hv2 : s.groupLaw → v.groupLaw := fun h => by
          unfold State.groupLaw State.party State.group at *
          rwa [e1, e3]
        refine State.hears_of_recompute (s := v) .active (v.ret q).ingredients
          (fun h => hv1 (hs (ep ▸ h))) (fun h => hv2 (hg (ep ▸ h))) ?_
          (fun i => rfl) (fun k => rfl)
        rw [hr, sf.feed q]
      · have hr : w.ret q = v.ret q := by
          show row (put _ p _) q = _
          simp [e, State.ret]
        exact sw.hears hr (State.reportParty_hears s' b p q hs hg hq)

/-- The same of a whole transition. -/
theorem State.conclude_hears (s b : State) (p q : Party) (j : Option Link) (call : List Event) (tail : List Offer)
    (hs : (s.party q).state = .queued ∨ (s.party q).state = .onAir → s.placesLaw)
    (hg : (s.party q).state = .screening → s.groupLaw) (hq : q ∈ concerned b s p) :
    (s.conclude b p j call tail).hears q := by
  unfold State.conclude
  rw [State.offerAll_form]
  exact State.reportTransition_hears _ b p q hs hg hq

end Sys2Proof.Machine
end

