-- ==== Sys2Proof/Laws/Gain.lean ====
section
/-! SUPPORT. What a sample at a gain is: the product, rounded to one of the two samples next to it. -/

namespace Sys2Proof.Machine

/-- `largest` finds the last number that passes a test which every smaller number passes too. -/
theorem le_largest_iff (ok : Nat → Bool) (down : ∀ m n, m ≤ n → ok n = true → ok m = true) :
    ∀ bits acc, ok acc = true → (∀ m, ok m = true → m < acc + 2 ^ bits) →
      ∀ m, m ≤ largest ok bits acc ↔ ok m = true := by
  intro bits
  induction bits with
  | zero => exact fun acc h0 hb m => ⟨fun h => down m acc h h0, fun h => Nat.lt_succ_iff.mp (by simpa [largest] using hb m h)⟩
  | succ bits ih =>
    intro acc h0 hb
    unfold largest
    split
    · rename_i h
      exact ih _ h fun m hm => by have := hb m hm; rw [pow_succ] at this; omega
    · rename_i h
      exact ih acc h0 fun m hm => by
        by_contra hc
        exact h (down _ m (by omega) hm)

/-- `gainRight` in real numbers: a gain of `h` half-decibels is the factor 10 ^ (h / 40). -/
theorem gainRight_real (h : Rat) (a : Nat) :
    (gainRight h a : ℝ) = (a * (10 : ℝ) ^ ((h : ℝ) / 40)) ^ (40 * h.den) * (10 : ℝ) ^ (-h.num).toNat := by
  have e : ((10 : ℝ) ^ ((h : ℝ) / 40)) ^ (40 * h.den) * (10 : ℝ) ^ (-h.num).toNat = (10 : ℝ) ^ h.num.toNat := by
    rw [← Real.rpow_natCast ((10 : ℝ) ^ ((h : ℝ) / 40)), ← Real.rpow_mul (by norm_num), ← Real.rpow_natCast 10,
      ← Real.rpow_natCast 10, ← Real.rpow_add (by norm_num)]
    congr 1
    have hq : (h : ℝ) * h.den = h.num := by exact_mod_cast Rat.mul_den_eq_num h
    have hn : ((h.num.toNat : ℝ)) - ((-h.num).toNat : ℝ) = h.num := by exact_mod_cast Int.toNat_sub_toNat_neg h.num
    push_cast
    linarith
  rw [mul_pow, mul_assoc, e]
  exact_mod_cast rfl

/-- The test of `magnitudeFloor` in real numbers. -/
theorem gainLeft_le_iff (h : Rat) (m a : Nat) :
    gainLeft h m ≤ gainRight h a ↔ (m : ℝ) ≤ a * (10 : ℝ) ^ ((h : ℝ) / 40) := by
  have hne : 40 * h.den ≠ 0 := by have := h.den_pos; omega
  rw [← Nat.cast_le (α := ℝ), gainRight_real, gainLeft]
  push_cast
  rw [mul_le_mul_iff_left₀ (by positivity), pow_le_pow_iff_left₀ (by positivity) (by positivity) hne]

/-- The test of `magnitudeAt` in real numbers. -/
theorem gainLeft_eq_iff (h : Rat) (m a : Nat) :
    gainLeft h m = gainRight h a ↔ (m : ℝ) = a * (10 : ℝ) ^ ((h : ℝ) / 40) := by
  have hne : 40 * h.den ≠ 0 := by have := h.den_pos; omega
  rw [← Nat.cast_inj (R := ℝ), gainRight_real, gainLeft]
  push_cast
  rw [mul_left_inj' (by positivity), pow_left_inj₀ (by positivity) (by positivity) hne]

/-- Below and at the floor of a product, and nowhere above it. -/
theorem le_magnitudeFloor_iff (h : Rat) (a m : Nat) : m ≤ magnitudeFloor h a ↔ gainLeft h m ≤ gainRight h a := by
  have hk : 0 < 40 * h.den := by have := h.den_pos; omega
  unfold magnitudeFloor
  rw [le_largest_iff]
  · exact decide_eq_true_iff
  · intro m n hmn hn
    exact decide_eq_true (le_trans (Nat.mul_le_mul_right _ (Nat.pow_le_pow_left hmn _)) (of_decide_eq_true hn))
  · exact decide_eq_true (by simp [gainLeft, h.den_ne_zero])
  · intro m hm
    have hm' := (gainLeft_le_iff h m a).mp (of_decide_eq_true hm)
    have ha : (a : ℝ) < 2 ^ (Nat.log2 a + 1) := by exact_mod_cast Nat.lt_log2_self
    have hc : (10 : ℝ) ^ ((h : ℝ) / 40) ≤ 2 ^ (4 * (h.num.toNat / (40 * h.den) + 1)) := by
      set c := h.num.toNat / (40 * h.den) + 1 with hcdef
      have h1 : (h : ℝ) / 40 ≤ (c : ℝ) := by
        have hlt : h.num.toNat < c * (40 * h.den) := by
          rw [hcdef]; exact Nat.lt_mul_of_div_lt (Nat.lt_succ_self _) hk
        have hlt' : (h.num : ℝ) ≤ c * (40 * h.den) := by
          have h2 : (h.num : ℝ) ≤ (h.num.toNat : ℝ) := by exact_mod_cast Int.self_le_toNat h.num
          have h3 : ((h.num.toNat : ℕ) : ℝ) ≤ ((c * (40 * h.den) : ℕ) : ℝ) := by exact_mod_cast hlt.le
          push_cast at h3
          linarith
        have hq : (h : ℝ) * h.den = h.num := by exact_mod_cast Rat.mul_den_eq_num h
        have hdp : (0 : ℝ) < h.den := by exact_mod_cast h.den_pos
        rw [div_le_iff₀ (by norm_num)]
        have : (h : ℝ) * h.den ≤ (c * 40) * h.den := by rw [hq]; linarith
        exact le_of_mul_le_mul_right this hdp
      calc (10 : ℝ) ^ ((h : ℝ) / 40) ≤ (10 : ℝ) ^ (c : ℝ) := Real.rpow_le_rpow_of_exponent_le (by norm_num) h1
        _ = (10 : ℝ) ^ c := Real.rpow_natCast 10 c
        _ ≤ (2 ^ 4 : ℝ) ^ c := pow_le_pow_left₀ (by norm_num) (by norm_num) c
        _ = 2 ^ (4 * c) := (pow_mul 2 4 c).symm
    have hlt : (m : ℝ) < 2 ^ gainBits h a := by
      unfold gainBits
      rw [pow_add]
      calc (m : ℝ) ≤ a * (10 : ℝ) ^ ((h : ℝ) / 40) := hm'
        _ ≤ a * 2 ^ (4 * (h.num.toNat / (40 * h.den) + 1)) := mul_le_mul_of_nonneg_left hc (by positivity)
        _ < _ := mul_lt_mul_of_pos_right ha (by positivity)
    rw [Nat.zero_add]
    exact_mod_cast hlt

/-- A magnitude at a gain differs from the product by less than 1, and not at all where the product is a whole number. -/
theorem magnitudeAt_near (h : Rat) (x : Int) :
    |(magnitudeAt h x : ℝ) - x.natAbs * (10 : ℝ) ^ ((h : ℝ) / 40)| < 1
      ∧ ∀ n : Nat, (n : ℝ) = x.natAbs * (10 : ℝ) ^ ((h : ℝ) / 40) → magnitudeAt h x = n := by
  set r := (x.natAbs : ℝ) * (10 : ℝ) ^ ((h : ℝ) / 40) with hr
  have hle : ∀ m : Nat, m ≤ magnitudeFloor h x.natAbs ↔ (m : ℝ) ≤ r := fun m =>
    (le_magnitudeFloor_iff h x.natAbs m).trans (gainLeft_le_iff h m x.natAbs)
  have h1 : (magnitudeFloor h x.natAbs : ℝ) ≤ r := (hle _).mp le_rfl
  have h2 : r < (magnitudeFloor h x.natAbs : ℝ) + 1 := by
    by_contra hc
    have := (hle (magnitudeFloor h x.natAbs + 1)).mpr (by push_cast; linarith)
    omega
  have he := gainLeft_eq_iff h (magnitudeFloor h x.natAbs) x.natAbs
  unfold magnitudeAt
  refine ⟨?_, fun n hn => ?_⟩
  · simp only
    split
    · rename_i hq
      rw [he.mp hq, sub_self, abs_zero]
      exact one_pos
    · rename_i hq
      have h3 : (magnitudeFloor h x.natAbs : ℝ) < r := lt_of_le_of_ne h1 fun hc => hq (he.mpr hc)
      split <;> rw [abs_lt] <;> push_cast <;> constructor <;> linarith
  · have ha : n ≤ magnitudeFloor h x.natAbs := (hle n).mpr hn.le
    have hb : ((magnitudeFloor h x.natAbs : ℕ) : ℝ) ≤ (n : ℝ) := hn ▸ h1
    have hc : magnitudeFloor h x.natAbs = n := le_antisymm (by exact_mod_cast hb) ha
    simp only
    rw [if_pos (he.mpr (hc ▸ hn)), hc]

/-- A sample at a gain differs from the product with 10 ^ (h / 40) by less than 1, and not at all where the product is a
whole number (R79; log entry 8). -/
theorem atGain_near (h : Rat) (x : Int) :
    |(atGain h x : ℝ) - x * (10 : ℝ) ^ ((h : ℝ) / 40)| < 1
      ∧ ∀ n : Int, (n : ℝ) = x * (10 : ℝ) ^ ((h : ℝ) / 40) → atGain h x = n := by
  unfold atGain
  by_cases hx : x = 0
  · subst hx
    simp
  · by_cases hh : h = 0
    · subst hh
      simp [hx]
    · have hsign : x.sign = 1 ∨ x.sign = -1 := (lt_or_gt_of_ne hx).elim (fun e => Or.inr (Int.sign_eq_neg_one_of_neg e))
        fun e => Or.inl (Int.sign_eq_one_of_pos e)
      have hs : (x : ℝ) = (x.sign : ℝ) * (x.natAbs : ℝ) := by
        have := congrArg (Int.cast (R := ℝ)) (Int.sign_mul_natAbs x).symm
        rwa [Int.cast_mul, Int.cast_natCast] at this
      have hu : |(x.sign : ℝ)| = 1 := by rcases hsign with e | e <;> simp [e]
      obtain ⟨h1, h2⟩ := magnitudeAt_near h x
      simp only [if_neg hx, if_neg hh]
      refine ⟨?_, fun n hn => ?_⟩
      · push_cast
        rw [hs, mul_assoc, ← mul_sub, abs_mul, hu, one_mul]
        exact h1
      · have hz : x.sign * x.sign = 1 := by rcases hsign with e | e <;> simp [e]
        have hz' : (x.sign : ℝ) * x.sign = 1 := by exact_mod_cast hz
        have hp : ((x.sign * n : ℤ) : ℝ) = x.natAbs * (10 : ℝ) ^ ((h : ℝ) / 40) := by
          push_cast
          rw [hn, hs]
          linear_combination (x.natAbs * (10 : ℝ) ^ ((h : ℝ) / 40)) * hz'
        have hnn : 0 ≤ x.sign * n := by
          have : (0 : ℝ) ≤ ((x.sign * n : ℤ) : ℝ) := hp ▸ by positivity
          exact_mod_cast this
        obtain ⟨m, hm⟩ := Int.eq_ofNat_of_zero_le hnn
        rw [h2 m (by rw [← hp, hm]; simp), ← hm]
        linear_combination n * hz

end Sys2Proof.Machine
end

