-- ==== Sys2Proof/Laws/PortFailure.lean ====
section
/-! SUPPORT. What the failure of a line-side port does to its parties, said once for all of them. -/

namespace Sys2Proof.Machine

/-- The party `p` as the failure of its port leaves it (R25, R26). -/
def PartyRec.failed (r : PartyRec) : PartyRec :=
  { r with
    state := if r.state = .looptest then .vacant else .fault, owner := none, lock := false, handover := none,
    loopSource := none, signalOut := .idle, realert := none, clear := none, park := none }

/-- The parties that `f` names have failed and every other stands as it did: nothing else of the state has changed but
returns, cues, links and the count of free choices. -/
def State.partiesFailed (s t : State) (f : Party → Bool) : Prop :=
  t = { s with
      parties := t.parties, conf := t.conf,
      stud := { s.stud with queueA := t.stud.queueA, queueB := t.stud.queueB, slots := t.stud.slots },
      rmix := t.rmix, tarb := { s.tarb with lists := t.tarb.lists }, links := t.links, choices := t.choices }
    ∧ s.sameHold t
    ∧ (∀ p, f p = false → t.party p = s.party p ∧ t.talkList p = s.talkList p)
    ∧ (∀ p, f p = true → t.talkList p = [] ∧ t.party p = (s.party p).failed)
    ∧ (∀ y, t.queue y = (s.queue y).filter fun p => !(f p && (s.party p).state == .queued))
    ∧ (∀ n, row t.stud.slots n
        = (row s.stud.slots n).filter fun o => !(f o.party && (s.party o.party).state == .onAir))
    ∧ ∀ g, (t.group g).members = (s.group g).members.filter (fun p => !(f p && (s.party p).state == .screening))
      ∧ (t.group g).owner
        = if (t.group g).members = [] ∧ (s.group g).members ≠ [] then none else (s.group g).owner

/-! ### One party -/

/-- A filter that one party alone fails, and only in the state `st`. -/
theorem State.filter_one (s : State) (a : Party) (st : PartyState) (l : List Party) :
    (l.filter fun p => !(p == a && (s.party p).state == st))
      = if (s.party a).state = st then l.filter (· != a) else l := by
  split
  · rename_i h
    apply List.filter_congr
    intro p _
    cases e : p == a
    · simp [e, bne]
    · simp [eq_of_beq e, h]
  · rename_i h
    rw [List.filter_eq_self]
    intro p _
    cases e : p == a
    · simp
    · simp [eq_of_beq e, h]

/-- Nothing has happened where no party fails. -/
theorem State.partiesFailed_none (s : State) (f : Party → Bool) (h : ∀ p, f p = false) : s.partiesFailed s f := by
  refine ⟨rfl, ⟨rfl, rfl, rfl⟩, fun _ _ => ⟨rfl, rfl⟩, fun p q => by simp [h] at q, fun y => by simp [h],
    fun n => by cases row s.stud.slots n <;> simp [h, Option.filter], fun g => ⟨by simp [h], ?_⟩⟩
  rw [if_neg]; tauto

/-- A transition with the frame and the removals of R26 is the failure of its one party. -/
theorem State.partiesFailed_one {s t : State} {a : Party} (hf : s.partyFrame t a) (hr : s.removed t a)
    (ht : t.talkList a = []) (hp : t.party a = (s.party a).failed) : s.partiesFailed t (· == a) := by
  obtain ⟨b, o, hh, op, ol, st⟩ := hf
  obtain ⟨r1, r2, r3, r4, r5⟩ := hr
  refine ⟨?_, hh, fun p q => ?_, fun p q => ?_, fun y => ?_, fun n => ?_, fun g => ?_⟩
  · obtain ⟨b1, b2, b3, b4, b5, b6, b7, b8, b9⟩ := b
    obtain ⟨o1, o2, _⟩ := ol
    obtain ⟨s1, s2, s3, s4⟩ := st
    clear hp ht hh op r1 r2 r3 r4 r5 o
    rcases t with ⟨_, _, _, _, ⟨_, _, _, _, _, _, _⟩, _, ⟨_, _, _⟩, _, _, _, _, _, _, _, _, _⟩
    simp only at b1 b2 b3 b4 b5 b6 b7 b8 b9 o1 o2 s1 s2 s3 s4
    subst b1 b2 b3 b4 b5 b6 b7 b8 b9 o1 o2 s1 s2 s3 s4
    rfl
  · have : p ≠ a := by simpa using q
    exact ⟨op p this, ol.2.2 p this⟩
  · have : p = a := by simpa using q
    subst this
    exact ⟨ht, hp⟩
  · rw [s.filter_one]
    by_cases q : (s.party a).state = .queued
    · rw [if_pos q]
      unfold State.queue
      rw [r1 q]
      cases y <;> rfl
    · rw [if_neg q]
      unfold State.queue
      by_cases q2 : (s.party a).state = .onAir
      · rw [(r2 q2).1]
      · rw [r3 q q2]
  · by_cases q : (s.party a).state = .onAir
    · rw [(r2 q).2]
      cases h : row s.stud.slots n with
      | none => simp
      | some o => by_cases e : o.party = a <;> simp [e, q, Option.filter]
    · have e : row t.stud.slots n = row s.stud.slots n := by
        by_cases q2 : (s.party a).state = .queued
        · rw [r1 q2]
        · rw [r3 q2 q]
      rw [e]
      cases h : row s.stud.slots n with
      | none => simp
      | some o => by_cases e : o.party = a <;> simp [e, q, Option.filter]
  · rw [s.filter_one]
    split
    · rename_i q
      by_cases m : a ∈ (s.group g).members
      · have := (r4 q g).2 m
        refine ⟨this.1, ?_⟩
        have ne : (s.group g).members ≠ [] := List.ne_nil_of_mem m
        simp [this.2, ne]
      · rw [(r4 q g).1 m]
        refine ⟨?_, by rw [if_neg]; tauto⟩
        rw [eq_comm, List.filter_eq_self]
        intro p hm
        have : p ≠ a := by rintro rfl; exact m hm
        simp [this]
    · rename_i q
      have eg : t.group g = s.group g := by
        show row t.conf g = _
        rw [r5 q]
        rfl
      rw [eg]
      exact ⟨rfl, by rw [if_neg]; tauto⟩

/-- Entry to FAULT, and to VACANT from a loop test, is the failure of the party. -/
theorem State.conclude_partiesFailed (s : State) (a : Party) (into : PartyState)
    (h : into = if (s.party a).state = .looptest then .vacant else .fault) (call : List Event) :
    s.partiesFailed ((s.enter a into).conclude s a none call []) (· == a) := by
  have hi : into = .vacant ∨ into = .fault := by rw [h]; split <;> simp
  have ht : into.talkable = false := by rcases hi with e | e <;> rw [e] <;> rfl
  refine State.partiesFailed_one (State.conclude_frame s a none call [] ?_ (by simp) (by simp) ?_
    (s.enter_otherLists a into) (s.enter_sameStudios a into)) ?_ ?_ ?_
  · simp [State.sameBase]
  · intro q hq
    have e : (s.enter a into).party q = (s.leave a into).party q := by simp [State.enter, hq]
    rw [e]
    simp [State.party]
  · refine State.removed_of_leave a into ?_ (by simp [State.enter]) (by simp [State.enter])
    rcases hi with e | e <;> rw [e] <;> simp
  · have : ((s.enter a into).conclude s a none call []).talkList a = (s.enter a into).talkList a := by
      simp [State.talkList]
    rw [this, State.enter_talkList, ht]
    rfl
  · have : ((s.enter a into).conclude s a none call []).party a = (s.party a).enter into := by
      simp [State.party, State.enter, State.setParty]
    rw [this, PartyRec.failed, ← h]
    rcases hi with e | e <;> rw [e] <;> rfl

/-- A party that the failure of its port reaches: any but one that is VACANT or in FAULT (R25). -/
def State.falls (s : State) (p : Party) : Bool := (s.party p).state != .vacant && (s.party p).state != .fault

theorem State.portFailure_partiesFailed (s : State) (a : Party) :
    s.partiesFailed (s.portFailure a) fun p => p == a && s.falls p := by
  have one : ∀ v, s.falls a = v → (fun p => p == a && s.falls p) = fun p => p == a && v := by
    intro v hv
    funext p
    cases e : p == a
    · simp
    · simp [eq_of_beq e, hv]
  have yes : ∀ t, s.falls a = true → s.partiesFailed t (· == a) → s.partiesFailed t fun p => p == a && s.falls p := by
    intro t ht h
    rw [one true ht]
    simpa using h
  have no : s.falls a = false → s.partiesFailed s fun p => p == a && s.falls p := by
    intro h
    rw [one false h]
    exact s.partiesFailed_none _ fun p => by simp
  unfold State.portFailure
  split <;> rename_i hst
  · exact yes _ (by simp [State.falls, hst]) (s.conclude_partiesFailed a .fault (by simp [hst]) _)
  · exact yes _ (by simp [State.falls, hst]) (s.conclude_partiesFailed a .fault (by simp [hst]) _)
  · exact yes _ (by simp [State.falls, hst]) (s.conclude_partiesFailed a .fault (by simp [hst]) _)
  · exact yes _ (by simp [State.falls, hst]) (s.conclude_partiesFailed a .fault (by simp [hst]) _)
  · exact yes _ (by simp [State.falls, hst]) (s.conclude_partiesFailed a .fault (by simp [hst]) _)
  · exact yes _ (by simp [State.falls, hst]) (s.conclude_partiesFailed a .fault (by simp [hst]) _)
  · exact yes _ (by simp [State.falls, hst]) (s.conclude_partiesFailed a .vacant (by simp [hst]) _)
  · exact no (by simp [State.falls, hst])
  · exact no (by simp [State.falls, hst])

/-! ### All parties of a port -/

/-- Two failures, of parties that differ, are one. -/
theorem State.partiesFailed.trans {s t u : State} {f g : Party → Bool} (h : s.partiesFailed t f)
    (k : t.partiesFailed u g) (hd : ∀ p, g p = true → f p = false) : s.partiesFailed u fun p => f p || g p := by
  obtain ⟨a1, a2, a3, a4, a5, a6, a7⟩ := h
  obtain ⟨b1, b2, b3, b4, b5, b6, b7⟩ := k
  have st : ∀ p, g p = true → t.party p = s.party p := fun p hp => (a3 p (hd p hp)).1
  have fl : ∀ (l : List Party) (into : PartyState),
      ((l.filter fun p => !(f p && (s.party p).state == into)).filter fun p => !(g p && (t.party p).state == into))
        = l.filter fun p => !((f p || g p) && (s.party p).state == into) := by
    intro l into
    rw [List.filter_filter]
    apply List.filter_congr
    intro p _
    cases hg : g p
    · simp
    · simp [hd p hg, st p hg]
  refine ⟨by rw [b1, a1], ?_, fun p hp => ?_, fun p hp => ?_, fun y => by rw [b5, a5, fl], fun n => ?_, fun x => ?_⟩
  · obtain ⟨x1, x2, x3⟩ := a2
    obtain ⟨y1, y2, y3⟩ := b2
    exact ⟨y1.trans x1, y2.trans x2, y3.trans x3⟩
  · simp only [Bool.or_eq_false_iff] at hp
    have w := b3 p hp.2
    have v := a3 p hp.1
    exact ⟨w.1.trans v.1, w.2.trans v.2⟩
  · by_cases hg : g p = true
    · have w := b4 p hg
      rw [st p hg] at w
      exact w
    · have w := b3 p (by simpa using hg)
      rw [w.1, w.2]
      exact a4 p (by simpa [hg] using hp)
  · rw [b6, a6]
    cases row s.stud.slots n with
    | none => rfl
    | some o =>
      cases hg : g o.party
      · cases hf : f o.party <;> by_cases q : (s.party o.party).state = .onAir <;> simp [Option.filter, hg, hf, q]
      · simp [Option.filter, hg, hd _ hg, st _ hg]
  · have m := (a7 x).1
    have m' := (b7 x).1
    refine ⟨by rw [m', m, fl], ?_⟩
    rw [(b7 x).2, (a7 x).2]
    by_cases e1 : (u.group x).members = [] <;> by_cases e2 : (t.group x).members = []
      <;> by_cases e3 : (s.group x).members = [] <;> simp [e1, e2, e3]
    · rw [m, e3] at e2; simp at e2
    · rw [m', e2] at e1; simp at e1

/-- The failure of a port reaches each of its parties that falls, and no other (R25, R164). -/
theorem State.portFailures_partiesFailed (ps : List Party) (hn : ps.Nodup) (s : State) :
    s.partiesFailed (ps.foldl State.portFailure s) fun p => decide (p ∈ ps) && s.falls p := by
  induction ps generalizing s with
  | nil => exact s.partiesFailed_none _ fun p => by simp
  | cons a l ih =>
    rw [List.nodup_cons] at hn
    have h := s.portFailure_partiesFailed a
    have e := h.trans (ih hn.2 (s.portFailure a)) (by
      intro p hp
      have : p ≠ a := by rintro rfl; simp [hn.1] at hp
      simp [this])
    rw [List.foldl_cons]
    convert e using 2 with p
    by_cases hp : p = a
    · simp [hp, hn.1]
    · have : (s.portFailure a).falls p = s.falls p := by
        unfold State.falls
        rw [(h.2.2.1 p (by simp [hp])).1]
      simp [hp, this]

theorem nodup_partiesOf (x : PortId) : (partiesOf x).Nodup := by cases x <;> decide

theorem mem_partiesOf (x : PortId) (p : Party) : p ∈ partiesOf x ↔ portOf p = x := by simp [partiesOf, allParties]

end Sys2Proof.Machine
end

