-- ==== Sys2Proof/Laws/Targets.lean ====
section
/-! SUPPORT. What a request of STUD or RMIX does to the targets of the returns that it concerns. -/

namespace Sys2Proof.Machine

/-! ### What stays where nothing that a return hears changes -/

/-- A return hears the feed law on where the return, the gains of its feed and the talk gains stay. -/
theorem State.hears_of_gains {s t : State} {p : Party} (hr : t.ret p = s.ret p)
    (hf : ∀ i, t.feedGain p i = s.feedGain p i) (ht : ∀ k, t.talkGain k = s.talkGain k) (h : s.hears p) :
    t.hears p := by
  unfold State.hears State.targetOf State.underTalk at *
  simpa only [hr, hf, ht] using h

/-- The law of the places looks at the states of the parties, the queues, and who is on a slot. -/
theorem State.placesLaw_of_sameSlots {s t : State} (h1 : ∀ q, (t.party q).state = (s.party q).state)
    (h2 : t.stud.queueA = s.stud.queueA) (h3 : t.stud.queueB = s.stud.queueB)
    (h4 : ∀ n, (row t.stud.slots n).map (fun o => o.party) = (row s.stud.slots n).map fun o => o.party)
    (h : s.placesLaw) : t.placesLaw := by
  obtain ⟨a, b, c, d, e, f⟩ := h
  refine ⟨by rw [h2, h3]; exact a, fun p => by rw [h2, h3, h1]; exact b p, fun p => ?_, fun n m o w hn hm ho => ?_,
    by rw [h2]; exact e, by rw [h3]; exact f⟩
  · rw [h1, ← c p]
    have key : ∀ u : State, (∃ n o, row u.stud.slots n = some o ∧ o.party = p)
        ↔ ∃ n, (row u.stud.slots n).map (fun o => o.party) = some p := by
      intro u; simp [Option.map_eq_some_iff]
    rw [key, key]
    simp only [h4]
  · have a1 := h4 n
    have a2 := h4 m
    rw [hn] at a1
    rw [hm] at a2
    obtain ⟨o', b1, b2⟩ := Option.map_eq_some_iff.mp a1.symm
    obtain ⟨w', c1, c2⟩ := Option.map_eq_some_iff.mp a2.symm
    exact d n m o' w' b1 c1 (by rw [b2, c2]; exact ho)

theorem State.mem_hearers {s : State} {x : Studio} {q : Party} :
    q ∈ s.hearers x ↔ ((s.party q).state = .queued ∨ (s.party q).state = .onAir) ∧ s.studioOf q = some x := by
  simp [State.hearers, allParties]

/-! ### The gain of a source -/

/-- The parties that hear a studio hear a source of it at its new gain (R71, R85). -/
theorem State.gainSource_hears (s : State) (x : Studio) (n : Source) (g : Gain) (hl : s.placesLaw) (q : Party)
    (hq : (s.party q).state = .queued ∨ (s.party q).state = .onAir) (hx : s.studioOf q = some x)
    (h : (s.source n).gainIn x ≠ g ∨ s.hears q) : (s.gainSource x n g).hears q := by
  unfold State.gainSource
  split
  · rename_i e
    rcases h with h | h
    · exact absurd e h
    · exact h
  · refine State.reportFeeds_hears _ _ _ (fun _ => hl) (fun h' => ?_) (State.mem_hearers.mpr ⟨hq, hx⟩)
    have h' : (s.party q).state = .screening := h'
    rw [h'] at hq
    simp at hq

/-! ### The gain of a party on air -/

theorem State.setSlot_sameSlots {s : State} {n : AirSlot} {p : Party} {o : OnSlot} (g : Gain)
    (ho : row s.stud.slots n = some o) (hop : o.party = p) (m : AirSlot) :
    (row (s.setSlot n (some { party := p, gain := g })).stud.slots m).map (fun o => o.party)
      = (row s.stud.slots m).map fun o => o.party := by
  simp only [State.setSlot, row_put]
  split
  · rename_i e; subst e; simp [ho, hop]
  · rfl

/-- Writing the gain of a party on its slot moves no party. -/
theorem State.setSlot_samePlaces {s : State} {n : AirSlot} {p : Party} {o : OnSlot} (g : Gain)
    (ho : row s.stud.slots n = some o) (hop : o.party = p) (q : Party) :
    (s.setSlot n (some { party := p, gain := g })).slotOf q = s.slotOf q
      ∧ (s.setSlot n (some { party := p, gain := g })).studioOf q = s.studioOf q := by
  have h := State.setSlot_sameSlots g ho hop
  have e : (s.setSlot n (some { party := p, gain := g })).slotOf q = s.slotOf q := by
    unfold State.slotOf
    congr 1
    funext m
    have := h m
    cases h1 : row (s.setSlot n (some { party := p, gain := g })).stud.slots m <;>
      cases h2 : row s.stud.slots m <;> simp_all
  have e2 : (s.setSlot n (some { party := p, gain := g })).studioOfSlot = s.studioOfSlot := rfl
  have e3 : (s.setSlot n (some { party := p, gain := g })).queueOf q = s.queueOf q := rfl
  exact ⟨e, by simp only [State.studioOf, e, e2, e3]⟩

/-- The parties that hear a studio hear another one on air there at its new gain; its own return has no such
ingredient (R71, R85, R76). -/
theorem State.gainParty_hears (s : State) (x : Studio) (p : Party) (n : AirSlot) (g : Gain) (o : OnSlot)
    (hl : s.placesLaw) (ho : row s.stud.slots n = some o) (hsl : s.slotOf p = some n) (q : Party)
    (hq : (s.party q).state = .queued ∨ (s.party q).state = .onAir) (hx : s.studioOf q = some x)
    (h : (o.gain ≠ g ∧ q ≠ p) ∨ s.hears q) : (s.gainParty x p n g).hears q := by
  have hop : o.party = p := by
    have := List.find?_some hsl
    simpa [ho] using this
  have hag : s.airGainOf p = some o.gain := by simp [State.airGainOf, hsl, ho]
  unfold State.gainParty
  have hlaw : (s.setSlot n (some { party := p, gain := g })).placesLaw :=
    State.placesLaw_of_sameSlots (s := s) (fun _ => rfl) rfl rfl (State.setSlot_sameSlots g ho hop) hl
  have e1 := fun q => (State.setSlot_samePlaces g ho hop q).1
  have e2 := fun q => (State.setSlot_samePlaces g ho hop q).2
  split
  · rename_i e; rcases h with h | h
    · rw [hag] at e; exact absurd (Option.some.inj e) h.1
    · exact h
  · by_cases hqp : q = p
    · subst hqp
      rcases h with h | h
      · exact absurd rfl h.2
      · refine State.hears_of_gains (s := s) ?_ ?_ ?_ h
        · rw [State.reportFeeds_ret _ _ _ (by simp)]; rfl
        · intro i
          rw [(State.reportFeeds_sameFeeds _ _).gains.1]
          unfold State.feedGain
          have hp : (s.setSlot n (some { party := q, gain := g })).party q = s.party q := rfl
          by_cases hi : i = .party q
          · simp [hi]
          · rw [if_neg hi, if_neg hi, hp]
            have hm : (s.setSlot n (some { party := q, gain := g })).mixGain x i = s.mixGain x i := by
              cases i with
              | source m => rfl
              | talk k => rfl
              | party r =>
                have hr : r ≠ q := fun h => hi (by rw [h])
                have ha : (s.setSlot n (some { party := q, gain := g })).airGainOf r = s.airGainOf r := by
                  unfold State.airGainOf
                  rw [e1]
                  cases hz : s.slotOf r with
                  | none => rfl
                  | some m =>
                    have hmn : m ≠ n := by
                      rintro rfl
                      have := List.find?_some hz
                      rw [ho] at this
                      simp at this; exact hr (this.symm.trans hop)
                    simp [State.setSlot, hmn]
                simp only [State.mixGain, e2, ha]; rfl
            rcases hq with hq | hq <;> simp [hq, e2, hx, hm]
        · intro k; rw [(State.reportFeeds_sameFeeds _ _).gains.2]; rfl
    · refine State.reportFeeds_hears _ _ _ (fun _ => hlaw) (fun h' => ?_)
        (by rw [List.mem_filter]; exact ⟨State.mem_hearers.mpr ⟨hq, hx⟩, by simpa using hqp⟩)
      have : (s.party q).state = .screening := h'
      rw [this] at hq; simp at hq

/-! ### The membership of a source -/

/-- The parties that hear a studio whose membership of a source changes hear the new mix (R55, R85). -/
theorem State.setMembership_hears (s : State) (n : Source) (inA inB : Bool) (hl : s.placesLaw) (q : Party) (x : Studio)
    (hq : (s.party q).state = .queued ∨ (s.party q).state = .onAir) (hx : s.studioOf q = some x)
    (h : (s.source n).inStudio x ≠ ((s.setMembership n inA inB).source n).inStudio x ∨ s.hears q) :
    (s.setMembership n inA inB).hears q := by
  have hs : (s.setMembership n inA inB).source n = { s.source n with inA := inA, inB := inB } := by
    simp [State.setMembership, State.source, State.setSource]
  rw [hs] at h
  have nsc : (s.party q).state ≠ .screening := by intro e; rw [e] at hq; simp at hq
  unfold State.setMembership
  dsimp only
  by_cases hm : q ∈ (if (s.source n).inA = inA then [] else s.hearers .a)
      ++ (if (s.source n).inB = inB then [] else s.hearers .b)
  · exact State.reportFeeds_hears _ _ _ (fun _ => hl) (fun h' => absurd h' nsc) hm
  · have same : (s.source n).inStudio x = ({ s.source n with inA := inA, inB := inB } : SourceRec).inStudio x := by
      simp only [List.mem_append, not_or] at hm
      cases x
      · by_contra hne
        have : ¬ (s.source n).inA = inA := hne
        rw [if_neg this] at hm
        exact hm.1 (State.mem_hearers.mpr ⟨hq, hx⟩)
      · by_contra hne
        have : ¬ (s.source n).inB = inB := hne
        rw [if_neg this] at hm
        exact hm.2 (State.mem_hearers.mpr ⟨hq, hx⟩)
    rcases h with h | h
    · exact absurd same h
    · refine State.hears_of_gains (s := s) ?_ ?_ ?_ h
      · rw [State.reportFeeds_ret _ _ _ hm]; rfl
      · intro i
        rw [(State.reportFeeds_sameFeeds _ _).gains.1]
        obtain ⟨u, hu⟩ : ∃ u, u = s.setSource n { s.source n with inA := inA, inB := inB } := ⟨_, rfl⟩
        rw [← hu]
        have hm : u.mixGain x i = s.mixGain x i := by
          cases i with
          | talk k => rfl
          | party r => rw [hu]; rfl
          | source m =>
            have : u.source m = if m = n then { s.source n with inA := inA, inB := inB } else s.source m := by
              rw [hu]; simp [State.source, State.setSource, row_put]
            simp only [State.mixGain, this]
            split
            · rename_i e; subst e; rw [← same]; cases x <;> rfl
            · rfl
        have h1 : u.party q = s.party q := by rw [hu]; rfl
        have h2 : u.studioOf q = s.studioOf q := by rw [hu]; rfl
        unfold State.feedGain
        rw [h1, h2]
        rcases hq with hq | hq <;> simp [hq, hx, hm]
      · intro k; rw [(State.reportFeeds_sameFeeds _ _).gains.2]; rfl

/-! ### One return at a report of its feed -/

theorem State.retargetFeed_ret (s : State) (p : Party) : (s.retargetFeed p).ret p = { s.ret p with
    ingredients := s.recompute .feed (s.feed p) (s.goals (s.feed p) (s.ret p).active) (s.ret p).ingredients } := by
  simp [State.retargetFeed, State.setReturn, State.ret]

/-- A report of a feed looks at what feeds are formed from, at the ramp time and at the return. -/
theorem State.retargetFeed_ret_congr {s t : State} (h : s.sameFeeds t) (ht : t.times = s.times) {p : Party}
    (hr : t.ret p = s.ret p) : (t.retargetFeed p).ret p = (s.retargetFeed p).ret p := by
  rw [State.retargetFeed_ret, State.retargetFeed_ret, hr, h.feed p]
  have hg : ∀ f a, t.goals f a = s.goals f a := by
    intro f a
    have : t.talkPath = s.talkPath := by
      funext k
      have e : t.settings k = s.settings k := by simp only [State.settings, h.2.2.2.1]
      simp only [State.talkPath, e]
    unfold State.goals; rw [this]
  have hrt : ∀ why b x y, t.rampTime why b x y = s.rampTime why b x y := by intros; unfold State.rampTime; rw [ht]
  rw [hg]
  unfold State.recompute State.joiners
  simp only [hrt, ht]

/-- A report to several returns, each named once, does to each what a report to it alone does. -/
theorem State.reportFeeds_ret_mem (ps : List Party) (hn : ps.Nodup) (s : State) (p : Party) (h : p ∈ ps) :
    (s.reportFeeds ps).ret p = (s.retargetFeed p).ret p := by
  induction ps generalizing s with
  | nil => cases h
  | cons a l ih =>
    rw [List.nodup_cons] at hn
    show ((s.retargetFeed a).reportFeeds l).ret p = _
    by_cases e : p = a
    · subst e; rw [State.reportFeeds_ret _ _ _ hn.1]
    · have hm : p ∈ l := by simpa [e] using h
      rw [ih hn.2 _ hm]
      exact State.retargetFeed_ret_congr (State.reportFeeds_sameFeeds [a] s) (by simp [State.reportFeeds])
        (State.reportFeeds_ret [a] s p (by simpa using e))

/-! ### Talk paths -/

/-- A talk path in a feed carries its link's talk source (R80). -/
theorem State.feed_talk_carries {s : State} {p : Party} {w : Wanted} {j : Link} (h : w ∈ s.feed p)
    (e : w.ident = .talk j) : w.carries = (s.settings j).source := by
  have tp : ∀ k, w ∈ s.talkPath k → w.carries = (s.settings j).source := by
    intro k hk
    have := (State.talkPath_some hk).1
    rw [e] at this; cases this
    unfold State.talkPath at hk
    split at hk
    · rename_i h1 h2; cases hk; exact h1.symm
    · cases hk
  unfold State.feed at h
  split at h
  any_goals cases h
  · rcases List.mem_append.mp h with h | h
    · split at h
      · exact tp _ (by simpa using h)
      · cases h
    · unfold State.groupInputs at h
      split at h
      · obtain ⟨q, _, rfl⟩ := List.mem_map.mp h; cases e
      · cases h
  · unfold State.holdFeed at h
    split at h
    · simp at h; subst h; cases e
    · cases h
  all_goals try (split at h <;> [skip; cases h])
  all_goals first
    | (have h := (List.mem_filter.mp h).1
       unfold State.mix State.mixSources State.mixParties at h
       rcases List.mem_append.mp h with h | h
       · obtain ⟨n, _, h⟩ := List.mem_filterMap.mp h
         split at h <;> [split at h; skip] <;> cases h; cases e
       · obtain ⟨n, _, h⟩ := List.mem_filterMap.mp h
         split at h <;> cases h; cases e)
    | (simp at h; subst h; cases e)

/-- The goal of a talk path, where its target is other than OFF, carries the link's talk source (R80, R87). -/
theorem State.goals_talk_carries {s : State} {p : Party} {a : Option Duck} {j : Link}
    (h : (goalOf (s.goals (s.feed p) a) (.talk j)).target ≠ .off) :
    (goalOf (s.goals (s.feed p) a) (.talk j)).carries = (s.settings j).source := by
  obtain ⟨hm, hi⟩ := goalOf_named h
  generalize goalOf (s.goals (s.feed p) a) (.talk j) = g at *
  unfold State.goals at hm
  rcases List.mem_append.mp hm with hm | hm
  · obtain ⟨w, hw, rfl⟩ := List.mem_map.mp hm
    exact State.feed_talk_carries hw hi
  · split at hm
    · split at hm
      · cases hm
      · obtain ⟨w, hw, rfl⟩ := List.mem_map.mp hm
        have e : w.ident = .talk j := hi
        simp only [Option.mem_toList] at hw
        have := (State.talkPath_some hw).1
        rw [e] at this; injection this with this
        unfold State.talkPath at hw
        split at hw
        · rename_i h1 h2; cases hw; rw [this]; exact h1.symm
        · cases hw
    · cases hm

/-- The returns that a change of a link's talk settings concerns (R85, R104). -/
theorem State.mem_talkHolders {s : State} {j : Link} {p : Party} : p ∈ s.talkHolders j
    ↔ (((s.party p).state = .screening ∧ (s.party p).owner = some j)
      ∨ (s.ret p).active.map (fun a => a.link) = some j ∨ ∃ i ∈ (s.ret p).ingredients, i.ident = .talk j) := by
  simp [State.talkHolders, allParties, State.owns, or_assoc]

theorem State.nodup_talkHolders (s : State) (j : Link) : (s.talkHolders j).Nodup := by
  apply List.Nodup.filter; exact nodup_upTo 24

/-- A talk path at rest on its source takes a new target over the time of its change (R85, R90). -/
theorem Ingredient.retarget_talk_takes (i : Ingredient) (g : Goal) (j : Link) (ms rampMs : Nat) (h : i.ident = .talk j)
    (hd : i.dipTo = none) (hne : g.target ≠ i.level.target) (ho : g.target = .off ∨ g.carries = i.carries) :
    i.retarget g ms rampMs = { i with level := {
      target := g.target, applied := i.level.applied,
      ramp := { start := i.level.applied, len := ms * 48, done := 0, running := true } } } := by
  obtain ⟨id, lv, ca, dp⟩ := i
  simp only at h hd hne ho
  subst h hd
  simp only [Ingredient.retarget, Ingredient.retargetTalk, Level.retarget, Ramp.begin, rampFrames, Config.framesPerMs]
  by_cases hgo : g.target = .off
  · rw [hgo] at hne
    rw [if_pos hgo, if_neg fun e => hne e.symm, if_neg fun e => hne e.symm, hgo]
  · rw [if_neg hgo, if_pos (by rcases ho with ho | ho; exact absurd ho hgo; rw [ho]; rfl), if_neg fun e => hne e.symm]

/-- A talk path whose source changes begins a dip to the new one over RAMP (R104). -/
theorem Ingredient.retarget_talk_dips (i : Ingredient) (g : Goal) (j : Link) (ms rampMs : Nat) (h : i.ident = .talk j)
    (hd : i.dipTo = none) (ho : g.target ≠ .off) (hc : g.carries ≠ i.carries) :
    i.retarget g ms rampMs = { i with
      level := {
        target := g.target, applied := i.level.applied,
        ramp := { start := i.level.applied, len := rampMs * 48, done := 0, running := true } },
      dipTo := g.carries } := by
  obtain ⟨id, lv, ca, dp⟩ := i
  simp only at h hd hc
  subst h hd
  simp only [Ingredient.retarget, Ingredient.retargetTalk, Ramp.begin, rampFrames, Config.framesPerMs]
  rw [if_neg ho, if_neg (by simpa using fun e => hc e.symm)]

/-! ### Falling talk paths whose source changes -/

/-- A dip changes neither the identity nor the target of an ingredient, nor its applied gain. -/
theorem Ingredient.dipFalling_same (i : Ingredient) (j : Link) (src : Option Source) (ms : Nat) :
    (i.dipFalling j src ms).ident = i.ident ∧ (i.dipFalling j src ms).level.target = i.level.target
      ∧ (i.dipFalling j src ms).level.applied = i.level.applied ∧ (i.dipFalling j src ms).carries = i.carries := by
  unfold Ingredient.dipFalling
  split <;> simp

/-- Only a talk path of the link with target OFF dips so. -/
theorem Ingredient.dipFalling_none (i : Ingredient) (j : Link) (src : Option Source) (ms : Nat)
    (h : i.ident ≠ .talk j ∨ i.level.target ≠ .off ∨ (i.dipTo <|> i.carries) = src) : i.dipFalling j src ms = i := by
  unfold Ingredient.dipFalling
  rw [if_neg (by tauto)]

theorem State.dipFalling_ret (s : State) (j : Link) (src : Option Source) (p : Party) :
    (s.dipFalling j src).ret p = { s.ret p with
      ingredients := (s.ret p).ingredients.map fun i => i.dipFalling j src s.times.ramp } := by
  simp [State.dipFalling, State.ret]

/-- What a return hears does not depend on the dips of its falling talk paths. -/
theorem State.dipFalling_hears (s : State) (j : Link) (src : Option Source) (p : Party) :
    (s.dipFalling j src).hears p ↔ s.hears p := by
  have ht : ∀ i, (s.dipFalling j src).targetOf p i = s.targetOf p i := by
    intro i
    unfold State.targetOf
    rw [State.dipFalling_ret]
    rfl
  unfold State.hears
  simp only [ht, State.dipFalling_ret, List.mem_map, forall_exists_index, and_imp, forall_apply_eq_imp_iff₂]
  simp [Ingredient.dipFalling_same]

end Sys2Proof.Machine
end

