-- ==== Sys2Proof/WellFormed.lean ====
section
/-! DEFINITION. Which commands can be sent: the checks that the operands' types do not already make. -/

namespace Sys2Proof

/-- A command that can be sent. A run of bytes between two flags holds no flag (R167); UNKNOWN_REQUEST is a
request whose code names none (R170); the slot bytes of SPRT fit a payload beside two bytes (R167). -/
def Instr.wellFormed : Instr → Bool
  | .linkFrameReceived _ f => !f.bytes.contains flagByte
  | .unknownRequest _ _ code => !requestCodes.contains code
  | .sprt _ _ _ _ slots => slots.length + 2 ≤ Config.payloadRoom
  | _ => true

end Sys2Proof
end

