-- ==== Sys2Proof/Tests/Slice0.lean ====
section
/-! SUPPORT. Tests of the model on small states: the checks of WellFormed, what the commands do, and for each statement that
has hypotheses a state and operands that meet them. -/

namespace Sys2Proof.Tests

open Sys2Proof Sys2Proof.Machine

/- One theorem at a time: each `decide +kernel` waits for the one before it, and a waiting theorem holds a thread. -/
set_option Elab.async false

/-! ### The states used -/

/-- A LOCKED port with every slot enabled. -/
def openPort (n : Nat) : PortRec :=
  { PortRec.reset n with
    enable := true, sync := .locked, aligned := 4, slots := List.replicate n { enable := true, format := .lin24 } }

/-- The part with its three ports up; no region is written, so link 0, the supervisor, holds every permission. -/
def up : State := { State.reset with ports := { lp0 := openPort 12, lp1 := openPort 12, sp := openPort 27 } }

/-- One party in a state, with an owner. -/
def one (p : Party) (st : PartyState) (k : Option Link) : State :=
  up.setParty p { PartyRec.reset with state := st, owner := k, signalOut := st.signal }

/-- A party QUEUED in a studio, of link 0. -/
def waiting (p : Party) (x : Studio) : State := (one p .queued (some 0)).setQueue x [p]

/-- A party ON_AIR on a slot, of link 0. -/
def live (p : Party) (n : AirSlot) : State := (one p .onAir (some 0)).setSlot n (some { party := p, gain := .half 0 })

/-- A party PARKED, owned, with a handover asked by a link. -/
def asked (p : Party) (k r : Link) (lock : Bool) : State :=
  (one p .parked (some k)).setParty p
    { PartyRec.reset with
      state := .parked, owner := some k, lock := lock, signalOut := .answer, park := some 45000,
      handover := some { requester := r, left := 5000 } }

/-- A party PARKED without a handover. -/
def parked (p : Party) (k : Option Link) : State :=
  (one p .parked k).setParty p
    { PartyRec.reset with state := .parked, owner := k, signalOut := .answer, park := k.map fun _ => 45000 }

/-- Every link may do everything with every party. -/
def shared (s : State) : State :=
  { s with regions := put s.regions 0 { valid := true, cover := .parties 0 24, perms := tab fun _ => Perms.all,
                                        locked := false } }

/-- Link `k` has a talk source at 0.0 dB. -/
def talker (k : Link) (s : State) : State :=
  { s with tarb := { s.tarb with
      settings := put s.tarb.settings k { source := some 12, gain := .half 0, maxPriority := 7 } } }

/-- The state that a command leaves. -/
def go (s : State) (c : Instr) : State :=
  match exec c s with
  | .next t => t
  | _ => s

/-- The payload of the response that a link is sending: the status and the data. -/
def reply (s : State) (k : Link) : Option (List Byte) := (s.link k).sending.map fun r => r.payload

/-- The kinds of the events in a link's queue. -/
def kinds (s : State) (k : Link) : List EventKind := (s.link k).events.map fun e => e.kind

/-! ### WellFormed -/

theorem test_wellFormed_flag_byte_in_a_frame :
    (Instr.linkFrameReceived 0 { bytes := [0x01, 0xA5], framingError := false, begunInReset := false }).wellFormed
      = false := by decide +kernel

theorem test_wellFormed_unknown_request_with_a_known_code : (Instr.unknownRequest 0 7 0x43).wellFormed = false := by
  decide +kernel

theorem test_wellFormed_sprt_with_too_many_slot_bytes :
    (Instr.sprt 0 7 2 1 (List.replicate 63 0)).wellFormed = false := by decide +kernel

theorem test_wellFormed_accepts :
    (Instr.sprt 0 7 2 1 (List.replicate 62 0)).wellFormed = true ∧ (Instr.unknownRequest 0 7 0x44).wellFormed = true
      ∧ (Instr.linkFrameReceived 0 { bytes := [0x01], framingError := true, begunInReset := false }).wellFormed
        = true := by decide +kernel

/-- No row of the opcode table gives bits. -/
theorem test_no_word_spells_a_command : decodeTableWord 8 1 = none ∧ up.withFetchWord 8 1 = up := by decide +kernel

/-! ### Party requests -/

theorem test_ansr :
    let t := go (one 0 .alerting none) (.ansr 0 7 0)
    (t.party 0).state = .screening ∧ (t.party 0).owner = some 0 ∧ reply t 0 = some [0] ∧ kinds t 0 = [.answered] := by
  decide +kernel

theorem test_park :
    let t := go (live 23 7) (.park 0 7 23)
    (t.party 23).state = .parked ∧ (t.party 23).park = some 45000 ∧ row t.stud.slots 7 = none := by decide +kernel

theorem test_queu :
    let t := go (parked 3 (some 0)) (.queu 0 7 3 2)
    t.queue .a = [] ∧ t.queue .b = [3] ∧ reply t 0 = some [0, 1] ∧ kinds t 0 = [.state, .queueChanged] := by
  decide +kernel

/-- A PARKED party whose park timer has expired twice. -/
def remindedTwice (k : Option Link) : State := (parked 3 k).modParty 3 fun r => { r with reminders := 2 }

theorem test_the_owners_queu_rlse_and_prst_end_the_reminders :
    ([Instr.queu 0 7 3 2, .rlse 0 7 3, .prst 0 7 3].map fun c => ((go (remindedTwice (some 0)) c).party 3).reminders)
        = [0, 0, 0]
      ∧ ([Instr.queu 0 7 3 2, .prst 0 7 3].map fun c =>
          let t := go (shared (remindedTwice (some 1))) c
          ((t.party 3).reminders, (t.party 3).state)) = [(2, .queued), (2, .vacant)] := by decide +kernel

theorem test_airp :
    let t := go (waiting 3 .b) (.airp 0 7 3)
    t.studioOf 3 = some .b ∧ t.slotOf 3 = some 4 ∧ reply t 0 = some [0, 4]
      ∧ kinds t 0 = [.state, .queueChanged, .airSlot] := by decide +kernel

theorem test_next : (go (waiting 3 .a) (.next 0 7 1)).slotOf 3 = some 0
    ∧ reply (go (waiting 3 .a) (.next 0 7 1)) 0 = some [0, 3, 0] := by decide +kernel

theorem test_offa : ((go (live 3 0) (.offa 0 7 3)).party 3).state = .parked := by decide +kernel

theorem test_unqu : ((go (waiting 3 .a) (.unqu 0 7 3)).party 3).state = .parked
    ∧ (go (waiting 3 .a) (.unqu 0 7 3)).queue .a = [] := by decide +kernel

theorem test_move :
    let s := ((waiting 3 .a).setParty 4 ((waiting 3 .a).party 3)).setQueue .a [3, 4]
    (go s (.move 0 7 3 255)).queue .a = [4, 3] ∧ reply (go s (.move 0 7 3 255)) 0 = some [0, 2] := by decide +kernel

theorem test_rlse :
    let t := go (parked 3 (some 0)) (.rlse 0 7 3)
    (t.party 3).state = .clearing ∧ (t.party 3).clear = some 3000 ∧ (t.party 3).signalOut = .clear := by decide +kernel

theorem test_loop_and_lend :
    let t := go up (.loop 0 7 3 15)
    (t.party 3).loopSource = some 15 ∧ (t.ret 3).ingredients.length = 1
      ∧ ((go t (.lend 0 7 3)).party 3).state = .vacant := by decide +kernel

theorem test_prst : ((go (live 3 0) (.prst 0 7 3)).party 3).clear = some 3000
    ∧ reply (go (live 3 0) (.prst 1 7 3)) 1 = some [byte (statusCode .notSupervisor)] := by decide +kernel

theorem test_sknd : ((go up (.sknd 0 7 3 1)).party 3).kind = .codec := by decide +kernel

theorem test_join_and_leav :
    let t := go (one 3 .screening (some 0)) (.join 0 7 3 6)
    t.groupOf 3 = some 5 ∧ (t.group 5).owner = some 0 ∧ reply t 0 = some [0, 6, 1, 1, 3, 0]
      ∧ (go t (.leav 0 7 3)).groupOf 3 = none := by decide +kernel

theorem test_lstn : ((go up (.lstn 0 7 0 3)).cue 0).current.map (fun c => c.selection) = some (.input 3) := by
  decide +kernel

theorem test_gain : ((go (live 3 0) (.gain 0 7 1 1 3 0)).airGainOf 3) = some .off
    ∧ reply (go (live 3 0) (.gain 0 7 1 1 3 0)) 0 = some [0, 0] := by decide +kernel

theorem test_talk_and_tend :
    let t := go (talker 0 (parked 3 (some 0))) (.talk 0 7 0 3 5 0)
    (t.talkList 3).map (fun e => e.priority) = [5] ∧ kinds t 0 = [.talkActive]
      ∧ (go t (.tend 0 7 0 3)).talkList 3 = [] := by decide +kernel

theorem test_stlk : ((go up (.stlk 0 7 2 15 161 7)).settings 2).source = some 15 := by decide +kernel

/-! ### Ownership, regions and settings -/

theorem test_take_and_give :
    let t := go (shared (parked 3 (some 1))) (.take 2 7 3)
    reply t 2 = some [1, 1, 5] ∧ kinds t 1 = [.takeAsked] ∧ ((go t (.give 1 7 3 2)).party 3).owner = some 2 := by
  decide +kernel

theorem test_keep_and_tcan :
    ((go (asked 3 0 1 false) (.keep 0 7 3 1)).party 3).handover = none
      ∧ kinds (go (asked 3 0 1 false) (.tcan 1 7 3)) 0 = [.takeResult] := by decide +kernel

theorem test_lock_and_ulck :
    ((go (parked 3 (some 0)) (.lock 0 7 3)).party 3).lock = true
      ∧ ((go (asked 3 0 1 true) (.ulck 0 7 3)).party 3).lock = false := by decide +kernel

theorem test_away : ((go (shared (asked 3 0 1 false)) (.away 0 7 1)).party 3).owner = some 1
    ∧ reply (go (shared (asked 3 0 1 false)) (.away 0 7 1)) 0 = some [0, 1, 0] := by decide +kernel

theorem test_sreg_and_lreg :
    let t := go up (.sreg 0 7 7 1 1 2 0 0 7 3 0)
    t.viewsStudio 1 .b = true ∧ ((go t (.lreg 0 7 7)).region 7).locked = true
      ∧ reply (go t (.rdrg 1 7 2 2)) 1 = some [0, 7, 0, 3] := by decide +kernel

theorem test_sprt : (State.port (go State.reset (.sprt 0 7 0 1 (List.replicate 6 0x44))) .lp0).sync = .seeking := by
  decide +kernel

theorem test_ssrc_shld_splt_sflr :
    ((go up (.ssrc 0 7 15 3)).source 15).inB = true ∧ (go up (.shld 0 7 4 161)).rmix.holdSource = some 4
      ∧ (go up (.splt 0 7 8)).stud.split = 8 ∧ (go up (.sflr 0 7 2 8)).floor .b = 8 := by decide +kernel

theorem test_stim_and_spat :
    (go up (.stim 0 7 250 50 1000 60 600 15 30)).times.tprk = 600
      ∧ (row (go up (.spat 0 7 5 1 0x30 0xF0 0x23 2 255)).smon.patterns 5).count = 255 := by decide +kernel

theorem test_emsk_atcf_ftch :
    let t := go (one 3 .alerting none) (.ansr 0 7 3)
    (t.attn 0 = true ∧ (go t (.atcf 0 7 0 48)).attn 0 = false)
      ∧ (go t (.ftch 0 7 8)).attn 0 = false ∧ ((go t (.emsk 0 7 0x1E)).link 0).mask.call = false := by decide +kernel

theorem test_lrst_and_idnt : kinds (go (go (one 3 .alerting none) (.ansr 0 7 3)) (.lrst 0 7)) 0 = []
    ∧ reply (go up (.idnt 2 7)) 2 = some [0, 0x6A, 0x24, 0x01, 0, 2] := by decide +kernel

theorem test_reads :
    (reply (go (waiting 3 .a) (.rdqu 0 7 1)) 0).map (fun d => d.take 1) = some [0]
      ∧ (reply (go up (.rdpy 0 7 23)) 0).isSome = true ∧ (reply (go up (.rdrt 0 7 23 41)) 0).isSome = true
      ∧ (reply (go up (.rdpt 2 7)) 2).isSome = true := by decide +kernel

theorem test_unknownRequest : reply (go up (.unknownRequest 1 7 0x44)) 1 = some [byte (statusCode .unknownRequest)] := by
  decide +kernel

/-! ### Links -/

/-- IDNT with tag 7 as a position sends it, with the CRC of 11.1. -/
def idntFrame : RawFrame :=
  let body : List Byte := [0x01, 7, 0x3C, 0]
  { bytes := body ++ [byte ((crc body).toNat / 256), byte ((crc body).toNat % 256)], framingError := false,
    begunInReset := false }

theorem test_crc_of_the_nine_digits : crc [0x31, 0x32, 0x33, 0x34, 0x35, 0x36, 0x37, 0x38, 0x39] = 0x29B1 := by
  decide +kernel

theorem test_stuffing : stuff [0xA5, 0x00, 0xA6] = [0xA6, 0xE5, 0x00, 0xA6, 0xE6]
    ∧ unstuff [0xA6, 0xE5, 0x00, 0xA6, 0xE6] = some [0xA5, 0x00, 0xA6] ∧ unstuff [0xA6, 0x00] = none := by decide +kernel

theorem test_linkFrameReceived : reply (go up (.linkFrameReceived 2 idntFrame)) 2 = some [0, 0x6A, 0x24, 0x01, 0, 2] := by
  decide +kernel

theorem test_responseSent :
    (go (go up (.idnt 2 7)) (.responseSent 2)).links = up.links ∧ go up (.responseSent 2) = up := by decide +kernel

theorem test_powerOnReset_and_resetAsserted :
    (go (live 3 0) (.powerOnReset 2 3)).supervisor = 2 ∧ (go (live 3 0) (.powerOnReset 2 3)).parties = State.reset.parties
      ∧ (go up .resetAsserted).resetHeld = true := by decide +kernel

/-! ### Ports, signalling and timers -/

/-- An inbound frame of LP0 with the alignment code; party 0 shows the word `w`. -/
def alignedBits (w : Byte) : BitVec 512 := (0xB16D : BitVec 512) <<< 496 ||| (w.zeroExtend 512) <<< 464

/-- LP0 with a pattern that takes the word 12h as SEIZE. -/
def listening : State :=
  { up with smon := { up.smon with
      patterns := put up.smon.patterns 5
        { valid := true, key := 0x12, mask := 0xFF, meaning := .seize, appliesTo := .both, count := 1 } } }

theorem test_inboundFrame :
    let t := go listening (.inboundFrame .lp0 (alignedBits 0x12))
    t.monitor 0 = { candidate := some .seize, matchCount := 1, qualified := some .seize }
      ∧ t.smon.reports = [{ party := 0, meaning := .seize }] := by decide +kernel

theorem test_signalReport :
    let t := go up (.signalReport 0 .seize)
    (t.party 0).state = .alerting ∧ (t.party 0).realert = some 6000 ∧ kinds t 0 = [.alert] := by decide +kernel

theorem test_qualify : (go listening (.qualify 0 5)).smon.reports = [{ party := 0, meaning := .seize }] := by decide +kernel

theorem test_syncLost_graceTimerExpiry_syncFound :
    let t := go (live 3 0) (.syncLost .lp0 .clock)
    let u := go t (.graceTimerExpiry .lp0)
    (t.port .lp0).grace = some 250 ∧ (u.party 3).state = .fault ∧ kinds u 0 = [.portLost, .portFailed, .partyFault, .airSlot]
      ∧ ((go u (.syncFound .lp0)).port .lp0).sync = .locked := by decide +kernel

theorem test_clock_checks :
    ((go up .missingClockCheck).port .sp).missed = 1 ∧ ((go up .shortWordClockPeriod).port .sp).missed = 1 := by
  decide +kernel

theorem test_timers :
    let ringing := go up (.signalReport 0 .seize)
    ((go ringing (.realertTimerExpiry 0)).party 0).alertCount = 2
      ∧ ((go (go (parked 3 (some 0)) (.rlse 0 7 3)) (.clearTimerExpiry 3)).party 3).state = .vacant
      ∧ ((go (parked 3 (some 0)) (.parkTimerExpiry 3)).party 3).reminders = 1
      ∧ ((go (shared (asked 3 0 1 false)) (.grantTimerExpiry 3)).party 3).owner = some 1
      ∧ ((go (live 3 0) .oneSecondMark).party 3).airSeconds = 1 := by decide +kernel

/-! ### The mixer -/

/-- A return with one ingredient on its way from −80.0 dB to 0.0 dB, the ramp ending in the next frame. -/
def ramping (g : Gain) : State :=
  let level : Level :=
    { target := g, applied := -1, ramp := { start := -160, len := 960, done := 959, running := true } }
  up.setReturn 3
    { ingredients := [{ ident := .source 4, level := level, carries := none, dipTo := none }], active := none }

theorem test_audioFrame :
    ((go (ramping (.half 0)) .audioFrame).ret 3).ingredients.map (fun i => i.level.applied) = [0]
      ∧ ((go (ramping .off) .audioFrame).ret 3).ingredients = [] := by decide +kernel

theorem test_rampComplete :
    ((go (ramping (.half 0)) (.rampComplete (.ingredient 3 (.source 4)))).ret 3).ingredients.map (fun i => i.level.applied)
      = [0] := by decide +kernel

/-! ### Laws by computation -/

/-- A party record's law as a computation: a handover is there or not. -/
def lawfulCheck (r : PartyRec) : Bool :=
  decide (r.state ∈ [.vacant, .alerting, .fault] → r.owner = none)
    && decide (r.state ∈ [.screening, .queued, .onAir, .clearing, .looptest] → r.owner.isSome)
    && decide (r.lock → r.owner.isSome)
    && (r.handover.all fun h => decide (r.state.answered ∧ r.owner.isSome ∧ r.owner ≠ some h.requester))
    && decide (r.loopSource.isSome ↔ r.state = .looptest) && decide (r.park.isSome → r.state = .parked ∧ r.owner.isSome)
    && decide (r.realert.isSome → r.state = .alerting)
    && decide (r.clear.isSome → r.state = .clearing ∨ r.state = .vacant)
    && decide (r.signalOut = (if r.state = .vacant ∧ r.clear.isSome then .clear else r.state.signal))
    && decide (r.callSeconds ≤ 65535 ∧ r.airSeconds ≤ r.callSeconds ∧ r.alertCount ≤ 255 ∧ r.reminders ≤ 15)

theorem lawful_of_check {r : PartyRec} (h : lawfulCheck r = true) : r.lawful := by
  simp only [lawfulCheck, Bool.and_eq_true, decide_eq_true_eq, Option.all_eq_true] at h
  obtain ⟨⟨⟨⟨⟨⟨⟨⟨⟨a, b⟩, c⟩, d⟩, e⟩, f⟩, g⟩, i⟩, j⟩, k⟩ := h
  exact ⟨a, b, c, d, e, f, g, i, j, k⟩

/-- The law of the places as a computation. -/
def placesCheck (s : State) : Bool :=
  decide (s.stud.queueA ++ s.stud.queueB).Nodup
    && (allParties.all fun p => decide (p ∈ s.stud.queueA ++ s.stud.queueB ↔ (s.party p).state = .queued)
      && decide ((∃ n, ((row s.stud.slots n).map fun o => o.party) = some p) ↔ (s.party p).state = .onAir))
    && decide (∀ n m, (row s.stud.slots n).isSome → ((row s.stud.slots n).map fun o => o.party)
        = ((row s.stud.slots m).map fun o => o.party) → n = m)
    && decide (s.stud.queueA.length ≤ 12 ∧ s.stud.queueB.length ≤ 12)

theorem placesLaw_of_check {s : State} (h : placesCheck s = true) : s.placesLaw := by
  simp only [placesCheck, Bool.and_eq_true, decide_eq_true_eq, List.all_eq_true] at h
  obtain ⟨⟨⟨a, b⟩, c⟩, d⟩ := h
  refine ⟨a, fun p => (b p (mem_upTo p)).1, fun p => ?_, fun n m o w hn hm he => ?_, d⟩
  · rw [← (b p (mem_upTo p)).2]
    exact ⟨fun ⟨n, o, h1, h2⟩ => ⟨n, by simp [h1, h2]⟩, fun ⟨n, hn⟩ => by
      obtain ⟨o, h1, h2⟩ := Option.map_eq_some_iff.mp hn
      exact ⟨n, o, h1, h2⟩⟩
  · exact c n m (by simp [hn]) (by simp [hn, hm, he])

theorem regionLaw_of_check {s : State}
    (h : ∀ i, ((s.region i).locked = true → (s.region i).valid = true)
      ∧ (match (s.region i).cover with
          | .parties f n => decide (1 ≤ n ∧ f + n ≤ 24)
          | .studio _ => true) = true) : s.regionLaw :=
  fun i => ⟨(h i).1, fun f n e => by simpa [e] using (h i).2⟩

theorem talkLaw_of_check {s : State}
    (h : ∀ p, ((s.talkList p).Pairwise fun a b =>
        b.priority < a.priority ∨ (a.priority = b.priority ∧ a.arrival < b.arrival))
      ∧ ((s.talkList p).map fun e => e.link).Nodup ∧ (s.talkList p ≠ [] → (s.party p).state.talkable)
      ∧ ∀ e ∈ s.talkList p, e.arrival < s.tarb.arrivals) : s.talkLaw := h

theorem recordLaw_of_check {s : State} (h : ∀ p, lawfulCheck (s.party p) = true) (a : ∀ k, (s.link k).away = false) :
    s.recordLaw := fun p => ⟨lawful_of_check (h p), fun k _ _ => a k⟩

/-- Party 0 SCREENING in group 1, party 1 QUEUED, party 2 ON_AIR, party 3 PARKED with a handover and a talk entry; region 0
locked; link 0 with a full event queue, a full request buffer and 4 OVERRUN responses waiting. -/
def busy (c : Instr) : State :=
  let base := ((((asked 3 0 1 false).setParty 0 ((one 0 .screening (some 0)).party 0)).setParty 1
    ((one 1 .queued (some 1)).party 1)).setParty 2 ((one 2 .onAir (some 0)).party 2)).setQueue .a [1]
  let full : LinkRec :=
    { LinkRec.reset with
      requests := List.replicate 4 { tag := 1, code := 0x3C, payload := [] },
      sending := some { tag := 0, code := 0x3C, payload := [0] },
      waiting := List.replicate 4 { tag := 2, code := 0x3C, payload := [0x11] },
      events := List.replicate 48 (partyEvent .alert 0) }
  let level : Level := { target := .half 0, applied := 0, ramp := { start := 0, len := 0, done := 0, running := false } }
  { ((base.setSlot 0 (some { party := 2, gain := .half 0 })).setLink 0 full).setReturn 3
      { ingredients := [{ ident := .party 2, level := level, carries := none, dipTo := none },
          { ident := .talk 0, level := level, carries := none, dipTo := none }],
        active := some { link := 0, depth := .db6 } } with
    pending := [c],
    conf := put State.reset.conf 0 { members := [0], owner := some 0 },
    tarb := { State.reset.tarb with
      lists := put State.reset.tarb.lists 3
        [{ link := 0, priority := 5, depth := .db6, arrival := 0 }, { link := 1, priority := 5, depth := .full, arrival := 1 }],
      arrivals := 2 },
    regions := put State.reset.regions 0
      { valid := true, cover := .parties 0 24, perms := tab fun _ => Perms.all, locked := true } }

/-- A hang-up on air is the next command of the busy state. -/
def hangingUp : State := busy (.signalReport 2 .onhook)

theorem met_step_answers : (match step hangingUp with | .next _ => true | _ => false) = true := by decide +kernel

theorem met_EveryStepKeepsTheLinkLaws : hangingUp.eventLaw ∧ hangingUp.bufferLaw := by
  unfold State.eventLaw State.bufferLaw; decide +kernel

theorem met_ALockedRegionKeepsItsContent : hangingUp.regionLaw ∧ hangingUp.lockedAs 0 (hangingUp.region 0) :=
  ⟨regionLaw_of_check (by decide +kernel), rfl, by decide +kernel⟩

theorem met_NoPartyHearsItself : hangingUp.returnLaw ∧ hangingUp.listLaw := by
  unfold State.returnLaw State.listLaw; decide +kernel

theorem met_EveryStepKeepsPartiesInTheirPlaces : hangingUp.placesLaw := placesLaw_of_check (by decide +kernel)

theorem met_EveryStepKeepsTheGroupLaw : hangingUp.groupLaw := by unfold State.groupLaw; decide +kernel

theorem met_EveryStepKeepsTheTalkLaw : hangingUp.talkLaw := talkLaw_of_check (by decide +kernel)

theorem met_EveryStepKeepsTheRecordLaw : hangingUp.recordLaw := recordLaw_of_check (by decide +kernel) (by decide +kernel)

/-! ### The hypotheses of the statements are met -/

theorem met_StepRunsTheFrontCommand : (busy .audioFrame).pending = [.audioFrame] := rfl

/-- A grace timer of LP1 at 0, with those of LP0 and SP running. -/
def graceOut : State :=
  { up with ports :=
      { lp0 := { openPort 12 with grace := some 1 }, lp1 := { openPort 12 with grace := some 0 }, sp := openPort 27 } }

theorem met_EmptyQueueLetsTimePass :
    (up.pending = [] ∧ up.dueCommand = none ∧ up.smon.reports = [] ∧ up.tbase.checkDue = false ∧ up.tbase.markDue = false)
      ∧ (let s : State := { up with smon := { up.smon with reports := [{ party := 23, meaning := .fault }] } }
         s.smon.reports = [{ party := 23, meaning := .fault }] ∧ s.dueCommand = some (.signalReport 23 .fault))
      ∧ ({ up with tbase := { up.tbase with checkDue := true, markDue := true } } : State).dueCommand
        = some .missingClockCheck
      ∧ ({ up with tbase := { up.tbase with markDue := true } } : State).dueCommand = some .oneSecondMark
      ∧ ((graceOut.port .lp1).grace = some 0 ∧ (∀ y, portCode y < portCode .lp1 → (graceOut.port y).grace ≠ some 0)
        ∧ graceOut.dueCommand = some (.graceTimerExpiry .lp1))
      ∧ (∀ x, (up.port x).grace ≠ some 0) := by
  refine ⟨by decide +kernel, by decide +kernel, by decide +kernel, by decide +kernel,
    ⟨by decide +kernel, fun y => ?_, by decide +kernel⟩, fun x => ?_⟩
  · cases y <;> decide +kernel
  · cases x <;> decide +kernel

/-- Two timers of party 22 have run out, and one of party 23. -/
def runningOut : State :=
  (up.setParty 22 { (asked 22 0 1 false).party 22 with park := some 0, handover := some { requester := 1, left := 0 } }).setParty 23
    { PartyRec.reset with state := .alerting, realert := some 0 }

theorem met_EmptyQueueLetsTimePass_timers :
    ((runningOut.party 22).runOut ∧ (∀ q, q < 22 → ¬ (runningOut.party q).runOut) ∧ ∀ p, ¬ (up.party p).runOut)
      ∧ runningOut.dueCommand = some (.parkTimerExpiry 22) := by
  unfold PartyRec.runOut; decide +kernel

theorem met_IdntAnswersTheSupervisorThatTheStrapsNamed :
    (∃ t, exec (.idnt 0 7) up = .next t) ∧ ∀ supv baud, Instr.idnt 0 7 ≠ .powerOnReset supv baud :=
  ⟨⟨(askIdnt 0 up).deliver 0 7 0x3C, rfl⟩, fun _ _ => nofun⟩

theorem met_EveryRequestIsAnsweredAndARefusedOneChangesNothing :
    Sys2Proof.Machine.asked (.ansr 0 7 0) = some (0, 7, 0x01, askAnsr 0 0) ∧ (askAnsr 0 0 up).reply.status = .wrongState
      ∧ (0x44 : Byte) ∉ requestCodes ∧ (0x00 : Byte) ∉ requestCodes :=
  ⟨rfl, by decide +kernel, by decide +kernel, by decide +kernel⟩

theorem met_AResponseJoinsTheTailOrBegins :
    (up.link 0).sending = none ∧ (up.link 0).waiting = [] ∧ ((go up (.idnt 0 7)).link 0).sending.isSome := by
  decide +kernel

theorem met_ARequestFrameIsReadBackAsItWasSent :
    (List.replicate 64 (0xA5 : Byte)).length ≤ 64 ∧ up.resetHeld = false := by decide +kernel

/-- The bytes of a frame of kind `kind` with a length field and a payload, and its CRC. -/
def framed (kind length : Byte) (payload : List Byte) : List Byte :=
  let body := [kind, 7, 0x3C, length] ++ payload
  body ++ [byte ((crc body).toNat / 256), byte ((crc body).toNat % 256)]

theorem met_ADiscardedFrameLeavesNoTrace :
    unstuff [escapeByte] = none
      ∧ unstuff [1, 7, 0x3C, 0, 0] = some [1, 7, 0x3C, 0, 0]
      ∧ unstuff (framed 2 0 []) = some (framed 2 0 []) ∧ (framed 2 0 [])[0]? = some 2
      ∧ unstuff (framed 1 65 []) = some (framed 1 65 [])
      ∧ (framed 1 65 [])[3]? = some 65 ∧ (64 : Nat) < (65 : Byte).toNat
      ∧ (framed 1 1 [])[3]? = some 1 ∧ (framed 1 1 []).length = 6
      ∧ crc [1, 7, 0x3C, 0, 0, 0] ≠ 0 ∧ unstuff [1, 7, 0x3C, 0, 0, 0] = some [1, 7, 0x3C, 0, 0, 0] := by decide +kernel

/-- Link 0 sending, with a response to a taken request and `n` OVERRUN responses waiting, and `m` requests buffered. -/
def loaded (m n : Nat) : State :=
  up.setLink 0
    { LinkRec.reset with
      requests := List.replicate m { tag := 1, code := 0x3C, payload := [] },
      sending := some { tag := 0, code := 0x3C, payload := [0] },
      waiting := List.replicate n { tag := 2, code := 0x3C, payload := [0x11] }
        ++ [{ tag := 3, code := 0x3C, payload := [0] }] }

theorem met_AnAcceptedFrameIsTakenBufferedOrRefused :
    up.received idntFrame = some { tag := 7, code := 0x3C, payload := [] } ∧ (up.link 0).requests = []
      ∧ ((up.link 0).waiting.all fun x => x.isOverrun) = true
      ∧ (∀ m ∈ [3, 4], ∀ n ∈ [3, 4], (loaded m n).received idntFrame = some { tag := 7, code := 0x3C, payload := [] }
        ∧ ((loaded m n).link 0).sending.isSome ∧ (((loaded m n).link 0).waiting.all fun x => x.isOverrun) = false
        ∧ ((loaded m n).link 0).requests.length = m
        ∧ (((loaded m n).link 0).waiting.filter Response.isOverrun).length = n)
      ∧ up.received
          { idntFrame with
            bytes := let b := [0x01, 7, 0x3B, 0]
              b ++ [byte ((crc b).toNat / 256), byte ((crc b).toNat % 256)] }
        = some { tag := 7, code := 0x3B, payload := [] } := by decide +kernel

theorem met_ResponseSentBeginsTheNextAndTakesARequest :
    (up.link 0).sending = none ∧ ((loaded 0 0).link 0).requests = []
      ∧ (((loaded 4 4).link 0).waiting.tail.all fun x => x.isOverrun) = false
      ∧ ((loaded 1 0).link 0).sending.isSome
      ∧ ((loaded 1 0).link 0).requests = [{ tag := 1, code := 0x3C, payload := [] }]
      ∧ (((loaded 1 0).link 0).waiting.tail.all fun x => x.isOverrun) = true := by decide +kernel

theorem met_AnsrTakesARingingPartyToScreening : ∀ p ∈ [(0 : Party), 23],
    partyArg (byte p.val) = some p ∧ (one p .alerting none).controls 0 p = true
      ∧ ((one p .alerting none).party p).state = .alerting ∧ (one p .alerting none).groupLaw := by
  unfold State.groupLaw; decide +kernel

theorem met_ParkOffaAndUnquPark :
    ((live 23 7).controls 0 23 = true ∧ ((live 23 7).party 23).owner = some 0 ∧ ((live 23 7).party 23).state = .onAir)
      ∧ ((one 0 .screening (some 0)).controls 0 0 = true ∧ ((one 0 .screening (some 0)).party 0).owner = some 0
        ∧ ((one 0 .screening (some 0)).party 0).state = .screening)
      ∧ (live 23 7).controlsItsStudio 0 23 = true
      ∧ (((waiting 0 .a).party 0).state = .queued ∧ (waiting 0 .a).controlsItsStudio 0 0 = true)
      ∧ placesCheck (live 23 7) = true ∧ placesCheck (waiting 0 .a) = true := by decide +kernel

/-- A queue of 11 parties, and one to join it. -/
def elevenWait : State :=
  { (parked 23 none).setQueue .b ((upTo 11).map fun i => (⟨i.val, by omega⟩ : Party)) with
    parties := tab fun p => if p.val < 11 then (one 0 .queued (some 0)).party 0 else (parked 23 none).party p }

theorem met_QueuPutsAPartyAtTheTail :
    partyArg 23 = some 23 ∧ studioArg 2 = some .b ∧ elevenWait.controlsStudio 0 .b = true
      ∧ elevenWait.controls 0 23 = true ∧ (elevenWait.party 23).state = .parked ∧ (elevenWait.party 23).owner = none
      ∧ (elevenWait.queue .b).length = 11 ∧ placesCheck elevenWait = true := by decide +kernel

theorem met_AirpAndNextTakeAPartyToAir :
    partyArg 3 = some 3 ∧ (waiting 3 .b).queueOf 3 = some .b ∧ studioArg 2 = some .b
      ∧ ((waiting 3 .b).queue .b).head? = some 3 ∧ (waiting 3 .b).controlsStudio 0 .b = true
      ∧ ((waiting 3 .b).party 3).state = .queued ∧ (waiting 3 .b).studioOfSlot 4 = .b
      ∧ row (waiting 3 .b).stud.slots 4 = none
      ∧ (∀ m, m < 4 → (waiting 3 .b).studioOfSlot m = .b → (row (waiting 3 .b).stud.slots m).isSome)
      ∧ placesCheck (waiting 3 .b) = true := by decide +kernel

/-- Party 3 waits for studio B, whose floor stands above its one talk entry. -/
def heldBack : State :=
  let entry : TalkEntry := { link := 1, priority := 3, depth := .db6, arrival := 0 }
  { waiting 3 .b with
    stud := { (waiting 3 .b).stud with floorB := 4 },
    tarb := { State.reset.tarb with lists := put State.reset.tarb.lists 3 [entry], arrivals := 1 } }

theorem met_AirpAndNextTakeAPartyToAir_laws : heldBack.placesLaw ∧ heldBack.talkLaw
    ∧ (heldBack.talkList 3).head?.map (fun e => decide (e.priority < heldBack.floor .b)) = some true
    ∧ kinds (go heldBack (.airp 0 7 3)) 0 = [.state, .queueChanged, .airSlot, .talkHeld] :=
  ⟨placesLaw_of_check (by decide +kernel), talkLaw_of_check (by decide +kernel), by decide +kernel, by decide +kernel⟩

theorem met_RlseClearsTheCallDown_laws : hangingUp.placesLaw ∧ heldBack.placesLaw ∧ (hangingUp.slotOf 2) = some 0
    ∧ (heldBack.queueOf 3) = some .b ∧ heldBack.talkList 3 ≠ [] ∧ (hangingUp.party 3).handover.isSome
    ∧ kinds (go heldBack (.rlse 0 7 3)) 0 = [.state, .queueChanged, .talkEnded]
    ∧ kinds (go (asked 3 0 1 false) (.rlse 0 7 3)) 1 = [.takeResult] :=
  ⟨placesLaw_of_check (by decide +kernel), placesLaw_of_check (by decide +kernel), by decide +kernel, by decide +kernel,
    by decide +kernel, by decide +kernel, by decide +kernel, by decide +kernel⟩

theorem met_RlseClearsTheCallDown :
    (live 23 7).controls 0 23 = true ∧ ((live 23 7).party 23).state.answered = true
      ∧ ((live 23 7).party 23).owner = some 0 := by decide +kernel

theorem met_LoopBeginsALoopTestAndLendEndsIt :
    sourceArg 15 = some 15 ∧ up.controls 0 23 = true ∧ (up.party 23).state = .vacant ∧ up.inService 23 = true
      ∧ ((one 23 .looptest (some 0)).party 23).state = .looptest
      ∧ ((one 23 .looptest (some 0)).party 23).owner = some 0
      ∧ ((one 23 .looptest (some 0)).party 23).owner ≠ some 1 ∧ placesCheck up = true := by decide +kernel

theorem met_PrstReturnsAPartyToVacant :
    (live 23 7).supervisor = 0 ∧ (live 23 7).controls 0 23 = true ∧ ((live 23 7).party 23).state.onCall = true
      ∧ ((one 0 .fault none).party 0).state = .fault ∧ placesCheck (one 0 .fault none) = true
      ∧ (one 0 .looptest (some 1)).controls 0 0 = true ∧ ((one 0 .looptest (some 1)).party 0).state = .looptest := by
  decide +kernel

theorem met_PrstReturnsAPartyToVacant_laws : (up.party 23).state = .vacant ∧ up.placesLaw ∧ up.talkLaw ∧ up.recordLaw
    ∧ kinds (go up (.prst 0 7 23)) 0 = [] :=
  ⟨by decide +kernel, placesLaw_of_check (by decide +kernel), talkLaw_of_check (by decide +kernel),
    recordLaw_of_check (by decide +kernel) (by decide +kernel), by decide +kernel⟩

theorem met_SkndSetsTheKind :
    kindArg 1 = some .codec ∧ up.controls up.supervisor 23 = true ∧ (up.party 23).state = .vacant := by decide +kernel

theorem met_MoveReordersAQueue : ∀ d ∈ [(1 : Byte), 255],
    1 ≤ d.toNat ∧ (elevenWait.party 10).state = .queued ∧ elevenWait.queueOf 10 = some .b ∧ (elevenWait.queue .b).Nodup
      ∧ elevenWait.controlsStudio 0 .b = true ∧ partyArg 10 = some 10 := by decide +kernel

/-- Group 6 of link 0 with 7 members, and party 23 SCREENING in group 1. -/
def sevenMeet : State :=
  { up with
    parties := tab fun p => if p.val < 7 ∨ p = 23 then (one 0 .screening (some 0)).party 0 else up.party p,
    conf := put (put up.conf 5 { members := (upTo 7).map fun i => (⟨i.val, by omega⟩ : Party), owner := some 0 }) 0
      { members := [23], owner := some 0 } }

theorem met_JoinPutsAPartyAtTheTailOfAGroup :
    groupArg 6 = some 5 ∧ partyArg 23 = some 23 ∧ sevenMeet.controls 0 23 = true
      ∧ (sevenMeet.party 23).state = .screening ∧ (sevenMeet.party 23).owner = some 0
      ∧ (sevenMeet.group 5).owner = some 0 ∧ (23 : Party) ∉ (sevenMeet.group 5).members
      ∧ (sevenMeet.group 5).members.length = 7 ∧ (23 : Party) ∈ (sevenMeet.group 0).members
      ∧ (sevenMeet.group 1).members = [] ∧ groupArg 1 = some 0 ∧ (sevenMeet.group 0).owner = some 0 := by decide +kernel

theorem met_JoinPutsAPartyAtTheTailOfAGroup_law : sevenMeet.groupLaw
    ∧ (((go sevenMeet (.join 0 7 23 6)).ret 0).ingredients.map fun i => (i.ident, i.level.target)).getLast?
      = some (.party 23, .half 0) := by
  unfold State.groupLaw; decide +kernel

theorem met_LeavTakesAPartyOutOfItsGroup :
    sevenMeet.controls 0 23 = true ∧ (sevenMeet.party 23).state = .screening ∧ (sevenMeet.party 23).owner = some 0
      ∧ sevenMeet.groupOf 23 = some 0 := by decide +kernel

theorem met_LstnSetsTheCueSelection :
    partyArg 23 = some 23 ∧ up.mayRead 0 23 = true ∧ groupArg 6 = some 5
      ∧ ((go up (.lstn 0 7 2 6)).cue 0).current.map (fun c => c.selection) = some (.group 5)
      ∧ ((go (go up (.lstn 0 7 2 6)) (.lstn 0 7 1 23)).cue 0).previous.map (fun c => c.selection)
        = some (.group 5) := by decide +kernel

theorem met_GainSetsAnAirGain :
    gainArg 0 = some .off ∧ gainArg 0xB9 = some (.half 24) ∧ studioArg 1 = some .a
      ∧ (go up (.ssrc 0 7 15 1)).controlsStudio 0 .a = true ∧ sourceArg 15 = some 15
      ∧ ((go up (.ssrc 0 7 15 1)).source 15).inStudio .a = true
      ∧ ((live 23 3).party 23).state = .onAir ∧ (live 23 3).slotOf 23 = some 3 ∧ (live 23 3).studioOfSlot 3 = .a
      ∧ row (live 23 3).stud.slots 3 = some { party := 23, gain := .half 0 } := by decide +kernel

/-- Party 2 is ON_AIR in studio A, where party 1 waits and source 15 is a member. -/
def sharing : State := go hangingUp (.ssrc 0 7 15 1)

theorem met_GainSetsAnAirGain_law : hangingUp.placesLaw ∧ sharing.placesLaw
    ∧ (hangingUp.party 1).state = .queued ∧ hangingUp.studioOf 1 = some .a ∧ hangingUp.slotOf 2 = some 0
    ∧ row hangingUp.stud.slots 0 = some { party := 2, gain := .half 0 } ∧ hangingUp.controlsStudio 0 .a = true
    ∧ ((go hangingUp (.gain 0 7 1 1 2 0xB9)).ret 1).ingredients.map (fun i => (i.ident, i.level.target))
      = [(.party 2, .half 24)]
    ∧ (sharing.source 15).inStudio .a = true ∧ (sharing.source 15).gainIn .a ≠ .half 24
    ∧ ((go sharing (.gain 0 7 1 0 15 0xB9)).ret 1).ingredients.map (fun i => (i.ident, i.level.target))
      = [(.source 15, .half 24), (.party 2, .half 0)] :=
  ⟨placesLaw_of_check (by decide +kernel), placesLaw_of_check (by decide +kernel), by decide +kernel, by decide +kernel,
    by decide +kernel, by decide +kernel, by decide +kernel, by decide +kernel, by decide +kernel, by decide +kernel,
    by decide +kernel⟩

theorem met_SsrcSetsAMembership :
    membershipArg 3 = some (true, true) ∧ sourceArg 15 = some 15 ∧ up.controlsStudio up.supervisor .a = true
      ∧ up.controlsStudio up.supervisor .b = true := by decide +kernel

theorem met_SsrcSetsAMembership_law : hangingUp.placesLaw ∧ (hangingUp.party 1).state = .queued
    ∧ (hangingUp.party 2).state = .onAir ∧ hangingUp.studioOf 1 = some .a ∧ hangingUp.studioOf 2 = some .a
    ∧ (hangingUp.source 15).inStudio .a ≠ (sharing.source 15).inStudio .a
    ∧ hangingUp.controlsStudio hangingUp.supervisor .a = true ∧ hangingUp.controlsStudio hangingUp.supervisor .b = true :=
  ⟨placesLaw_of_check (by decide +kernel), by decide +kernel, by decide +kernel, by decide +kernel, by decide +kernel,
    by decide +kernel, by decide +kernel, by decide +kernel⟩

theorem met_SpltSetsTheAirSplit :
    (8 : Byte).toNat ≤ 8 ∧ up.controlsStudio up.supervisor .a = true ∧ up.controlsStudio up.supervisor .b = true
      ∧ ∀ p, (up.party p).state ≠ .onAir := by decide +kernel

/-- Party 3 is ON_AIR in studio B under a talk entry of priority 3 that stands at the floor. -/
def underFloor : State :=
  let s := go heldBack (.airp 0 7 3)
  go (go s (.sflr 0 7 2 3)) (.ftch 0 7 8)

theorem met_SflrSetsTheAirTalkFloor_laws : underFloor.talkLaw ∧ (underFloor.party 3).state = .onAir
    ∧ underFloor.studioOf 3 = some .b ∧ (underFloor.activeEntry 3).isSome ∧ (go underFloor (.sflr 0 7 2 4)).talkLaw
    ∧ (go underFloor (.sflr 0 7 2 4)).activeEntry 3 = none
    ∧ underFloor.floor .b = 3
    ∧ (underFloor.ret 3).active = (underFloor.activeEntry 3).map (fun e => { link := e.link, depth := e.depth })
    ∧ kinds (go underFloor (.sflr 0 7 2 4)) 0 = [.talkHeld] ∧ kinds (go underFloor (.sflr 0 7 2 3)) 0 = []
    ∧ kinds (go (go underFloor (.sflr 0 7 2 4)) (.sflr 0 7 2 0)) 0 = [.talkHeld, .talkActive] :=
  ⟨talkLaw_of_check (by decide +kernel), by decide +kernel, by decide +kernel, by decide +kernel,
    talkLaw_of_check (by decide +kernel), by decide +kernel, by decide +kernel, by decide +kernel, by decide +kernel,
    by decide +kernel, by decide +kernel⟩

theorem met_SflrSetsTheAirTalkFloor :
    studioArg 2 = some .b ∧ (8 : Byte).toNat ≤ 8 ∧ up.controlsStudio up.supervisor .b = true := by decide +kernel

theorem met_TalkPutsAnEntryOnEveryPartyItReaches :
    let s := talker 0 (parked 23 (some 1))
    targetArg 0 23 = some (.party 23) ∧ (7 : Byte).toNat ≤ 7 ∧ depthArg 3 = some .db6
      ∧ (s.settings 0).source.isSome = true ∧ s.inTarget 0 23 (.party 23) = true
      ∧ (s.party 23).state.talkable = true ∧ (s.partyPerms 0 23).talk = true := by decide +kernel

theorem met_TalkIsHeardAndDucksTheFeed :
    let s := talker 0 (go (parked 23 (some 1)) (.shld 0 7 4 161))
    partyArg 23 = some 23 ∧ (7 : Byte).toNat ≤ 7 ∧ depthArg 0 = some .full ∧ (s.partyPerms 0 23).talk = true
      ∧ (s.party 23).state = .parked ∧ s.talkList 23 = [] ∧ (s.ret 23).active = none
      ∧ (s.settings 0).source = some 12 ∧ (s.settings 0).gain = .half 0
      ∧ ((s.feed 23).map fun w => w.ident) = [.source 4] ∧ ((s.feed 23).map fun w => w.ident).Nodup := by decide +kernel

theorem met_TendRemovesTheLinksEntries :
    targetArg 0 3 = some (.party 3) ∧ hangingUp.inTarget 0 3 (.party 3) = true
      ∧ (hangingUp.talkList 3).any (fun e => e.link == 0) = true := by decide +kernel

theorem met_StlkSetsALinksTalkSettings :
    linkArg 2 = some 2 ∧ sourceOrNoneArg 0xFF = some none ∧ sourceOrNoneArg 15 = some (some 15)
      ∧ gainArg 1 = some (.half (-160)) ∧ (7 : Byte).toNat ≤ 7 := by decide +kernel

/-- Party 0 is SCREENING for link 0 and hears its talk path. -/
def screened : State := go (talker 0 sevenMeet) (.stlk 0 7 0 12 160 7)

theorem met_StlkSetsALinksTalkSettings_laws : sevenMeet.placesLaw ∧ screened.placesLaw
    ∧ (sevenMeet.party 0).state = .screening ∧ (sevenMeet.party 0).owner = some 0
    ∧ (screened.settings 0).source = some 12 ∧ (screened.settings 0).gain = .half (-1)
    ∧ (∃ i ∈ (screened.ret 0).ingredients, i.ident = .talk 0 ∧ i.dipTo = none ∧ i.carries = some 12
      ∧ i.level.target = .half (-1))
    ∧ (let t := go screened (.stlk 0 7 0 13 161 7)
       (∃ i ∈ (t.ret 0).ingredients, i.ident = .talk 0 ∧ i.dipTo = some 13 ∧ i.level.target = .half 0)
         ∧ t.targetOf 0 (.talk 0) = .half 0)
    ∧ (go screened (.stlk 0 7 0 12 161 7)).targetOf 0 (.talk 0) = .half 0
    ∧ (go screened (.stlk 0 7 0 0xFF 161 7)).targetOf 0 (.talk 0) = .off :=
  ⟨placesLaw_of_check (by decide +kernel), placesLaw_of_check (by decide +kernel), by decide +kernel, by decide +kernel,
    by decide +kernel, by decide +kernel, by decide +kernel, by decide +kernel, by decide +kernel, by decide +kernel⟩

theorem met_StlkSetsALinksTalkSettings_groupLaw : sevenMeet.groupLaw ∧ screened.groupLaw :=
  ⟨by unfold State.groupLaw; decide +kernel, by unfold State.groupLaw; decide +kernel⟩

/-- Party 0 is PARKED now, and the talk path of link 0 falls to OFF in its return. -/
def falling : State := go screened (.park 0 7 0)

theorem met_StlkSetsALinksTalkSettings_falling :
    let path (s : State) := (s.ret 0).ingredients.filter fun i => i.ident == .talk 0
    let half (s : State) : State := s.setReturn 0 { s.ret 0 with ingredients := (s.ret 0).ingredients.map fun i =>
      { i with level := { i.level with applied := -80 } } }
    falling.placesLaw ∧ falling.groupLaw
      ∧ (path falling).map (fun i => (i.level.target, i.carries, i.dipTo)) = [(.off, some 12, none)]
      ∧ (path (go (half falling) (.stlk 0 7 0 13 160 7))).map (fun i => (i.level.target, i.carries, i.dipTo, i.level.ramp))
        = [(.off, some 12, some 13, { start := -80, len := 960, done := 0, running := true })]
      ∧ path (go (half falling) (.stlk 0 7 0 12 161 7)) = path (half falling)
      ∧ path (go (half falling) (.stlk 0 7 0 0xFF 160 7)) = path (half falling) := by
  refine ⟨placesLaw_of_check (by decide +kernel), ?_, ?_⟩
  · unfold State.groupLaw; decide +kernel
  · decide +kernel

theorem met_TakeFollowsItsLines :
    ((parked 23 (some 0)).controls 0 23 = true ∧ ((parked 23 (some 0)).party 23).state.answered = true
        ∧ ((parked 23 (some 0)).party 23).owner = some 0)
      ∧ ((parked 23 none).controls 0 23 = true ∧ ((parked 23 none).party 23).owner = none)
      ∧ ((asked 23 1 2 false).party 23).handover.isSome
      ∧ (let s := (parked 23 (some 1)).setParty 23 { (parked 23 (some 1)).party 23 with lock := true }
         (s.party 23).handover = none ∧ (s.party 23).lock = true ∧ s.controls s.supervisor 23 = true
           ∧ (shared s).controls 2 23 = true ∧ (2 : Link) ≠ (shared s).supervisor)
      ∧ (let s := shared (parked 23 (some 1))
         (s.party 23).handover = none ∧ (s.party 23).lock = false ∧ (s.link 1).away = false ∧ s.controls 2 23 = true
           ∧ ((go s (.away 1 7 1)).link 1).away = true) := by decide +kernel

theorem met_AHandoverEndsByGiveKeepTcanOrTheGrantTimer :
    partyArg 24 = none ∧ (up.party 23).handover = none
      ∧ (let s := asked 23 0 1 false
         partyArg 23 = some 23 ∧ (s.party 23).handover = some { requester := 1, left := 5000 }
           ∧ (s.party 23).owner = some 0 ∧ linkArg 1 = some 1 ∧ s.controls 1 23 = false
           ∧ (shared s).controls 1 23 = true) := by decide +kernel

theorem met_LockAndUlckSetTheLock :
    partyArg 24 = none ∧ partyArg 23 = some 23 ∧ (up.party 23).state.answered = false
      ∧ ((asked 23 0 1 false).party 23).state.answered = true ∧ ((asked 23 0 1 false).party 23).owner = some 0
      ∧ ((asked 23 0 1 false).party 23).owner ≠ some 1 := by decide +kernel

theorem met_AwaySetsThePresenceAndGrantsHandovers :
    let s := asked 23 0 1 false
    (s.party 23).owner = some 0 ∧ (s.party 23).handover = some { requester := 1, left := 5000 }
      ∧ s.controls 1 23 = false ∧ (shared s).controls 1 23 = true ∧ (s.party 0).owner ≠ some 0 := by decide +kernel

/-- Region 4 is locked over parties 20 to 23. -/
def guarded : State :=
  let r : Region := { valid := true, cover := .parties 20 4, perms := tab fun _ => Perms.all, locked := true }
  { up with regions := put up.regions 4 r }

theorem met_SregWritesAnEntryAndLregLocksIt :
    (guarded.regionLaw ∧ numberArg 8 7 = some 7 ∧ numberArg 8 3 = some 3 ∧ yesNoArg 1 = some true
        ∧ coverArg 0 0 16 8 = some (.parties 16 8) ∧ permsArg 7 = some Perms.all)
      ∧ ((guarded.region 7).locked = false ∧ (∀ j, (7 : Fin 8) < j → (guarded.region j).locked = false))
      ∧ (guarded.region 4).locked = true ∧ (guarded.region 4).valid = true
      ∧ (∃ j, (3 : Fin 8) < j ∧ (guarded.region j).locked = true
        ∧ guarded.covers { valid := true, cover := .parties 16 8, perms := tab fun _ => Perms.all, locked := false } j) :=
  ⟨⟨regionLaw_of_check (by decide +kernel), by decide +kernel, by decide +kernel, by decide +kernel, by decide +kernel,
      by decide +kernel⟩, by decide +kernel, by decide +kernel, by decide +kernel,
    ⟨4, by decide +kernel, by decide +kernel, Or.inl ⟨23, by decide +kernel, by decide +kernel⟩⟩⟩

theorem met_ReadsChangeNothingButTheOwnersParkTimer :
    partyArg 23 = some 23 ∧ up.views 0 23 = true ∧ (41 : Byte).toNat ≤ 41 ∧ studioArg 2 = some .b
      ∧ up.viewsStudio 0 .b = true ∧ numberArg 8 7 = some 7
      ∧ (guarded.region 4).coversParty 23 = true ∧ (∀ j, j < 4 → (guarded.region j).coversParty 23 = false)
      ∧ (∀ i, (guarded.region i).coversParty 19 = false) ∧ (∀ i, (guarded.region i).coversStudio .b = false)
      ∧ (let s := go up (.sreg 0 7 7 1 1 2 0 0 7 3 0)
         (s.region 7).coversStudio .b = true ∧ ∀ j, j < 7 → (s.region j).coversStudio .b = false) := by decide +kernel

theorem met_SprtWritesAPort :
    portArg 1 = some .lp1 ∧ yesNoArg 1 = some true ∧ yesNoArg 0 = some false
      ∧ slotsArg (slotsOf .lp1) (List.replicate 6 0x44)
        = some (List.replicate 12 { enable := true, format := .lin24 })
      ∧ (∀ p, portOf p = .lp1 → ((live 23 7).party p).state ≠ .vacant → ∀ c,
          (List.replicate 12 ({ enable := true, format := .lin24 } : SlotSetting))[slotIndexOf p]? = some c →
          (((live 23 7).partySlot p).enable = true → c.enable = true) ∧ c.format = ((live 23 7).partySlot p).format)
      ∧ ∀ p, portOf p = .lp0 → ((live 23 7).party p).state = .vacant := by
  refine ⟨by decide +kernel, by decide +kernel, by decide +kernel, by decide +kernel, fun p _ _ c hc => ?_,
    by decide +kernel⟩
  have hf : ∀ q, ((live 23 7).partySlot q).format = .lin24 := by decide +kernel
  rw [(List.mem_replicate.mp (List.mem_of_getElem? hc)).2, hf p]
  exact ⟨fun _ => rfl, rfl⟩

theorem met_ShldSetsTheHoldFeed :
    sourceOrNoneArg 15 = some (some 15) ∧ sourceOrNoneArg 0xFF = some none ∧ gainArg 0xB9 = some (.half 24)
      ∧ ((parked 23 none).party 23).state = .parked ∧ ((parked 23 none).ret 23).active = none
      ∧ (parked 23 none).rmix.holdSource ≠ some 15
      ∧ (hangingUp.party 3).state = .parked ∧ (hangingUp.ret 3).active = some { link := 0, depth := .db6 }
      ∧ hangingUp.rmix.holdSource ≠ some 15 ∧ hangingUp.rmix.holdSource = none ∧ hangingUp.rmix.holdGain = .half 0 := by
  decide +kernel

theorem met_ShldSetsTheHoldFeed_talkPath :
    let s := talker 0 hangingUp
    (s.party 3).state = .parked ∧ (s.ret 3).active = some { link := 0, depth := .db6 } ∧ s.talkGain 0 ≠ .off
      ∧ s.rmix.holdSource ≠ some 15
      ∧ ((go s (.shld 0 7 15 161)).ret 3).ingredients.map (fun i => (i.ident, i.level.target))
        = [(.source 15, .half (-12)), (.party 2, .off), (.talk 0, .half 0)] := by decide +kernel

theorem met_StimWritesItsSevenValues :
    (250 : Word16).toNat ≤ 250 ∧ (50 : Word16).toNat ≤ 50 ∧ (1000 : Word16).toNat ≤ 1000
      ∧ 1 ≤ (1 : Word16).toNat ∧ (60 : Word16).toNat ≤ 60 ∧ 5 ≤ (5 : Word16).toNat ∧ (600 : Word16).toNat ≤ 600
      ∧ (15 : Byte).toNat ≤ 15 ∧ (30 : Byte).toNat ≤ 30 ∧ 250 < (251 : Word16).toNat ∧ (4 : Word16).toNat < 5 := by
  decide +kernel

theorem met_SpatWritesAPatternAndRestartsTheCounts :
    numberArg 6 5 = some 5 ∧ yesNoArg 1 = some true ∧ meaningArg 0x24 = some .fault ∧ appliesToArg 2 = some .both
      ∧ 1 ≤ (1 : Byte).toNat := by decide +kernel

theorem met_EmskAndAtcfSetALinksMaskAndAttention :
    maskArg 31 = some ClassSet.all ∧ maskArg 0 = some ClassSet.empty ∧ yesNoArg 1 = some true
      ∧ 1 ≤ (1 : Byte).toNat ∧ (48 : Byte).toNat ≤ 48 ∧ (hangingUp.link 0).events.length = 48 := by decide +kernel

theorem met_FtchTakesTheOldestEvents : 1 ≤ (1 : Byte).toNat ∧ (8 : Byte).toNat ≤ 8 := by decide +kernel

theorem met_LrstResetsItsLink :
    (hangingUp.link 1).events = [] ∧ (hangingUp.talkList 23).all (fun e => e.link != 0) = true := by decide +kernel

theorem met_LrstResetsItsLink_law : hangingUp.recordLaw ∧ (hangingUp.party 3).owner = some 0
    ∧ (hangingUp.activeEntry 3).map (fun e => e.link) = some 0 ∧ (hangingUp.party 2).owner = some 0
    ∧ (hangingUp.activeEntry 2).map (fun e => e.link) ≠ some 0 ∧ kinds (go hangingUp (.lrst 0 7)) 0 = [.talkActive] :=
  ⟨recordLaw_of_check (by decide +kernel) (by decide +kernel), by decide +kernel, by decide +kernel, by decide +kernel,
    by decide +kernel, by decide +kernel⟩

/-- A ramp that still runs: toward OFF, and of a talk path that dips for a new source, with its last frame or not. -/
def dipping (done : Nat) : Ingredient :=
  { ident := .talk 1,
    level := { target := .half 0, applied := -1, ramp := { start := 0, len := 960, done := done, running := true } },
    carries := some 12, dipTo := some 13 }

theorem met_AudioFrameMovesEveryRamp_cases :
    (¬ ((dipping 1).level.target = .off) ∧ (dipping 1).dipTo = some 13 ∧ (dipping 1).level.ramp.running = true
        ∧ (dipping 1).level.ramp.done + 1 < (dipping 1).level.ramp.len)
      ∧ (dipping 959).level.ramp.len ≤ (dipping 959).level.ramp.done + 1
      ∧ ((dipping 959).advance 20).map (fun i => (i.carries, i.dipTo, i.level.applied)) = some (some 13, none, -160)
      ∧ (let s := go (go (go up (.lstn 0 7 2 6)) (.rampComplete (.cue 0 .current))) (.lstn 0 7 0 3)
         (s.cue 0).current.isSome = true ∧ (s.cue 0).previous.map (fun c => c.level.applied) = some 0
           ∧ ((go s .audioFrame).cue 0).previous.map (fun c => c.level.applied) = some (-160 / 960)
           ∧ ((go s .audioFrame).cue 0).current.map (fun c => c.level.applied) = some (-160 + 160 / 960)) := by
  decide +kernel

theorem met_AudioFrameMovesEveryRamp :
    ∀ i ∈ ((ramping (.half 0)).ret 3).ingredients, i.dipTo = none ∧ i.level.target = .half 0
      ∧ i.level.ramp.running = true ∧ i.level.ramp.len ≤ i.level.ramp.done + 1 := by decide +kernel

theorem met_AudioFrameDrivesOnlyLockedPorts :
    (up.port .sp).sync = .locked ∧ (State.reset.port .lp0).sync ≠ .locked ∧ (up.partySlot 23).enable = true
      ∧ (up.ports.sp.slot 23).enable = true ∧ row up.stud.slots 7 = none ∧ (up.ports.sp.slot 23).format = .lin24 := by
  decide +kernel

/-- LP1 brings the sample 1000 on its last slot, and cue 1 listens to that party. -/
def speaking : State :=
  let s := (live 23 7).setPort .lp1 { openPort 12 with inbound := some ((1000 : BitVec 512) <<< 120) }
  s.setCue 1
    { current := some { selection := .input 23, level := Level.resting 0, members := [] }, previous := none }

theorem test_audio_reaches_the_air_slot_and_the_cue :
    speaking.lineSample 23 = 1000
      ∧ ((go speaking .audioFrame).ports.sp.outbound.map fun f => ((f.slots[7]?).map fun o => o.map fun w => w.audio))
        = some (some (some 1000))
      ∧ ((go speaking .audioFrame).ports.sp.outbound.map fun f => ((f.slots[9]?).map fun o => o.map fun w => w.audio))
        = some (some (some 1000)) := by decide +kernel

/-- Party 23 in LOOPTEST hears source 4, and the part takes what it hears as the party's input. -/
def looping : State :=
  let s := up.setPort .sp { openPort 27 with inbound := some ((5 : BitVec 512) <<< 376) }
  go (go s (.loop 0 7 23 4)) (.rampComplete (.ingredient 23 (.source 4)))

theorem test_looptest_returns_its_source :
    (looping.party 23).state = .looptest ∧ (looping.party 23).loopSource = some 4 ∧ looping.sourceSample 4 = 5
      ∧ row (go looping .audioFrame).rmix.lastReturns 23 = 5 ∧ row looping.advanceRamps.inputs 23 = 5 := by decide +kernel

theorem met_AudioFrameDrivesOnlyLockedPorts_signals :
    speaking.hasSignal .lp1 (slotIndexOf 23) ∧ (speaking.port .lp1).inbound.isSome ∧ ¬ State.reset.hasSignal .sp 0
      ∧ looping.hasSignal .sp 4 ∧ (looping.party 23).loopSource = some 4 ∧ (looping.party 22).state ≠ .looptest := by
  unfold State.hasSignal; decide +kernel

/-- The whole part of a sample at −20.0 dB, and at −6.0 dB. -/
theorem test_magnitudeFloor : magnitudeFloor (-40) 1000 = 100 ∧ magnitudeFloor (-12) 1000000 = 501187 := by decide +kernel

theorem test_atGain_is_exact_where_the_product_is_whole : atGain (-40) (-1000) = -100 := by decide +kernel

theorem met_RampCompleteReachesTheTarget :
    (∀ j ∈ ((ramping .off).ret 3).ingredients,
        j.ident = .source 4 ∧ j.level.ramp.running = true ∧ j.dipTo = none ∧ j.level.target = .off)
      ∧ (let s := go (go up (.lstn 0 7 2 6)) (.lstn 0 7 3 0xFF)
         (s.cue 0).current = none ∧ (s.cue 0).previous.map (fun c => (c.level.ramp.running, c.level.target))
           = some (true, .off))
      ∧ ((go up (.lstn 0 7 2 6)).cue 0).current.map (fun c => (c.level.ramp.running, c.level.target))
        = some (true, .half 0) := by decide +kernel

/-- A cue of group 6 that party 23 has just joined, and a return with a dip under way. -/
def joining : State :=
  (go (go sevenMeet (.lstn 0 7 2 6)) (.join 0 7 23 6)).setReturn 3 { ingredients := [dipping 1], active := none }

/-- Cue 0 holds back a previous place at a gain, with its ramp at an end or not. -/
def heldPlace (running : Bool) (g : Gain) : State :=
  let level : Level := { target := g, applied := -80, ramp := { start := 0, len := 960, done := 480, running := running } }
  up.setCue 0 { current := none, previous := some { selection := .input 3, level := level, members := [] } }

theorem met_RampCompleteReachesTheTarget_cases :
    ((go joining (.rampComplete (.ingredient 3 (.talk 1)))).ret 3).ingredients.map
        (fun i => (i.carries, i.dipTo, i.level.applied, i.level.ramp.running, i.level.ramp.done))
      = [(some 13, none, -160, true, 0)]
      ∧ (joining.cue 0).current.map (fun c =>
          ((c.members.filter fun i => i.ident == .party 23).map fun i => (i.level.ramp.running, i.level.target)))
        = some [(true, .half 0)]
      ∧ ((go joining (.rampComplete (.cueMember 0 .current 23))).cue 0).current.map (fun c =>
          ((c.members.filter fun i => i.ident == .party 23).map fun i => (i.level.ramp.running, i.level.applied)))
        = some [(false, 0)]
      ∧ ((go joining (.rampComplete (.cueMember 0 .current 23))).cue 0).current.map (fun c => c.members.length) = some 8
      ∧ (go (heldPlace false .off) (.rampComplete (.cue 0 .previous))).cue 0 = (heldPlace false .off).cue 0
      ∧ ((go (heldPlace true .off) (.rampComplete (.cue 0 .previous))).cue 0).previous = none
      ∧ ((go (heldPlace true (.half 0)) (.rampComplete (.cue 0 .previous))).cue 0).previous.map (fun c => c.level.applied)
        = some 0 := by decide +kernel

/-- LP0 in a sync state with its two runs and its grace timer. -/
def syncing (y : SyncState) (aligned missed : Nat) (grace : Option Nat) : State :=
  up.setPort .lp0 { openPort 12 with sync := y, aligned := aligned, missed := missed, grace := grace }

theorem met_AlignmentRunsFindAndLoseSync :
    (alignedBits 0).extractLsb' 496 16 = 0xB16D#16 ∧ (0 : BitVec 512).extractLsb' 496 16 ≠ 0xB16D#16
      ∧ ((syncing .seeking 2 0 none).port .lp0).aligned + 1 < 4 ∧ 4 ≤ ((syncing .grace 3 0 (some 1)).port .lp0).aligned + 1
      ∧ ((syncing .locked 4 1 none).port .lp0).missed + 1 < 3 ∧ 3 ≤ ((syncing .locked 0 2 none).port .lp0).missed + 1
      ∧ ((syncing .disabled 0 0 none).port .lp0).sync = .disabled := by decide +kernel

theorem met_SyncStatesMoveByR161 :
    ∀ y ∈ [SyncState.disabled, .seeking, .locked, .grace, .failed],
      ((syncing y 0 0 (some 250)).port .lp0).sync = y ∧ ((syncing y 0 0 (some 250)).port .lp0).grace.isSome := by
  decide +kernel

/-- LP0 in GRACE, with a party in each collection, one with talk entries that no return hears yet, and one under loop test. -/
def failing : State :=
  let s := (hangingUp.setReturn 3 { ingredients := [], active := none }).setParty 4
    { PartyRec.reset with state := .looptest, owner := some 1, loopSource := some 15 }
  s.setPort .lp0 { openPort 12 with sync := .grace, grace := some 0 }

theorem met_SyncStatesMoveByR161_failure :
    (failing.port .lp0).sync = .grace ∧ (failing.port .lp0).grace.isSome
      ∧ ((allParties.filter fun p => portOf p == .lp0).take 5).map (fun p => (failing.party p).state)
        = [.screening, .queued, .onAir, .parked, .looptest]
      ∧ (failing.group 0).members = [0] ∧ failing.queue .a = [1] ∧ (row failing.stud.slots 0).isSome
      ∧ failing.talkList 3 ≠ []
      ∧ (let t := go failing (.graceTimerExpiry .lp0)
         (((allParties.take 5).map fun p => (t.party p).state) = [.fault, .fault, .fault, .fault, .vacant])
           ∧ t.group 0 = { members := [], owner := none } ∧ t.queue .a = [] ∧ row t.stud.slots 0 = none
           ∧ t.talkList 3 = []) := by decide +kernel

theorem met_AMonitoredFrameQualifiesAMeaning :
    portOf 0 = .lp0 ∧ (listening.port .lp0).sync = .locked ∧ (alignedBits 0x12).extractLsb' 496 16 = 0xB16D#16
      ∧ (alignedBits 0x12).extractLsb' (464 - 32 * slotIndexOf 0) 8 = (0x12 : Byte) ∧ listening.inService 0 = true
      ∧ (row listening.smon.patterns 5).valid = true ∧ (row listening.smon.patterns 5).appliesTo = .both
      ∧ (∀ j, j < 5 → (row listening.smon.patterns j).valid = false)
      ∧ (syncing .grace 0 0 none).inService 0 = true ∧ ((syncing .grace 0 0 none).port .lp0).sync ≠ .locked
      ∧ State.reset.inService 0 = false := by decide +kernel

theorem met_ASignalReportMovesAPartyByItsState :
    State.reset.inService 23 = false ∧ up.inService 23 = true ∧ (up.port (portOf 23)).sync ≠ .disabled
      ∧ (up.party 23).state = .vacant ∧ ((live 23 7).party 23).state.answered = true
      ∧ ((live 23 7).party 23).state.onCall = true ∧ ((live 23 7).party 23).state ≠ .fault := by decide +kernel

theorem met_ReAlertClearTimerAndOneSecondMark :
    (up.party 23).realert = none ∧ (up.party 23).clear = none
      ∧ ((go up (.signalReport 23 .seize)).party 23).realert.isSome
      ∧ ((go up (.signalReport 23 .seize)).party 23).state = .alerting
      ∧ ((go (live 23 7) (.rlse 0 7 23)).party 23).clear.isSome ∧ ((go (live 23 7) (.rlse 0 7 23)).party 23).state = .clearing
      ∧ ((go up (.prst 0 7 23)).party 23).clear.isSome ∧ ((go up (.prst 0 7 23)).party 23).state = .vacant := by
  decide +kernel

theorem met_TheParkTimerRemindsThenOrphans :
    let s := asked 23 0 1 false
    let last := s.setParty 23 { s.party 23 with reminders := 2 }
    (up.party 23).park = none ∧ (s.party 23).park.isSome ∧ (s.party 23).owner = some 0 ∧ (s.link 0).away = false
      ∧ (go s (.away 0 7 1)).link 0 ≠ s.link 0 ∧ (s.party 23).reminders + 1 < s.times.nprk
      ∧ s.times.nprk ≤ (last.party 23).reminders + 1 ∧ 1 ≤ s.times.nprk ∧ last.controls 1 23 = false
      ∧ (shared last).controls 1 23 = true ∧ ((parked 23 (some 0)).party 23).handover = none := by decide +kernel

end Sys2Proof.Tests
end

namespace Sys2Proof.Machine

/-! ### The state in which a transition concludes -/

theorem State.setParty_setParty (s : State) (p : Party) (r r' : PartyRec) :
    (s.setParty p r).setParty p r' = s.setParty p r' := by
  have e : put (put s.parties p r) p r' = put s.parties p r' := row_ext fun i => by
    simp only [row_put]
    split <;> rfl
  simp only [State.setParty, e]

/-- The removals of R26 with the record `r` of the party that moves: what `enter` and a further change of the same record
leave before the events and reports of a transition. -/
def State.entered (s : State) (p : Party) (into : PartyState) (r : PartyRec) : State := (s.leave p into).setParty p r

theorem State.enter_eq_entered (s : State) (p : Party) (into : PartyState) :
    s.enter p into = s.entered p into ((s.party p).enter into) := rfl

theorem State.enter_modParty (s : State) (p : Party) (into : PartyState) (f : PartyRec → PartyRec) :
    (s.enter p into).modParty p f = s.entered p into (f ((s.party p).enter into)) := by
  unfold State.modParty
  rw [State.enter_party, if_pos rfl, State.enter_eq_entered]
  exact State.setParty_setParty _ _ _ _

section
variable (s : State) (p : Party) (into : PartyState) (r : PartyRec)

@[simp] theorem State.entered_stud : (s.entered p into r).stud = (s.leave p into).stud := rfl
@[simp] theorem State.entered_conf : (s.entered p into r).conf = (s.leave p into).conf := rfl
@[simp] theorem State.entered_tarb : (s.entered p into r).tarb = (s.leave p into).tarb := rfl
@[simp] theorem State.entered_links : (s.entered p into r).links = s.links := s.leave_links p into
@[simp] theorem State.entered_rmix : (s.entered p into r).rmix = s.rmix := s.leave_rmix p into
@[simp] theorem State.entered_regions : (s.entered p into r).regions = s.regions := s.leave_regions p into
@[simp] theorem State.entered_supervisor : (s.entered p into r).supervisor = s.supervisor := s.leave_supervisor p into

@[simp] theorem State.entered_party (q : Party) : (s.entered p into r).party q = if q = p then r else s.party q := by
  unfold State.entered
  rw [State.setParty_party]
  simp [State.party]

@[simp] theorem State.entered_talkList (q : Party) :
    (s.entered p into r).talkList q = if q = p ∧ into.talkable = false then [] else s.talkList q :=
  s.leave_talkList p q into

theorem State.entered_sameBase : s.sameBase (s.entered p into r) := by simp [State.sameBase, State.entered]

theorem State.entered_otherLists : s.otherLists (s.entered p into r) p := s.enter_otherLists p into

theorem State.entered_sameStudios : s.sameStudios (s.entered p into r) := s.sameStudios_leave p into

end

/-! ### What a transition leaves -/

@[simp] theorem State.conclude_party (s b : State) (p q : Party) (j : Option Link) (call : List Event) (tail : List Offer) :
    (s.conclude b p j call tail).party q = s.party q := by simp [State.party]

@[simp] theorem State.conclude_talkList (s b : State) (p q : Party) (j : Option Link) (call : List Event)
    (tail : List Offer) : (s.conclude b p j call tail).talkList q = s.talkList q := by simp [State.talkList]

/-- The record, the collections, the talkback list and the frame that a move of party `p` into a state leaves (R26). -/
def State.moved (s t : State) (p : Party) (into : PartyState) (r : PartyRec) : Prop :=
  t.party p = r ∧ t.stud = (s.leave p into).stud ∧ t.conf = (s.leave p into).conf
    ∧ t.talkList p = (if into.talkable then s.talkList p else []) ∧ s.partyFrame t p

theorem State.conclude_moved (s : State) (p : Party) (into : PartyState) (r : PartyRec) (j : Option Link)
    (call : List Event) (tail : List Offer) : s.moved ((s.entered p into r).conclude s p j call tail) p into r := by
  refine ⟨by simp, by simp, by simp, ?_, ?_⟩
  · cases h : into.talkable <;> simp [h]
  · exact State.conclude_frame s p j call tail (s.entered_sameBase p into r) (by simp) (by simp)
      (fun q hq => by simp [hq]) (s.entered_otherLists p into r) (s.entered_sameStudios p into r)

/-- A move into a state that stands in no collection is the removals of R26. -/
theorem State.moved.removed {s t : State} {p : Party} {into : PartyState} {r : PartyRec} (h : s.moved t p into r)
    (hi : into ≠ .queued ∧ into ≠ .onAir ∧ into ≠ .screening) : s.removed t p :=
  State.removed_of_leave p into hi h.2.1 h.2.2.1

/-- A move out of a state that stands in no collection changes none. -/
theorem State.moved.collections {s t : State} {p : Party} {into : PartyState} {r : PartyRec} (h : s.moved t p into r)
    (hq : (s.party p).state ≠ .queued) (ha : (s.party p).state ≠ .onAir) (hs : (s.party p).state ≠ .screening) :
    t.stud = s.stud ∧ t.conf = s.conf :=
  ⟨h.2.1.trans (s.leave_stud_none p into hq ha), h.2.2.1.trans (s.leave_conf_none p into hs)⟩

/-! ### The transitions of the commands, as moves -/

section
variable (s : State) (p : Party) (k : Link)

theorem State.toVacant_eq (call : State → State → List Event) : s.toVacant p call
    = (s.entered p .vacant ((s.party p).enter .vacant)).conclude s p none
        (call s (s.entered p .vacant ((s.party p).enter .vacant))) [] := rfl

theorem State.toFault_eq (cause : Nat) :
    let after := s.entered p .fault ((s.party p).enter .fault)
    s.toFault p cause = after.conclude s p none
      ((if (s.party p).state = .looptest then [loopEndedEvent after p (meaningCode .fault)] else [])
        ++ [faultEvent s after p cause]) [] := rfl

theorem State.toAlerting_eq :
    let after := s.entered p .alerting
      { (s.party p).enter .alerting with alertCount := 1, realert := some (s.times.talr * 1000) }
    s.toAlerting p = after.conclude s p none
      ((if (s.party p).state = .looptest then [loopEndedEvent after p (meaningCode .seize)] else [])
        ++ [alertEvent after p]) [] := by
  unfold State.toAlerting
  rw [State.enter_modParty]

theorem State.answer_eq : s.answer p k
    = (s.entered p .screening
        { (s.party p).enter .screening with owner := some k, lock := false, callSeconds := 0, airSeconds := 0 }).conclude
        s p none [{ partyEvent .answered p with link := some k }] [] := by
  unfold State.answer
  rw [State.enter_modParty]

theorem State.toParked_eq :
    let after := s.entered p .parked { (s.party p).enter .parked with park := some s.parkTime, reminders := 0 }
    s.toParked p k = after.conclude s p (some k) [stateEvent s after p] [] := by
  unfold State.toParked
  rw [State.enter_modParty]

theorem State.release_eq :
    let after := s.entered p .clearing { (s.party p).enter .clearing with clear := some Config.tclr }
    s.release p k = after.conclude s p (some k) [stateEvent s after p] [] := by
  unfold State.release
  rw [State.enter_modParty]

theorem State.startLoop_eq (src : Source) :
    let after := s.entered p .looptest
      { (s.party p).enter .looptest with owner := some k, lock := false, loopSource := some src }
    s.startLoop p src k = after.conclude s p (some k) [stateEvent s after p] [] := by
  unfold State.startLoop
  rw [State.enter_modParty]

theorem State.partyReset_eq :
    let after := s.entered p .vacant
      { (s.party p).enter .vacant with signalOut := .clear, clear := some Config.tclr }
    s.partyReset p = after.conclude s p none (resetEvents s after p) [] := by
  unfold State.partyReset
  rw [State.enter_modParty]

/-- The record of a party that QUEU takes to a ready queue (R11). -/
def PartyRec.queuedBy (r : PartyRec) (k : Link) : PartyRec :=
  { r.enter .queued with
    owner := if r.owner.isNone then some k else r.owner, lock := if r.owner.isNone then false else r.lock }

theorem State.toQueue_eq (x : Studio) :
    let entered := s.entered p .queued ((s.party p).queuedBy k)
    let after := entered.setQueue x (entered.queue x ++ [p])
    s.toQueue p x k = after.conclude s p (some k) [stateEvent s after p]
      (if (s.party p).owner.isNone then [ownerOffer s after p k Cause.queued] else []) := by
  unfold State.toQueue
  dsimp only
  rw [State.enter_modParty]
  rfl

theorem State.toAir_eq (n : AirSlot) :
    let after := (s.entered p .onAir ((s.party p).enter .onAir)).setSlot n (some { party := p, gain := .half 0 })
    s.toAir p n k = after.conclude s p (some k) [stateEvent s after p] [] := rfl

end

end Sys2Proof.Machine

namespace Sys2Proof.Machine

/-! ### What the law of the party records rests on -/

/-- The owner of a record with a pending handover is not AWAY (R121 line 9, R135). -/
def State.present (s : State) (r : PartyRec) : Prop :=
  ∀ k, r.handover.isSome → r.owner = some k → (s.link k).away = false

/-- Whoever stands in a ready queue is QUEUED: the part of the law of the places that NEXT relies on. -/
def State.queuedLaw (s : State) : Prop := ∀ x, ∀ p ∈ s.queue x, (s.party p).state = .queued

/-- The law of the party records with the one of the ready queues, while the handovers of the parties `ps` may still wait for an
owner who has gone AWAY (R135). -/
def State.callLawBut (s : State) (ps : List Party) : Prop :=
  (∀ p, (s.party p).lawful) ∧ (∀ p, p ∉ ps → s.present (s.party p)) ∧ s.queuedLaw

/-- What every request keeps: the law of the party records and the one of the ready queues. -/
def State.callLaw (s : State) : Prop := s.callLawBut []

theorem State.callLaw_iff (s : State) : s.callLaw ↔ s.recordLaw ∧ s.queuedLaw := by
  unfold State.callLaw State.callLawBut State.recordLaw State.present
  constructor
  · rintro ⟨h1, h2, h3⟩
    exact ⟨fun p => ⟨h1 p, h2 p (by simp)⟩, h3⟩
  · rintro ⟨h1, h3⟩
    exact ⟨fun p => (h1 p).1, fun p _ => (h1 p).2, h3⟩

theorem State.placesLaw.queuedLaw {s : State} (h : s.placesLaw) : s.queuedLaw := by
  intro x p hp
  refine (h.2.1 p).1 (List.mem_append.mpr ?_)
  cases x
  · exact .inl hp
  · exact .inr hp

theorem State.callLaw.recordLaw {s : State} (h : s.callLaw) : s.recordLaw := (s.callLaw_iff.1 h).1

theorem State.callLaw.lawful {s : State} (h : s.callLaw) (p : Party) : (s.party p).lawful := h.1 p

theorem State.present_of_none (s : State) {r : PartyRec} (h : r.handover = none) : s.present r := by
  simp [State.present, h]

/-- No link has gone AWAY. -/
def State.staysPresent (s t : State) : Prop := ∀ k, (s.link k).away = false → (t.link k).away = false

theorem State.staysPresent_of_links {s t : State} (h : t.links = s.links) : s.staysPresent t := fun k => by
  simp [State.link, h]

theorem State.onlyOffers.staysPresent {s t : State} (h : s.onlyOffers t) : s.staysPresent t := fun k hk =>
  (h k).2.2.2.2.2.2.1.trans hk

theorem State.offersExactly.staysPresent {s t : State} {os : List Offer} (h : s.offersExactly t os) : s.staysPresent t :=
  fun k hk => by
    rw [h k]
    exact (foldl_receive_offered _ _).2.2.2.2.2.2.1.trans hk

/-- The records, the ready queues and the presence of the links stay. -/
def State.sameCalls (s t : State) : Prop :=
  t.parties = s.parties ∧ (∀ x, t.queue x = s.queue x) ∧ s.staysPresent t

theorem State.sameCalls_refl (s : State) : s.sameCalls s := ⟨rfl, fun _ => rfl, fun _ h => h⟩

theorem State.sameCalls.trans {s t u : State} (h : s.sameCalls t) (g : t.sameCalls u) : s.sameCalls u :=
  ⟨g.1.trans h.1, fun x => (g.2.1 x).trans (h.2.1 x), fun k hk => g.2.2 k (h.2.2 k hk)⟩

theorem sameCalls_foldl {α : Type} (f : State → α → State) (h : ∀ (s : State) (a : α), s.sameCalls (f s a)) (l : List α)
    (s : State) : s.sameCalls (l.foldl f s) := by
  induction l generalizing s with
  | nil => exact s.sameCalls_refl
  | cons a l ih => exact (h s a).trans (ih _)

/-- A change that touches neither the parties nor the ready queues nor the links. -/
theorem State.sameCalls_of_eq {s t : State} (hp : t.parties = s.parties) (hs : t.stud = s.stud) (hl : t.links = s.links) :
    s.sameCalls t := ⟨hp, fun x => by cases x <;> simp [State.queue, hs], State.staysPresent_of_links hl⟩

theorem State.sameCalls_of_offers {s t : State} (hp : t.parties = s.parties) (hs : t.stud = s.stud) (hl : s.onlyOffers t) :
    s.sameCalls t := ⟨hp, fun x => by cases x <;> simp [State.queue, hs], hl.staysPresent⟩

theorem State.sameCalls.callLaw {s t : State} (h : s.sameCalls t) (hs : s.callLaw) : t.callLaw := by
  obtain ⟨hp, hq, ha⟩ := h
  have ep : ∀ p, t.party p = s.party p := fun p => by simp [State.party, hp]
  refine ⟨fun p => ep p ▸ hs.1 p, fun p hn k h1 h2 => ?_, fun x p hm => ?_⟩
  · rw [ep] at h1 h2
    exact ha k (hs.2.1 p hn k h1 h2)
  · rw [ep]
    exact hs.2.2 x p (hq x ▸ hm)

/-- A change of one party's record and of its place in the ready queues. -/
theorem State.callLawBut.one {s t : State} {p : Party} {ps : List Party} (h : s.callLawBut (p :: ps)) (ho : s.otherParties t p)
    (ha : s.staysPresent t) (hq : ∀ x, ∀ q ∈ t.queue x, q ≠ p → q ∈ s.queue x)
    (hm : ∀ x, p ∈ t.queue x → (t.party p).state = .queued) (hl : (t.party p).lawful) (hh : s.present (t.party p)) :
    t.callLawBut ps := by
  obtain ⟨h1, h2, h3⟩ := h
  refine ⟨fun q => ?_, fun q hn k g1 g2 => ?_, fun x q hx => ?_⟩
  · by_cases e : q = p
    · exact e ▸ hl
    · exact ho q e ▸ h1 q
  · by_cases e : q = p
    · subst e
      exact ha k (hh k g1 g2)
    · rw [ho q e] at g1 g2
      exact ha k (h2 q (by simp [e, hn]) k g1 g2)
  · by_cases e : q = p
    · subst e
      exact hm x hx
    · rw [ho q e]
      exact h3 x q (hq x q hx e)

theorem State.callLaw.but {s : State} (h : s.callLaw) (ps : List Party) : s.callLawBut ps :=
  ⟨h.1, fun p _ => h.2.1 p (by simp), h.2.2⟩

/-- A record whose handover and owner stay is as present as it was. -/
theorem State.callLaw.present {s : State} (h : s.callLaw) {p : Party} {r : PartyRec}
    (hr : r.handover = (s.party p).handover) (ho : r.owner = (s.party p).owner) : s.present r := by
  intro k g1 g2
  rw [hr] at g1
  rw [ho] at g2
  exact h.2.1 p (by simp) k g1 g2

/-- A change of one party's record alone, in the same state. -/
theorem State.callLawBut.record {s t : State} {p : Party} {ps : List Party} (h : s.callLawBut (p :: ps))
    (ho : s.otherParties t p) (ha : s.staysPresent t) (hq : t.stud = s.stud) (he : (t.party p).state = (s.party p).state)
    (hl : (t.party p).lawful) (hh : s.present (t.party p)) : t.callLawBut ps := by
  have e : ∀ x, t.queue x = s.queue x := fun x => by cases x <;> simp [State.queue, hq]
  refine h.one ho ha (fun x q hx _ => e x ▸ hx) (fun x hx => ?_) hl hh
  rw [he]
  exact h.2.2 x p (e x ▸ hx)

theorem State.callLaw.record {s t : State} {p : Party} (h : s.callLaw) (ho : s.otherParties t p) (ha : s.staysPresent t)
    (hq : t.stud = s.stud) (he : (t.party p).state = (s.party p).state) (hl : (t.party p).lawful)
    (hh : s.present (t.party p)) : t.callLaw := (h.but [p]).record ho ha hq he hl hh

/-! ### Ready queues under the removals of R26 -/

theorem State.leave_queue (s : State) (p : Party) (into : PartyState) (x : Studio) :
    (s.leave p into).queue x
      = if (s.party p).state = .queued ∧ into ≠ .queued then (s.queue x).filter (· != p) else s.queue x := by
  have e : ∀ t u : State, t.stud.queueA = u.stud.queueA → t.stud.queueB = u.stud.queueB → t.queue x = u.queue x := by
    intro t u h1 h2
    cases x
    · exact h1
    · exact h2
  have hs : (s.leave p into).queue x = (if (s.party p).state = .queued ∧ into ≠ .queued then s.dequeue p else s).queue x := by
    unfold State.leave
    dsimp only
    split <;> split <;> split <;> split <;> exact e _ _ rfl rfl
  rw [hs]
  split
  · cases x <;> rfl
  · rfl

/-- Once the removals for another state than QUEUED are made, the party stands in no ready queue. -/
theorem State.queuedLaw.leave {s : State} (h : s.queuedLaw) {p q : Party} {into : PartyState} {x : Studio}
    (hi : into ≠ .queued) (hq : q ∈ (s.leave p into).queue x) : q ∈ s.queue x ∧ q ≠ p := by
  rw [s.leave_queue] at hq
  by_cases hs : (s.party p).state = .queued
  · rw [if_pos ⟨hs, hi⟩] at hq
    simpa using hq
  · rw [if_neg (by tauto)] at hq
    exact ⟨hq, fun e => hs (h x p (e ▸ hq))⟩

/-- A transition to another state than QUEUED keeps the laws where the new record is lawful. -/
theorem State.callLaw.conclude {s : State} (h : s.callLaw) (p : Party) (into : PartyState) (r : PartyRec) (j : Option Link)
    (call : List Event) (tail : List Offer) (hi : into ≠ .queued) (hl : r.lawful) (hh : s.present r) :
    ((s.entered p into r).conclude s p j call tail).callLaw := by
  obtain ⟨hp, hs, -, -, -, ho, -, hr, -, -⟩ := s.conclude_moved p into r j call tail
  have e : ∀ x, ((s.entered p into r).conclude s p j call tail).queue x = (s.leave p into).queue x := fun x => by
    cases x <;> simp [State.queue]
  refine (h.but [p]).one hr ho.staysPresent (fun x q hx _ => ?_) (fun x hx => ?_)
    (by rw [hp]; exact hl) (by rw [hp]; exact hh)
  · exact (h.2.2.leave hi (e x ▸ hx)).1
  · exact absurd rfl (h.2.2.leave hi (e x ▸ hx)).2

end Sys2Proof.Machine

namespace Sys2Proof.Machine

/-! ### Lawful records -/

section
variable {r : PartyRec} (h : r.lawful)
include h

/-- Only an answered party has a pending handover (R120). -/
theorem PartyRec.lawful.noHandover (hs : r.state.answered = false) : r.handover = none := by
  obtain ⟨-, -, -, hh, -⟩ := h
  cases e : r.handover with
  | none => rfl
  | some w => simp [hs] at hh; exact absurd e (hh w)

theorem PartyRec.lawful.noHandoverOrphan (ho : r.owner = none) : r.handover = none := by
  obtain ⟨-, -, -, hh, -⟩ := h
  cases e : r.handover with
  | none => rfl
  | some w => simp [ho] at hh; exact absurd e (hh w)

theorem PartyRec.lawful.enter_vacant : (r.enter .vacant).lawful := by
  obtain ⟨-, -, -, -, -, -, -, -, -, hc, hair, hal, hre⟩ := h
  simp [PartyRec.lawful, PartyRec.enter, PartyState.signal, hc, hair, hal, hre]

theorem PartyRec.lawful.enter_fault : (r.enter .fault).lawful := by
  obtain ⟨-, -, -, -, -, -, -, -, -, hc, hair, hal, hre⟩ := h
  simp [PartyRec.lawful, PartyRec.enter, PartyState.signal, hc, hair, hal, hre]

/-- The record of a party reset (R21). -/
theorem PartyRec.lawful.reset (n : Nat) : ({ r.enter .vacant with signalOut := .clear, clear := some n } : PartyRec).lawful := by
  obtain ⟨-, -, -, -, -, -, -, -, -, hc, hair, hal, hre⟩ := h
  simp [PartyRec.lawful, PartyRec.enter, hc, hair, hal, hre]

/-- The record of a party that rings (R22, R29). -/
theorem PartyRec.lawful.alerting (n : Nat) (hh : r.handover = none) :
    ({ r.enter .alerting with alertCount := 1, realert := some n } : PartyRec).lawful := by
  obtain ⟨-, -, -, -, -, -, -, -, -, hc, hair, -, hre⟩ := h
  simp [PartyRec.lawful, PartyRec.enter, PartyState.signal, hc, hair, hre, hh]

/-- The record of an answered call (R9). -/
theorem PartyRec.lawful.answer (k : Link) (hh : r.handover = none) :
    ({ r.enter .screening with owner := some k, lock := false, callSeconds := 0, airSeconds := 0 } : PartyRec).lawful := by
  obtain ⟨-, -, -, -, -, -, -, -, -, -, -, hal, hre⟩ := h
  simp [PartyRec.lawful, PartyRec.enter, PartyState.signal, hal, hre, hh]

/-- The record of a party that parks with its owner (R10). -/
theorem PartyRec.lawful.parked (n : Nat) (ho : r.owner.isSome) :
    ({ r.enter .parked with park := some n, reminders := 0 } : PartyRec).lawful := by
  obtain ⟨-, -, -, hh, -, -, -, -, -, hc, hair, hal, -⟩ := h
  simp [PartyRec.lawful, PartyRec.enter, PartyState.signal, PartyState.answered, hc, hair, hal, ho]
  exact fun w hw => (hh w hw).2.2

/-- The record of a party in a ready queue (R11): an orphan's has no handover. -/
theorem PartyRec.lawful.queued (k : Link) : (r.queuedBy k).lawful := by
  have hn := h.noHandoverOrphan
  obtain ⟨-, -, -, hh, -, -, -, -, -, hc, hair, hal, hre⟩ := h
  rcases ho : r.owner with _ | o
  · simp [PartyRec.lawful, PartyRec.queuedBy, PartyRec.enter, PartyState.signal, hc, hair, hal, hre, ho, hn ho]
  · simp [PartyRec.lawful, PartyRec.queuedBy, PartyRec.enter, PartyState.signal, PartyState.answered, hc, hair, hal, hre, ho]
    exact fun w hw => by simpa [ho] using (hh w hw).2.2

theorem PartyRec.lawful.onAir (ho : r.owner.isSome) : (r.enter .onAir).lawful := by
  obtain ⟨-, -, -, hh, -, -, -, -, -, hc, hair, hal, hre⟩ := h
  simp [PartyRec.lawful, PartyRec.enter, PartyState.signal, PartyState.answered, hc, hair, hal, hre, ho]
  exact fun w hw => (hh w hw).2.2

/-- The record of a call being cleared (R16). -/
theorem PartyRec.lawful.clearing (n : Nat) (ho : r.owner.isSome) :
    ({ r.enter .clearing with clear := some n } : PartyRec).lawful := by
  obtain ⟨-, -, -, -, -, -, -, -, -, hc, hair, hal, hre⟩ := h
  simp [PartyRec.lawful, PartyRec.enter, PartyState.signal, hc, hair, hal, hre, ho]

/-- The record of a loop test (R18). -/
theorem PartyRec.lawful.looptest (k : Link) (src : Source) (hh : r.handover = none) :
    ({ r.enter .looptest with owner := some k, lock := false, loopSource := some src } : PartyRec).lawful := by
  obtain ⟨-, -, -, -, -, -, -, -, -, hc, hair, hal, hre⟩ := h
  simp [PartyRec.lawful, PartyRec.enter, PartyState.signal, hc, hair, hal, hre, hh]

/-- A party of an answered state other than PARKED has an owner (R2). -/
theorem PartyRec.lawful.owned (hs : r.state ∈ [.screening, .queued, .onAir, .clearing, .looptest]) : r.owner.isSome := h.2.1 hs

theorem PartyRec.lawful.named (k : Link) (n : Nat) : (r.named k n).lawful := by
  unfold PartyRec.named
  split
  · rename_i hc
    obtain ⟨h1, h2, h3⟩ := hc
    unfold PartyRec.lawful at *
    simp_all
  · exact h

/-- The record after a transfer (R131), of an answered party. -/
theorem PartyRec.lawful.passed (k : Link) (n : Nat) (hs : r.state.answered = true) :
    ({ r with
      owner := some k, lock := false, handover := none,
      park := if r.state = .parked then some n else r.park,
      reminders := if r.state = .parked then 0 else r.reminders } : PartyRec).lawful := by
  obtain ⟨-, -, -, -, hl, hp, hre, hcl, hsg, hc, hair, hal, hrm⟩ := h
  rcases hst : r.state <;> simp_all [PartyRec.lawful, PartyState.answered]

theorem PartyRec.lawful.withoutHandover : ({ r with handover := none } : PartyRec).lawful := by
  unfold PartyRec.lawful at *
  simp_all

/-- The record of an orphan (R138), no handover being pending. -/
theorem PartyRec.lawful.orphaned (hs : r.state = .parked) (hh : r.handover = none) :
    ({ r with owner := none, lock := false, park := none } : PartyRec).lawful := by
  unfold PartyRec.lawful at *
  simp_all

/-- The record with a handover that another link than the owner has asked for (R123). -/
theorem PartyRec.lawful.asked (w : Handover) {o : Link} (hs : r.state.answered = true) (ho : r.owner = some o)
    (hk : o ≠ w.requester) : ({ r with handover := some w } : PartyRec).lawful := by
  obtain ⟨h1, h2, h3, -, hrest⟩ := h
  refine ⟨h1, h2, h3, fun v hv => ?_, hrest⟩
  cases hv
  exact ⟨hs, by simp [ho], by simpa [ho] using hk⟩

/-- The lock of an owned party written. -/
theorem PartyRec.lawful.locked (ho : r.owner.isSome) (b : Bool) : ({ r with lock := b } : PartyRec).lawful := by
  obtain ⟨h1, h2, -, hrest⟩ := h
  exact ⟨h1, h2, fun _ => ho, hrest⟩

/-- The park timer of a parked party with an owner started, its reminder count written (R136, R137). -/
theorem PartyRec.lawful.parkTimer (hs : r.state = .parked) (ho : r.owner.isSome) (n m : Nat) (hm : m ≤ 15) :
    ({ r with park := some n, reminders := m } : PartyRec).lawful := by
  obtain ⟨h1, h2, h3, h4, h5, -, h7, h8, h9, h10, h11, h12, -⟩ := h
  exact ⟨h1, h2, h3, h4, h5, fun _ => ⟨hs, ho⟩, h7, h8, h9, h10, h11, h12, hm⟩

/-- The re-alert timer of a ringing party started, its alert count written (R29). -/
theorem PartyRec.lawful.realertTimer (hs : r.state = .alerting) (n m : Nat) (hm : m ≤ 255) :
    ({ r with alertCount := m, realert := some n } : PartyRec).lawful := by
  obtain ⟨h1, h2, h3, h4, h5, h6, -, h8, h9, h10, h11, -, h13⟩ := h
  exact ⟨h1, h2, h3, h4, h5, h6, fun _ => hs, h8, h9, h10, h11, hm, h13⟩

/-- The end of a clear period (R17). -/
theorem PartyRec.lawful.clearEnded (hs : r.state = .vacant) :
    ({ r with signalOut := .idle, clear := none } : PartyRec).lawful := by
  obtain ⟨h1, h2, h3, h4, h5, h6, h7, -, -, hrest⟩ := h
  refine ⟨h1, h2, h3, h4, h5, h6, h7, by simp, ?_, hrest⟩
  simp [hs, PartyState.signal]

/-- The counters at a one-second mark (R28). -/
theorem PartyRec.lawful.marked : r.marked.lawful := by
  obtain ⟨h1, h2, h3, h4, h5, h6, h7, h8, h9, h10, h11, hrest⟩ := h
  refine ⟨h1, h2, h3, h4, h5, h6, h7, h8, h9, ?_, ?_, hrest⟩
  · simp only [PartyRec.marked]
    split <;> omega
  · cases hs : r.state <;> simp only [PartyRec.marked, hs, PartyState.onCall] <;> simp <;> omega

/-- A millisecond less on each running timer. -/
theorem PartyRec.lawful.tick : r.tick.lawful := by
  obtain ⟨h1, h2, h3, h4, h5, h6, h7, h8, h9, hrest⟩ := h
  refine ⟨h1, h2, h3, fun w hw => ?_, h5, ?_, ?_, ?_, ?_, hrest⟩
  · obtain ⟨v, hv, rfl⟩ := Option.map_eq_some_iff.mp hw
    exact h4 v hv
  all_goals simpa [PartyRec.tick, countDown]

/-- A party that the failure of its port has reached (R25). -/
theorem PartyRec.lawful.failed : r.failed.lawful := by
  obtain ⟨-, -, -, -, -, -, -, -, -, hc, hair, hal, hre⟩ := h
  by_cases hs : r.state = .looptest <;>
    simp [PartyRec.lawful, PartyRec.failed, PartyState.signal, hs, hc, hair, hal, hre]

end

end Sys2Proof.Machine

namespace Sys2Proof.Machine

/-! ### The transitions keep the laws -/

section
variable {s : State} (h : s.callLaw) (p : Party)
include h

theorem State.callLaw.toVacant (call : State → State → List Event) : (s.toVacant p call).callLaw :=
  h.conclude p .vacant _ _ _ _ (by decide) (h.lawful p).enter_vacant (s.present_of_none rfl)

theorem State.callLaw.toFault (cause : Nat) : (s.toFault p cause).callLaw :=
  h.conclude p .fault _ _ _ _ (by decide) (h.lawful p).enter_fault (s.present_of_none rfl)

theorem State.callLaw.toAlerting (hs : (s.party p).state.answered = false) : (s.toAlerting p).callLaw := by
  have hn := (h.lawful p).noHandover hs
  rw [s.toAlerting_eq]
  exact h.conclude p .alerting _ _ _ _ (by decide) ((h.lawful p).alerting _ hn)
    (s.present_of_none (by simpa [PartyRec.enter] using hn))

theorem State.callLaw.answer (k : Link) (hs : (s.party p).state.answered = false) : (s.answer p k).callLaw := by
  have hn := (h.lawful p).noHandover hs
  rw [s.answer_eq]
  exact h.conclude p .screening _ _ _ _ (by decide) ((h.lawful p).answer k hn)
    (s.present_of_none (by simpa [PartyRec.enter] using hn))

theorem State.callLaw.toParked (k : Link) (ho : (s.party p).owner.isSome) : (s.toParked p k).callLaw := by
  rw [s.toParked_eq]
  exact h.conclude p .parked _ _ _ _ (by decide) ((h.lawful p).parked _ ho)
    (h.present (p := p) (by simp [PartyRec.enter]) (by simp [PartyRec.enter]))

theorem State.callLaw.release (k : Link) (ho : (s.party p).owner.isSome) : (s.release p k).callLaw := by
  rw [s.release_eq]
  exact h.conclude p .clearing _ _ _ _ (by decide) ((h.lawful p).clearing _ ho) (s.present_of_none rfl)

theorem State.callLaw.startLoop (src : Source) (k : Link) (hs : (s.party p).state.answered = false) :
    (s.startLoop p src k).callLaw := by
  have hn := (h.lawful p).noHandover hs
  rw [s.startLoop_eq]
  exact h.conclude p .looptest _ _ _ _ (by decide) ((h.lawful p).looptest k src hn)
    (s.present_of_none (by simpa [PartyRec.enter] using hn))

theorem State.callLaw.partyReset : (s.partyReset p).callLaw := by
  rw [s.partyReset_eq]
  exact h.conclude p .vacant _ _ _ _ (by decide) ((h.lawful p).reset _) (s.present_of_none rfl)

theorem State.callLaw.portFailure : (s.portFailure p).callLaw := by
  unfold State.portFailure
  split
  case h_7 => exact h.toVacant p _
  case h_8 | h_9 => exact h
  all_goals exact h.toFault p _

end

/-- A transition with a further change of STUD, which the ready queues and the slots are in. -/
theorem State.conclude_frame_stud {s t : State} (p : Party) (into : PartyState) (r : PartyRec) (j : Option Link)
    (call : List Event) (tail : List Offer) (ht : t = { s.entered p into r with stud := t.stud })
    (hs : s.sameStudios t) :
    (t.conclude s p j call tail).party p = r ∧ (t.conclude s p j call tail).stud = t.stud
      ∧ (t.conclude s p j call tail).conf = (s.leave p into).conf
      ∧ (t.conclude s p j call tail).talkList p = (if into.talkable then s.talkList p else [])
      ∧ s.partyFrame (t.conclude s p j call tail) p := by
  have hp : ∀ q, t.party q = if q = p then r else s.party q := fun q => by
    rw [ht]; exact s.entered_party p into r q
  have htl : ∀ q, t.talkList q = if q = p ∧ into.talkable = false then [] else s.talkList q := fun q => by
    rw [ht]; exact s.entered_talkList p into r q
  refine ⟨by simp [hp], by simp, by rw [State.conclude_conf, ht]; rfl, ?_, State.conclude_frame s p j call tail ?_ ?_ ?_
    (fun q hq => by simp [hp, hq]) ?_ hs⟩
  · rw [State.conclude_talkList, htl]
    cases into.talkable <;> simp
  · rw [ht]; exact s.entered_sameBase p into r
  · rw [ht]; exact s.entered_links p into r
  · rw [ht]; exact s.entered_rmix p into r
  · rw [ht]; exact s.entered_otherLists p into r

theorem State.setQueue_form (s : State) (x : Studio) (q : List Party) : s.setQueue x q = { s with stud := (s.setQueue x q).stud } := by
  cases x <;> rfl

theorem State.setQueue_queue (s : State) (x y : Studio) (q : List Party) :
    (s.setQueue x q).queue y = if y = x then q else s.queue y := by
  cases x <;> cases y <;> rfl

theorem State.setQueue_sameStudios {s t : State} (h : s.sameStudios t) (x : Studio) (q : List Party) :
    s.sameStudios (t.setQueue x q) := by
  cases x <;> exact h

theorem State.setSlot_sameStudios {s t : State} (h : s.sameStudios t) (n : AirSlot) (o : Option OnSlot) :
    s.sameStudios (t.setSlot n o) := h

/-- QUEU: the record, the collections, the list and the frame (R11, R26). -/
theorem State.toQueue_moved (s : State) (p : Party) (x : Studio) (k : Link) :
    (s.toQueue p x k).party p = (s.party p).queuedBy k
      ∧ (s.toQueue p x k).stud = ((s.leave p .queued).setQueue x ((s.leave p .queued).queue x ++ [p])).stud
      ∧ (s.toQueue p x k).conf = (s.leave p .queued).conf ∧ (s.toQueue p x k).talkList p = s.talkList p
      ∧ s.partyFrame (s.toQueue p x k) p := by
  rw [s.toQueue_eq]
  have e : ((s.entered p .queued ((s.party p).queuedBy k)).setQueue x
      ((s.entered p .queued ((s.party p).queuedBy k)).queue x ++ [p])).stud
      = ((s.leave p .queued).setQueue x ((s.leave p .queued).queue x ++ [p])).stud := by cases x <;> rfl
  rw [← e]
  exact State.conclude_frame_stud p .queued _ (some k) _ _ (State.setQueue_form _ x _)
    (State.setQueue_sameStudios (s.entered_sameStudios p _ _) x _)

/-- AIRP and NEXT: the record, the collections, the list and the frame (R12, R26). -/
theorem State.toAir_moved (s : State) (p : Party) (n : AirSlot) (k : Link) :
    (s.toAir p n k).party p = (s.party p).enter .onAir
      ∧ (s.toAir p n k).stud = ((s.leave p .onAir).setSlot n (some { party := p, gain := .half 0 })).stud
      ∧ (s.toAir p n k).conf = (s.leave p .onAir).conf ∧ (s.toAir p n k).talkList p = s.talkList p
      ∧ s.partyFrame (s.toAir p n k) p := by
  rw [s.toAir_eq]
  exact State.conclude_frame_stud p .onAir _ (some k) _ _ rfl
    (State.setSlot_sameStudios (s.entered_sameStudios p _ _) n _)

theorem State.callLaw.toQueue {s : State} (h : s.callLaw) (p : Party) (x : Studio) (k : Link) : (s.toQueue p x k).callLaw := by
  obtain ⟨hp, hs, -, -, -, ho, -, hr, -, -⟩ := s.toQueue_moved p x k
  have hq : ∀ y, (s.toQueue p x k).queue y = if y = x then s.queue x ++ [p] else s.queue y := fun y => by
    have e : (s.toQueue p x k).queue y = ((s.leave p .queued).setQueue x ((s.leave p .queued).queue x ++ [p])).queue y := by
      cases y <;> simp [State.queue, hs]
    rw [e, State.setQueue_queue, s.leave_queue, s.leave_queue]
    simp
  refine (h.but [p]).one hr ho.staysPresent (fun y q hy hne => ?_) (fun _ _ => by rw [hp]; rfl)
    (by rw [hp]; exact (h.lawful p).queued k) ?_
  · rw [hq] at hy
    split at hy
    · rename_i e
      subst e
      simpa [hne] using hy
    · exact hy
  · rw [hp]
    rcases e : (s.party p).owner with _ | o
    · exact s.present_of_none (by simpa [PartyRec.queuedBy, PartyRec.enter] using (h.lawful p).noHandoverOrphan e)
    · exact h.present (p := p) (by simp [PartyRec.queuedBy, PartyRec.enter]) (by simp [PartyRec.queuedBy, PartyRec.enter, e])

theorem State.callLaw.toAir {s : State} (h : s.callLaw) (p : Party) (n : AirSlot) (k : Link)
    (hst : (s.party p).state = .queued) : (s.toAir p n k).callLaw := by
  obtain ⟨hp, hs, -, -, -, ho, -, hr, -, -⟩ := s.toAir_moved p n k
  have e : ∀ y, (s.toAir p n k).queue y = (s.leave p .onAir).queue y := fun y => by
    cases y <;> simp [State.queue, hs, State.setSlot]
  have hown : (s.party p).owner.isSome := (h.lawful p).owned (by simp [hst])
  refine (h.but [p]).one hr ho.staysPresent (fun y q hy _ => ?_) (fun y hy => ?_) (by rw [hp]; exact (h.lawful p).onAir hown)
    (by rw [hp]; exact h.present (p := p) (by simp [PartyRec.enter]) (by simp [PartyRec.enter]))
  · exact (h.2.2.leave (by decide) (e y ▸ hy)).1
  · exact absurd rfl (h.2.2.leave (by decide) (e y ▸ hy)).2

/-! ### One record -/

theorem State.callLaw.ownerNamed {s : State} (h : s.callLaw) (k : Link) (p : Party) : (s.ownerNamed k p).callLaw := by
  have hp := s.ownerNamed_party k p
  refine h.record (p := p) (fun q hq => by rw [hp, if_neg hq]) (State.staysPresent_of_links (by simp)) (by simp)
    (s.ownerNamed_state k p p) ?_ ?_
  · rw [hp, if_pos rfl]
    exact (h.lawful p).named k _
  · rw [hp, if_pos rfl]
    exact h.present (p := p) (by simp) (by simp)

/-- A record rewritten, with events offered, where the party stays in its state. -/
theorem State.callLaw.writes {s t : State} (h : s.callLaw) {p : Party} {r : PartyRec} {os : List Offer} (hw : s.writes t p r os)
    (he : r.state = (s.party p).state) (hl : r.lawful) (hh : s.present r) : t.callLaw := by
  obtain ⟨hp, ho, hx, hf⟩ := hw
  exact h.record ho hx.staysPresent (by rw [hf]) (by rw [hp]; exact he) (by rw [hp]; exact hl) (by rw [hp]; exact hh)

/-! ### Handovers -/

/-- The end of the handover of party `p` while others still wait (R124, R129, R131). -/
theorem State.callLawBut.grantHandover {s : State} {p : Party} {ps : List Party} (h : s.callLawBut (p :: ps))
    (outcome cause : Nat) : (s.grantHandover p outcome cause).callLawBut ps := by
  have hlaw := h.1 p
  unfold State.grantHandover
  rcases e : (s.party p).handover with _ | w
  · exact h.record (fun _ _ => rfl) (fun _ hk => hk) rfl rfl hlaw (s.present_of_none e)
  · dsimp only
    have hst : (s.party p).state.answered = true := (hlaw.2.2.2.1 w e).1
    split
    · obtain ⟨hp, -, ho, hx, hf, -, -⟩ := s.passTo_passes p w.requester cause
        [resultOffer p w.requester (s.party p).owner (some w.requester) outcome] []
      exact h.record ho hx.staysPresent (by rw [hf]) (by rw [hp]) (by rw [hp]; exact hlaw.passed _ _ hst)
        (s.present_of_none (by rw [hp]))
    · obtain ⟨hp, ho, hx, hf⟩ := s.endHandover_writes p w Result.deniedRegion e
      exact h.record ho hx.staysPresent (by rw [hf]) (by rw [hp]) (by rw [hp]; exact hlaw.withoutHandover)
        (s.present_of_none (by rw [hp]))

theorem State.callLawBut.grantHandovers {s : State} {ps : List Party} (h : s.callLawBut ps) (outcome cause : Nat) :
    (ps.foldl (fun t p => t.grantHandover p outcome cause) s).callLaw := by
  induction ps generalizing s with
  | nil => exact h
  | cons p ps ih => exact ih (h.grantHandover outcome cause)

end Sys2Proof.Machine

namespace Sys2Proof.Machine

/-! ### The requests that rewrite no party record -/

theorem State.reworkActive_sameCalls (s b : State) (p : Party) (own : Option Link) : s.sameCalls (s.reworkActive b p own) :=
  State.sameCalls_of_offers (by simp) (by simp) (s.reworkActive_onlyOffers b p own)

/-- A change of one link's record that does not send the link AWAY. -/
theorem State.modLink_sameCalls (s : State) (k : Link) (f : LinkRec → LinkRec)
    (h : (s.link k).away = false → (f (s.link k)).away = false) : s.sameCalls (s.modLink k f) := by
  refine ⟨rfl, fun x => by cases x <;> rfl, fun j hj => ?_⟩
  rw [State.modLink_link]
  split
  · rename_i e
    exact h (e ▸ hj)
  · exact hj

theorem LinkRec.remask_away (l : LinkRec) (c : ClassSet) : (l.remask c).away = l.away :=
  (LinkRec.summariseAll_kept _).2.2.2.2.2.2.2

theorem LinkRec.fetch_away (l : LinkRec) (n : Nat) : (l.fetch n).away = l.away :=
  (LinkRec.summariseAll_kept _).2.2.2.2.2.2.2

theorem Answer.deliver_sameCalls (a : Answer) (k : Link) (tag code : Byte) : a.state.sameCalls (a.deliver k tag code) := by
  refine ⟨rfl, fun x => by cases x <;> rfl, fun j hj => ?_⟩
  rw [Answer.deliver_link]
  split
  · rename_i e
    exact (LinkRec.respond_kept _ _).2.2.2.2.2.2.2.trans (e ▸ hj)
  · exact hj

theorem refuse_sameCalls (s : State) (st : Status) : s.sameCalls (refuse s st).state := s.sameCalls_refl

section
variable (k : Link) (a b c d : Byte) (s : State)

theorem askStlk_sameCalls : s.sameCalls (askStlk k a b c d s).state := by
  unfold askStlk
  repeat' split
  all_goals first
    | with_reducible exact refuse_sameCalls s _
    | unfold State.setTalk
      dsimp only [accept]
      split <;> [skip; split] <;> exact State.sameCalls_of_eq (by simp) (by simp) (by simp)

theorem askSsrc_sameCalls : s.sameCalls (askSsrc k a b s).state := by
  unfold askSsrc
  dsimp only
  repeat' split
  all_goals first
    | with_reducible exact refuse_sameCalls s _
    | unfold State.setMembership
      refine ⟨by simp [accept], fun x => ?_, State.staysPresent_of_links (by simp [accept])⟩
      cases x <;> simp [accept, State.queue, State.setSource]

theorem askShld_sameCalls : s.sameCalls (askShld k a b s).state := by
  unfold askShld
  repeat' split
  all_goals first
    | with_reducible exact refuse_sameCalls s _
    | unfold State.setHold
      dsimp only [accept]
      split <;> exact State.sameCalls_of_eq (by simp) (by simp) (by simp)

theorem State.setSplit_sameCalls (n : Nat) : s.sameCalls (s.setSplit n) :=
  ⟨rfl, fun x => by cases x <;> rfl, fun _ hk => hk⟩

theorem askSplt_sameCalls : s.sameCalls (askSplt k a s).state := by
  unfold askSplt
  repeat' split
  all_goals first
    | with_reducible exact refuse_sameCalls s _
    | exact State.setSplit_sameCalls s _

theorem State.setFloor_sameCalls (x : Studio) (n : Nat) : s.sameCalls (s.setFloor x n) := by
  cases x <;> exact ⟨rfl, fun y => by cases y <;> rfl, fun _ hk => hk⟩

theorem askSflr_sameCalls : s.sameCalls (askSflr k a b s).state := by
  unfold askSflr
  repeat' split
  all_goals first
    | with_reducible exact refuse_sameCalls s _
    | exact (s.setFloor_sameCalls _ _).trans
        (sameCalls_foldl (fun (t : State) p => t.reworkActive s p none) (fun t p => t.reworkActive_sameCalls s p none) _ _)

theorem State.writePort_sameCalls (x : PortId) (e : Bool) (ss : List SlotSetting) : s.sameCalls (s.writePort x e ss) :=
  State.sameCalls_of_eq (by simp [State.writePort, State.monitorsAfter]) (by simp [State.writePort, State.monitorsAfter])
    (by simp [State.writePort, State.monitorsAfter])

theorem askSprt_sameCalls (ss : List Byte) : s.sameCalls (askSprt k a b ss s).state := by
  unfold askSprt askSprtIn
  repeat' split
  all_goals first
    | with_reducible exact refuse_sameCalls s _
    | exact s.writePort_sameCalls _ _ _

theorem askStim_sameCalls (v w x y z : Word16) : s.sameCalls (askStim k v w x y z a b s).state := by
  unfold askStim
  repeat' split
  all_goals exact State.sameCalls_of_eq rfl rfl rfl

theorem askSpat_sameCalls (e f g : Byte) : s.sameCalls (askSpat k a b c d e f g s).state := by
  unfold askSpat
  repeat' split
  all_goals exact State.sameCalls_of_eq rfl rfl rfl

theorem askSreg_sameCalls (e f g i j : Byte) : s.sameCalls (askSreg k a b c d e f g i j s).state := by
  unfold askSreg askSregIn
  repeat' split
  all_goals exact State.sameCalls_of_eq rfl rfl rfl

theorem askLreg_sameCalls : s.sameCalls (askLreg k a s).state := by
  unfold askLreg
  repeat' split
  all_goals exact State.sameCalls_of_eq rfl rfl rfl

theorem askEmsk_sameCalls : s.sameCalls (askEmsk k a s).state := by
  unfold askEmsk
  split
  · exact refuse_sameCalls s _
  · exact s.modLink_sameCalls k _ ((LinkRec.remask_away _ _).trans ·)

theorem askFtch_sameCalls : s.sameCalls (askFtch k a s).state := by
  unfold askFtch
  split
  · exact refuse_sameCalls s _
  · exact s.modLink_sameCalls k _ ((LinkRec.fetch_away _ _).trans ·)

theorem askAtcf_sameCalls : s.sameCalls (askAtcf k a b s).state := by
  unfold askAtcf
  split
  · exact s.modLink_sameCalls k _ id
  · exact refuse_sameCalls s _

end

/-! ### The requests that do -/

theorem refuse_callLaw {s : State} (h : s.callLaw) (st : Status) : (refuse s st).state.callLaw := h

theorem acceptNaming_callLaw {s : State} (h : s.callLaw) (k : Link) (p : Party) (data : List Byte) :
    (acceptNaming s k p data).state.callLaw := h.ownerNamed k p

/-- A change that keeps records, queues and presence, by a request that names a party. -/
theorem State.sameCalls.acceptNaming {s t : State} (g : s.sameCalls t) (h : s.callLaw) (k : Link) (p : Party) (data : List Byte) :
    (acceptNaming t k p data).state.callLaw := acceptNaming_callLaw (g.callLaw h) k p data

theorem State.isSome_of_owns {s : State} {k : Link} {p : Party} (h : ¬ (!s.owns k p) = true) : (s.party p).owner.isSome := by
  have e : (s.party p).owner = some k := by simpa [State.owns] using h
  simp [e]

theorem State.mem_queue_of_queueOf {s : State} {p : Party} {x : Studio} (h : s.queueOf p = some x) : p ∈ s.queue x := by
  unfold State.queueOf at h
  split at h
  · rename_i hm
    cases h
    simpa [State.queue] using hm
  · split at h
    · rename_i hm
      cases h
      simpa [State.queue] using hm
    · cases h

theorem mem_moveIn {q : List Party} {p r : Party} {n : Nat} (h : r ∈ moveIn q p n) (hr : r ≠ p) : r ∈ q := by
  unfold moveIn at h
  rcases List.mem_append.mp h with h | h
  · exact (List.mem_filter.mp (List.mem_of_mem_take h)).1
  · rcases List.mem_cons.mp h with h | h
    · exact absurd h hr
    · exact (List.mem_filter.mp (List.mem_of_mem_drop h)).1

theorem State.callLaw.moveQueued {s : State} (h : s.callLaw) (k : Link) {p : Party} {x : Studio} (n : Nat)
    (hp : s.queueOf p = some x) : (s.moveQueued p x n k).callLaw := by
  unfold State.moveQueued
  dsimp only
  split
  · exact h
  · refine ((State.sameCalls_of_offers (by simp) (by simp) (State.offerAll_onlyOffers _ _)).callLaw ?_ :
      (State.offerAll (s.setQueue x (moveIn (s.queue x) p n)) _).callLaw)
    have e : ∀ q, (s.setQueue x (moveIn (s.queue x) p n)).party q = s.party q := fun q => by simp [State.party]
    refine (h.but [p]).one (fun q _ => e q) (State.staysPresent_of_links (by simp)) (fun y q hy hq => ?_) (fun y _ => ?_)
      (by rw [e]; exact h.lawful p) (by rw [e]; exact h.present rfl rfl)
    · rw [State.setQueue_queue] at hy
      split at hy
      · rename_i hx
        exact hx ▸ mem_moveIn hy hq
      · exact hy
    · rw [e]
      exact h.2.2 x p (State.mem_queue_of_queueOf hp)

section
variable (k : Link) (a b c d : Byte) {s : State} (h : s.callLaw)
include h

theorem askAnsr_callLaw : (askAnsr k a s).state.callLaw := by
  unfold askAnsr
  repeat' split
  all_goals first
    | with_reducible exact refuse_callLaw h _
    | rename_i hs
      exact acceptNaming_callLaw (h.answer _ _ (by rw [hs]; rfl)) _ _ _

theorem askPark_callLaw : (askPark k a s).state.callLaw := by
  unfold askPark
  repeat' split
  all_goals first
    | with_reducible exact refuse_callLaw h _
    | exact acceptNaming_callLaw (h.toParked _ _ (State.isSome_of_owns ‹_›)) _ _ _

theorem askQueu_callLaw : (askQueu k a b s).state.callLaw := by
  unfold askQueu
  repeat' split
  all_goals first
    | with_reducible exact refuse_callLaw h _
    | exact (h.ownerNamed k _).toQueue _ _ _

theorem askAirp_callLaw : (askAirp k a s).state.callLaw := by
  unfold askAirp
  repeat' split
  all_goals first
    | with_reducible exact refuse_callLaw h _
    | exact acceptNaming_callLaw (h.toAir _ _ _ (not_not.mp ‹_›)) _ _ _

theorem askNext_callLaw : (askNext k a s).state.callLaw := by
  unfold askNext
  repeat' split
  all_goals first
    | with_reducible exact refuse_callLaw h _
    | rename_i hq _ _ _
      exact h.toAir _ _ _ (h.2.2 _ _ (by rw [hq]; exact List.mem_cons_self))

theorem askOffa_callLaw : (askOffa k a s).state.callLaw := by
  unfold askOffa
  repeat' split
  all_goals first
    | with_reducible exact refuse_callLaw h _
    | exact acceptNaming_callLaw (h.toParked _ _ ((h.lawful _).owned (by simp [not_not.mp ‹_›]))) _ _ _

theorem askUnqu_callLaw : (askUnqu k a s).state.callLaw := by
  unfold askUnqu
  repeat' split
  all_goals first
    | with_reducible exact refuse_callLaw h _
    | exact acceptNaming_callLaw (h.toParked _ _ ((h.lawful _).owned (by simp [not_not.mp ‹_›]))) _ _ _

theorem askMove_callLaw : (askMove k a b s).state.callLaw := by
  unfold askMove
  repeat' split
  all_goals first
    | with_reducible exact refuse_callLaw h _
    | exact acceptNaming_callLaw (h.moveQueued _ _ ‹_›) _ _ _

theorem askRlse_callLaw : (askRlse k a s).state.callLaw := by
  unfold askRlse
  repeat' split
  all_goals first
    | with_reducible exact refuse_callLaw h _
    | refine (h.ownerNamed k _).release _ _ ?_
      rw [State.ownerNamed_party, if_pos rfl, PartyRec.named_owner]
      exact State.isSome_of_owns ‹_›

theorem askLoop_callLaw : (askLoop k a b s).state.callLaw := by
  unfold askLoop
  repeat' split
  all_goals first
    | with_reducible exact refuse_callLaw h _
    | refine acceptNaming_callLaw (h.startLoop _ _ _ ?_) _ _ _
      rename_i hv
      simp only [Bool.not_eq_true', Bool.not_eq_false, Bool.and_eq_true, beq_iff_eq] at hv
      rw [hv.1]
      rfl

theorem askLend_callLaw : (askLend k a s).state.callLaw := by
  unfold askLend
  repeat' split
  all_goals first
    | with_reducible exact refuse_callLaw h _
    | exact acceptNaming_callLaw (h.toVacant _ _) _ _ _

theorem askPrst_callLaw : (askPrst k a s).state.callLaw := by
  unfold askPrst
  repeat' split
  all_goals first
    | with_reducible exact refuse_callLaw h _
    | exact (h.ownerNamed k _).partyReset _

theorem State.callLaw.setKind (p : Party) (kd : Kind) : (s.setKind p kd).callLaw := by
  have e : ∀ q, (s.setKind p kd).party q = if q = p then { s.party p with kind := kd } else s.party q := fun q =>
    row_put _ _ _ _
  refine h.record (p := p) (fun q hq => by rw [e, if_neg hq]) (State.staysPresent_of_links rfl) rfl ?_ ?_ ?_
  all_goals rw [e, if_pos rfl]
  · exact h.lawful p
  · exact h.present (p := p) rfl rfl

theorem askSknd_callLaw : (askSknd k a b s).state.callLaw := by
  unfold askSknd
  repeat' split
  all_goals first
    | with_reducible exact refuse_callLaw h _
    | exact acceptNaming_callLaw (h.setKind _ _) _ _ _

theorem askJoin_callLaw : (askJoin k a b s).state.callLaw := by
  unfold askJoin
  repeat' split
  all_goals first
    | with_reducible exact refuse_callLaw h _
    | with_reducible exact acceptNaming_callLaw h _ _ _
    | exact State.sameCalls.acceptNaming (State.sameCalls_of_eq (by simp [State.moveToGroup]) (by simp [State.moveToGroup])
        (by simp [State.moveToGroup])) h _ _ _

theorem askLeav_callLaw : (askLeav k a s).state.callLaw := by
  unfold askLeav
  repeat' split
  all_goals first
    | with_reducible exact refuse_callLaw h _
    | exact State.sameCalls.acceptNaming (State.sameCalls_of_eq (by simp [State.leaveGroup]) (by simp [State.leaveGroup])
        (by simp [State.leaveGroup])) h _ _ _

omit h in
theorem State.select_sameCalls (x : Option Selection) : s.sameCalls (s.select k x) :=
  State.sameCalls_of_eq (by simp) (by simp) (by simp)

theorem askListen_callLaw (sel : Party → Selection) : (askListen k a sel s).state.callLaw := by
  unfold askListen
  repeat' split
  all_goals first
    | with_reducible exact refuse_callLaw h _
    | exact (State.select_sameCalls k _).acceptNaming h _ _ _

theorem askLstn_callLaw : (askLstn k a b s).state.callLaw := by
  unfold askLstn
  repeat' split
  all_goals first
    | with_reducible exact refuse_callLaw h _
    | with_reducible exact askListen_callLaw _ _ h _
    | exact (State.select_sameCalls k _).callLaw h

omit h in
theorem State.gainSource_sameCalls (x : Studio) (n : Source) (g : Gain) : s.sameCalls (s.gainSource x n g) := by
  unfold State.gainSource
  split
  · exact s.sameCalls_refl
  · refine ⟨by simp, fun y => ?_, State.staysPresent_of_links (by simp)⟩
    cases y <;> simp [State.queue, State.setSource]

omit h in
theorem State.gainParty_sameCalls (x : Studio) (p : Party) (n : AirSlot) (g : Gain) : s.sameCalls (s.gainParty x p n g) := by
  unfold State.gainParty
  split
  · exact s.sameCalls_refl
  · refine ⟨by simp, fun y => ?_, State.staysPresent_of_links (by simp)⟩
    cases y <;> simp [State.queue, State.setSlot]

theorem askGain_callLaw : (askGain k a b c d s).state.callLaw := by
  unfold askGain askGainSource askGainParty
  repeat' split
  all_goals first
    | with_reducible exact refuse_callLaw h _
    | exact (State.gainSource_sameCalls _ _ _).callLaw h
    | exact (State.gainParty_sameCalls _ _ _ _).acceptNaming h _ _ _

theorem State.callLaw.makeEntry (e : TalkEntry) (p : Party) : (s.makeEntry e p).callLaw := by
  refine State.callLaw.ownerNamed (State.sameCalls.callLaw ?_ h) _ _
  exact State.sameCalls.trans (State.sameCalls_of_eq rfl rfl rfl) (State.reworkActive_sameCalls _ _ _ _)

theorem callLaw_foldl {α : Type} (f : State → α → State) (hf : ∀ (s : State) (a : α), s.callLaw → (f s a).callLaw)
    (l : List α) : (l.foldl f s).callLaw := by
  induction l generalizing s with
  | nil => exact h
  | cons a l ih => exact ih (hf s a h)

theorem State.callLaw.talkTo (e : TalkEntry) (ps : List Party) : (s.talkTo e ps).callLaw := by
  have h0 : ({ s with tarb := { s.tarb with arrivals := s.tarb.arrivals + 1 } } : State).callLaw :=
    (State.sameCalls_of_eq rfl rfl rfl).callLaw h
  exact callLaw_foldl h0 _ (fun t p ht => ht.makeEntry e p) ps

theorem askTalk_callLaw : (askTalk k a b c d s).state.callLaw := by
  unfold askTalk
  dsimp only
  repeat' split
  all_goals first
    | with_reducible exact refuse_callLaw h _
    | exact h.talkTo _ _

omit h in
theorem State.dropEntry_sameCalls (p : Party) : s.sameCalls (s.dropEntry k p) :=
  State.sameCalls.trans (State.sameCalls_of_eq rfl rfl rfl) (State.reworkActive_sameCalls _ _ _ _)

theorem askTend_callLaw : (askTend k a b s).state.callLaw := by
  unfold askTend
  split
  · exact callLaw_foldl h _ (fun t p ht => ((State.dropEntry_sameCalls k p).callLaw ht).ownerNamed k p) _
  · exact refuse_callLaw h _

/-- A transfer of an answered party (R131). -/
theorem State.callLaw.passTo {p : Party} (hs : (s.party p).state.answered = true) (r : Link) (cause : Nat)
    (first last : List Offer) : (s.passTo p r cause first last).callLaw := by
  obtain ⟨hp, -, ho, hx, hf, -, -⟩ := s.passTo_passes p r cause first last
  exact h.record ho hx.staysPresent (by rw [hf]) (by rw [hp]) (by rw [hp]; exact (h.lawful p).passed _ _ hs)
    (s.present_of_none (by rw [hp]))

theorem State.callLaw.grantHandover (p : Party) (outcome cause : Nat) : (s.grantHandover p outcome cause).callLaw :=
  (h.but [p]).grantHandover outcome cause

theorem State.callLaw.endHandover (p : Party) (outcome : Nat) : (s.endHandover p outcome).callLaw := by
  rcases e : (s.party p).handover with _ | w
  · simpa only [State.endHandover, e] using h
  · exact h.writes (s.endHandover_writes p w outcome e) rfl (h.lawful p).withoutHandover (s.present_of_none rfl)

theorem State.callLaw.cancelHandover (p : Party) : (s.cancelHandover p).callLaw := by
  unfold State.cancelHandover
  split
  · exact h.writes (s.writes_offerAll p _ _) rfl (h.lawful p).withoutHandover (s.present_of_none rfl)
  · exact h

/-- A handover asked of an owner who is present (R123). -/
theorem State.callLaw.askOwner {p : Party} {o : Link} (k : Link) (hs : (s.party p).state.answered = true)
    (ho : (s.party p).owner = some o) (hk : o ≠ k) (ha : (s.link o).away = false) : (s.askOwner p k).callLaw := by
  refine h.writes (s.writes_offerAll p _ _) rfl ?_ ?_
  · exact (h.lawful p).asked _ hs ho hk
  · intro j _ hj
    cases ho.symm.trans hj
    exact ha

theorem askTake_callLaw : (askTake k a s).state.callLaw := by
  unfold askTake takeAnswered takeNow takeOver
  repeat' split
  all_goals first
    | with_reducible exact refuse_callLaw h _
    | with_reducible exact acceptNaming_callLaw h _ _ _
    | exact h.passTo (by simpa using ‹¬ (!PartyState.answered _) = true›) _ _ _ _
    | exact h.askOwner k (by simpa using ‹¬ (!PartyState.answered _) = true›) ‹_› ‹_› (by simpa using ‹¬ LinkRec.away _ = true›)

theorem askGive_callLaw : (askGive k a b s).state.callLaw := by
  unfold askGive
  repeat' split
  all_goals first
    | with_reducible exact refuse_callLaw h _
    | exact acceptNaming_callLaw (h.grantHandover _ _ _) _ _ _

theorem askKeep_callLaw : (askKeep k a b s).state.callLaw := by
  unfold askKeep
  repeat' split
  all_goals first
    | with_reducible exact refuse_callLaw h _
    | exact acceptNaming_callLaw (h.endHandover _ _) _ _ _

theorem askTcan_callLaw : (askTcan k a s).state.callLaw := by
  unfold askTcan
  repeat' split
  all_goals first
    | with_reducible exact refuse_callLaw h _
    | exact h.endHandover _ _

/-- The lock of an owned party written (R132, R133). -/
theorem State.callLaw.setLock {p : Party} (ho : (s.party p).owner.isSome) (b : Bool) :
    (s.modParty p fun r => { r with lock := b }).callLaw :=
  h.writes (s.writes_offerAll p { s.party p with lock := b } []) rfl ((h.lawful p).locked ho b) (h.present (p := p) rfl rfl)

omit h in
theorem State.endHandover_owner (p : Party) (outcome : Nat) :
    ((s.endHandover p outcome).party p).owner = (s.party p).owner := by
  rcases e : (s.party p).handover with _ | w
  · simp only [State.endHandover, e]
  · rw [(s.endHandover_writes p w outcome e).1]

theorem askLock_callLaw : (askLock k a s).state.callLaw := by
  unfold askLock
  repeat' split
  all_goals first
    | with_reducible exact refuse_callLaw h _
    | refine acceptNaming_callLaw ((h.endHandover _ _).setLock ?_ true) _ _ _
      rw [State.endHandover_owner]
      exact State.isSome_of_owns ‹_›

theorem askUlck_callLaw : (askUlck k a s).state.callLaw := by
  unfold askUlck
  repeat' split
  all_goals first
    | with_reducible exact refuse_callLaw h _
    | exact acceptNaming_callLaw (h.setLock (State.isSome_of_owns ‹_›) false) _ _ _

/-- The owner of the parties `askedOf` names goes AWAY: only their handovers may wait for it (R135). -/
theorem State.callLaw.setAway : (s.setAway k true).callLawBut (s.askedOf k) := by
  refine ⟨h.1, fun p hp j h1 h2 => ?_, fun x p hp => h.2.2 x p (by cases x <;> exact hp)⟩
  have hj : j ≠ k := by
    rintro rfl
    refine hp (List.mem_filter.mpr ⟨mem_upTo p, ?_⟩)
    have h2 : (s.party p).owner = some j := h2
    have h1 : (s.party p).handover.isSome := h1
    simp [State.owns, h1, h2]
  unfold State.setAway
  rw [State.setLink_link, if_neg hj]
  exact h.2.1 p (by simp) j h1 h2

theorem askAway_callLaw : (askAway k a s).state.callLaw := by
  unfold askAway
  split
  · exact refuse_callLaw h _
  · exact (s.modLink_sameCalls k (fun l => { l with away := false }) (fun _ => rfl)).callLaw h
  · exact (h.setAway k).grantHandovers _ _

theorem askLrst_callLaw : (askLrst k s).state.callLaw := by
  have h1 := (s.modLink_sameCalls k LinkRec.cleared id).callLaw h
  have h2 := (sameCalls_foldl (fun t p => t.dropEntry k p) (fun t p => t.dropEntry_sameCalls k p)
    (allParties.filter ((s.modLink k LinkRec.cleared).hasEntry k)) _).callLaw h1
  have h3 : (((s.modLink k LinkRec.cleared).dropEntries k).cancelHandovers k).callLaw :=
    callLaw_foldl h2 _ (fun t p ht => ht.cancelHandover p) _
  exact (State.sameCalls.trans (State.select_sameCalls k none) (State.modLink_sameCalls _ k _ fun _ => rfl)).callLaw h3

theorem askRdpy_callLaw : (askRdpy k a s).state.callLaw := by
  unfold askRdpy
  repeat' split
  all_goals first
    | with_reducible exact refuse_callLaw h _
    | with_reducible exact acceptNaming_callLaw h _ _ _

theorem askRdrt_callLaw : (askRdrt k a b s).state.callLaw := by
  unfold askRdrt
  repeat' split
  all_goals first
    | with_reducible exact refuse_callLaw h _
    | with_reducible exact acceptNaming_callLaw h _ _ _

end

end Sys2Proof.Machine

namespace Sys2Proof.Machine

/-! ### Every request, as a command and as a frame -/

/-- A request whose taking keeps the laws of the calls. -/
def keepsCalls (ask : State → Answer) : Prop := ∀ s : State, s.callLaw → (ask s).state.callLaw

theorem keepsCalls_of_same {ask : State → Answer} (h : ∀ s : State, s.sameCalls (ask s).state) : keepsCalls ask :=
  fun s hs => (h s).callLaw hs

theorem keepsCalls_of_state {ask : State → Answer} (h : ∀ s, (ask s).state = s) : keepsCalls ask :=
  fun s hs => by rw [h s]; exact hs

/-- Each request command keeps the laws of the calls. -/
theorem asked_keepsCalls {c : Instr} {k : Link} {tag code : Byte} {ask : State → Answer}
    (h : asked c = some (k, tag, code, ask)) : keepsCalls ask := by
  cases c <;> cases h
  case unknownRequest => exact fun s hs => refuse_callLaw hs _
  case ansr => exact fun s => askAnsr_callLaw _ _
  case park => exact fun s => askPark_callLaw _ _
  case queu => exact fun s => askQueu_callLaw _ _ _
  case airp => exact fun s => askAirp_callLaw _ _
  case next => exact fun s => askNext_callLaw _ _
  case offa => exact fun s => askOffa_callLaw _ _
  case unqu => exact fun s => askUnqu_callLaw _ _
  case move => exact fun s => askMove_callLaw _ _ _
  case rlse => exact fun s => askRlse_callLaw _ _
  case loop => exact fun s => askLoop_callLaw _ _ _
  case lend => exact fun s => askLend_callLaw _ _
  case prst => exact fun s => askPrst_callLaw _ _
  case sknd => exact fun s => askSknd_callLaw _ _ _
  case join => exact fun s => askJoin_callLaw _ _ _
  case leav => exact fun s => askLeav_callLaw _ _
  case lstn => exact fun s => askLstn_callLaw _ _ _
  case gain => exact fun s => askGain_callLaw _ _ _ _ _
  case talk => exact fun s => askTalk_callLaw _ _ _ _ _
  case tend => exact fun s => askTend_callLaw _ _ _
  case stlk => exact keepsCalls_of_same (askStlk_sameCalls _ _ _ _ _)
  case take => exact fun s => askTake_callLaw _ _
  case give => exact fun s => askGive_callLaw _ _ _
  case keep => exact fun s => askKeep_callLaw _ _ _
  case tcan => exact fun s => askTcan_callLaw _ _
  case lock => exact fun s => askLock_callLaw _ _
  case ulck => exact fun s => askUlck_callLaw _ _
  case away => exact fun s => askAway_callLaw _ _
  case sreg => exact keepsCalls_of_same fun s => askSreg_sameCalls _ _ _ _ _ s _ _ _ _ _
  case lreg => exact keepsCalls_of_same (askLreg_sameCalls _ _)
  case rdrg => exact keepsCalls_of_state (askRdrg_sameBase _ _ _)
  case sprt => exact keepsCalls_of_same fun s => askSprt_sameCalls _ _ _ s _
  case ssrc => exact keepsCalls_of_same (askSsrc_sameCalls _ _ _)
  case shld => exact keepsCalls_of_same (askShld_sameCalls _ _ _)
  case splt => exact keepsCalls_of_same (askSplt_sameCalls _ _)
  case sflr => exact keepsCalls_of_same (askSflr_sameCalls _ _ _)
  case stim => exact keepsCalls_of_same fun s => askStim_sameCalls _ _ _ s _ _ _ _ _
  case spat => exact keepsCalls_of_same fun s => askSpat_sameCalls _ _ _ _ _ s _ _ _
  case emsk => exact keepsCalls_of_same (askEmsk_sameCalls _ _)
  case ftch => exact keepsCalls_of_same (askFtch_sameCalls _ _)
  case atcf => exact keepsCalls_of_same (askAtcf_sameCalls _ _ _)
  case lrst => exact fun s => askLrst_callLaw _
  case idnt => exact keepsCalls_of_state fun _ => rfl
  case rdpy => exact fun s => askRdpy_callLaw _ _
  case rdqu => exact keepsCalls_of_state (askRdqu_same _ _)
  case rdrt => exact fun s => askRdrt_callLaw _ _ _
  case rdpt => exact keepsCalls_of_state fun _ => rfl

/-! ### A request frame is a request command -/

/-- What a code names: on every payload it is refused, or it is the taking of a request command of that link, tag and code. -/
def reachesAsked (k : Link) (tag code : Byte) (f : List Byte → State → Answer) : Prop :=
  ∀ bs s, (∃ st, f bs s = refuse s st) ∨ ∃ c ask, asked c = some (k, tag, code, ask) ∧ f bs s = ask s

section
variable {k : Link} {tag code : Byte}

theorem noArgs_reachesAsked {f : State → Answer} (c : Instr) (h : asked c = some (k, tag, code, f)) :
    reachesAsked k tag code (noArgs f) := by
  intro bs s
  unfold noArgs
  split
  · exact .inr ⟨c, f, h, rfl⟩
  · exact .inl ⟨_, rfl⟩

theorem oneArg_reachesAsked {f : Byte → State → Answer} (c : Byte → Instr) (h : ∀ a, asked (c a) = some (k, tag, code, f a)) :
    reachesAsked k tag code (oneArg f) := by
  intro bs s
  unfold oneArg
  split
  · exact .inr ⟨_, _, h _, rfl⟩
  · exact .inl ⟨_, rfl⟩

theorem twoArgs_reachesAsked {f : Byte → Byte → State → Answer} (c : Byte → Byte → Instr)
    (h : ∀ a b, asked (c a b) = some (k, tag, code, f a b)) : reachesAsked k tag code (twoArgs f) := by
  intro bs s
  unfold twoArgs
  split
  · exact .inr ⟨_, _, h _ _, rfl⟩
  · exact .inl ⟨_, rfl⟩

theorem fourArgs_reachesAsked {f : Byte → Byte → Byte → Byte → State → Answer} (c : Byte → Byte → Byte → Byte → Instr)
    (h : ∀ a b d e, asked (c a b d e) = some (k, tag, code, f a b d e)) : reachesAsked k tag code (fourArgs f) := by
  intro bs s
  unfold fourArgs
  split
  · exact .inr ⟨_, _, h _ _ _ _, rfl⟩
  · exact .inl ⟨_, rfl⟩

theorem sregArgs_reachesAsked : reachesAsked k tag 0x28 (sregArgs k) := by
  intro bs s
  unfold sregArgs
  split
  · exact .inr ⟨.sreg k tag _ _ _ _ _ _ _ _ _, _, rfl, rfl⟩
  · exact .inl ⟨_, rfl⟩

theorem sprtArgs_reachesAsked : reachesAsked k tag 0x30 (sprtArgs k) := by
  intro bs s
  unfold sprtArgs
  split
  · exact .inr ⟨.sprt k tag _ _ _, _, rfl, rfl⟩
  · exact .inl ⟨_, rfl⟩

theorem stimArgs_reachesAsked : reachesAsked k tag 0x35 (stimArgs k) := by
  intro bs s
  unfold stimArgs
  split
  · exact .inr ⟨.stim k tag _ _ _ _ _ _ _, _, rfl, rfl⟩
  · exact .inl ⟨_, rfl⟩

theorem spatArgs_reachesAsked : reachesAsked k tag 0x36 (spatArgs k) := by
  intro bs s
  unfold spatArgs
  split
  · exact .inr ⟨.spat k tag _ _ _ _ _ _ _, _, rfl, rfl⟩
  · exact .inl ⟨_, rfl⟩

/-- Whatever a table of codes names is a request command's taking. -/
def allReachAsked (k : Link) (tag code : Byte) (o : Option (List Byte → State → Answer)) : Prop :=
  ∀ f, o = some f → reachesAsked k tag code f

theorem allReachAsked_none : allReachAsked k tag code none := fun _ h => nomatch h

theorem allReachAsked_if {x : Byte} {g : List Byte → State → Answer} {rest : Option (List Byte → State → Answer)}
    (h : reachesAsked k tag x g) (hr : allReachAsked k tag code rest) :
    allReachAsked k tag code (if code = x then some g else rest) := by
  intro f hf
  split at hf
  · rename_i e
    cases hf
    exact e ▸ h
  · exact hr f hf

theorem callRequest_reachesAsked : allReachAsked k tag code (callRequest k code) := by
  unfold callRequest
  refine allReachAsked_if (oneArg_reachesAsked (.ansr k tag) fun _ => rfl) ?_
  refine allReachAsked_if (oneArg_reachesAsked (.park k tag) fun _ => rfl) ?_
  refine allReachAsked_if (twoArgs_reachesAsked (.queu k tag) fun _ _ => rfl) ?_
  refine allReachAsked_if (oneArg_reachesAsked (.airp k tag) fun _ => rfl) ?_
  refine allReachAsked_if (oneArg_reachesAsked (.next k tag) fun _ => rfl) ?_
  refine allReachAsked_if (oneArg_reachesAsked (.offa k tag) fun _ => rfl) ?_
  refine allReachAsked_if (oneArg_reachesAsked (.unqu k tag) fun _ => rfl) ?_
  refine allReachAsked_if (twoArgs_reachesAsked (.move k tag) fun _ _ => rfl) ?_
  refine allReachAsked_if (oneArg_reachesAsked (.rlse k tag) fun _ => rfl) ?_
  refine allReachAsked_if (twoArgs_reachesAsked (.loop k tag) fun _ _ => rfl) ?_
  refine allReachAsked_if (oneArg_reachesAsked (.lend k tag) fun _ => rfl) ?_
  refine allReachAsked_if (oneArg_reachesAsked (.prst k tag) fun _ => rfl) ?_
  refine allReachAsked_if (twoArgs_reachesAsked (.sknd k tag) fun _ _ => rfl) ?_
  refine allReachAsked_if (twoArgs_reachesAsked (.join k tag) fun _ _ => rfl) ?_
  refine allReachAsked_if (oneArg_reachesAsked (.leav k tag) fun _ => rfl) ?_
  refine allReachAsked_if (twoArgs_reachesAsked (.lstn k tag) fun _ _ => rfl) ?_
  refine allReachAsked_if (fourArgs_reachesAsked (.gain k tag) fun _ _ _ _ => rfl) ?_
  exact allReachAsked_none

theorem ownerRequest_reachesAsked : allReachAsked k tag code (ownerRequest k code) := by
  unfold ownerRequest
  refine allReachAsked_if (fourArgs_reachesAsked (.talk k tag) fun _ _ _ _ => rfl) ?_
  refine allReachAsked_if (twoArgs_reachesAsked (.tend k tag) fun _ _ => rfl) ?_
  refine allReachAsked_if (fourArgs_reachesAsked (.stlk k tag) fun _ _ _ _ => rfl) ?_
  refine allReachAsked_if (oneArg_reachesAsked (.take k tag) fun _ => rfl) ?_
  refine allReachAsked_if (twoArgs_reachesAsked (.give k tag) fun _ _ => rfl) ?_
  refine allReachAsked_if (twoArgs_reachesAsked (.keep k tag) fun _ _ => rfl) ?_
  refine allReachAsked_if (oneArg_reachesAsked (.tcan k tag) fun _ => rfl) ?_
  refine allReachAsked_if (oneArg_reachesAsked (.lock k tag) fun _ => rfl) ?_
  refine allReachAsked_if (oneArg_reachesAsked (.ulck k tag) fun _ => rfl) ?_
  refine allReachAsked_if (oneArg_reachesAsked (.away k tag) fun _ => rfl) ?_
  refine allReachAsked_if sregArgs_reachesAsked ?_
  refine allReachAsked_if (oneArg_reachesAsked (.lreg k tag) fun _ => rfl) ?_
  refine allReachAsked_if (twoArgs_reachesAsked (.rdrg k tag) fun _ _ => rfl) ?_
  exact allReachAsked_none

theorem linkRequest_reachesAsked : allReachAsked k tag code (linkRequest k code) := by
  unfold linkRequest
  refine allReachAsked_if sprtArgs_reachesAsked ?_
  refine allReachAsked_if (twoArgs_reachesAsked (.ssrc k tag) fun _ _ => rfl) ?_
  refine allReachAsked_if (twoArgs_reachesAsked (.shld k tag) fun _ _ => rfl) ?_
  refine allReachAsked_if (oneArg_reachesAsked (.splt k tag) fun _ => rfl) ?_
  refine allReachAsked_if (twoArgs_reachesAsked (.sflr k tag) fun _ _ => rfl) ?_
  refine allReachAsked_if stimArgs_reachesAsked ?_
  refine allReachAsked_if spatArgs_reachesAsked ?_
  refine allReachAsked_if (oneArg_reachesAsked (.emsk k tag) fun _ => rfl) ?_
  refine allReachAsked_if (oneArg_reachesAsked (.ftch k tag) fun _ => rfl) ?_
  refine allReachAsked_if (twoArgs_reachesAsked (.atcf k tag) fun _ _ => rfl) ?_
  refine allReachAsked_if (noArgs_reachesAsked (.lrst k tag) rfl) ?_
  refine allReachAsked_if (noArgs_reachesAsked (.idnt k tag) rfl) ?_
  refine allReachAsked_if (oneArg_reachesAsked (.rdpy k tag) fun _ => rfl) ?_
  refine allReachAsked_if (oneArg_reachesAsked (.rdqu k tag) fun _ => rfl) ?_
  refine allReachAsked_if (twoArgs_reachesAsked (.rdrt k tag) fun _ _ => rfl) ?_
  refine allReachAsked_if (noArgs_reachesAsked (.rdpt k tag) rfl) ?_
  exact allReachAsked_none

end

/-- A request taken from a buffer is refused or is taken as the request command that its frame spells (R170, R185). -/
theorem askRequest_cases (k : Link) (r : Request) (s : State) : (∃ st, askRequest k r s = refuse s st)
    ∨ ∃ c ask, asked c = some (k, r.tag, r.code, ask) ∧ askRequest k r s = ask s := by
  unfold askRequest
  split
  · rename_i f hf
    have hr : reachesAsked k r.tag r.code f := by
      rcases Option.or_eq_some_iff.mp hf with h | ⟨-, h⟩
      · exact callRequest_reachesAsked f h
      · rcases Option.or_eq_some_iff.mp h with h | ⟨-, h⟩
        · exact ownerRequest_reachesAsked f h
        · exact linkRequest_reachesAsked f h
    exact hr _ s
  · exact .inl ⟨_, rfl⟩

theorem askRequest_keepsCalls (k : Link) (r : Request) : keepsCalls (askRequest k r) := by
  intro s hs
  rcases askRequest_cases k r s with ⟨st, e⟩ | ⟨c, ask, hc, e⟩
  · rw [e]
    exact refuse_callLaw hs st
  · rw [e]
    exact asked_keepsCalls hc s hs

/-- A request command runs its taking and delivers the answer (R171, R172). -/
theorem exec_asked {c : Instr} {k : Link} {tag code : Byte} {ask : State → Answer} (h : asked c = some (k, tag, code, ask))
    (s : State) : exec c s = .next ((ask s).deliver k tag code) := by
  cases c <;> cases h <;> rfl

end Sys2Proof.Machine

namespace Sys2Proof.Machine

/-! ### The links, the ports and the timers keep the laws -/

theorem State.callLaw.deliver {a : Answer} (h : a.state.callLaw) (k : Link) (tag code : Byte) : (a.deliver k tag code).callLaw :=
  (a.deliver_sameCalls k tag code).callLaw h

theorem State.callLaw.takeRequests {s : State} (h : s.callLaw) (k : Link) (n : Nat) : (s.takeRequests k n).callLaw := by
  induction n generalizing s with
  | zero => exact h
  | succ n ih =>
    unfold State.takeRequests
    split
    · exact h
    · split
      · exact ih ((askRequest_keepsCalls k _ _ ((s.modLink_sameCalls k _ id).callLaw h)).deliver k _ _)
      · exact h

theorem LinkRec.overrun_away (l : LinkRec) (r : Response) : (l.overrun r).away = l.away := by
  unfold LinkRec.overrun
  split
  · rfl
  · split <;> rfl

theorem State.callLaw.acceptFrame {s : State} (h : s.callLaw) (k : Link) (r : Request) : (s.acceptFrame k r).callLaw := by
  unfold State.acceptFrame
  split
  · exact (askLrst_callLaw k h).deliver k _ _
  · split
    · exact ((s.modLink_sameCalls k _ id).callLaw h).takeRequests k _
    · exact (s.modLink_sameCalls k _ ((LinkRec.overrun_away _ _).trans ·)).callLaw h

section
variable (s : State) (x : PortId)

theorem State.syncFound_sameCalls : s.sameCalls (s.syncFound x) := by
  have e : ∀ r f os, s.sameCalls (((s.setPort x r).monitors x f).offerAll os) := fun r f os =>
    (State.sameCalls_of_eq (by simp) (by simp) (by simp)).trans
      (State.sameCalls_of_offers (by simp) (by simp) (State.offerAll_onlyOffers _ os))
  unfold State.syncFound
  dsimp only
  split
  · exact e _ _ _
  · exact e _ _ _
  · exact e _ _ _
  · exact s.sameCalls_refl
  · exact s.sameCalls_refl

theorem State.syncLost_sameCalls (c : LossCause) : s.sameCalls (s.syncLost x c) := by
  unfold State.syncLost
  dsimp only
  split
  · exact (State.sameCalls_of_eq (by simp) (by simp) (by simp)).trans
      (State.sameCalls_of_offers (by simp) (by simp) (State.offerAll_onlyOffers _ _))
  all_goals exact s.sameCalls_refl

theorem State.setPort_sameCalls (r : PortRec) : s.sameCalls (s.setPort x r) :=
  State.sameCalls_of_eq (by simp) (by simp) (by simp)

theorem State.misaligned_sameCalls (c : LossCause) : s.sameCalls (s.misaligned x c) := by
  unfold State.misaligned
  dsimp only
  split
  · split
    · exact s.syncLost_sameCalls x c
    · exact s.setPort_sameCalls x _
  · exact s.sameCalls_refl
  all_goals exact s.setPort_sameCalls x _

theorem State.alignedFrame_sameCalls : s.sameCalls (s.alignedFrame x) := by
  unfold State.alignedFrame
  dsimp only
  split
  · exact s.sameCalls_refl
  · exact s.setPort_sameCalls x _
  all_goals
    split
    · exact s.syncFound_sameCalls x
    · exact s.setPort_sameCalls x _

theorem State.monitorWord_sameCalls (p : Party) (w : Byte) : s.sameCalls (s.monitorWord p w) := by
  unfold State.monitorWord
  dsimp only
  split <;> exact State.sameCalls_of_eq rfl rfl rfl

theorem State.inboundFrame_sameCalls (bits : BitVec 512) : s.sameCalls (s.inboundFrame x bits) := by
  have latched : ∀ t : State, t.sameCalls (t.latch x bits).edge := fun t =>
    (t.setPort_sameCalls x _).trans (State.sameCalls_of_eq rfl rfl rfl)
  have checked : s.sameCalls (if alignmentOf bits = Config.alignmentCode then s.alignedFrame x else s.misaligned x .alignment) := by
    split
    · exact s.alignedFrame_sameCalls x
    · exact s.misaligned_sameCalls x _
  unfold State.inboundFrame
  dsimp only
  generalize (if alignmentOf bits = Config.alignmentCode then s.alignedFrame x else s.misaligned x .alignment) = u
    at checked ⊢
  refine State.sameCalls.trans ?_ (latched _)
  split
  · exact checked.trans (sameCalls_foldl (fun (t : State) p => t.monitorWord p (lineWord bits (slotIndexOf p)))
      (fun t p => t.monitorWord_sameCalls p _) _ u)
  · exact checked

theorem State.clockMissed_sameCalls : s.sameCalls s.clockMissed := by
  refine sameCalls_foldl (fun (t : State) y => if (s.port y).sync = .locked then t.misaligned y .clock else t) (fun t y => ?_) _ s
  split
  · exact t.misaligned_sameCalls y _
  · exact t.sameCalls_refl

theorem State.qualifyBy_sameCalls (p : Party) (e : Pattern) : s.sameCalls (s.qualifyBy p e) := by
  unfold State.qualifyBy
  dsimp only
  split <;> exact State.sameCalls_of_eq rfl rfl rfl

theorem State.completeRamp_sameCalls (r : RampRef) : s.sameCalls (s.completeRamp r) := by
  cases r <;> exact State.sameCalls_of_eq rfl rfl rfl

end

theorem State.powerOn_callLaw (sup : Link) (rate : Rate) (pending : List Instr) : (State.powerOn sup rate pending).callLaw := by
  have e : ∀ p, (State.powerOn sup rate pending).party p = PartyRec.reset := fun p => row_tab _ _
  refine ⟨fun p => ?_, fun p _ => ?_, fun x p hp => by cases x <;> cases hp⟩
  · rw [e]
    simp [PartyRec.lawful, PartyRec.reset, PartyState.signal]
  · rw [e]
    exact State.present_of_none _ rfl

section
variable {s : State} (h : s.callLaw)
include h

theorem State.callLaw.graceExpired (x : PortId) : (s.graceExpired x).callLaw := by
  refine callLaw_foldl (State.sameCalls.callLaw ?_ h) _ (fun t p ht => ht.portFailure p) _
  exact State.sameCalls.trans (State.sameCalls_of_eq (by simp) (by simp) (by simp))
      (State.sameCalls_of_offers (by simp) (by simp) (State.offerAll_onlyOffers _ _))

theorem State.callLaw.takeMeaning (p : Party) (m : Meaning) : (s.takeMeaning p m).callLaw := by
  cases m
  case seize =>
    show (s.seized p).callLaw
    unfold State.seized
    split
    case h_1 hs | h_2 hs => exact h.toAlerting p (by rw [hs]; rfl)
    all_goals exact h
  case onhook =>
    show (s.onhook p).callLaw
    unfold State.onhook
    split
    case h_8 | h_9 => exact h
    all_goals exact h.toVacant p _
  case flash =>
    show (s.flashed p).callLaw
    unfold State.flashed
    split
    · exact (State.sameCalls_of_offers (by simp) (by simp) (s.offerAll_onlyOffers _)).callLaw h
    · exact h
  case fault =>
    show (s.faulted p).callLaw
    unfold State.faulted
    split
    · exact h
    · exact h.toFault p _

theorem State.callLaw.realert (p : Party) (hs : (s.party p).state = .alerting) : (s.realert p).callLaw :=
  h.writes (s.writes_offerAll p _ _) rfl ((h.lawful p).realertTimer hs _ _ (by omega)) (h.present (p := p) rfl rfl)

theorem State.callLaw.clearExpired (p : Party) : (s.clearExpired p).callLaw := by
  unfold State.clearExpired
  split
  case h_1 => exact h.toVacant p _
  case h_2 hs =>
    exact h.writes (s.writes_offerAll p _ []) rfl ((h.lawful p).clearEnded hs) (h.present (p := p) rfl rfl)
  all_goals exact h

/-- An orphaning where no handover is pending (R138). -/
theorem State.callLaw.orphan (p : Party) (cause : Nat) (hs : (s.party p).state = .parked)
    (hh : (s.party p).handover = none) : (s.orphan p cause).callLaw :=
  h.writes (s.writes_offerAll p _ _) rfl ((h.lawful p).orphaned hs hh) (s.present_of_none hh)

theorem State.callLaw.parkHandover (p : Party) (hs : (s.party p).state = .parked) (ho : (s.party p).owner.isSome) :
    (s.parkHandover p).callLaw := by
  unfold State.parkHandover
  split
  · exact h.grantHandover p _ _
  · rename_i hr
    have hg := h.grantHandover p Result.timeoutGranted Cause.timeout
    have e : ((s.grantHandover p Result.timeoutGranted Cause.timeout).party p).state = .parked
        ∧ ((s.grantHandover p Result.timeoutGranted Cause.timeout).party p).owner.isSome := by
      unfold State.grantHandover
      split
      · rename_i w hw
        have hc : ¬ s.controls w.requester p = true := by simpa [State.recheck, hw] using hr
        rw [if_neg hc, (s.endHandover_writes p w _ hw).1]
        exact ⟨hs, ho⟩
      · exact ⟨hs, ho⟩
    exact hg.writes (State.writes_offerAll _ p _ []) rfl
      ((hg.lawful p).parkTimer e.1 e.2 _ _ (hg.lawful p).2.2.2.2.2.2.2.2.2.2.2.2) (hg.present (p := p) rfl rfl)

/-- An expiry of the park timer (R137): an owner who is AWAY has no handover pending. -/
theorem State.callLaw.parkExpired (p : Party) (o : Link) (hp : (s.party p).park.isSome) (ho : (s.party p).owner = some o) :
    (s.parkExpired p o).callLaw := by
  obtain ⟨hs, hos⟩ := (h.lawful p).2.2.2.2.2.1 hp
  unfold State.parkExpired
  split
  · rename_i ha
    refine h.orphan p _ hs ?_
    by_contra hn
    have := h.2.1 p (by simp) o (Option.isSome_iff_ne_none.mpr hn) ho
    simp [ha] at this
  · split
    · exact h.writes (s.writes_offerAll p _ _) rfl ((h.lawful p).parkTimer hs hos _ _ (by omega)) (h.present (p := p) rfl rfl)
    · split
      · exact h.parkHandover p hs hos
      · rename_i hn
        exact h.orphan p _ hs (by simpa using hn)

/-- Every record rewritten at once, its state, owner and pending handover as they were. -/
theorem State.callLaw.everyRecord {t : State} (f : PartyRec → PartyRec) (hp : ∀ p, t.party p = f (s.party p))
    (hl : ∀ r : PartyRec, r.lawful → (f r).lawful) (hs : ∀ r, (f r).state = r.state) (ho : ∀ r, (f r).owner = r.owner)
    (hh : ∀ r, (f r).handover.isSome = r.handover.isSome) (hst : t.stud = s.stud) (hlk : t.links = s.links) : t.callLaw := by
  refine ⟨fun p => by rw [hp]; exact hl _ (h.1 p), fun p hn k h1 h2 => ?_, fun x p hx => ?_⟩
  · rw [hp, hh] at h1
    rw [hp, ho] at h2
    have := h.2.1 p hn k h1 h2
    simpa [State.link, hlk] using this
  · rw [hp, hs]
    refine h.2.2 x p ?_
    cases x <;> simpa [State.queue, hst] using hx

theorem State.callLaw.tick : s.tick.callLaw :=
  h.everyRecord PartyRec.tick (fun p => row_tab _ _) (fun _ hr => hr.tick) (fun _ => rfl) (fun _ => rfl)
    (fun r => by simp [PartyRec.tick]) rfl rfl

end

/-- Every command keeps the laws of the calls. -/
theorem exec_callLaw {c : Instr} {s t : State} (h : s.callLaw) (e : exec c s = .next t) : t.callLaw := by
  rcases ha : asked c with _ | ⟨k, tag, code, ask⟩
  case some =>
    rw [exec_asked ha] at e
    cases e
    exact (asked_keepsCalls ha s h).deliver k tag code
  cases c <;> try (cases ha; done)
  case powerOnReset => cases e; exact State.powerOn_callLaw _ _ _
  case linkFrameReceived k f =>
    simp only [exec, execLinkFrameReceived] at e
    split at e <;> cases e
    · exact h.acceptFrame k _
    · exact h
  case responseSent k =>
    simp only [exec, execResponseSent] at e
    split at e <;> cases e
    · exact h
    · exact ((s.modLink_sameCalls k _ id).callLaw h).takeRequests k _
  case audioFrame => cases e; exact (State.sameCalls_of_eq rfl rfl rfl).callLaw h
  case rampComplete r => cases e; exact (s.completeRamp_sameCalls r).callLaw h
  case inboundFrame x bits =>
    simp only [exec, execInboundFrame] at e
    split at e <;> cases e
    · exact (State.sameCalls_of_eq rfl rfl rfl).callLaw h
    · exact (s.inboundFrame_sameCalls x bits).callLaw h
  case missingClockCheck =>
    cases e
    exact (s.clockMissed_sameCalls.trans (State.sameCalls_of_eq rfl rfl rfl)).callLaw h
  case syncFound x => cases e; exact (s.syncFound_sameCalls x).callLaw h
  case syncLost x cause => cases e; exact (s.syncLost_sameCalls x cause).callLaw h
  case graceTimerExpiry x =>
    simp only [exec, execGraceTimerExpiry] at e
    split at e <;> cases e
    · exact h.graceExpired x
    · exact h
  case qualify p i =>
    simp only [exec, execQualify] at e
    split at e <;> cases e
    · exact (s.qualifyBy_sameCalls p _).callLaw h
    · exact h
  case signalReport p m =>
    have ht : (s.takeReport p m).callLaw := (State.sameCalls_of_eq rfl rfl rfl).callLaw h
    simp only [exec, execSignalReport] at e
    split at e <;> cases e
    · exact ht.takeMeaning p m
    · exact ht
  case realertTimerExpiry p =>
    simp only [exec, execRealertTimerExpiry] at e
    split at e <;> cases e
    · exact h.realert p (And.left ‹_ ∧ _›)
    · exact h
  case clearTimerExpiry p =>
    simp only [exec, execClearTimerExpiry] at e
    split at e <;> cases e
    · exact h.clearExpired p
    · exact h
  case oneSecondMark =>
    cases e
    exact h.everyRecord PartyRec.marked (fun p => row_tab _ _) (fun _ hr => hr.marked) (fun _ => rfl) (fun _ => rfl)
      (fun _ => rfl) rfl rfl
  case parkTimerExpiry p =>
    simp only [exec, execParkTimerExpiry] at e
    split at e <;> cases e
    · rename_i hp ho
      exact h.parkExpired p _ (by simp [hp]) ho
    · exact h
  case grantTimerExpiry p =>
    simp only [exec, execGrantTimerExpiry] at e
    split at e <;> cases e
    · exact h.grantHandover p _ _
    · exact h
  case shortWordClockPeriod =>
    cases e
    exact (s.clockMissed_sameCalls.trans (State.sameCalls_of_eq rfl rfl rfl)).callLaw h
  case resetAsserted => cases e; exact (State.sameCalls_of_eq rfl rfl rfl).callLaw h

/-- Every step keeps the laws of the calls. -/
theorem step_callLaw {s t : State} (h : s.callLaw) (e : step s = .next t) : t.callLaw := by
  unfold step at e
  split at e
  · rename_i c rest _
    have hr : ({ s with pending := rest } : State).callLaw := (State.sameCalls_of_eq rfl rfl rfl).callLaw h
    exact exec_callLaw hr e
  · unfold State.idle at e
    split at e
    · exact exec_callLaw h e
    · cases e
      exact h.tick

/-- Settles O59: the law of the party records is kept together with the part of the law of the places that NEXT relies on. -/
theorem everyStepKeepsTheRecordLaw : Obligations.EveryStepKeepsTheRecordLaw := by
  intro s t hp hr e
  exact (step_callLaw (s.callLaw_iff.mpr ⟨hr, hp.queuedLaw⟩) e).recordLaw

end Sys2Proof.Machine

namespace Sys2Proof.Machine

/-! ### The state after power-on, record by record -/

section
variable (sup : Link) (rate : Rate) (pending : List Instr)

@[simp] theorem State.powerOn_party (p : Party) : (State.powerOn sup rate pending).party p = PartyRec.reset := row_tab _ _

@[simp] theorem State.powerOn_monitor (p : Party) : (State.powerOn sup rate pending).monitor p = Monitor.reset := row_tab _ _

@[simp] theorem State.powerOn_group (g : Group) : (State.powerOn sup rate pending).group g = GroupRec.reset := row_tab _ _

@[simp] theorem State.powerOn_queue (x : Studio) : (State.powerOn sup rate pending).queue x = [] := by cases x <;> rfl

@[simp] theorem State.powerOn_floor (x : Studio) : (State.powerOn sup rate pending).floor x = 0 := by cases x <;> rfl

@[simp] theorem State.powerOn_slots (n : AirSlot) : row (State.powerOn sup rate pending).stud.slots n = none := row_tab _ _

@[simp] theorem State.powerOn_ret (p : Party) :
    (State.powerOn sup rate pending).ret p = { ingredients := [], active := none } := row_tab _ _

@[simp] theorem State.powerOn_talkList (p : Party) : (State.powerOn sup rate pending).talkList p = [] := row_tab _ _

@[simp] theorem State.powerOn_region (i : Fin 8) : (State.powerOn sup rate pending).region i = Region.reset := row_tab _ _

@[simp] theorem State.powerOn_link (k : Link) : (State.powerOn sup rate pending).link k = LinkRec.reset := row_tab _ _

theorem State.powerOn_port (x : PortId) : (State.powerOn sup rate pending).port x = PortRec.reset (slotsOf x) := by
  cases x <;> rfl

theorem State.powerOn_queueOf (p : Party) : (State.powerOn sup rate pending).queueOf p = none := rfl

theorem State.powerOn_slotOf (p : Party) : (State.powerOn sup rate pending).slotOf p = none := by
  simp [State.slotOf]

theorem State.powerOn_groupOf (p : Party) : (State.powerOn sup rate pending).groupOf p = none := by
  simp [State.groupOf, GroupRec.reset]

theorem State.powerOn_inService (p : Party) : (State.powerOn sup rate pending).inService p = false := by
  have e : ∀ n i, ((PortRec.reset n).slot i).enable = false := fun n i => by
    unfold PortRec.slot PortRec.reset
    rcases h : (List.replicate n ({ enable := false, format := .lin24 } : SlotSetting))[i]? with _ | c
    · simp [List.getD_eq_getElem?_getD, h]
    · simp [List.getD_eq_getElem?_getD, h, List.eq_of_mem_replicate (List.mem_of_getElem? h)]
  unfold State.inService State.partySlot
  rw [State.powerOn_port]
  exact e _ _

theorem State.powerOn_eventLaw : (State.powerOn sup rate pending).eventLaw := fun k => by simp [LinkRec.reset]

theorem State.powerOn_bufferLaw : (State.powerOn sup rate pending).bufferLaw := fun k => by simp [LinkRec.reset]

theorem State.powerOn_regionLaw : (State.powerOn sup rate pending).regionLaw := fun i => by simp +contextual [Region.reset]

theorem State.powerOn_returnLaw : (State.powerOn sup rate pending).returnLaw := fun p => by simp

theorem State.powerOn_listLaw : (State.powerOn sup rate pending).listLaw := fun p => by simp

theorem State.powerOn_placesLaw : (State.powerOn sup rate pending).placesLaw := by
  have ha : (State.powerOn sup rate pending).stud.queueA = [] := rfl
  have hb : (State.powerOn sup rate pending).stud.queueB = [] := rfl
  simp [State.placesLaw, ha, hb, PartyRec.reset]

theorem State.powerOn_groupLaw : (State.powerOn sup rate pending).groupLaw := fun g => by simp [GroupRec.reset]

theorem State.powerOn_talkLaw : (State.powerOn sup rate pending).talkLaw := fun p => by simp

end

/-- Settles O60: every law holds of the power-on values, whatever the straps. -/
theorem resetHasEveryLaw : Obligations.ResetHasEveryLaw :=
  ⟨State.powerOn_eventLaw _ _ _, State.powerOn_bufferLaw _ _ _, State.powerOn_regionLaw _ _ _, State.powerOn_returnLaw _ _ _,
    State.powerOn_listLaw _ _ _, State.powerOn_placesLaw _ _ _, State.powerOn_groupLaw _ _ _, State.powerOn_talkLaw _ _ _,
    (State.powerOn_callLaw _ _ _).recordLaw⟩

/-- Settles O3: POWER_ON_RESET is the state `State.powerOn`, whose records are read one by one. -/
theorem powerOnResetGivesThePowerOnValues : Obligations.PowerOnResetGivesThePowerOnValues := by
  intro supv baud s
  refine ⟨State.powerOn (supvLink supv) (baudRate baud) s.pending, rfl, fun p => ?_, fun i => row_tab _ _, fun g => ?_,
    fun x => ⟨by simp, by simp⟩, fun n => by simp, rfl, fun n => row_tab _ _, fun k => ⟨row_tab _ _, row_tab _ _⟩, rfl, rfl,
    fun i => ?_, fun x => ?_, fun k => ?_, rfl, rfl, rfl, rfl⟩
  · simp [PartyRec.reset, Monitor.reset, State.powerOn_inService, State.studioOf, State.positionOf, State.airGainOf,
      State.powerOn_queueOf, State.powerOn_slotOf, State.powerOn_groupOf]
  · simp [GroupRec.reset]
  · simp [Region.reset, Perms.empty]
  · rw [State.powerOn_port]
    simp [PortRec.reset]
  · simp [State.attn, LinkRec.attn, LinkRec.reset]

/-! ### What is due on an empty queue -/

/-- The numbers below `n` in order, parted at one of them. -/
theorem upTo_split {n : Nat} (i : Fin n) : ∃ l r, upTo n = l ++ i :: r ∧ ∀ j ∈ l, j < i := by
  obtain ⟨l, r, e⟩ := List.append_of_mem (mem_upTo i)
  have hs : (upTo n).Pairwise (· < ·) := List.pairwise_ofFn.mpr fun _ _ h => h
  rw [e, List.pairwise_append] at hs
  exact ⟨l, r, e, fun j hj => hs.2.2 j hj i List.mem_cons_self⟩

/-- The first result over ascending numbers is that of the lowest number that has one. -/
theorem findSome?_upTo {α : Type} {n : Nat} {f : Fin n → Option α} {i : Fin n} {a : α} (h : f i = some a)
    (hl : ∀ j, j < i → f j = none) : (upTo n).findSome? f = some a := by
  obtain ⟨l, r, e, hlt⟩ := upTo_split i
  rw [e, List.findSome?_append, List.findSome?_eq_none_iff.mpr fun j hj => hl j (hlt j hj), List.findSome?_cons, h]
  rfl

theorem State.dueParty_runOut {s : State} {p : Party} (h : (s.party p).runOut) : s.dueParty p = some (
    if (s.party p).realert = some 0 then .realertTimerExpiry p
    else if (s.party p).clear = some 0 then .clearTimerExpiry p
    else if (s.party p).park = some 0 then .parkTimerExpiry p
    else .grantTimerExpiry p) := by
  unfold State.dueParty
  by_cases h1 : (s.party p).realert = some 0
  · simp [h1]
  by_cases h2 : (s.party p).clear = some 0
  · simp [h1, h2]
  by_cases h3 : (s.party p).park = some 0
  · simp [h1, h2, h3]
  · have h4 := h.resolve_left h1 |>.resolve_left h2 |>.resolve_left h3
    rw [if_neg h1, if_neg h2, if_neg h3, if_neg h1, if_neg h2, if_neg h3, if_pos h4]

theorem State.dueParty_none {s : State} {p : Party} (h : ¬ (s.party p).runOut) : s.dueParty p = none := by
  simp only [PartyRec.runOut, not_or] at h
  unfold State.dueParty
  rw [if_neg h.1, if_neg h.2.1, if_neg h.2.2.1, if_neg h.2.2.2]

/-- The grace timer that is due is that of the first port at 0. -/
theorem State.findPort_due {s : State} {x : PortId} (h : (s.port x).grace = some 0)
    (hl : ∀ y, portCode y < portCode x → (s.port y).grace ≠ some 0) :
    [PortId.lp0, .lp1, .sp].findSome? s.duePort = some (.graceTimerExpiry x) := by
  have none_of : ∀ y, portCode y < portCode x → s.duePort y = none := fun y hy => if_neg (hl y hy)
  have some_of : s.duePort x = some (.graceTimerExpiry x) := if_pos h
  cases x
  · simp [some_of]
  · simp [some_of, none_of .lp0 (by decide)]
  · simp [some_of, none_of .lp0 (by decide), none_of .lp1 (by decide)]

theorem State.findPort_none {s : State} (h : ∀ x, (s.port x).grace ≠ some 0) :
    [PortId.lp0, .lp1, .sp].findSome? s.duePort = none := by
  rw [List.findSome?_eq_none_iff]
  exact fun y _ => if_neg (h y)

/-- Without a waiting report, check or mark, a timer of a port or of a party is due. -/
theorem State.dueCommand_timers {s : State} (hr : s.smon.reports = []) (hc : s.tbase.checkDue = false)
    (hm : s.tbase.markDue = false) :
    s.dueCommand = ([PortId.lp0, .lp1, .sp].findSome? s.duePort).or (allParties.findSome? s.dueParty) := by
  simp [State.dueCommand, State.dueReport, hr, hc, hm]

theorem State.tick_port (s : State) (x : PortId) : s.tick.port x = (s.port x).tick := by cases x <;> rfl

/-- Settles O2. -/
theorem emptyQueueLetsTimePass : Obligations.EmptyQueueLetsTimePass := by
  refine ⟨fun s hp => ⟨fun c hc => ?_, fun hd => ⟨s.tick, ?_, fun p => ?_, fun x => ?_, ?_, ?_, ?_, rfl, rfl⟩⟩,
    fun s => ⟨fun r rest hr => ?_, fun hr => ⟨fun hc => ?_, fun hc hm => ?_, fun hc hm => ⟨fun x h0 hl => ?_, fun hx =>
      ⟨fun p h0 hl => ?_, fun hn => ?_⟩⟩⟩⟩⟩
  · simp [step, hp, State.idle, hc]
  · simp [step, hp, State.idle, hd]
  · exact row_tab _ _
  · exact s.tick_port x
  · simp only [State.tick, Tbase.tick]
    split <;> split <;> omega
  · simp only [State.tick, Tbase.tick, Bool.or_eq_true, decide_eq_true_eq]
    rw [show 1000 ≤ s.tbase.ms + 1 ↔ 999 ≤ s.tbase.ms by omega]
  · simp [State.tick, Tbase.tick]
  · simp [State.dueCommand, State.dueReport, hr]
  · simp [State.dueCommand, State.dueReport, hr, hc]
  · simp [State.dueCommand, State.dueReport, hr, hc, hm]
  · rw [State.dueCommand_timers hr hc hm, State.findPort_due h0 hl]
    rfl
  · rw [State.dueCommand_timers hr hc hm, State.findPort_none hx, Option.none_or]
    exact findSome?_upTo (State.dueParty_runOut h0) fun q hq => State.dueParty_none (hl q hq)
  · rw [State.dueCommand_timers hr hc hm, State.findPort_none hx, Option.none_or, List.findSome?_eq_none_iff]
    exact fun p _ => State.dueParty_none (hn p)

/-- Settles O1. -/
theorem stepRunsTheFrontCommand : Obligations.StepRunsTheFrontCommand := by
  intro c rest s h
  unfold step
  rw [h]

end Sys2Proof.Machine

namespace Sys2Proof.Machine

/-! ### The places of a party as it moves -/

section
variable (s : State) (p : Party) (into : PartyState)

theorem State.leave_slots_onAir (h : (s.party p).state = .onAir) (hi : into ≠ .onAir) (n : AirSlot) :
    row (s.leave p into).stud.slots n = (row s.stud.slots n).filter fun o => o.party != p := by
  have e : row (s.leave p into).stud.slots n = row (s.freeAir p).stud.slots n := by
    unfold State.leave
    simp only [h, hi, reduceCtorEq, ne_eq, not_false_eq_true, and_self, false_and, if_true, if_false]
    split <;> rfl
  rw [e]
  simp only [State.freeAir, row_tab]
  rcases row s.stud.slots n with _ | o
  · rfl
  · by_cases ho : o.party = p <;> simp [Option.filter, ho]

theorem State.leave_slots_other (h : (s.party p).state ≠ .onAir) : (s.leave p into).stud.slots = s.stud.slots := by
  unfold State.leave
  simp only [h, false_and, if_false]
  split <;> split <;> split <;> rfl

end

section
variable {s : State} {p : Party} {into : PartyState} (r : PartyRec)

/-- Out of the ready queues by the removals (R62). -/
theorem State.placesLaw.entered_queueOf (h : s.placesLaw) (hi : into ≠ .queued) : (s.entered p into r).queueOf p = none := by
  have hn : ∀ x, p ∉ (s.leave p into).queue x := fun x hx => (h.queuedLaw.leave hi hx).2 rfl
  have ha : p ∉ (s.leave p into).stud.queueA := hn .a
  have hb : p ∉ (s.leave p into).stud.queueB := hn .b
  simp [State.queueOf, ha, hb]

theorem State.slotOf_eq_none_iff {s : State} {p : Party} :
    s.slotOf p = none ↔ ∀ n o, row s.stud.slots n = some o → o.party ≠ p := by
  unfold State.slotOf
  rw [List.find?_eq_none]
  constructor
  · intro h n o ho he
    simpa [ho, he] using h n (mem_upTo n)
  · intro h n _
    rcases e : row s.stud.slots n with _ | o
    · simp
    · simpa using h n o e

/-- Off the air slots by the removals (R67). -/
theorem State.placesLaw.entered_slotOf (h : s.placesLaw) (hi : into ≠ .onAir) : (s.entered p into r).slotOf p = none := by
  rw [State.slotOf_eq_none_iff]
  intro n o ho he
  rw [State.entered_stud] at ho
  by_cases hs : (s.party p).state = .onAir
  · rw [s.leave_slots_onAir p into hs hi, Option.filter_eq_some_iff] at ho
    simp [he] at ho
  · rw [s.leave_slots_other p into hs] at ho
    exact hs ((h.2.2.1 p).1 ⟨n, o, ho, he⟩)

theorem State.placesLaw.entered_studioOf (h : s.placesLaw) (hq : into ≠ .queued) (ha : into ≠ .onAir) :
    (s.entered p into r).studioOf p = none := by
  simp [State.studioOf, h.entered_queueOf r hq, h.entered_slotOf r ha]

/-- Only a party that is QUEUED or ON_AIR has a studio (R54). -/
theorem State.placesLaw.studioOf_none (h : s.placesLaw) (hq : (s.party p).state ≠ .queued) (ha : (s.party p).state ≠ .onAir) :
    s.studioOf p = none := by
  simp [State.studioOf, State.queueOf_none h hq, State.slotOf_none h ha]

theorem State.groupOf_of_conf {s t : State} (h : t.conf = s.conf) (q : Party) : t.groupOf q = s.groupOf q := by
  simp only [State.groupOf, State.group, h]

/-- The group that a move leaves: that of a SCREENING party (R48). -/
theorem groupLeft_of_leave {t : State} (hc : t.conf = (s.leave p into).conf) (hi : into ≠ .screening) :
    groupLeft s t p = if (s.party p).state = .screening then s.groupOf p else none := by
  unfold groupLeft
  by_cases hs : (s.party p).state = .screening
  · rw [if_pos hs]
    have e : t.groupOf p = none := by
      rw [State.groupOf_of_conf (hc.trans (s.leave_conf_screening p into hs hi)), State.ungroup_groupOf]
    simp [e]
  · rw [if_neg hs, State.groupOf_of_conf (hc.trans (s.leave_conf_none p into hs))]
    rcases s.groupOf p with _ | g <;> simp

theorem groupLeft_of_notScreening {t : State} (hc : t.conf = (s.leave p into).conf) (hs : (s.party p).state ≠ .screening) :
    groupLeft s t p = none := by
  unfold groupLeft
  rw [State.groupOf_of_conf (hc.trans (s.leave_conf_none p into hs))]
  rcases s.groupOf p with _ | g <;> simp

/-- STATE of a move into a state without a studio (R27). -/
theorem State.placesLaw.stateEvent_entered (h : s.placesLaw) (hq : into ≠ .queued) (ha : into ≠ .onAir)
    (hi : into ≠ .screening) : stateEvent s (s.entered p into r) p
      = { partyEvent .state p with
          studio := s.studioOf p, group := if (s.party p).state = .screening then s.groupOf p else none,
          value1 := some (stateCode r.state), value2 := some (stateCode (s.party p).state) } := by
  unfold stateEvent studioNamed
  rw [groupLeft_of_leave (t := s.entered p into r) rfl hi, h.entered_studioOf r hq ha, State.entered_party, if_pos rfl]
  rfl

/-- The first event of a move (R27, R174). -/
theorem State.entered_first (s : State) (p : Party) (into : PartyState) (r : PartyRec) (j : Option Link) (e : Event)
    (call : List Event) (tail : List Offer) :
    s.offersFirst ((s.entered p into r).conclude s p j (e :: call) tail) p e (s.party p).owner r.owner := by
  have h := State.conclude_first (s := s) (t := s.entered p into r) p j e call tail (by simp) (by simp) (by simp)
  rwa [State.entered_party, if_pos rfl] at h

end

/-! ### Requests that name a party out of PARKED -/

theorem acceptNaming_notParked {t : State} {k : Link} {p : Party} (h : (t.party p).state ≠ .parked) (data : List Byte) :
    acceptNaming t k p data = accept t data := by
  unfold acceptNaming
  rw [t.ownerNamed_notParked k p h]

/-- A request of the owner that has just started the park timer finds it as it is (R136). -/
theorem State.ownerNamed_started {t : State} {p : Party} (k : Link) (h : (t.party p).park = some t.parkTime)
    (hr : (t.party p).reminders = 0) : t.ownerNamed k p = t := by
  have e : (t.party p).named k t.times.tprk = t.party p := by
    unfold PartyRec.named
    split
    · rw [show t.times.tprk * 1000 = t.parkTime from rfl, ← h, ← hr]
    · rfl
  rw [State.ownerNamed_setParty, e, State.setParty_same]

/-! ### SKND -/

/-- Settles O18. -/
theorem skndSetsTheKind : Obligations.SkndSetsTheKind := by
  intro tag b d p kd s hb hd hc hs
  have hk : ∀ q, (s.setKind p kd).party q = if q = p then { s.party p with kind := kd } else s.party q := fun q =>
    row_put _ _ _ _
  have hm : ∀ q, (s.setKind p kd).monitor q = if q = p then { s.monitor p with matchCount := 0 } else s.monitor q := fun q =>
    row_put _ _ _ _
  have ha : askSknd s.supervisor b d s = accept (s.setKind p kd) [] := by
    simp only [askSknd, hb, hd, hc, hs, ne_eq, not_true, Bool.not_true, if_false, Bool.false_eq_true]
    exact acceptNaming_notParked (by rw [hk, if_pos rfl]; simp [hs]) []
  refine ⟨s.setKind p kd, ?_, rfl, ?_, fun q hq => ?_, ?_, fun q hq => ?_⟩
  · rw [← ha]
    rfl
  · rw [hk, if_pos rfl]
  · rw [hk, if_neg hq]
  · rw [hm, if_pos rfl]
  · rw [hm, if_neg hq]

/-! ### ANSR -/

/-- Groups hold on to their law as a party that stands in none changes its record. -/
theorem State.groupLaw.outside {s t : State} (h : s.groupLaw) {p : Party} (hs : (s.party p).state ≠ .screening)
    (hc : t.conf = s.conf) (ho : s.otherParties t p) : t.groupLaw := by
  have eg : ∀ g, t.group g = s.group g := fun g => by simp only [State.group, hc]
  intro g
  obtain ⟨h1, h2, h3, h4⟩ := h g
  rw [eg]
  refine ⟨h1, h2, h3, fun q hq => ?_⟩
  obtain ⟨g1, g2, g3⟩ := h4 q hq
  have hne : q ≠ p := by
    rintro rfl
    exact hs g1
  rw [ho q hne]
  exact ⟨g1, g2, fun g' hg' => g3 g' (eg g' ▸ hg')⟩

theorem mem_concerned_self (b s : State) (p : Party) : p ∈ concerned b s p := by simp [concerned, allParties]

/-- Settles O11. -/
theorem ansrTakesARingingPartyToScreening : Obligations.AnsrTakesARingingPartyToScreening := by
  intro k tag b p s hb hc hs
  have hm := s.conclude_moved p .screening
    { (s.party p).enter .screening with owner := some k, lock := false, callSeconds := 0, airSeconds := 0 } none
    [{ partyEvent .answered p with link := some k }] []
  rw [← s.answer_eq] at hm
  have ha : askAnsr k b s = accept (s.answer p k) [] := by
    simp only [askAnsr, hb, hc, hs]
    exact acceptNaming_notParked (by rw [hm.1]; simp [PartyRec.enter]) []
  have hcol := hm.collections (by simp [hs]) (by simp [hs]) (by simp [hs])
  refine ⟨s.answer p k, ?_, hm.1, hcol.1, hcol.2, hm.2.2.2.1, hm.2.2.2.2, ?_, fun hg => ?_⟩
  · rw [← ha]
    rfl
  · rw [s.answer_eq]
    exact s.entered_first p .screening _ none _ [] []
  · rw [s.answer_eq]
    refine State.conclude_hears _ _ p p _ _ _ (fun h => ?_) (fun _ => hg.outside (p := p) ?_ ?_ ?_) (mem_concerned_self _ _ p)
    · simp [PartyRec.enter] at h
    · simp [hs]
    · exact s.leave_conf_none p .screening (by simp [hs])
    · exact fun q hq => by simp [hq]

/-! ### PARK, OFFA and UNQU -/

/-- Settles O12: the three requests make the one transition `toParked`. -/
theorem parkOffaAndUnquPark : Obligations.ParkOffaAndUnquPark := by
  intro c k tag b code p s hb hcase
  have hm := s.conclude_moved p .parked { (s.party p).enter .parked with park := some s.parkTime, reminders := 0 } (some k)
    [stateEvent s (s.entered p .parked { (s.party p).enter .parked with park := some s.parkTime, reminders := 0 }) p] []
  rw [← s.toParked_eq] at hm
  have hn : acceptNaming (s.toParked p k) k p [] = accept (s.toParked p k) [] := by
    have ht : (s.toParked p k).parkTime = s.parkTime := by
      have := (s.toParked_sameBase p k).2.2.2.2.1
      simp only [State.parkTime, this]
    unfold acceptNaming
    rw [State.ownerNamed_started k (by rw [hm.1, ht]) (by rw [hm.1])]
  have hx : exec c s = .next ((accept (s.toParked p k) []).deliver k tag code) := by
    rw [← hn]
    rcases hcase with ⟨rfl, rfl, h1, h2, h3⟩ | ⟨rfl, rfl, h1, h2⟩ | ⟨rfl, rfl, h1, h2⟩
    · have ho : s.owns k p = true := by simp [State.owns, h2]
      show Host.Outcome.next ((askPark k b s).deliver k tag 0x02) = _
      rcases h3 with h3 | h3 | h3 <;> simp [askPark, hb, h1, ho, h3]
    · have ho : (s.owns k p || s.controlsItsStudio k p) = true := by rcases h2 with h2 | h2 <;> simp [State.owns, h2]
      show Host.Outcome.next ((askOffa k b s).deliver k tag 0x06) = _
      simp [askOffa, hb, h1, ho]
    · have ho : (s.owns k p || s.controlsItsStudio k p) = true := by rcases h2 with h2 | h2 <;> simp [State.owns, h2]
      show Host.Outcome.next ((askUnqu k b s).deliver k tag 0x07) = _
      simp [askUnqu, hb, h1, ho]
  refine ⟨s.toParked p k, hx, hm.1, hm.removed (by decide), hm.2.2.2.1, hm.2.2.2.2, fun hl => ?_⟩
  rw [s.toParked_eq, hl.stateEvent_entered _ (by decide) (by decide) (by decide)]
  exact s.entered_first p .parked _ _ _ [] []

end Sys2Proof.Machine

namespace Sys2Proof.Machine

/-- STATE of a move between states that stand in no collection (R27). -/
theorem State.placesLaw.stateEvent_outside {s : State} (h : s.placesLaw) {p : Party} {into : PartyState} (r : PartyRec)
    (hi : into ≠ .queued ∧ into ≠ .onAir ∧ into ≠ .screening)
    (hs : (s.party p).state ≠ .queued ∧ (s.party p).state ≠ .onAir ∧ (s.party p).state ≠ .screening) :
    stateEvent s (s.entered p into r) p = { partyEvent .state p with
      value1 := some (stateCode r.state), value2 := some (stateCode (s.party p).state) } := by
  rw [h.stateEvent_entered r hi.1 hi.2.1 hi.2.2, h.studioOf_none hs.1 hs.2.1, if_neg hs.2.2]
  rfl

/-! ### LOOP and LEND -/

/-- LOOP of a VACANT party in service (R18). -/
theorem askLoop_accepted {k : Link} {b d : Byte} {p : Party} {src : Source} {s : State} (hb : partyArg b = some p)
    (hd : sourceArg d = some src) (hc : s.controls k p = true) (hs : (s.party p).state = .vacant)
    (hi : s.inService p = true) : askLoop k b d s = accept (s.startLoop p src k) [] := by
  have ht : ((s.startLoop p src k).party p).state ≠ .parked := by
    rw [s.startLoop_eq]
    simp [PartyRec.enter]
  simp [askLoop, hb, hd, hc, hs, hi, acceptNaming_notParked ht]

/-- LEND of its owner (R19). -/
theorem askLend_accepted {k : Link} {b : Byte} {p : Party} {s : State} (hb : partyArg b = some p)
    (hs : (s.party p).state = .looptest) (ho : (s.party p).owner = some k) :
    askLend k b s = accept (s.toVacant p fun _ after => [loopEndedEvent after p Cause.lend]) [] := by
  have ht : ((s.toVacant p fun _ after => [loopEndedEvent after p Cause.lend]).party p).state ≠ .parked := by
    rw [s.toVacant_eq]
    simp [PartyRec.enter]
  simp [askLend, hb, hs, State.owns, ho, acceptNaming_notParked ht]

/-- LOOP_ENDED of a move (R19, R20). -/
theorem loopEndedEvent_entered (s : State) (p : Party) (into : PartyState) (r : PartyRec) (cause : Nat) :
    loopEndedEvent (s.entered p into r) p cause
      = { partyEvent .loopEnded p with value1 := some cause, value2 := some (stateCode r.state) } := by
  unfold loopEndedEvent
  rw [State.entered_party, if_pos rfl]

/-- Settles O16. -/
theorem loopBeginsALoopTestAndLendEndsIt : Obligations.LoopBeginsALoopTestAndLendEndsIt := by
  intro k tag b d p s hb
  refine ⟨fun src hd hc hs hi => ?_, fun hs => ?_, fun hs ho => ?_, fun hs ho => ?_⟩
  · have hm := s.conclude_moved p .looptest
      { (s.party p).enter .looptest with owner := some k, lock := false, loopSource := some src } (some k)
      [stateEvent s (s.entered p .looptest
        { (s.party p).enter .looptest with owner := some k, lock := false, loopSource := some src }) p] []
    rw [← s.startLoop_eq] at hm
    have hcol := hm.collections (by simp [hs]) (by simp [hs]) (by simp [hs])
    refine ⟨s.startLoop p src k, ?_, hm.1, hcol.1, hcol.2, hm.2.2.2.1, hm.2.2.2.2, fun hl => ?_⟩
    · rw [← askLoop_accepted hb hd hc hs hi]
      rfl
    · rw [s.startLoop_eq, hl.stateEvent_outside _ (by decide) (by rw [hs]; decide), hs]
      exact s.entered_first p .looptest _ _ _ [] []
  · have e : askLend k b s = refuse s .wrongState := by simp [askLend, hb, hs]
    rw [← e]
    rfl
  · have e : askLend k b s = refuse s .notOwner := by simp [askLend, hb, hs, State.owns, ho]
    rw [← e]
    rfl
  · have hm := s.conclude_moved p .vacant ((s.party p).enter .vacant) none
      [loopEndedEvent (s.entered p .vacant ((s.party p).enter .vacant)) p Cause.lend] []
    have hcol := hm.collections (by simp [hs]) (by simp [hs]) (by simp [hs])
    refine ⟨_, ?_, hm.1, hcol.1, hcol.2, hm.2.2.2.1, hm.2.2.2.2, ?_⟩
    · show Host.Outcome.next ((askLend k b s).deliver k tag 0x0B) = _
      rw [askLend_accepted hb hs ho]
      rfl
    · rw [loopEndedEvent_entered, ← ho]
      exact s.entered_first p .vacant _ _ _ [] []

/-! ### Exact offers of a move -/

section
variable {s : State} {p : Party} {into : PartyState} (r : PartyRec)

/-- QUEUE_CHANGED of a move out of the ready queues: LEFT, where the party stood in one (R62, R72). -/
theorem State.placesLaw.queueOffers_entered (h : s.placesLaw) (hi : into ≠ .queued) (j : Option Link) :
    queueOffers s (s.entered p into r) p j = match s.queueOf p with
      | none => []
      | some x => [studioOffer s (s.entered p into r) p x (queueEvent x p j Cause.left 0)] := by
  unfold queueOffers
  rw [h.entered_queueOf r hi]
  cases s.queueOf p <;> rfl

/-- AIR_SLOT of a move off the air: FREED, where the party stood on a slot (R67, R73). -/
theorem State.placesLaw.slotOffers_entered (h : s.placesLaw) (hi : into ≠ .onAir) (j : Option Link) :
    slotOffers s (s.entered p into r) p j = match s.slotOf p with
      | none => []
      | some n => [studioOffer s (s.entered p into r) p (s.studioOfSlot n)
          (slotEvent (s.studioOfSlot n) p j n Cause.freed)] := by
  unfold slotOffers
  rw [h.entered_slotOf r hi]
  cases s.slotOf p <;> rfl

/-- TALK_ENDED for each entry of a list that a move empties (R113). -/
theorem talkOffers_entered (hr : r.state.talkable = false) : talkOffers s (s.entered p into r) p
    = (s.talkList p).map fun e => talkOffer (s.party p).owner r.owner e.link
        (talkEvent .talkEnded p e (stateCode r.state) e.priority) := by
  unfold talkOffers endedOffers
  rw [State.entered_party, if_pos rfl, if_neg (by simp [hr])]

/-- TAKE_RESULT GONE of a move that ends a handover (R130). -/
theorem goneOffers_entered (hr : r.handover = none) : goneOffers s (s.entered p into r) p
    = match (s.party p).handover with
      | none => []
      | some w => [resultOffer p w.requester (s.party p).owner r.owner Result.gone] := by
  unfold goneOffers
  rw [State.entered_party, if_pos rfl, hr]
  cases (s.party p).handover <;> rfl

end

/-- A move that offers no event of its own, from no collection, with no talk entry and no handover, offers nothing. -/
theorem State.placesLaw.conclude_quiet {s : State} (h : s.placesLaw) {p : Party} {into : PartyState} (r : PartyRec)
    (j : Option Link) (hi : into ≠ .queued ∧ into ≠ .onAir) (hs : (s.party p).state ≠ .queued)
    (ha : (s.party p).state ≠ .onAir) (ht : s.talkList p = []) (hh : (s.party p).handover = none)
    (hr : r.state.talkable = false ∧ r.handover = none) :
    s.offersExactly ((s.entered p into r).conclude s p j [] []) [] := by
  have e := State.conclude_exactly (s := s) (t := s.entered p into r) p j [] [] (by simp)
  rw [transitionOffers, h.queueOffers_entered r hi.1, h.slotOffers_entered r hi.2, talkOffers_entered r hr.1,
    goneOffers_entered r hr.2, State.queueOf_none h hs, State.slotOf_none h ha, ht, hh] at e
  exact e

/-! ### PRST -/

/-- CLEARED of a move (R17, R21). -/
theorem clearedEvent_entered (s : State) (p : Party) (r : PartyRec) (cause : Nat) {into : PartyState} (hi : into ≠ .screening) :
    clearedEvent s (s.entered p into r) p cause
      = { partyEvent .cleared p with
          cause := cause, group := if (s.party p).state = .screening then s.groupOf p else none,
          value1 := some (s.party p).callSeconds, value2 := some (s.party p).airSeconds } := by
  unfold clearedEvent
  rw [groupLeft_of_leave (t := s.entered p into r) rfl hi]

section
variable (s : State) (p : Party)

/-- The record of a party reset (R21). -/
def PartyRec.partyReset (r : PartyRec) : PartyRec :=
  { r.enter .vacant with signalOut := .clear, clear := some Config.tclr }

theorem State.partyReset_moved : s.moved (s.partyReset p) p .vacant (s.party p).partyReset := by
  rw [s.partyReset_eq]
  exact s.conclude_moved p .vacant _ none _ []

/-- The one event of a party reset comes first (R21). -/
theorem State.partyReset_first {e : Event} (h : resetEvents s (s.entered p .vacant (s.party p).partyReset) p = [e]) :
    s.offersFirst (s.partyReset p) p e (s.party p).owner none := by
  rw [s.partyReset_eq]
  show s.offersFirst ((s.entered p .vacant (s.party p).partyReset).conclude s p none
    (resetEvents s (s.entered p .vacant (s.party p).partyReset) p) []) p e (s.party p).owner none
  rw [h]
  exact s.entered_first p .vacant _ none e [] []

theorem State.partyReset_cleared (h : (s.party p).state.onCall = true) : s.offersFirst (s.partyReset p) p
    { partyEvent .cleared p with
      cause := 3, group := if (s.party p).state = .screening then s.groupOf p else none,
      value1 := some (s.party p).callSeconds, value2 := some (s.party p).airSeconds } (s.party p).owner none := by
  refine s.partyReset_first p ?_
  rw [← clearedEvent_entered s p (s.party p).partyReset 3 (into := .vacant) (by decide)]
  cases hs : (s.party p).state <;> simp [hs, PartyState.onCall] at h <;> simp [resetEvents, hs]

theorem State.partyReset_state (h : (s.party p).state = .alerting ∨ (s.party p).state = .fault) (hl : s.placesLaw) :
    s.offersFirst (s.partyReset p) p
      { partyEvent .state p with value1 := some 0, value2 := some (stateCode (s.party p).state) } (s.party p).owner none := by
  have he : resetEvents s (s.entered p .vacant (s.party p).partyReset) p
      = [stateEvent s (s.entered p .vacant (s.party p).partyReset) p] := by
    rcases h with hs | hs <;> simp only [resetEvents, hs]
  refine s.partyReset_first p (he.trans ?_)
  rw [hl.stateEvent_outside _ (by decide)]
  · rfl
  · rcases h with hs | hs <;> rw [hs] <;> decide

theorem State.partyReset_loopEnded (h : (s.party p).state = .looptest) : s.offersFirst (s.partyReset p) p
    { partyEvent .loopEnded p with value1 := some 0x32, value2 := some 0 } (s.party p).owner none := by
  refine s.partyReset_first p ?_
  simp only [resetEvents, h]
  rw [loopEndedEvent_entered]
  rfl

theorem State.partyReset_quiet (h : (s.party p).state = .vacant) (hl : s.placesLaw) (ht : s.talkList p = [])
    (hh : (s.party p).handover = none) : s.offersExactly (s.partyReset p) [] := by
  rw [s.partyReset_eq]
  have e : resetEvents s (s.entered p .vacant (s.party p).partyReset) p = [] := by simp only [resetEvents, h]
  show s.offersExactly ((s.entered p .vacant (s.party p).partyReset).conclude s p none
    (resetEvents s (s.entered p .vacant (s.party p).partyReset) p) []) []
  rw [e]
  exact hl.conclude_quiet _ none (by decide) (by simp [h]) (by simp [h]) ht hh ⟨rfl, rfl⟩

end

theorem State.offersFirst_of_ownerNamed {s t : State} {k : Link} {p : Party} {e : Event} {a b : Option Link}
    (h : (s.ownerNamed k p).offersFirst t p e a b) : s.offersFirst t p e a b := by
  rw [s.ownerNamed_form] at h
  exact h

theorem State.ownerNamed_groupOf (s : State) (k : Link) (p q : Party) : (s.ownerNamed k p).groupOf q = s.groupOf q :=
  State.groupOf_of_conf (by simp) q

theorem State.ownerNamed_talkList (s : State) (k : Link) (p q : Party) : (s.ownerNamed k p).talkList q = s.talkList q := by
  simp [State.talkList]

/-- Settles O17: the park timer that the supervisor's request restarts changes nothing that the reset reads. -/
theorem prstReturnsAPartyToVacant : Obligations.PrstReturnsAPartyToVacant := by
  intro tag b p s hb hc
  have ha : askPrst s.supervisor b s = accept ((s.ownerNamed s.supervisor p).partyReset p) [] := by
    simp [askPrst, hb, hc]
  have hp : (s.ownerNamed s.supervisor p).party p = (s.party p).named s.supervisor s.times.tprk := by
    rw [s.ownerNamed_party, if_pos rfl]
  have hm := (s.ownerNamed s.supervisor p).partyReset_moved p
  refine ⟨(s.ownerNamed s.supervisor p).partyReset p, ?_, ?_, State.removed_of_ownerNamed (hm.removed (by decide)), ?_,
    State.partyFrame_of_ownerNamed hm.2.2.2.2, fun h => ?_, fun h hl => ?_, fun h => ?_, fun h hl ht hr => ?_⟩
  · rw [← ha]
    rfl
  · rw [hm.1, hp]
    rfl
  · exact hm.2.2.2.1
  · have e := (s.ownerNamed s.supervisor p).partyReset_cleared p (by rw [hp, PartyRec.named_state]; exact h)
    simp only [hp, PartyRec.named_state, PartyRec.named_owner, PartyRec.named_callSeconds, PartyRec.named_airSeconds,
      State.ownerNamed_groupOf] at e
    exact State.offersFirst_of_ownerNamed e
  · have e := (s.ownerNamed s.supervisor p).partyReset_state p (by rw [hp, PartyRec.named_state]; exact h)
      (State.ownerNamed_placesLaw _ _ hl)
    simp only [hp, PartyRec.named_state, PartyRec.named_owner] at e
    exact State.offersFirst_of_ownerNamed e
  · have e := (s.ownerNamed s.supervisor p).partyReset_loopEnded p (by rw [hp, PartyRec.named_state]; exact h)
    simp only [hp, PartyRec.named_owner] at e
    exact State.offersFirst_of_ownerNamed e
  · refine State.offersExactly_of_ownerNamed ((s.ownerNamed s.supervisor p).partyReset_quiet p ?_
      (State.ownerNamed_placesLaw _ _ hl) ?_ ?_)
    · rw [hp, PartyRec.named_state]
      exact h
    · rw [State.ownerNamed_talkList]
      by_contra hn
      simpa [h, PartyState.talkable] using (ht p).2.2.1 hn
    · rw [hp, PartyRec.named_handover]
      exact (hr p).1.noHandover (by rw [h]; rfl)

end Sys2Proof.Machine

namespace Sys2Proof.Machine

/-! ### The re-alert timer, the clear timer and the one-second mark -/

theorem State.toVacant_moved (s : State) (p : Party) (call : State → State → List Event) :
    s.moved (s.toVacant p call) p .vacant ((s.party p).enter .vacant) := s.conclude_moved p .vacant _ none _ []

theorem State.toFault_moved (s : State) (p : Party) (cause : Nat) :
    s.moved (s.toFault p cause) p .fault ((s.party p).enter .fault) := s.conclude_moved p .fault _ none _ []

theorem State.toAlerting_moved (s : State) (p : Party) : s.moved (s.toAlerting p) p .alerting
    { (s.party p).enter .alerting with alertCount := 1, realert := some (s.times.talr * 1000) } := by
  rw [s.toAlerting_eq]
  exact s.conclude_moved p .alerting _ none _ []

/-- The first event of a move to VACANT. -/
theorem State.toVacant_first (s : State) (p : Party) (call : State → State → List Event) {e : Event}
    (h : call s (s.entered p .vacant ((s.party p).enter .vacant)) = [e]) :
    s.offersFirst (s.toVacant p call) p e (s.party p).owner none := by
  rw [s.toVacant_eq, h]
  exact s.entered_first p .vacant _ none e [] []

/-- The end of a clear period (R17). -/
theorem State.clearExpired_vacant (s : State) (p : Party) (h : (s.party p).state = .vacant) :
    s.clearExpired p = (s.setParty p { s.party p with signalOut := .idle, clear := none }).offerAll [] := by
  unfold State.clearExpired
  split
  case h_2 => rfl
  all_goals simp [*] at h

/-- Settles O51. -/
theorem reAlertClearTimerAndOneSecondMark : Obligations.ReAlertClearTimerAndOneSecondMark := by
  refine ⟨fun p s => ⟨fun h => ?_, fun h => ?_⟩, fun p s => ⟨fun hs hr => ?_, fun hs hc => ?_, fun hs hc => ?_⟩, fun s => ?_⟩
  · simp [exec, execRealertTimerExpiry, h]
  · simp [exec, execClearTimerExpiry, h]
  · refine ⟨s.realert p, by simp [exec, execRealertTimerExpiry, hs, hr], ?_⟩
    have hw := s.writes_offerAll p
      { s.party p with
        alertCount := min 255 ((s.party p).alertCount + 1), realert := some (s.times.talr * 1000) }
      [{ event := { partyEvent .alert p with value1 := some (min 255 ((s.party p).alertCount + 1)) },
         receives := fun j => s.views j p || (s.party p).owner == some j }]
    have e : s.realert p = (s.setParty p
        { s.party p with
          alertCount := min 255 ((s.party p).alertCount + 1), realert := some (s.times.talr * 1000) }).offerAll
        [{ event := { partyEvent .alert p with value1 := some (min 255 ((s.party p).alertCount + 1)) },
           receives := fun j => s.views j p || (s.party p).owner == some j }] := by
      unfold State.realert viewOffer alertEvent State.modParty
      simp only [State.setParty_party, if_true, State.views_eq (s := s) (State.setParty_regions s p _) rfl, Bool.or_assoc,
        Bool.or_self]
    rw [e]
    exact hw
  · have hm := s.toVacant_moved p fun before after => [clearedEvent before after p 1]
    have hcol := hm.collections (by simp [hs]) (by simp [hs]) (by simp [hs])
    refine ⟨_, ?_, hm.1, hcol.1, hcol.2, hm.2.2.2.2, s.toVacant_first p _ ?_⟩
    · simp [exec, execClearTimerExpiry, State.clearExpired, hs, hc]
    · rw [clearedEvent_entered _ _ _ _ (by decide), if_neg (by simp [hs])]
      rfl
  · refine ⟨s.clearExpired p, if_pos hc, ?_⟩
    rw [s.clearExpired_vacant p hs]
    exact s.writes_offerAll p _ []
  · refine ⟨_, rfl, rfl, fun p => ?_⟩
    have e : ∀ t : PartyState, t.onCall = true ↔ t ∈ [.screening, .parked, .queued, .onAir, .clearing] := by
      intro t
      cases t <;> decide
    simp only [← e]
    exact row_tab _ _

/-! ### Reported meanings -/

section
variable (s : State) (p : Party)

/-- HANGUP of a move (R23). -/
theorem hangupEvent_entered (r : PartyRec) {into : PartyState} (hi : into ≠ .screening) :
    hangupEvent s (s.entered p into r) p
      = { partyEvent .hangup p with
          group := if (s.party p).state = .screening then s.groupOf p else none,
          value1 := some (s.party p).callSeconds, value2 := some (s.party p).airSeconds } := by
  unfold hangupEvent
  rw [groupLeft_of_leave (t := s.entered p into r) rfl hi]

/-- PARTY_FAULT of a move (R24). -/
theorem faultEvent_entered (r : PartyRec) {into : PartyState} (hi : into ≠ .screening) (cause : Nat) :
    faultEvent s (s.entered p into r) p cause
      = { partyEvent .partyFault p with
          group := if (s.party p).state = .screening then s.groupOf p else none,
          value1 := some cause, value2 := some (stateCode (s.party p).state) } := by
  unfold faultEvent
  rw [groupLeft_of_leave (t := s.entered p into r) rfl hi]

/-- SEIZE rings a VACANT or looped party (R22, R29). -/
theorem State.seized_rings (h : (s.party p).state = .vacant ∨ (s.party p).state = .looptest) : s.seized p = s.toAlerting p := by
  rcases h with h | h <;> simp only [State.seized, h]

/-- ONHOOK ends an alert, a call, a clearing or a fault in VACANT, an answered call with HANGUP (R22, R23). -/
theorem State.onhook_ends
    (h : (s.party p).state = .alerting ∨ (s.party p).state.onCall = true ∨ (s.party p).state = .fault) :
    ∃ call, s.onhook p = s.toVacant p call
      ∧ ((s.party p).state.answered = true → call = fun before after => [hangupEvent before after p]) := by
  unfold State.onhook
  cases hs : (s.party p).state
  case vacant | looptest => simp [hs, PartyState.onCall] at h
  case screening | parked | queued | onAir => exact ⟨_, rfl, fun _ => rfl⟩
  all_goals exact ⟨_, rfl, fun ha => by simp [PartyState.answered] at ha⟩

/-- Any other meeting of meaning and state changes nothing (R22). -/
theorem State.takeMeaning_ignored (m : Meaning)
    (h1 : ¬ (m = .seize ∧ ((s.party p).state = .vacant ∨ (s.party p).state = .looptest)))
    (h2 : ¬ (m = .onhook ∧ ((s.party p).state = .alerting ∨ (s.party p).state.onCall = true ∨ (s.party p).state = .fault)))
    (h3 : ¬ (m = .flash ∧ (s.party p).state.answered = true)) (h4 : ¬ (m = .fault ∧ (s.party p).state ≠ .fault)) :
    s.takeMeaning p m = s := by
  cases m
  case seize =>
    show s.seized p = s
    unfold State.seized
    cases hs : (s.party p).state <;> simp [hs] at h1 ⊢
  case onhook =>
    show s.onhook p = s
    unfold State.onhook
    cases hs : (s.party p).state <;> simp [hs, PartyState.onCall] at h2 ⊢
  case flash => exact if_neg (by simpa using h3)
  case fault => exact if_pos (by simpa using h4)

/-- The first event of a party that begins to ring, from a state other than a loop test (R29). -/
theorem State.toAlerting_first (h : (s.party p).state ≠ .looptest) : s.offersFirst (s.toAlerting p) p
    { partyEvent .alert p with value1 := some 1 } (s.party p).owner none := by
  have e : alertEvent (s.entered p .alerting
      { (s.party p).enter .alerting with alertCount := 1, realert := some (s.times.talr * 1000) }) p
      = { partyEvent .alert p with value1 := some 1 } := by
    unfold alertEvent
    rw [State.entered_party, if_pos rfl]
  rw [s.toAlerting_eq, if_neg h, List.nil_append, e]
  exact s.entered_first p .alerting _ none _ [] []

/-- The first event of a party that fails, from a state other than a loop test (R24). -/
theorem State.toFault_first (cause : Nat) (h : (s.party p).state ≠ .looptest) : s.offersFirst (s.toFault p cause) p
    { partyEvent .partyFault p with
      group := if (s.party p).state = .screening then s.groupOf p else none,
      value1 := some cause, value2 := some (stateCode (s.party p).state) } (s.party p).owner none := by
  rw [s.toFault_eq, if_neg h, List.nil_append, faultEvent_entered s p _ (by decide)]
  exact s.entered_first p .fault _ none _ [] []

end

/-- A report taken is a meaning taken where the party is in service on a port that is not DISABLED (R22). -/
theorem exec_signalReport {s : State} {p : Party} (m : Meaning) (hi : s.inService p = true)
    (hd : (s.port (portOf p)).sync ≠ .disabled) :
    exec (.signalReport p m) s = .next ((s.takeReport p m).takeMeaning p m) := by
  have hc : (s.inService p && (s.port (portOf p)).sync != .disabled) = true := by simp [hi, hd]
  simp only [exec, execSignalReport, hc, if_true]

/-- Settles O50. -/
theorem aSignalReportMovesAPartyByItsState : Obligations.ASignalReportMovesAPartyByItsState := by
  intro p m s
  dsimp only
  refine ⟨fun h => ?_, fun hi hd => ?_⟩
  · have hc : (s.inService p && (s.port (portOf p)).sync != .disabled) = false := by rcases h with h | h <;> simp [h]
    simp only [exec, execSignalReport, hc]
    rfl
  have hx := exec_signalReport m hi hd
  refine ⟨fun h1 h2 h3 h4 => ?_, fun h => ?_, fun h => ?_, fun h => ?_, fun h => ?_⟩
  · rw [hx, State.takeMeaning_ignored (s.takeReport p m) p m h1 h2 h3 h4]
    rfl
  · obtain ⟨rfl, hs⟩ := h
    have hm := (s.takeReport p .seize).toAlerting_moved p
    have hn : ∀ t, t ≠ PartyState.vacant → t ≠ .looptest → (s.party p).state ≠ t := by
      rcases hs with hs | hs <;> rw [hs] <;> exact fun t h1 h2 => by simp [*, eq_comm]
    have hcol := hm.collections (hn _ (by decide) (by decide)) (hn _ (by decide) (by decide)) (hn _ (by decide) (by decide))
    refine ⟨_, hx.trans (congrArg _ (State.seized_rings _ p hs)), hm.1, hcol.1, hcol.2, hm.2.2.2.1, hm.2.2.2.2, fun hv => ?_⟩
    exact (s.takeReport p .seize).toAlerting_first p fun hl => by
      rw [show (s.party p).state = .looptest from hl] at hv
      cases hv
  · obtain ⟨rfl, hs⟩ := h
    obtain ⟨call, hcall, hangup⟩ := State.onhook_ends (s.takeReport p .onhook) p hs
    have hm := (s.takeReport p .onhook).toVacant_moved p call
    refine ⟨_, hx.trans (congrArg _ hcall), hm.1, hm.removed (by decide), hm.2.2.2.1, hm.2.2.2.2, fun ha => ?_⟩
    refine (s.takeReport p .onhook).toVacant_first p call ?_
    rw [hangup ha]
    exact congrArg (fun e => [e]) (hangupEvent_entered (s.takeReport p .onhook) p _ (into := .vacant) (by decide))
  · obtain ⟨rfl, hs⟩ := h
    have hm := (s.takeReport p .fault).toFault_moved p Cause.signal
    refine ⟨_, hx.trans (congrArg _ (if_neg hs)), hm.1, hm.removed (by decide), hm.2.2.2.1, hm.2.2.2.2, fun hl => ?_⟩
    exact (s.takeReport p .fault).toFault_first p Cause.signal hl
  · obtain ⟨rfl, hs⟩ := h
    refine ⟨_, hx.trans (congrArg _ (if_pos hs)), ?_, fun j => ?_⟩
    · rw [State.offerAll_form]
      rfl
    · exact State.offerAll_link _ _ j

end Sys2Proof.Machine

namespace Sys2Proof.Machine

/-! ### Receivers, where the owner stays -/

theorem some_beq_some_comm (k j : Link) : (some k == some j) = (j == k) := by
  rw [Option.some_beq_some, Bool.beq_comm]

section
variable {s t : State} {p : Party} (ho : (t.party p).owner = (s.party p).owner)
include ho

theorem viewOffer_sameOwner (hr : t.regions = s.regions) (hv : t.supervisor = s.supervisor) (e : Event) :
    viewOffer s t p e = { event := e, receives := fun j => s.views j p || (s.party p).owner == some j } := by
  unfold viewOffer
  simp only [State.views_eq hr hv, ho, Bool.or_assoc, Bool.or_self]

theorem studioOffer_sameOwner (hr : t.regions = s.regions) (hv : t.supervisor = s.supervisor) (x : Studio) (e : Event) :
    studioOffer s t p x e
      = { event := e, receives := fun j => s.views j p || s.viewsStudio j x || (s.party p).owner == some j } := by
  unfold studioOffer
  simp only [State.views_eq hr hv, State.viewsStudio_eq hr hv, ho, Bool.or_assoc, Bool.or_self]

end

theorem talkOffer_sameOwner (o : Option Link) (k : Link) (e : Event) :
    talkOffer o o k e = { event := e, receives := fun j => j == k || o == some j } := by
  unfold talkOffer
  simp only [Bool.or_assoc, Bool.or_self]

/-! ### RLSE -/

section
variable (s : State) (p : Party) (k : Link)

/-- The record of a party whose call clears down (R16). -/
def PartyRec.released (r : PartyRec) : PartyRec := { r.enter .clearing with clear := some Config.tclr }

theorem State.release_moved : s.moved (s.release p k) p .clearing (s.party p).released := by
  rw [s.release_eq]
  exact s.conclude_moved p .clearing _ (some k) _ []

theorem State.release_hears : (s.release p k).hears p := by
  rw [s.release_eq]
  exact State.conclude_hears _ _ p p _ _ _ (fun h => by simp [PartyRec.enter] at h)
    (fun h => by simp [PartyRec.enter] at h) (mem_concerned_self _ _ p)

/-- What a clearing call of party `p`, owned by link `k`, offers: STATE, the place left, the talk entries and the handover
that end (R27). -/
def State.releaseOffers : List Offer :=
  [{ event := { partyEvent .state p with
       studio := s.studioOf p, group := if (s.party p).state = .screening then s.groupOf p else none,
       value1 := some 6, value2 := some (stateCode (s.party p).state) },
     receives := fun j => s.views j p || j == k }]
  ++ (match s.queueOf p with
    | none => []
    | some x =>
      [{ event := { partyEvent .queueChanged p with
           studio := some x, link := some k, value1 := some 0x37, value2 := some 0 },
         receives := fun j => s.views j p || s.viewsStudio j x || j == k }])
  ++ (match s.slotOf p with
    | none => []
    | some n =>
      [{ event := { partyEvent .airSlot p with
           studio := some (s.studioOfSlot n), link := some k, value1 := some n.val, value2 := some 0x39 },
         receives := fun j => s.views j p || s.viewsStudio j (s.studioOfSlot n) || j == k }])
  ++ ((s.talkList p).map fun e =>
      { event := { partyEvent .talkEnded p with link := some e.link, value1 := some 6, value2 := some e.priority },
        receives := fun j => j == e.link || j == k })
  ++ match (s.party p).handover with
    | none => []
    | some h => [s.resultOf p h.requester 0x4B (some k)]

theorem State.placesLaw.release_offers (h : s.placesLaw) (ho : (s.party p).owner = some k) :
    transitionOffers s (s.entered p .clearing (s.party p).released) p (some k)
      [stateEvent s (s.entered p .clearing (s.party p).released) p] = s.releaseOffers p k := by
  have hown : ((s.entered p .clearing (s.party p).released).party p).owner = (s.party p).owner := by
    rw [State.entered_party, if_pos rfl]
    rfl
  have hro : (s.party p).released.owner = some k := ho
  rw [transitionOffers, h.queueOffers_entered _ (by decide), h.slotOffers_entered _ (by decide),
    talkOffers_entered _ rfl, goneOffers_entered _ rfl, h.stateEvent_entered _ (by decide) (by decide) (by decide)]
  simp only [List.map_cons, List.map_nil, viewOffer_sameOwner hown (s.entered_regions p _ _) (s.entered_supervisor p _ _),
    studioOffer_sameOwner hown (s.entered_regions p _ _) (s.entered_supervisor p _ _), hro, resultOffer_eq]
  simp only [ho, talkOffer_sameOwner, some_beq_some_comm]
  rfl

theorem State.placesLaw.release_exactly (h : s.placesLaw) (ho : (s.party p).owner = some k) :
    s.offersExactly (s.release p k) (s.releaseOffers p k) := by
  have e := State.conclude_exactly (s := s) (t := s.entered p .clearing (s.party p).released) p (some k)
    [stateEvent s (s.entered p .clearing (s.party p).released) p] [] (by simp)
  rw [List.append_nil, h.release_offers _ _ _ ho] at e
  rw [s.release_eq]
  exact e

/-- The park timer restarted by a request of the owner is nothing that these offers read. -/
theorem State.ownerNamed_releaseOffers : (s.ownerNamed k p).releaseOffers p k = s.releaseOffers p k := by
  have hv : ∀ j, (s.ownerNamed k p).views j p = s.views j p := fun j => State.views_eq (by simp) (by simp) j p
  have hw : ∀ j x, (s.ownerNamed k p).viewsStudio j x = s.viewsStudio j x := fun j x =>
    State.viewsStudio_eq (by simp) (by simp) j x
  have hp : (s.ownerNamed k p).party p = (s.party p).named k s.times.tprk := by rw [s.ownerNamed_party, if_pos rfl]
  have hq : (s.ownerNamed k p).queueOf p = s.queueOf p := by simp [State.queueOf]
  have hn : (s.ownerNamed k p).slotOf p = s.slotOf p := by simp [State.slotOf]
  have hs : (s.ownerNamed k p).studioOfSlot = s.studioOfSlot := by funext n; simp [State.studioOfSlot]
  have hx : (s.ownerNamed k p).studioOf p = s.studioOf p := by simp [State.studioOf, hq, hn, hs]
  unfold State.releaseOffers State.resultOf
  simp only [hv, hw, hp, hq, hn, hx, hs, PartyRec.named_state, PartyRec.named_owner, PartyRec.named_handover,
    State.ownerNamed_groupOf, State.ownerNamed_talkList]

end

/-- Settles O15. -/
theorem rlseClearsTheCallDown : Obligations.RlseClearsTheCallDown := by
  intro k tag b p s hb hc ha ho
  have hp : (s.ownerNamed k p).party p = (s.party p).named k s.times.tprk := by rw [s.ownerNamed_party, if_pos rfl]
  have hx : askRlse k b s = accept ((s.ownerNamed k p).release p k) [] := by simp [askRlse, hb, hc, ha, State.owns, ho]
  have hm := (s.ownerNamed k p).release_moved p k
  refine ⟨(s.ownerNamed k p).release p k, ?_, ?_, State.removed_of_ownerNamed (hm.removed (by decide)), hm.2.2.2.1,
    State.partyFrame_of_ownerNamed hm.2.2.2.2, (s.ownerNamed k p).release_hears p k, fun hl => ?_⟩
  · rw [← hx]
    rfl
  · rw [hm.1, hp]
    rfl
  · have e := State.placesLaw.release_exactly _ p k (State.ownerNamed_placesLaw k p hl) (by rw [hp, PartyRec.named_owner, ho])
    rw [s.ownerNamed_releaseOffers] at e
    exact State.offersExactly_of_ownerNamed e

end Sys2Proof.Machine

namespace Sys2Proof.Machine

/-! ### Places by their queues and slots -/

/-- A party in one ready queue and not in the other has that studio's queue. -/
theorem State.queueOf_eq_some {s : State} {p : Party} {x : Studio} (h : p ∈ s.queue x) (hn : ∀ y, y ≠ x → p ∉ s.queue y) :
    s.queueOf p = some x := by
  unfold State.queueOf
  cases x
  · exact if_pos (List.contains_iff_mem.2 h)
  · exact (if_neg fun ha => hn .a (by decide) (List.contains_iff_mem.1 ha)).trans (if_pos (List.contains_iff_mem.2 h))

theorem State.placesLaw.notMem_queue {s : State} (h : s.placesLaw) {p : Party} (hp : (s.party p).state ≠ .queued) (x : Studio) :
    p ∉ s.queue x := fun hm => hp (h.queuedLaw x p hm)

/-- Off the air every entry of the talkback list is eligible, so that the first one is active (R106, R107). -/
theorem State.activeEntry_offAir {s : State} {p : Party} (h : (s.party p).state ≠ .onAir) :
    s.activeEntry p = (s.talkList p).head? := by
  have e : s.eligible p = fun _ => true := by
    funext e
    simp [State.eligible, State.talkFloor, h]
  unfold State.activeEntry
  rw [e]
  cases s.talkList p <;> rfl

theorem activeOffers_same {s t : State} {p : Party} (h : t.activeEntry p = s.activeEntry p) (own : Option Link) :
    activeOffers s t p own = [] := by
  unfold activeOffers
  rw [h]
  rcases s.activeEntry p with _ | e
  · rfl
  · exact if_pos rfl

theorem goneOffers_same {s t : State} {p : Party} (h : (t.party p).handover = (s.party p).handover) :
    goneOffers s t p = [] := by
  unfold goneOffers
  rw [h]
  cases (s.party p).handover <;> rfl

/-! ### QUEU -/

section
variable (s : State) (p : Party) (x : Studio) (k : Link)

/-- Party `p` at the tail of the ready queue, before the events and reports of the transition (R11). -/
def State.joining : State :=
  let entered := s.entered p .queued ((s.party p).queuedBy k)
  entered.setQueue x (entered.queue x ++ [p])

theorem State.toQueue_joining : s.toQueue p x k
    = (s.joining p x k).conclude s p (some k) [stateEvent s (s.joining p x k) p]
        (if (s.party p).owner.isNone then [ownerOffer s (s.joining p x k) p k Cause.queued] else []) := s.toQueue_eq p k x

theorem State.joining_form : s.joining p x k
    = { s.entered p .queued ((s.party p).queuedBy k) with stud := (s.joining p x k).stud } := by
  unfold State.joining
  exact State.setQueue_form _ _ _

@[simp] theorem State.joining_party (q : Party) :
    (s.joining p x k).party q = if q = p then (s.party p).queuedBy k else s.party q := by
  rw [s.joining_form]
  exact s.entered_party p .queued ((s.party p).queuedBy k) q

@[simp] theorem State.joining_links : (s.joining p x k).links = s.links := by
  rw [s.joining_form]
  exact s.entered_links p .queued ((s.party p).queuedBy k)

@[simp] theorem State.joining_regions : (s.joining p x k).regions = s.regions := by
  rw [s.joining_form]
  exact s.entered_regions p .queued ((s.party p).queuedBy k)

@[simp] theorem State.joining_supervisor : (s.joining p x k).supervisor = s.supervisor := by
  rw [s.joining_form]
  exact s.entered_supervisor p .queued ((s.party p).queuedBy k)

theorem State.joining_conf : (s.joining p x k).conf = (s.leave p .queued).conf := by
  rw [s.joining_form]
  rfl

theorem State.joining_talkList (q : Party) : (s.joining p x k).talkList q = s.talkList q := by
  rw [s.joining_form]
  exact (s.entered_talkList p .queued ((s.party p).queuedBy k) q).trans (if_neg (by simp [PartyState.talkable]))

end

section
variable {s : State} {p : Party} (x : Studio) (k : Link) (hq : (s.party p).state ≠ .queued) (ha : (s.party p).state ≠ .onAir)
include hq ha

theorem State.joining_stud : (s.joining p x k).stud = (s.setQueue x (s.queue x ++ [p])).stud := by
  have e := s.leave_stud_none p .queued hq ha
  cases x <;> simp [State.joining, State.setQueue, State.queue, e]

theorem State.joining_queue (y : Studio) :
    (s.joining p x k).queue y = if y = x then s.queue x ++ [p] else s.queue y := by
  rw [← State.setQueue_queue]
  cases y <;> simp [State.queue, State.joining_stud x k hq ha]

theorem State.joining_slots : (s.joining p x k).stud.slots = s.stud.slots := by
  rw [State.joining_stud x k hq ha]
  cases x <;> rfl

end

section
variable {s : State} {p : Party} (h : s.placesLaw) (x : Studio) (k : Link)
  (hq : (s.party p).state ≠ .queued) (ha : (s.party p).state ≠ .onAir)
include h hq ha

theorem State.placesLaw.joining_queueOf : (s.joining p x k).queueOf p = some x := by
  refine State.queueOf_eq_some ?_ fun y hy => ?_
  · rw [State.joining_queue x k hq ha, if_pos rfl]
    simp
  · rw [State.joining_queue x k hq ha, if_neg hy]
    exact h.notMem_queue hq y

theorem State.placesLaw.joining_positionOf : (s.joining p x k).positionOf p = some ((s.queue x).length + 1) := by
  unfold State.positionOf
  rw [h.joining_queueOf x k hq ha, Option.map_some, State.joining_queue x k hq ha, if_pos rfl,
    List.idxOf_append_of_notMem (h.notMem_queue hq x)]
  simp

theorem State.placesLaw.joining_studioOf : (s.joining p x k).studioOf p = some x := by
  unfold State.studioOf
  rw [h.joining_queueOf x k hq ha]

theorem State.placesLaw.joining (hlen : (s.queue x).length < 12) : (s.joining p x k).placesLaw := by
  have hn := h.notMem_queue hq
  have hslots := State.joining_slots x k hq ha
  have hstud := State.joining_stud x k hq ha
  obtain ⟨hnd, hmem, hair, huniq, hA, hB⟩ := h
  have hpq : p ∉ s.stud.queueA ++ s.stud.queueB := by
    rw [List.mem_append]
    exact not_or.2 ⟨hn .a, hn .b⟩
  have hperm : ((s.joining p x k).stud.queueA ++ (s.joining p x k).stud.queueB).Perm (p :: (s.stud.queueA ++ s.stud.queueB)) := by
    rw [hstud]
    cases x
    · simp [State.setQueue, State.queue, List.perm_middle]
    · simpa [State.setQueue, State.queue] using List.perm_append_singleton p (s.stud.queueA ++ s.stud.queueB)
  refine ⟨hperm.nodup_iff.2 (List.nodup_cons.2 ⟨hpq, hnd⟩), fun q => ?_, fun q => ?_, by rw [hslots]; exact huniq, ?_⟩
  · rw [hperm.mem_iff, List.mem_cons, hmem, State.joining_party]
    by_cases e : q = p <;> simp [e, PartyRec.queuedBy, PartyRec.enter]
  · rw [hslots, hair, State.joining_party]
    by_cases e : q = p
    · simp [e, ha, PartyRec.queuedBy, PartyRec.enter]
    · rw [if_neg e]
  · rw [hstud]
    cases x
    · exact ⟨by simpa [State.setQueue, State.queue] using hlen, hB⟩
    · exact ⟨hA, by simpa [State.setQueue, State.queue] using hlen⟩

end

/-- What QUEU of link `k` offers for party `p`, whose owner is then `o` (R11, R27). -/
def State.joinOffers (s : State) (p : Party) (x : Studio) (k : Link) (o : Option Link) : List Offer :=
  let left := if (s.party p).state = .screening then s.groupOf p else none
  let both : Link → Bool := fun j => (s.party p).owner == some j || o == some j
  [{ event := { partyEvent .state p with
       studio := some x, group := left, value1 := some 4, value2 := some (stateCode (s.party p).state) },
     receives := fun j => s.views j p || both j },
   { event := { partyEvent .queueChanged p with
       studio := some x, link := some k, value1 := some 0x35, value2 := some ((s.queue x).length + 1) },
     receives := fun j => s.views j p || s.viewsStudio j x || both j }]
  ++ if (s.party p).owner = none then
      [{ event := { partyEvent .ownerChanged p with
           link := some k, group := left, value1 := some 0xFFFF, value2 := some 0x42 },
         receives := fun j => s.views j p || j == k }]
    else []

section
variable {s : State} {p : Party} (h : s.placesLaw) (x : Studio) (k : Link)
  (hq : (s.party p).state ≠ .queued) (ha : (s.party p).state ≠ .onAir)
include h hq ha

theorem State.placesLaw.joining_stateEvent : stateEvent s (s.joining p x k) p
    = { partyEvent .state p with
        studio := some x, group := if (s.party p).state = .screening then s.groupOf p else none,
        value1 := some 4, value2 := some (stateCode (s.party p).state) } := by
  unfold stateEvent studioNamed
  rw [h.joining_studioOf x k hq ha, groupLeft_of_leave (s.joining_conf p x k) (by decide), State.joining_party, if_pos rfl]
  rfl

theorem State.placesLaw.joining_queueOffers : queueOffers s (s.joining p x k) p (some k)
    = [studioOffer s (s.joining p x k) p x (queueEvent x p (some k) Cause.joined ((s.queue x).length + 1))] := by
  unfold queueOffers
  rw [h.joining_queueOf x k hq ha, State.queueOf_none h hq, h.joining_positionOf x k hq ha]
  rfl

theorem State.placesLaw.joining_slotOffers : slotOffers s (s.joining p x k) p (some k) = [] := by
  have e : (s.joining p x k).slotOf p = s.slotOf p := by simp only [State.slotOf, State.joining_slots x k hq ha]
  unfold slotOffers
  rw [e, State.slotOf_none h ha]

omit h hq in
theorem joining_talkOffers : talkOffers s (s.joining p x k) p = [] := by
  have e : (s.joining p x k).activeEntry p = s.activeEntry p := by
    rw [State.activeEntry_offAir ha, State.activeEntry_offAir (by simp [PartyRec.queuedBy, PartyRec.enter]),
      s.joining_talkList]
  unfold talkOffers
  rw [if_pos (by simp [PartyRec.queuedBy, PartyRec.enter, PartyState.talkable])]
  exact activeOffers_same e none

theorem State.placesLaw.toQueue_exactly :
    s.offersExactly (s.toQueue p x k) (s.joinOffers p x k ((s.party p).queuedBy k).owner) := by
  have e := State.conclude_exactly (s := s) (t := s.joining p x k) p (some k) [stateEvent s (s.joining p x k) p]
    (if (s.party p).owner.isNone then [ownerOffer s (s.joining p x k) p k Cause.queued] else []) (by simp)
  have hv : ∀ j, (s.joining p x k).views j p = s.views j p := fun j => State.views_eq (by simp) (by simp) j p
  have hw : ∀ j, (s.joining p x k).viewsStudio j x = s.viewsStudio j x := fun j => State.viewsStudio_eq (by simp) (by simp) j x
  have hg := groupLeft_of_leave (s := s) (s.joining_conf p x k) (by decide)
  rw [← s.toQueue_joining, transitionOffers, h.joining_queueOffers x k hq ha, h.joining_slotOffers x k hq ha,
    joining_talkOffers x k ha, goneOffers_same (by rw [State.joining_party, if_pos rfl]; rfl),
    h.joining_stateEvent x k hq ha] at e
  simp only [List.map_cons, List.map_nil, viewOffer, studioOffer, ownerOffer, State.joining_party, if_true, hv, hw, hg,
    Bool.or_assoc, List.append_nil, List.cons_append, List.nil_append] at e
  unfold State.joinOffers
  simp only [Bool.or_assoc, List.cons_append, List.nil_append]
  rcases ho : (s.party p).owner with _ | o
  · simpa [ho, PartyRec.queuedBy, PartyRec.enter, queueEvent, linkValue, Cause.joined, Cause.queued] using e
  · simpa [ho, PartyRec.queuedBy, PartyRec.enter, queueEvent, linkValue, Cause.joined, Cause.queued] using e

end

theorem State.ownerNamed_joinOffers (s : State) (p : Party) (x : Studio) (k : Link) (o : Option Link) :
    (s.ownerNamed k p).joinOffers p x k o = s.joinOffers p x k o := by
  have hv : ∀ j, (s.ownerNamed k p).views j p = s.views j p := fun j => State.views_eq (by simp) (by simp) j p
  have hw : ∀ j, (s.ownerNamed k p).viewsStudio j x = s.viewsStudio j x := fun j => State.viewsStudio_eq (by simp) (by simp) j x
  have hp : (s.ownerNamed k p).party p = (s.party p).named k s.times.tprk := by rw [s.ownerNamed_party, if_pos rfl]
  have hq : (s.ownerNamed k p).queue x = s.queue x := by cases x <;> simp [State.queue]
  unfold State.joinOffers
  simp only [hv, hw, hp, hq, PartyRec.named_state, PartyRec.named_owner, State.ownerNamed_groupOf]

theorem State.toQueue_hears {s : State} (h : s.placesLaw) {p : Party} (x : Studio) (k : Link)
    (hq : (s.party p).state ≠ .queued) (ha : (s.party p).state ≠ .onAir) (hlen : (s.queue x).length < 12) :
    (s.toQueue p x k).hears p := by
  rw [s.toQueue_joining]
  exact State.conclude_hears _ _ p p _ _ _ (fun _ => h.joining x k hq ha hlen)
    (fun hs => by simp [PartyRec.queuedBy, PartyRec.enter] at hs) (mem_concerned_self _ _ p)

theorem State.ownerNamed_queue (s : State) (k : Link) (p : Party) (x : Studio) : (s.ownerNamed k p).queue x = s.queue x := by
  cases x <;> simp [State.queue]

theorem State.outOfGroup_of_ownerNamed {s t : State} {k : Link} {p : Party} (h : (s.ownerNamed k p).outOfGroup t p) :
    s.outOfGroup t p := by
  rw [s.ownerNamed_form] at h
  exact h

/-- QUEU of a party that the link may queue, where the ready queue has room (R11). -/
theorem askQueu_accepted {k : Link} {b d : Byte} {p : Party} {x : Studio} {s : State} (hb : partyArg b = some p)
    (hd : studioArg d = some x) (hx : s.controlsStudio k x = true) (hc : (s.party p).owner = some k ∨ s.controls k p = true)
    (hs : (s.party p).state = .screening ∨ (s.party p).state = .parked) (hlen : (s.queue x).length < 12) :
    askQueu k b d s = accept ((s.ownerNamed k p).toQueue p x k) [byte ((s.queue x).length + 1)] := by
  have ho : (s.owns k p || s.controls k p) = true := by rcases hc with hc | hc <;> simp [State.owns, hc]
  have hl : ¬ Config.readyRoom ≤ (s.queue x).length := Nat.not_le.2 hlen
  rcases hs with hs | hs <;> simp [askQueu, hb, hd, hx, ho, hs, hl]

/-- Settles O13. -/
theorem queuPutsAPartyAtTheTail : Obligations.QueuPutsAPartyAtTheTail := by
  intro k tag b d p x s hb hd hx hc hs hlen
  have hn : (s.ownerNamed k p).party p = (s.party p).named k s.times.tprk := by rw [s.ownerNamed_party, if_pos rfl]
  have hst : ((s.ownerNamed k p).party p).state = (s.party p).state := by rw [hn, PartyRec.named_state]
  have hnq : ((s.ownerNamed k p).party p).state ≠ .queued := by rw [hst]; rcases hs with hs | hs <;> simp [hs]
  have hna : ((s.ownerNamed k p).party p).state ≠ .onAir := by rw [hst]; rcases hs with hs | hs <;> simp [hs]
  obtain ⟨hp, -, hconf, htalk, hframe⟩ := (s.ownerNamed k p).toQueue_moved p x k
  have hstud : ((s.ownerNamed k p).toQueue p x k).stud = ((s.ownerNamed k p).joining p x k).stud := by
    rw [State.toQueue_joining, State.conclude_stud]
  have hqueue : ∀ y, ((s.ownerNamed k p).toQueue p x k).queue y = if y = x then s.queue x ++ [p] else s.queue y := fun y => by
    rw [← s.ownerNamed_queue k p x, ← s.ownerNamed_queue k p y, ← State.joining_queue x k hnq hna]
    cases y <;> simp [State.queue, hstud]
  refine ⟨(s.ownerNamed k p).toQueue p x k, ?_, ?_, ?_, fun y hy => ?_, ?_, fun h => ?_, fun h => ?_, ?_,
    State.partyFrame_of_ownerNamed hframe, fun hl => ⟨?_, ?_⟩⟩
  · rw [← askQueu_accepted hb hd hx hc hs hlen]
    rfl
  · rw [hp, hn]
    rcases ho : (s.party p).owner with _ | o <;>
      simp [PartyRec.queuedBy, PartyRec.enter, ho, PartyState.signal]
  · rw [hqueue, if_pos rfl]
  · rw [hqueue, if_neg hy]
  · rw [hstud, State.joining_slots x k hnq hna, State.ownerNamed_stud]
  · exact State.outOfGroup_of_ownerNamed
      (State.outOfGroup_of_ungroup p (hconf.trans (State.leave_conf_screening _ p .queued (hst.trans h) (by decide))))
  · rw [hconf, State.leave_conf_none _ p .queued (by rwa [hst]), State.ownerNamed_conf]
  · rw [htalk, State.ownerNamed_talkList]
  · exact State.toQueue_hears (State.ownerNamed_placesLaw k p hl) x k hnq hna (by rwa [State.ownerNamed_queue])
  · have e := (State.ownerNamed_placesLaw k p hl).toQueue_exactly x k hnq hna
    rw [s.ownerNamed_joinOffers, ← hp] at e
    exact State.offersExactly_of_ownerNamed e

end Sys2Proof.Machine

namespace Sys2Proof.Machine

/-! ### Free slots, and the slot of a party -/

/-- The first of the ascending numbers that has a property is the lowest one that has it. -/
theorem find?_upTo {n : Nat} {f : Fin n → Bool} {i : Fin n} (h : f i = true) (hl : ∀ j, j < i → f j = false) :
    (upTo n).find? f = some i := by
  obtain ⟨l, r, e, hlt⟩ := upTo_split i
  rw [e, List.find?_append, List.find?_eq_none.mpr fun j hj => by simp [hl j (hlt j hj)], List.find?_cons, h]
  rfl

/-- The lowest free slot of a studio's share (R65). -/
theorem State.freeSlot_eq_some {s : State} {x : Studio} {n : AirSlot} (hx : s.studioOfSlot n = x)
    (hn : row s.stud.slots n = none) (hl : ∀ m, m < n → s.studioOfSlot m = x → (row s.stud.slots m).isSome) :
    s.freeSlot x = some n := by
  unfold State.freeSlot State.share allSlots
  rw [List.find?_filter]
  refine find?_upTo (by simp [hx, hn]) fun m hm => ?_
  by_cases e : s.studioOfSlot m = x
  · obtain ⟨o, ho⟩ := Option.isSome_iff_exists.1 (hl m hm e)
    simp [ho]
  · simp [e]

/-- The one slot that holds a party (R64). -/
theorem State.slotOf_eq_some {s : State} {p : Party} {n : AirSlot} {o : OnSlot} (h : row s.stud.slots n = some o)
    (ho : o.party = p) (hu : ∀ m w, row s.stud.slots m = some w → w.party = p → m = n) : s.slotOf p = some n := by
  refine find?_upTo (by simp [h, ho]) fun m hm => ?_
  rcases e : row s.stud.slots m with _ | w
  · rfl
  · have hw : w.party ≠ p := fun hw => absurd (hu m w e hw) (Fin.ne_of_lt hm)
    simpa using hw

/-! ### AIRP and NEXT -/

section
variable (s : State) (p : Party) (n : AirSlot)

/-- Party `p` on slot `n`, before the events and reports of the transition (R12). -/
def State.airing : State := (s.entered p .onAir ((s.party p).enter .onAir)).setSlot n (some { party := p, gain := .half 0 })

theorem State.toAir_airing (k : Link) :
    s.toAir p n k = (s.airing p n).conclude s p (some k) [stateEvent s (s.airing p n) p] [] := rfl

@[simp] theorem State.airing_party (q : Party) :
    (s.airing p n).party q = if q = p then (s.party p).enter .onAir else s.party q := s.entered_party p .onAir _ q

@[simp] theorem State.airing_links : (s.airing p n).links = s.links := s.leave_links p .onAir

@[simp] theorem State.airing_regions : (s.airing p n).regions = s.regions := s.leave_regions p .onAir

@[simp] theorem State.airing_supervisor : (s.airing p n).supervisor = s.supervisor := s.leave_supervisor p .onAir

theorem State.airing_talkList (q : Party) : (s.airing p n).talkList q = s.talkList q :=
  (s.entered_talkList p .onAir ((s.party p).enter .onAir) q).trans (if_neg (by simp [PartyState.talkable]))

variable {s p} (h : (s.party p).state = .queued)
include h

theorem State.airing_stud : (s.airing p n).stud = { s.stud with
    queueA := s.stud.queueA.filter (· != p), queueB := s.stud.queueB.filter (· != p),
    slots := put s.stud.slots n (some { party := p, gain := .half 0 }) } := by
  have e := s.leave_stud_queued p .onAir h (by decide)
  simp only [State.airing, State.setSlot, State.entered_stud, e]

theorem State.airing_slots (m : AirSlot) :
    row (s.airing p n).stud.slots m = if m = n then some { party := p, gain := .half 0 } else row s.stud.slots m := by
  rw [State.airing_stud n h]
  exact row_put _ _ _ _

theorem State.airing_studioOfSlot (m : AirSlot) : (s.airing p n).studioOfSlot m = s.studioOfSlot m := by
  unfold State.studioOfSlot
  rw [State.airing_stud n h]

theorem State.airing_floor (x : Studio) : (s.airing p n).floor x = s.floor x := by
  cases x <;> simp [State.floor, State.airing_stud n h]

theorem State.airing_queueOf : (s.airing p n).queueOf p = none := by
  simp [State.queueOf, State.airing_stud n h]

end

section
variable {s : State} (hl : s.placesLaw) {p : Party} (n : AirSlot) (h : (s.party p).state = .queued)
include hl h

theorem State.placesLaw.notOnSlot {m : AirSlot} {o : OnSlot} (hm : row s.stud.slots m = some o) : o.party ≠ p := fun ho => by
  have := (hl.2.2.1 p).1 ⟨m, o, hm, ho⟩
  rw [h] at this
  cases this

theorem State.placesLaw.airing_slotOf : (s.airing p n).slotOf p = some n := by
  refine State.slotOf_eq_some (o := { party := p, gain := .half 0 }) ?_ rfl fun m w hm hw => ?_
  · rw [State.airing_slots n h, if_pos rfl]
  · by_contra hmn
    rw [State.airing_slots n h, if_neg hmn] at hm
    exact hl.notOnSlot h hm hw

theorem State.placesLaw.airing_studioOf : (s.airing p n).studioOf p = some (s.studioOfSlot n) := by
  unfold State.studioOf
  rw [State.airing_queueOf n h, hl.airing_slotOf n h]
  exact congrArg some (State.airing_studioOfSlot n h n)

theorem State.placesLaw.airing (hn : row s.stud.slots n = none) : (s.airing p n).placesLaw := by
  have hno := fun m o => hl.notOnSlot h (m := m) (o := o)
  have hslots := State.airing_slots n h
  have hstud := State.airing_stud n h
  obtain ⟨hnd, hmem, hair, huniq, hA, hB⟩ := hl
  have hfilter : (s.airing p n).stud.queueA ++ (s.airing p n).stud.queueB
      = (s.stud.queueA ++ s.stud.queueB).filter (· != p) := by
    rw [hstud, List.filter_append]
  refine ⟨by rw [hfilter]; exact hnd.filter _, fun q => ?_, fun q => ?_, fun i j o w hi hj he => ?_, ?_⟩
  · rw [hfilter, List.mem_filter, hmem, State.airing_party]
    by_cases e : q = p <;> simp [e, PartyRec.enter]
  · rw [State.airing_party]
    by_cases e : q = p
    · simp only [e, if_true, PartyRec.enter, iff_true]
      exact ⟨n, _, (hslots n).trans (if_pos rfl), rfl⟩
    · rw [if_neg e, ← hair]
      constructor
      · rintro ⟨m, o, hm, ho⟩
        rw [hslots] at hm
        split at hm
        · cases hm
          exact absurd ho.symm e
        · exact ⟨m, o, hm, ho⟩
      · rintro ⟨m, o, hm, ho⟩
        have hmn : m ≠ n := fun hmn => by simp [hmn, hn] at hm
        exact ⟨m, o, (hslots m).trans ((if_neg hmn).trans hm), ho⟩
  · rw [hslots] at hi hj
    split at hi <;> split at hj
    · simp [*]
    · cases hi
      exact absurd he.symm (hno j w hj)
    · cases hj
      exact absurd he (hno i o hi)
    · exact huniq i j o w hi hj he
  · rw [hstud]
    exact ⟨(List.length_filter_le _ _).trans hA, (List.length_filter_le _ _).trans hB⟩

end

/-- TALK_HELD of the first entry of a list, held by the floor (R116). -/
theorem heldEvent_floor {s t : State} {p : Party} {e : TalkEntry} {es : List TalkEntry} (hp : t.talkList p = e :: es)
    (he : t.eligible p e = false) : heldEvent s t p none e
      = [talkOffer (s.party p).owner (t.party p).owner e.link (talkEvent .talkHeld p e e.priority Cause.floor)] := by
  unfold heldEvent
  rw [hp, List.find?_cons_of_pos (by simp)]
  simp [he]

theorem State.studioOf_of_stud {s t : State} (h : t.stud = s.stud) (q : Party) : t.studioOf q = s.studioOf q := by
  have e : t.studioOfSlot = s.studioOfSlot := by
    funext n
    simp only [State.studioOfSlot, h]
  simp only [State.studioOf, State.queueOf, State.slotOf, h, e]

/-- The talkback list's head is of the highest priority (R106). -/
theorem State.talkLaw.head_priority {s : State} (h : s.talkLaw) {p : Party} {e : TalkEntry} {es : List TalkEntry}
    (hp : s.talkList p = e :: es) {f : TalkEntry} (hf : f ∈ s.talkList p) : f.priority ≤ e.priority := by
  have hs := (h p).1
  rw [hp] at hs hf
  rcases List.mem_cons.1 hf with rfl | hf
  · exact Nat.le_refl _
  · rcases (List.pairwise_cons.1 hs).1 f hf with h1 | ⟨h1, -⟩
    · exact Nat.le_of_lt h1
    · exact Nat.le_of_eq h1.symm

section
variable {s : State} (hl : s.placesLaw) {p : Party} (n : AirSlot) (h : (s.party p).state = .queued) (k : Link)

theorem airing_sameOwner : ((s.airing p n).party p).owner = (s.party p).owner := by
  rw [State.airing_party, if_pos rfl]
  simp [PartyRec.enter]

theorem airing_goneOffers : goneOffers s (s.airing p n) p = [] := by
  refine goneOffers_same ?_
  rw [State.airing_party, if_pos rfl]
  simp [PartyRec.enter]

include hl h

theorem State.placesLaw.airing_talkFloor : (s.airing p n).talkFloor p = s.floor (s.studioOfSlot n) := by
  unfold State.talkFloor
  rw [if_pos (by simp [PartyRec.enter]), hl.airing_studioOf n h]
  exact State.airing_floor n h _

/-- The active entry of a party taken to air: the head of its list, where the floor lets it (R106, R107). -/
theorem State.placesLaw.airing_activeEntry (ht : s.talkLaw) : (s.airing p n).activeEntry p
    = match (s.talkList p).head? with
      | none => none
      | some e => if e.priority < s.floor (s.studioOfSlot n) then none else some e := by
  have he : (s.airing p n).eligible p = fun e => decide (s.floor (s.studioOfSlot n) ≤ e.priority) := by
    funext e
    unfold State.eligible
    rw [hl.airing_talkFloor n h]
  unfold State.activeEntry
  rw [s.airing_talkList, he]
  rcases hp : s.talkList p with _ | ⟨e, es⟩
  · rfl
  · rw [List.head?_cons]
    dsimp only
    by_cases hf : e.priority < s.floor (s.studioOfSlot n)
    · have hn : ∀ f ∈ e :: es, f.priority < s.floor (s.studioOfSlot n) := fun f hm =>
        (ht.head_priority hp (by rwa [hp])).trans_lt hf
      rw [if_pos hf, List.find?_eq_none]
      exact fun f hm => by simpa using hn f hm
    · rw [if_neg hf, List.find?_cons_of_pos (by simpa using hf)]

theorem State.placesLaw.airing_talkOffers (ht : s.talkLaw) : talkOffers s (s.airing p n) p
    = match (s.talkList p).head? with
      | none => []
      | some e =>
        if e.priority < s.floor (s.studioOfSlot n) then
          [{ event := { partyEvent .talkHeld p with link := some e.link, value1 := some e.priority, value2 := some 0x3B },
             receives := fun j => j == e.link || (s.party p).owner == some j }]
        else [] := by
  have hb : s.activeEntry p = (s.talkList p).head? := State.activeEntry_offAir (by simp [h])
  have ha := hl.airing_activeEntry n h ht
  unfold talkOffers
  rw [if_pos (by simp [PartyRec.enter, PartyState.talkable])]
  rcases hp : s.talkList p with _ | ⟨e, es⟩
  · rw [hp] at ha hb
    exact activeOffers_same (ha.trans hb.symm) none
  · rw [hp, List.head?_cons] at ha hb
    rw [List.head?_cons]
    dsimp only at ha ⊢
    by_cases hf : e.priority < s.floor (s.studioOfSlot n)
    · rw [if_pos hf] at ha ⊢
      unfold activeOffers
      rw [hb, ha]
      dsimp only
      rw [heldEvent_floor ((s.airing_talkList p n p).trans hp)]
      · rw [airing_sameOwner n, talkOffer_sameOwner]
        rfl
      · unfold State.eligible
        rw [hl.airing_talkFloor n h]
        simpa using hf
    · rw [if_neg hf] at ha ⊢
      exact activeOffers_same (ha.trans hb.symm) none

/-- STATE, QUEUE_CHANGED LEFT, AIR_SLOT TAKEN and, where the floor holds the first talk entry, TALK_HELD FLOOR (R12, R27). -/
theorem State.placesLaw.toAir_exactly {x : Studio} (hx : s.studioOfSlot n = x) (hq : s.queueOf p = some x) :
    s.offersExactly (s.toAir p n k) (
      [{ event := { partyEvent .state p with studio := some x, value1 := some 5, value2 := some 4 },
         receives := fun j => s.views j p || (s.party p).owner == some j },
       { event := { partyEvent .queueChanged p with
           studio := some x, link := some k, value1 := some 0x37, value2 := some 0 },
         receives := fun j => s.views j p || s.viewsStudio j x || (s.party p).owner == some j },
       { event := { partyEvent .airSlot p with
           studio := some x, link := some k, value1 := some n.val, value2 := some 0x38 },
         receives := fun j => s.views j p || s.viewsStudio j x || (s.party p).owner == some j }]
      ++ talkOffers s (s.airing p n) p) := by
  have e := State.conclude_exactly (s := s) (t := s.airing p n) p (some k) [stateEvent s (s.airing p n) p] [] (by simp)
  have ho := airing_sameOwner (s := s) (p := p) n
  have hev : stateEvent s (s.airing p n) p
      = { partyEvent .state p with studio := some x, value1 := some 5, value2 := some 4 } := by
    unfold stateEvent studioNamed
    rw [hl.airing_studioOf n h, groupLeft_of_notScreening (s := s) (t := s.airing p n) (into := .onAir) rfl (by simp [h]), State.airing_party, if_pos rfl,
      h, hx]
    rfl
  have hqo : queueOffers s (s.airing p n) p (some k)
      = [studioOffer s (s.airing p n) p x (queueEvent x p (some k) Cause.left 0)] := by
    unfold queueOffers
    rw [hq, State.airing_queueOf n h]
  have hso : slotOffers s (s.airing p n) p (some k)
      = [studioOffer s (s.airing p n) p x (slotEvent x p (some k) n Cause.taken)] := by
    unfold slotOffers
    rw [hl.airing_slotOf n h, State.slotOf_none hl (by simp [h])]
    simp only [State.airing_studioOfSlot n h, hx]
  rw [← s.toAir_airing, transitionOffers, hqo, hso, airing_goneOffers n, hev, List.map_cons, List.map_nil,
    viewOffer_sameOwner ho (by simp) (by simp), studioOffer_sameOwner ho (by simp) (by simp),
    studioOffer_sameOwner ho (by simp) (by simp), List.append_nil, List.append_nil] at e
  exact e

theorem State.placesLaw.toAir_hears (hn : row s.stud.slots n = none) {q : Party}
    (hq : ((s.airing p n).party q).state = .queued ∨ ((s.airing p n).party q).state = .onAir)
    (hx : (s.airing p n).studioOf q = some (s.studioOfSlot n)) : (s.toAir p n k).hears q := by
  rw [s.toAir_airing]
  refine State.conclude_hears _ _ p q _ _ _ (fun _ => hl.airing n h hn) (fun hs => ?_) ?_
  · rw [hs] at hq
    exact absurd hq (by decide)
  simp [concerned, allParties, hl.airing_studioOf n h, hx]

end

/-- AIRP of a QUEUED party in a studio that the link controls, where a slot is free (R12). -/
theorem askAirp_accepted {k : Link} {b : Byte} {p : Party} {x : Studio} {n : AirSlot} {s : State} (hb : partyArg b = some p)
    (hq : s.queueOf p = some x) (hc : s.controlsStudio k x = true) (h : (s.party p).state = .queued)
    (hf : s.freeSlot x = some n) : askAirp k b s = accept (s.toAir p n k) [byte n.val] := by
  have ho : s.controlsItsStudio k p = true := by simp [State.controlsItsStudio, State.studioOf, hq, hc]
  have hs : s.slotFor p = some n := by rw [State.slotFor, hq, ← hf]
  have ht : ((s.toAir p n k).party p).state ≠ .parked := by
    rw [(s.toAir_moved p n k).1]
    simp [PartyRec.enter]
  simp [askAirp, hb, ho, h, hs, acceptNaming_notParked ht]

/-- NEXT of a studio that the link controls, with a party in its queue and a free slot (R13). -/
theorem askNext_accepted {k : Link} {b : Byte} {p : Party} {x : Studio} {n : AirSlot} {s : State} (hb : studioArg b = some x)
    (hq : (s.queue x).head? = some p) (hc : s.controlsStudio k x = true) (hf : s.freeSlot x = some n) :
    askNext k b s = accept (s.toAir p n k) [byte p.val, byte n.val] := by
  obtain ⟨l, hl⟩ := List.head?_eq_some_iff.1 hq
  simp [askNext, hb, hc, hl, hf]

theorem State.placesLaw.queueOf_of_mem {s : State} (h : s.placesLaw) {p : Party} {x : Studio} (hp : p ∈ s.queue x) :
    s.queueOf p = some x := by
  have hd := List.disjoint_of_nodup_append h.1
  refine State.queueOf_eq_some hp fun y hy hm => ?_
  cases x <;> cases y
  · exact hy rfl
  · exact hd hp hm
  · exact hd hm hp
  · exact hy rfl

/-- Settles O14. -/
theorem airpAndNextTakeAPartyToAir : Obligations.AirpAndNextTakeAPartyToAir := by
  intro c k tag b code data p x n s hcase hc hs hx hn hlow
  have hf := State.freeSlot_eq_some hx hn hlow
  have hexec : exec c s = .next ((accept (s.toAir p n k) data).deliver k tag code) := by
    rcases hcase with ⟨rfl, rfl, rfl, hb, hq⟩ | ⟨rfl, rfl, rfl, hb, hq⟩
    · rw [← askAirp_accepted hb hq hc hs hf]
      rfl
    · rw [← askNext_accepted hb hq hc hf]
      rfl
  have hqueue : s.placesLaw → s.queueOf p = some x := fun hl => by
    rcases hcase with ⟨-, -, -, -, hq⟩ | ⟨-, -, -, -, hq⟩
    · exact hq
    · exact hl.queueOf_of_mem (List.mem_of_head? hq)
  obtain ⟨hp, -, hconf, htalk, hframe⟩ := s.toAir_moved p n k
  have hstud : (s.toAir p n k).stud = (s.airing p n).stud := by rw [s.toAir_airing, State.conclude_stud]
  have hparty : ∀ q, (s.toAir p n k).party q = (s.airing p n).party q := fun q => by
    rw [s.toAir_airing, State.conclude_party]
  refine ⟨s.toAir p n k, hexec, ?_, hstud.trans (State.airing_stud n hs),
    hconf.trans (s.leave_conf_none p .onAir (by simp [hs])), htalk, hframe, fun hl => ⟨fun q hq hsq => ?_, fun ht => ?_⟩⟩
  · rw [hp]
    simp [PartyRec.enter, PartyState.signal]
  · rw [hparty] at hq
    refine hl.toAir_hears n hs k hn hq ?_
    rw [hx, ← hsq]
    exact (State.studioOf_of_stud hstud q).symm
  · have e := hl.toAir_exactly n hs k hx (hqueue hl)
    rw [hl.airing_talkOffers n hs ht, hx] at e
    exact e

end Sys2Proof.Machine

namespace Sys2Proof.Machine

/-! ### A change of sync -/

section
variable (s : State) (x : PortId) (r : PortRec) (f : Monitor → Monitor) (o : Offer)

/-- A change of sync: the record of the port, the monitor records of its parties, and the event (R161, R40). -/
def State.synced : State := ((s.setPort x r).monitors x f).offerAll [o]

theorem State.synced_form : s.synced x r f o = { s with
    ports := (s.synced x r f o).ports, smon := { s.smon with monitors := (s.synced x r f o).smon.monitors },
    links := (s.synced x r f o).links } := by
  unfold State.synced
  rw [State.offerAll_form]
  cases x <;> rfl

theorem State.synced_ports : (s.synced x r f o).ports = (s.setPort x r).ports := by simp [State.synced]

theorem State.synced_port : (s.synced x r f o).port x = r := by
  have e : (s.synced x r f o).port x = (s.setPort x r).port x := by cases x <;> simp only [State.port, State.synced_ports]
  rw [e, State.setPort_port_same]

theorem State.synced_port_other (y : PortId) (h : y ≠ x) : (s.synced x r f o).port y = s.port y := by
  have e : (s.synced x r f o).port y = (s.setPort x r).port y := by cases y <;> simp only [State.port, State.synced_ports]
  rw [e, s.setPort_port_other x y r h]

theorem State.synced_monitor (p : Party) :
    (s.synced x r f o).monitor p = if portOf p ≠ x then s.monitor p else f (s.monitor p) := by
  have e : (s.synced x r f o).smon = ((s.setPort x r).monitors x f).smon := by simp [State.synced]
  unfold State.monitor
  rw [e, State.monitors, row_tab]
  by_cases h : portOf p = x <;> simp [h, State.monitor]

theorem State.synced_exactly : s.offersExactly (s.synced x r f o) [o] := fun j => by
  have e : ((s.setPort x r).monitors x f).link j = s.link j := by simp [State.link]
  rw [← e]
  exact State.offerAll_link _ _ j

end

/-- The parties of a port that are not VACANT, counted among all parties (R165). -/
theorem State.notVacant_eq (s : State) (x : PortId) :
    s.notVacant x = (allParties.filter fun p => portOf p == x && (s.party p).state != .vacant).length := by
  unfold State.notVacant partiesOf
  rw [List.filter_filter]
  simp only [Bool.and_comm]

/-! ### The failure of a port -/

theorem State.offersExactly.trans {s t u : State} {l m : List Offer} (h : s.offersExactly t l) (g : t.offersExactly u m) :
    s.offersExactly u (l ++ m) := fun j => by
  rw [g j, h j, ← List.foldl_append, List.filter_append, List.map_append]

theorem State.offersExactly_refl (s : State) : s.offersExactly s [] := fun _ => rfl

/-- The failure of one party only offers events (R25). -/
theorem State.portFailure_exactly (s : State) (p : Party) : ∃ os, s.offersExactly (s.portFailure p) os := by
  unfold State.portFailure
  split
  case h_7 => exact ⟨_, State.conclude_exactly p none _ [] (s.entered_links p .vacant _)⟩
  case h_8 | h_9 => exact ⟨[], s.offersExactly_refl⟩
  all_goals exact ⟨_, State.conclude_exactly p none _ [] (s.entered_links p .fault _)⟩

theorem State.portFailures_exactly (ps : List Party) (s : State) :
    ∃ os, s.offersExactly (ps.foldl State.portFailure s) os := by
  induction ps generalizing s with
  | nil => exact ⟨[], s.offersExactly_refl⟩
  | cons p ps ih =>
    obtain ⟨l, hl⟩ := s.portFailure_exactly p
    obtain ⟨m, hm⟩ := ih (s.portFailure p)
    exact ⟨l ++ m, hl.trans hm⟩

/-- A failure of parties after a change of sync. -/
theorem State.partiesFailed.after_synced {s t : State} {x : PortId} {r : PortRec} {f : Monitor → Monitor} {o : Offer}
    {g : Party → Bool} (h : (s.synced x r f o).partiesFailed t g) :
    (t.ports = (s.synced x r f o).ports ∧ t.smon = (s.synced x r f o).smon) ∧ t = { s with
        parties := t.parties, smon := { s.smon with monitors := t.smon.monitors }, conf := t.conf,
        stud := { s.stud with queueA := t.stud.queueA, queueB := t.stud.queueB, slots := t.stud.slots },
        rmix := t.rmix, tarb := { s.tarb with lists := t.tarb.lists }, ports := t.ports, links := t.links,
        choices := t.choices }
      ∧ s.sameHold t ∧ (∀ p, g p = false → t.party p = s.party p ∧ t.talkList p = s.talkList p)
      ∧ (∀ p, g p = true → t.talkList p = [] ∧ t.party p = (s.party p).failed)
      ∧ (∀ y, t.queue y = (s.queue y).filter fun p => !(g p && (s.party p).state == .queued))
      ∧ (∀ n, row t.stud.slots n
          = (row s.stud.slots n).filter fun w => !(g w.party && (s.party w.party).state == .onAir))
      ∧ ∀ m, (t.group m).members = (s.group m).members.filter (fun p => !(g p && (s.party p).state == .screening))
        ∧ (t.group m).owner
          = if (t.group m).members = [] ∧ (s.group m).members ≠ [] then none else (s.group m).owner := by
  obtain ⟨hform, hrest⟩ := h
  have hports : t.ports = (s.synced x r f o).ports := by rw [hform]
  have hsmon : t.smon = (s.synced x r f o).smon := by rw [hform]
  have hu := s.synced_form x r f o
  rw [hu] at hrest
  refine ⟨⟨hports, hsmon⟩, hform.trans ?_, hrest⟩
  rw [← hports, ← hsmon] at hu
  rw [hu]

/-! ### The three changes of R161 -/

theorem State.syncFound_found {s : State} {x : PortId}
    (h : (s.port x).sync = .seeking ∨ (s.port x).sync = .grace ∨ (s.port x).sync = .failed) :
    s.syncFound x = s.synced x { s.port x with sync := .locked, aligned := 4, missed := 0, grace := none }
      (if (s.port x).sync = .grace then Monitor.restarted else fun _ => Monitor.reset)
      (portOffer .portBack x (match (s.port x).sync with | .seeking => 0x11 | .grace => 0x13 | _ => 0x14)
        (if (s.port x).sync = .grace then 250 - (s.port x).grace.getD 0 else 0)) := by
  unfold State.syncFound PortRec.graceSpent
  rcases h with h | h | h <;> simp only [h, reduceCtorEq, if_false, if_true] <;> rfl

theorem State.syncFound_other {s : State} {x : PortId} (h : (s.port x).sync = .locked ∨ (s.port x).sync = .disabled) :
    s.syncFound x = s := by
  rcases h with h | h <;> simp only [State.syncFound, h]

theorem State.syncLost_locked {s : State} {x : PortId} (h : (s.port x).sync = .locked) (cause : LossCause) :
    s.syncLost x cause = s.synced x { s.port x with sync := .grace, aligned := 0, missed := 0, grace := some 250 } Monitor.held
      (portOffer .portLost x (lossCode cause) (s.notVacant x)) := by
  simp only [State.syncLost, h]
  rfl

theorem State.syncLost_other {s : State} {x : PortId} (h : (s.port x).sync ≠ .locked) (cause : LossCause) :
    s.syncLost x cause = s := by
  unfold State.syncLost
  dsimp only
  split
  case h_1 hs => exact absurd hs h
  all_goals rfl

/-- The expiry of the grace timer before the failure reaches a party (R161, R165). -/
def State.failing (s : State) (x : PortId) : State :=
  s.synced x { s.port x with sync := .failed, grace := none } (fun _ => Monitor.reset)
    (portOffer .portFailed x (s.notVacant x) 0)

theorem State.graceExpired_eq (s : State) (x : PortId) :
    s.graceExpired x = (partiesOf x).foldl State.portFailure (s.failing x) := rfl

/-- The parties that a failure of port `x` reaches (R25). -/
theorem State.synced_fails (s : State) (x : PortId) (r : PortRec) (f : Monitor → Monitor) (o : Offer) :
    (fun p => decide (p ∈ partiesOf x) && (s.synced x r f o).falls p)
      = fun p => portOf p == x && (s.party p).state != .vacant && (s.party p).state != .fault := by
  funext p
  rw [s.synced_form]
  simp only [mem_partiesOf, State.falls, State.party, Bool.and_assoc]
  rfl

/-- Settles O48. -/
theorem syncStatesMoveByR161 : Obligations.SyncStatesMoveByR161 := by
  intro x s
  refine ⟨fun h => congrArg Host.Outcome.next (State.syncFound_other h), fun h cause => congrArg Host.Outcome.next (State.syncLost_other h cause),
    fun h => if_neg ?_, fun h => ?_, fun h cause => ?_, fun h hg => ?_⟩
  · rintro ⟨h1, h2⟩
    rcases h with h | h
    · exact h h1
    · simp [h] at h2
  · refine ⟨_, congrArg Host.Outcome.next (State.syncFound_found h), s.synced_form x _ _ _, s.synced_port x _ _ _,
      s.synced_port_other x _ _ _, fun p => ?_, s.synced_exactly x _ _ _⟩
    rw [s.synced_monitor]
    by_cases e : (s.port x).sync = .grace
    · simp [e, Monitor.restarted]
    · simp [e, Monitor.reset]
  · refine ⟨_, congrArg Host.Outcome.next (State.syncLost_locked h cause), s.synced_form x _ _ _, s.synced_port x _ _ _,
      s.synced_port_other x _ _ _, s.synced_monitor x _ _ _, ?_⟩
    have e := s.synced_exactly x { s.port x with sync := .grace, aligned := 0, missed := 0, grace := some 250 } Monitor.held
      (portOffer .portLost x (lossCode cause) (s.notVacant x))
    rw [s.notVacant_eq] at e ⊢
    cases cause <;> exact e
  · have hf := State.portFailures_partiesFailed (partiesOf x) (nodup_partiesOf x) (s.failing x)
    obtain ⟨more, hm⟩ := State.portFailures_exactly (partiesOf x) (s.failing x)
    rw [← s.graceExpired_eq, State.failing] at hf hm
    rw [s.synced_fails] at hf
    obtain ⟨⟨hports, hsmon⟩, hform, hhold, hrest⟩ := hf.after_synced
    have hport : ∀ y, (s.graceExpired x).port y = (s.failing x).port y := fun y => by
      cases y <;> simp only [State.port, hports, State.failing]
    have hmon : ∀ p, (s.graceExpired x).monitor p = (s.failing x).monitor p := fun p => by
      simp only [State.monitor, hsmon, State.failing]
    refine ⟨s.graceExpired x, if_pos ⟨h, hg⟩, (hport x).trans (s.synced_port x _ _ _),
      fun y hy => (hport y).trans (s.synced_port_other x _ _ _ y hy),
      fun p => (hmon p).trans (s.synced_monitor x _ _ _ p), hform, hhold, hrest, more, ?_⟩
    have e := (s.synced_exactly x _ _ _).trans hm
    rw [s.notVacant_eq] at e
    exact e

end Sys2Proof.Machine

namespace Sys2Proof.Machine

/-! ### The bytes of SPAT, read and written -/

theorem yesNo_of_yesNoArg {b : Byte} {v : Bool} (h : yesNoArg b = some v) : yesNo v = b := by
  unfold yesNoArg at h
  split_ifs at h with h0 h1 <;> cases h
  · exact h0.symm
  · exact h1.symm

theorem meaningCode_of_meaningArg {b : Byte} {m : Meaning} (h : meaningArg b = some m) : byte (meaningCode m) = b := by
  unfold meaningArg at h
  split_ifs at h with h1 h2 h3 h4 <;> cases h
  · exact h1.symm
  · exact h2.symm
  · exact h3.symm
  · exact h4.symm

theorem appliesToCode_of_appliesToArg {b : Byte} {a : AppliesTo} (h : appliesToArg b = some a) :
    byte (appliesToCode a) = b := by
  unfold appliesToArg at h
  split_ifs at h with h0 h1 h2 <;> cases h
  · exact h0.symm
  · exact h1.symm
  · exact h2.symm

theorem byte_toNat (b : Byte) : byte b.toNat = b := BitVec.ofNat_toNat 8 b |>.trans (BitVec.setWidth_eq b)

/-- A count of a byte is in the range of the qualify counts where it is not 0 (R31). -/
theorem rangeArg_count {n : Byte} (h : 1 ≤ n.toNat) : rangeArg 1 255 n = some n.toNat :=
  if_pos ⟨h, Nat.lt_succ_iff.mp n.isLt⟩

/-- A pattern entry is answered by the bytes that it was read from (R32). -/
theorem patternData_of_args {v key mask m a n : Byte} {valid : Bool} {meaning : Meaning} {to_ : AppliesTo}
    (hv : yesNoArg v = some valid) (hm : meaningArg m = some meaning) (ha : appliesToArg a = some to_) :
    patternData { valid := valid, key := key, mask := mask, meaning := meaning, appliesTo := to_, count := n.toNat }
      = [v, key, mask, m, a, n] := by
  simp only [patternData, yesNo_of_yesNoArg hv, meaningCode_of_meaningArg hm, appliesToCode_of_appliesToArg ha, byte_toNat]

theorem askSpat_accepted {b v key mask m a n : Byte} {i : Fin 6} {valid : Bool} {meaning : Meaning} {to_ : AppliesTo}
    {s : State} (hi : numberArg 6 b = some i) (hv : yesNoArg v = some valid) (hm : meaningArg m = some meaning)
    (ha : appliesToArg a = some to_) (hn : 1 ≤ n.toNat) :
    askSpat s.supervisor b v key mask m a n s
      = accept (s.writePattern i
          { valid := valid, key := key, mask := mask, meaning := meaning, appliesTo := to_, count := n.toNat })
          [v, key, mask, m, a, n] := by
  simp only [askSpat, hi, hv, hm, ha, rangeArg_count hn, ne_eq, not_true_eq_false, if_false, patternData_of_args hv hm ha]

/-! ### The entry replaced -/

section
variable (s : State) (i : Fin 6) (e : Pattern)

theorem State.writePattern_pattern : row (s.writePattern i e).smon.patterns i = e := row_put_same _ _ _

theorem State.writePattern_pattern_other {j : Fin 6} (h : j ≠ i) :
    row (s.writePattern i e).smon.patterns j = row s.smon.patterns j := row_put_other _ _ _ _ h

theorem State.writePattern_monitor (p : Party) :
    (s.writePattern i e).monitor p = { s.monitor p with matchCount := 0 } := row_tab _ _

end

/-- Settles O40. -/
theorem spatWritesAPatternAndRestartsTheCounts : Obligations.SpatWritesAPatternAndRestartsTheCounts := by
  intro tag b v key mask m a n i valid meaning to_ s hi hv hm ha hn
  refine ⟨s.writePattern i { valid, key, mask, meaning, appliesTo := to_, count := n.toNat }, ?_, rfl,
    s.writePattern_pattern i _, fun j => s.writePattern_pattern_other i _, s.writePattern_monitor i _⟩
  exact congrArg (fun w : Answer => Host.Outcome.next (w.deliver s.supervisor tag 0x36)) (askSpat_accepted hi hv hm ha hn)

end Sys2Proof.Machine

namespace Sys2Proof.Machine

/-! ### The slot settings of SPRT -/

theorem length_of_mapM_eq_some {α β : Type} {f : α → Option β} {l : List α} {r : List β} (h : l.mapM f = some r) :
    r.length = l.length := by
  induction l generalizing r with
  | nil => cases h; rfl
  | cons a l ih =>
    rw [List.mapM_cons] at h
    obtain ⟨b, -, h⟩ := Option.bind_eq_some_iff.mp h
    obtain ⟨bs, hbs, h⟩ := Option.bind_eq_some_iff.mp h
    cases h
    simp [ih hbs]

theorem halves_length (bs : List Byte) : (halves bs).length = 2 * bs.length := by
  induction bs with
  | nil => rfl
  | cons b bs ih => simp only [halves, List.length_cons, ih]; omega

/-- The slot settings of an accepted SPRT are those of every slot of the port (11.8). -/
theorem slotsArg_length {n : Nat} {bs : List Byte} {ss : List SlotSetting} (h : slotsArg n bs = some ss) : ss.length = n := by
  unfold slotsArg at h
  split_ifs at h with hb
  rw [length_of_mapM_eq_some h, List.length_take, halves_length, hb.1]
  omega

theorem slotIndexOf_lt (p : Party) : slotIndexOf p < slotsOf (portOf p) := by
  have h : slotIndexOf p < 12 := Nat.mod_lt _ (by decide)
  unfold portOf
  split <;> exact h

/-- The setting that an SPRT gives the slot of a party of its port. -/
theorem slotSetting_of_party {x : PortId} {bs : List Byte} {ss : List SlotSetting} (h : slotsArg (slotsOf x) bs = some ss)
    {p : Party} (hp : portOf p = x) (d : SlotSetting) : ss[slotIndexOf p]? = some (ss.getD (slotIndexOf p) d) := by
  have hlt : slotIndexOf p < ss.length := by
    rw [slotsArg_length h, ← hp]
    exact slotIndexOf_lt p
  rw [List.getD_eq_getElem _ _ hlt, List.getElem?_eq_getElem hlt]

/-! ### The checks of SPRT -/

section
variable {s : State} {x : PortId} {ss : List SlotSetting} {en : Bool}

theorem State.mem_busyParties {p : Party} : p ∈ s.busyParties x ↔ portOf p = x ∧ (s.party p).state ≠ .vacant := by
  simp [State.busyParties, mem_partiesOf]

/-- No slot of a party that is not VACANT becomes disabled or changes its format (R158, check 3). -/
theorem State.slotsHeld_false {bs : List Byte} (hs : slotsArg (slotsOf x) bs = some ss)
    (h : ∀ p, portOf p = x → (s.party p).state ≠ .vacant → ∀ c, ss[slotIndexOf p]? = some c →
      ((s.partySlot p).enable = true → c.enable = true) ∧ c.format = (s.partySlot p).format) :
    s.slotsHeld x ss = false := by
  unfold State.slotsHeld
  rw [List.any_eq_false]
  intro p hp
  obtain ⟨hx, hv⟩ := State.mem_busyParties.mp hp
  obtain ⟨henable, hformat⟩ := h p hx hv _ (slotSetting_of_party hs hx { enable := false, format := .lin24 })
  rw [State.partySlot, hx] at henable hformat
  dsimp only
  rw [hformat, bne_self_eq_false, Bool.or_false]
  simpa using henable

/-- The port is not disabled with a party that is not VACANT (R158, check 4). -/
theorem State.portHeld_false
    (h : (s.port x).enable = true → en = false → ∀ p, portOf p = x → (s.party p).state = .vacant) :
    s.portHeld x en = false := by
  unfold State.portHeld
  by_cases hd : (s.port x).enable = true ∧ en = false
  · have hnone : s.busyParties x = [] := List.eq_nil_iff_forall_not_mem.mpr fun p hp => by
      obtain ⟨hx, hv⟩ := State.mem_busyParties.mp hp
      exact hv (h hd.1 hd.2 p hx)
    simp [hnone]
  · have hkept : ((s.port x).enable && !en) = false := by simpa using hd
    rw [hkept, Bool.false_and]

theorem askSprt_accepted {b d : Byte} {bytes : List Byte} (hb : portArg b = some x) (hd : yesNoArg d = some en)
    (hs : slotsArg (slotsOf x) bytes = some ss) (h3 : s.slotsHeld x ss = false) (h4 : s.portHeld x en = false) :
    askSprt s.supervisor b d bytes s = accept (s.writePort x en ss) (portRecordData ((s.writePort x en ss).port x)) := by
  simp [askSprt, askSprtIn, hb, hd, hs, h3, h4]

end

/-! ### The port written -/

section
variable (s : State) (x : PortId) (en : Bool) (ss : List SlotSetting)

theorem State.writePort_form : s.writePort x en ss = { s with
    ports := (s.writePort x en ss).ports, smon := { s.smon with monitors := (s.writePort x en ss).smon.monitors } } := by
  cases x <;> rfl

theorem State.writePort_port : (s.writePort x en ss).port x = (s.port x).set en ss := State.setPort_port_same _ _ _

theorem State.writePort_port_other {y : PortId} (h : y ≠ x) : (s.writePort x en ss).port y = s.port y :=
  (State.setPort_port_other _ _ _ _ h).trans (by cases y <;> rfl)

theorem State.writePort_monitor (p : Party) : (s.writePort x en ss).monitor p
    = if s.resetsMonitor x en ss p then Monitor.reset else s.monitor p := by
  rw [State.monitor, State.writePort, State.setPort_smon]
  exact row_tab _ _

theorem PortRec.set_slots (r : PortRec) : (r.set en ss).slots = ss := by
  unfold PortRec.set
  split_ifs <;> rfl

/-- The record of a port after SPRT, field by field (R159). -/
theorem PortRec.set_eq (r : PortRec) : r.set en ss = { r with
    enable := en, slots := ss,
    sync := if r.enable = en then r.sync else if en then .seeking else .disabled,
    aligned := if r.enable = en then r.aligned else 0,
    missed := if r.enable = en then r.missed else 0,
    grace := if r.enable = true ∧ en = false then none else r.grace } := by
  unfold PortRec.set
  by_cases h : r.enable = en
  · subst h
    simp
  · cases en
    · simp [h]
    · simp [h]

/-- Whether SPRT resets the monitor record of a party, by what it leaves of the party's slot (R40, R41). -/
theorem State.resetsMonitor_iff (p : Party) : s.resetsMonitor x en ss p = true
    ↔ portOf p = x ∧ ((s.port x).enable ≠ en
        ∨ ((s.partySlot p).enable = true ∧ (s.writePort x en ss).inService p = false)) := by
  by_cases h : portOf p = x
  · subst h
    simp [State.resetsMonitor, State.inService, State.partySlot, State.writePort_port, PortRec.slot, PortRec.set_slots]
  · simp [State.resetsMonitor, h]

end

/-- Settles O37. -/
theorem sprtWritesAPort : Obligations.SprtWritesAPort := by
  intro tag b d bytes x en ss s hb hd hs hslots hport
  have ha := askSprt_accepted hb hd hs (State.slotsHeld_false hs hslots) (State.portHeld_false hport)
  refine ⟨s.writePort x en ss, _,
    congrArg (fun w : Answer => Host.Outcome.next (w.deliver s.supervisor tag 0x30)) ha, s.writePort_form x en ss,
    fun y => s.writePort_port_other x en ss, (s.writePort_port x en ss).trans (PortRec.set_eq en ss _), fun p => ?_⟩
  rw [State.writePort_monitor]
  simp only [State.resetsMonitor_iff, Monitor.reset]

end Sys2Proof.Machine

namespace Sys2Proof.Machine

/-! ### The deciding entry -/

theorem AppliesTo.takes_eq (a : AppliesTo) (kd : Kind) :
    a.takes kd = (a == .both || (a == .line && kd == .line) || (a == .codec && kd == .codec)) := by
  cases a <;> cases kd <;> rfl

theorem AppliesTo.takes_iff (a : AppliesTo) (kd : Kind) :
    a.takes kd = true ↔ a = .both ∨ (a = .line ∧ kd = .line) ∨ (a = .codec ∧ kd = .codec) := by
  simp [AppliesTo.takes_eq, or_assoc]

/-- The signalling word of a line-side slot, by its lowest bit (11.7). -/
theorem lineWord_eq (bits : BitVec 512) (n : Nat) : lineWord bits n = bits.extractLsb' (464 - 32 * n) 8 := by
  unfold lineWord positionsOf
  congr 1
  omega

/-- A valid entry for the kind, whose masked bits the word shows (R33). -/
def Pattern.matches (e : Pattern) (kd : Kind) (w : Byte) : Bool := e.considered kd && e.agrees w

theorem toList_eq_map_row {α : Type} {n : Nat} (v : Vector α n) : v.toList = (upTo n).map (row v) := by
  refine List.ext_getElem (by simp [upTo]) fun i h _ => ?_
  simp [upTo, row]

theorem State.deciding_eq (s : State) (kd : Kind) (w : Byte) :
    s.deciding kd w = ((upTo 6).find? fun i => (row s.smon.patterns i).matches kd w).map (row s.smon.patterns) := by
  unfold State.deciding
  rw [toList_eq_map_row, List.find?_map]
  rfl

theorem State.deciding_none {s : State} {kd : Kind} {w : Byte} (h : ∀ i, (row s.smon.patterns i).matches kd w = false) :
    s.deciding kd w = none := by
  rw [State.deciding_eq, List.find?_eq_none.mpr fun i _ => by simp [h i]]
  rfl

theorem State.deciding_some {s : State} {kd : Kind} {w : Byte} {i : Fin 6} (h : (row s.smon.patterns i).matches kd w = true)
    (hl : ∀ j, j < i → (row s.smon.patterns j).matches kd w = false) : s.deciding kd w = some (row s.smon.patterns i) := by
  rw [State.deciding_eq, find?_upTo h hl]
  rfl

/-! ### One monitored frame of a party -/

section
variable (s : State) (p : Party) (w : Byte)

/-- The monitor record that a word leaves a party, and whether a meaning is reported (R35, R36). -/
def State.watched : Monitor × Bool :=
  let entry := s.deciding (s.party p).kind w
  ((s.monitor p).counted (entry.map fun e => e.meaning)).decided entry

/-- The reports that a word of a party adds to those that wait (R36). -/
def State.newReports : List Report :=
  if (s.watched p w).2 then (s.watched p w).1.qualified.toList.map fun c => { party := p, meaning := c } else []

theorem State.monitorWord_eq : s.monitorWord p w = { s with smon := { s.smon with
    monitors := put s.smon.monitors p (s.watched p w).1, reports := s.smon.reports ++ s.newReports p w } } := by
  have hquiet : s.newReports p w = [] → s.setMonitor p (s.watched p w).1 = { s with smon := { s.smon with
      monitors := put s.smon.monitors p (s.watched p w).1, reports := s.smon.reports ++ s.newReports p w } } := fun h => by
    rw [h, List.append_nil]
    rfl
  change (match (s.watched p w).2, (s.watched p w).1.qualified with
    | true, some c => (s.setMonitor p (s.watched p w).1).report p c
    | _, _ => s.setMonitor p (s.watched p w).1) = _
  split
  · rename_i c hr hq
    simp [State.newReports, hr, hq, State.report, State.setMonitor]
  · rename_i hno
    refine hquiet ?_
    unfold State.newReports
    cases hr : (s.watched p w).2
    · rfl
    · cases hq : (s.watched p w).1.qualified with
      | none => rfl
      | some c => exact absurd hq (hno c hr)

theorem State.monitorWord_parties : (s.monitorWord p w).parties = s.parties := by rw [State.monitorWord_eq]

theorem State.monitorWord_patterns : (s.monitorWord p w).smon.patterns = s.smon.patterns := by rw [State.monitorWord_eq]

theorem State.monitorWord_reports : (s.monitorWord p w).smon.reports = s.smon.reports ++ s.newReports p w := by
  rw [State.monitorWord_eq]

theorem State.monitorWord_monitor (q : Party) :
    (s.monitorWord p w).monitor q = if q = p then (s.watched p w).1 else s.monitor q := by
  rw [State.monitorWord_eq]
  exact row_put _ _ _ _

/-- What a word does to a party rests on the party's kind and monitor record and on the patterns (R33, R35, R36). -/
theorem State.watched_congr {s t : State} {p : Party} (w : Byte) (hp : t.parties = s.parties)
    (he : t.smon.patterns = s.smon.patterns) (hm : t.monitor p = s.monitor p) : t.watched p w = s.watched p w := by
  unfold State.watched State.deciding State.party
  rw [hp, he, hm]

variable {s p w}

/-- A word that no entry matches: the candidate and the qualified meaning are NONE (R33, R35, R36). -/
theorem State.watched_none (h : s.deciding (s.party p).kind w = none) : (s.watched p w).1
    = { candidate := none, matchCount := if (s.monitor p).candidate = none then min 255 ((s.monitor p).matchCount + 1) else 1,
        qualified := none } := by
  unfold State.watched
  rw [h]
  by_cases hc : (s.monitor p).candidate = none <;> simp [Monitor.counted, Monitor.decided, hc]

/-- A word that an entry decides: the candidate is its meaning, qualified at the entry's count and then reported unless it
was qualified already (R35, R36). -/
theorem State.watched_some {e : Pattern} (h : s.deciding (s.party p).kind w = some e) {count : Nat}
    (hcount : count = if (s.monitor p).candidate = some e.meaning then min 255 ((s.monitor p).matchCount + 1) else 1) :
    s.watched p w
      = ({ candidate := some e.meaning, matchCount := count,
           qualified := if e.count ≤ count then some e.meaning else (s.monitor p).qualified },
         decide (e.count ≤ count ∧ (s.monitor p).qualified ≠ some e.meaning)) := by
  have hcounted : (s.monitor p).counted (some e.meaning)
      = { candidate := some e.meaning, matchCount := count, qualified := (s.monitor p).qualified } := by
    unfold Monitor.counted
    split_ifs with hc
    · rw [hcount, if_pos hc, ← hc]
    · rw [hcount, if_neg hc]
  unfold State.watched
  dsimp only
  rw [h, Option.map_some, hcounted]
  unfold Monitor.decided
  by_cases hn : e.count ≤ count
  · by_cases hq : (s.monitor p).qualified = some e.meaning <;> simp [hn, hq]
  · simp [hn]

theorem State.mem_newReports {c : Meaning} (hr : (s.watched p w).2 = true) (hq : (s.watched p w).1.qualified = some c) :
    { party := p, meaning := c } ∈ s.newReports p w := by
  simp [State.newReports, hr, hq]

end

/-! ### The monitored frame of a port -/

section
variable (f : Party → Byte)

/-- The words of parties, one after the other, each with the word that `f` gives it. -/
def State.monitorWords (s : State) (ps : List Party) : State := ps.foldl (fun t p => t.monitorWord p (f p)) s

theorem State.monitorWords_monitor_other {p : Party} (ps : List Party) (h : p ∉ ps) (s : State) :
    (s.monitorWords f ps).monitor p = s.monitor p := by
  induction ps generalizing s with
  | nil => rfl
  | cons a ps ih =>
    obtain ⟨ha, hps⟩ := not_or.mp (mt List.mem_cons.mpr h)
    exact (ih hps (s.monitorWord a (f a))).trans ((s.monitorWord_monitor a _ p).trans (if_neg ha))

/-- What waits stays among the reports. -/
theorem State.monitorWords_reports (ps : List Party) (s : State) : s.smon.reports ⊆ (s.monitorWords f ps).smon.reports := by
  induction ps generalizing s with
  | nil => exact List.Subset.refl _
  | cons a ps ih =>
    refine List.Subset.trans ?_ (ih (s.monitorWord a (f a)))
    rw [State.monitorWord_reports]
    exact List.subset_append_left _ _

/-- The word of each party counts for that party, and for no other. -/
theorem State.monitorWords_mem {p : Party} (ps : List Party) (hn : ps.Nodup) (h : p ∈ ps) (s : State) :
    (s.monitorWords f ps).monitor p = (s.watched p (f p)).1
      ∧ s.newReports p (f p) ⊆ (s.monitorWords f ps).smon.reports := by
  induction ps generalizing s with
  | nil => cases h
  | cons a ps ih =>
    obtain ⟨ha, hps⟩ := List.nodup_cons.mp hn
    by_cases e : p = a
    · subst e
      refine ⟨(State.monitorWords_monitor_other f ps ha _).trans ((s.monitorWord_monitor p _ p).trans (if_pos rfl)),
        List.Subset.trans ?_ (State.monitorWords_reports f ps (s.monitorWord p (f p)))⟩
      rw [State.monitorWord_reports]
      exact List.subset_append_right _ _
    · have hw : (s.monitorWord a (f a)).watched p (f p) = s.watched p (f p) :=
        State.watched_congr _ (s.monitorWord_parties a _) (s.monitorWord_patterns a _)
          ((s.monitorWord_monitor a _ p).trans (if_neg e))
      have hrest := ih hps ((List.mem_cons.mp h).resolve_left e) (s.monitorWord a (f a))
      rwa [State.newReports, hw] at hrest

end

section
variable {s : State} {x : PortId} {bits : BitVec 512} {p : Party}

/-- A LOCKED port after an aligned frame, before its parties are monitored (R160). -/
def State.alignedAgain (s : State) (x : PortId) : State :=
  s.setPort x { s.port x with aligned := min 4 ((s.port x).aligned + 1), missed := 0 }

theorem State.alignedAgain_slots (s : State) (x y : PortId) : ((s.alignedAgain x).port y).slots = (s.port y).slots := by
  by_cases h : y = x
  · subst h
    rw [State.alignedAgain, State.setPort_port_same]
  · rw [State.alignedAgain, s.setPort_port_other x y _ h]

theorem State.alignedAgain_inService (s : State) (x : PortId) (p : Party) : (s.alignedAgain x).inService p = s.inService p := by
  simp only [State.inService, State.partySlot, PortRec.slot, State.alignedAgain_slots]

/-- The parties that an aligned frame of a LOCKED port monitors (R34). -/
def State.listened (s : State) (x : PortId) : List Party := (partiesOf x).filter s.inService

theorem State.mem_listened (hx : portOf p = x) : p ∈ s.listened x ↔ s.inService p = true := by
  simp [State.listened, mem_partiesOf, hx]

/-- An aligned frame of a LOCKED port is a monitored frame of its parties (R34). -/
theorem State.inboundFrame_locked (hl : (s.port x).sync = .locked) (ha : bits.extractLsb' 496 16 = 0xB16D#16) :
    s.inboundFrame x bits
      = (((s.alignedAgain x).monitorWords (fun p => lineWord bits (slotIndexOf p)) (s.listened x)).latch x bits).edge := by
  have hchecked : s.alignedFrame x = s.alignedAgain x := by simp only [State.alignedFrame, hl, State.alignedAgain]
  have hsync : ((s.alignedAgain x).port x).sync = .locked := by
    rw [State.alignedAgain, State.setPort_port_same]
    exact hl
  have hframe : (s.alignedAgain x).monitorFrame x bits
      = (s.alignedAgain x).monitorWords (fun p => lineWord bits (slotIndexOf p)) (s.listened x) := by
    unfold State.monitorFrame State.monitorWords State.listened
    rw [funext (s.alignedAgain_inService x)]
  unfold State.inboundFrame
  rw [if_pos (show alignmentOf bits = Config.alignmentCode from ha), hchecked]
  dsimp only
  rw [if_pos ⟨hl, hsync⟩, hframe]

theorem State.latch_edge_smon (s : State) (x : PortId) (bits : BitVec 512) : (s.latch x bits).edge.smon = s.smon :=
  s.setPort_smon x _

theorem State.inboundFrame_smon (hl : (s.port x).sync = .locked) (ha : bits.extractLsb' 496 16 = 0xB16D#16) :
    (s.inboundFrame x bits).smon
      = ((s.alignedAgain x).monitorWords (fun p => lineWord bits (slotIndexOf p)) (s.listened x)).smon := by
  rw [State.inboundFrame_locked hl ha, State.latch_edge_smon]

/-- A party whose slot is disabled has no monitored frame (R34). -/
theorem State.inboundFrame_unheard (hx : portOf p = x) (hl : (s.port x).sync = .locked)
    (ha : bits.extractLsb' 496 16 = 0xB16D#16) (hi : s.inService p = false) :
    (s.inboundFrame x bits).monitor p = s.monitor p := by
  rw [State.monitor, State.inboundFrame_smon hl ha]
  have hp : p ∉ s.listened x := by simp [State.mem_listened hx, hi]
  refine (State.monitorWords_monitor_other _ _ hp _).trans ?_
  rw [State.monitor, State.alignedAgain, State.setPort_smon]
  rfl

/-- A party whose slot is enabled takes its word of the frame (R34). -/
theorem State.inboundFrame_heard (hx : portOf p = x) (hl : (s.port x).sync = .locked)
    (ha : bits.extractLsb' 496 16 = 0xB16D#16) (hi : s.inService p = true) :
    (s.inboundFrame x bits).monitor p = (s.watched p (lineWord bits (slotIndexOf p))).1
      ∧ s.newReports p (lineWord bits (slotIndexOf p)) ⊆ (s.inboundFrame x bits).smon.reports := by
  have hw : (s.alignedAgain x).watched p (lineWord bits (slotIndexOf p)) = s.watched p (lineWord bits (slotIndexOf p)) :=
    State.watched_congr _ (s.setPort_parties x _) (congrArg Smon.patterns (s.setPort_smon x _))
      (by rw [State.monitor, State.alignedAgain, State.setPort_smon]; rfl)
  have h := State.monitorWords_mem (fun q => lineWord bits (slotIndexOf q)) (s.listened x)
    ((nodup_partiesOf x).filter _) ((State.mem_listened hx).mpr hi) (s.alignedAgain x)
  rw [State.newReports, hw] at h
  rw [State.monitor, State.inboundFrame_smon hl ha]
  exact h

end

/-! ### QUALIFY -/

section
variable {s : State} {p : Party} {i : Fin 6}

theorem exec_qualify_refused (h : s.canQualify p (row s.smon.patterns i) = false) : exec (.qualify p i) s = .next s :=
  if_neg (by simp [h])

theorem exec_qualify_accepted (h : s.canQualify p (row s.smon.patterns i) = true) :
    exec (.qualify p i) s = .next (s.qualifyBy p (row s.smon.patterns i)) := if_pos h

variable (s p) (e : Pattern)

/-- The match count that QUALIFY leaves: one that has reached the qualify count (R36). -/
def State.qualifyCount : Nat :=
  if (s.monitor p).candidate = some e.meaning then max e.count (s.monitor p).matchCount else e.count

theorem State.le_qualifyCount : e.count ≤ s.qualifyCount p e := by
  unfold State.qualifyCount
  split
  · exact le_max_left _ _
  · exact le_rfl

theorem State.qualifyBy_eq : s.qualifyBy p e = { s with smon := { s.smon with
    monitors := put s.smon.monitors p
      { candidate := some e.meaning, matchCount := s.qualifyCount p e, qualified := some e.meaning },
    reports := s.smon.reports
      ++ if (s.monitor p).qualified = some e.meaning then [] else [{ party := p, meaning := e.meaning }] } } := by
  unfold State.qualifyBy
  by_cases h : (s.monitor p).qualified = some e.meaning
  · simp [h, State.setMonitor, State.qualifyCount]
  · simp [h, State.setMonitor, State.report, State.qualifyCount]

theorem State.qualifyBy_monitor (q : Party) : (s.qualifyBy p e).monitor q
    = if q = p then { candidate := some e.meaning, matchCount := s.qualifyCount p e, qualified := some e.meaning }
      else s.monitor q := by
  rw [State.qualifyBy_eq]
  exact row_put _ _ _ _

end

/-- Settles O49. -/
theorem aMonitoredFrameQualifiesAMeaning : Obligations.AMonitoredFrameQualifiesAMeaning := by
  refine ⟨fun x bits p s hx hl ha => ?_, fun p i s h => exec_qualify_refused ?_, fun p i s hl hi => ?_⟩
  · intro word takes m
    have hword : lineWord bits (slotIndexOf p) = word := lineWord_eq bits _
    have htakes : ∀ i, (row s.smon.patterns i).matches (s.party p).kind word = takes (row s.smon.patterns i) := fun i => by
      simp only [takes, Pattern.matches, Pattern.considered, Pattern.agrees, AppliesTo.takes_eq]
    have hexec : exec (.inboundFrame x bits) s = .next (s.inboundFrame x bits) := if_neg (by simp [hl])
    refine ⟨_, hexec, State.inboundFrame_unheard hx hl ha, fun hi hnone => ?_, fun i hi hpos hlow => ?_⟩
    · rw [(State.inboundFrame_heard hx hl ha hi).1, hword]
      exact State.watched_none (State.deciding_none fun i => (htakes i).trans (hnone i))
    · intro e count
      obtain ⟨hmon, hrep⟩ := State.inboundFrame_heard hx hl ha hi
      rw [hword] at hmon hrep
      have hw := State.watched_some (State.deciding_some ((htakes i).trans hpos) fun j hj => (htakes j).trans (hlow j hj))
        (count := count) rfl
      refine ⟨hmon.trans (congrArg Prod.fst hw), fun hn hq => hrep (State.mem_newReports ?_ ?_)⟩
      · rw [hw]
        exact decide_eq_true ⟨hn, hq⟩
      · rw [hw]
        exact if_pos hn
  · rcases h with h | h | h <;> simp [State.canQualify, Pattern.considered, h]
  · intro e hv hk
    have hcan : s.canQualify p e = true := by
      simp [State.canQualify, Pattern.considered, hl, hi, hv, (AppliesTo.takes_iff _ _).mpr hk]
    have hmon := s.qualifyBy_monitor p e
    have hown := (hmon p).trans (if_pos rfl)
    refine ⟨s.qualifyBy p e, exec_qualify_accepted hcan, ?_, ?_, ?_, ?_, fun q hq => (hmon q).trans (if_neg hq), ?_⟩
    · rw [State.qualifyBy_eq]
    · rw [hown]
    · rw [hown]
    · rw [hown]
      exact s.le_qualifyCount p e
    · rw [State.qualifyBy_eq]

end Sys2Proof.Machine

namespace Sys2Proof.Machine

/-! ### Positions of a frame -/

theorem partiesOf_length (x : PortId) : (partiesOf x).length = match x with | .lp0 => 12 | .lp1 => 12 | .sp => 0 := by
  cases x <;> decide

/-- A party stands at its slot's number among the parties of its port (R5). -/
theorem partiesOf_slotIndexOf : ∀ p : Party, (partiesOf (portOf p))[slotIndexOf p]? = some p := by decide

theorem portOf_ne_sp (p : Party) : portOf p ≠ .sp := by
  unfold portOf
  split <;> simp

/-- The audio of a line-side slot, by its lowest bit (11.7). -/
theorem lineAudio_eq (bits : BitVec 512) (n : Nat) : lineAudio bits n = bits.extractLsb' (472 - 32 * n) 24 := by
  unfold lineAudio positionsOf
  congr 1
  omega

/-- The audio of a source slot of SP, by its lowest bit (11.7). -/
theorem sourceAudio_eq (bits : BitVec 512) (n : Nat) : sourceAudio bits n = bits.extractLsb' (472 - 24 * n) 24 := by
  unfold sourceAudio positionsOf
  congr 1
  omega

theorem upTo_getElem? {n : Nat} (i : Fin n) : (upTo n)[i.val]? = some i := by
  simp [upTo]

section
variable {s : State}

theorem State.delivers_iff (x : PortId) (n : Nat) : s.delivers x n = true ↔ s.hasSignal x n := by
  simp [State.delivers, State.hasSignal]

theorem State.inboundBits_eq {x : PortId} {b : BitVec 512} (h : (s.port x).inbound = some b) : s.inboundBits x = b := by
  rw [State.inboundBits, h]
  rfl

/-! ### The slot inputs -/

theorem State.sourceSample_silent {n : Source} (h : ¬ s.hasSignal .sp n.val) : s.sourceSample n = 0 :=
  if_neg (mt (State.delivers_iff _ _).mp h)

theorem State.sourceSample_heard {n : Source} {b : BitVec 512} (h : s.hasSignal .sp n.val)
    (hb : (s.port .sp).inbound = some b) :
    s.sourceSample n = (s.ports.sp.slot n.val).format.decode (b.extractLsb' (472 - 24 * n.val) 24) := by
  rw [State.sourceSample, if_pos ((State.delivers_iff _ _).mpr h), State.inboundBits_eq hb, sourceAudio_eq]

theorem State.lineSample_silent {p : Party} (h : ¬ s.hasSignal (portOf p) (slotIndexOf p)) : s.lineSample p = 0 :=
  if_neg (mt (State.delivers_iff _ _).mp h)

theorem State.lineSample_heard {p : Party} {b : BitVec 512} (h : s.hasSignal (portOf p) (slotIndexOf p))
    (hb : (s.port (portOf p)).inbound = some b) :
    s.lineSample p = (s.partySlot p).format.decode (b.extractLsb' (472 - 32 * slotIndexOf p) 24) := by
  rw [State.lineSample, if_pos ((State.delivers_iff _ _).mpr h), State.inboundBits_eq hb, lineAudio_eq]

/-! ### The party inputs and the returns -/

theorem State.inputFrom_line {p : Party} (h : (s.party p).state ≠ .looptest) (returns : Party → Int) :
    s.inputFrom returns p = s.lineSample p := if_neg h

/-- The input of a party in LOOPTEST is its return while its loop source has a signal, and else silence (R84). -/
theorem State.inputFrom_loop {p : Party} {n : Source} (h : (s.party p).state = .looptest)
    (hn : (s.party p).loopSource = some n) (returns : Party → Int) :
    (s.hasSignal .sp n.val → s.inputFrom returns p = returns p) ∧ (¬ s.hasSignal .sp n.val → s.inputFrom returns p = 0) := by
  simp only [State.inputFrom, if_pos h, State.substituted, hn]
  exact ⟨fun hs => if_pos ((State.delivers_iff _ _).mpr hs), fun hs => if_neg (mt (State.delivers_iff _ _).mp hs)⟩

theorem State.row_inputs (p : Party) : row s.inputs p = s.inputFrom (fun q => row s.loopReturns q) p := row_tab _ _

theorem State.row_returns (p : Party) : row s.returns p
    = if (s.party p).state = .looptest then row s.loopReturns p else s.formReturn (fun q => row s.inputs q) p := row_tab _ _

/-- The inputs that the return of a party is formed from: for a party in LOOPTEST, those of the parties in LOOPTEST as formed
in the frame before (R79, R84; log entry 13). -/
def State.inputsFor (s : State) (p : Party) : Party → Int :=
  if (s.party p).state = .looptest then s.inputFrom fun q => row s.rmix.lastReturns q else fun q => row s.inputs q

theorem State.row_returns_eq (p : Party) : row s.returns p = s.formReturn (s.inputsFor p) p := by
  rw [State.row_returns, State.inputsFor]
  split_ifs with h
  · exact (row_tab _ _).trans (if_pos h)
  · rfl

theorem State.inputsFor_shared {p q : Party} (h : (s.party p).state ≠ .looptest ∨ (s.party q).state ≠ .looptest) :
    s.inputsFor p q = row s.inputs q := by
  unfold State.inputsFor
  split_ifs with hp
  · have hq := h.resolve_left (not_not_intro hp)
    rw [State.row_inputs, State.inputFrom_line hq, State.inputFrom_line hq]
  · rfl

theorem State.inputsFor_loop {p : Party} (hp : (s.party p).state = .looptest) :
    s.inputsFor p = s.inputFrom fun q => row s.rmix.lastReturns q := if_pos hp

end

/-! ### The samples of an audio frame -/

/-- The samples from which the outputs of an audio frame are formed. -/
def State.samples (s : State) : Signals :=
  { source := s.sourceSample, line := s.lineSample, input := fun p => row s.inputs p, ret := fun p => row s.returns p }

section
variable (s : State)

theorem State.samples_ret (p : Party) :
    s.samples.ret p = (s.partySlot p).format.hold (s.samples.sum (s.inputsFor p) (s.ret p).ingredients) :=
  State.row_returns_eq p

theorem State.samples_cue (c : Option CuePlace) : s.samples.cue c
    = s.placeOutput (fun p => row s.inputs p) (fun p => row s.returns p) c := by
  cases c with
  | none => rfl
  | some c =>
    unfold Signals.cue State.placeOutput State.placeSignal
    cases c.selection <;> rfl

/-- The samples follow the slots, the loop tests and the ingredients of the state that they are formed from. -/
theorem State.signals_samples {t : State} (hl : t.rmix.lastReturns = s.returns) (hr : t.rmix.returns = s.rmix.returns) :
    s.signals t s.samples := by
  refine ⟨fun n => ⟨State.sourceSample_silent, fun b h hb => State.sourceSample_heard h hb⟩,
    fun p => ⟨State.lineSample_silent, fun b h hb => State.lineSample_heard h hb⟩,
    fun p => ⟨fun h => ?_, fun n h hn => ?_⟩, ?_, fun p => ⟨s.inputsFor p, fun q hq => State.inputsFor_shared hq,
      fun q n hp hq hn => ?_, ?_⟩⟩
  · exact (State.row_inputs p).trans (State.inputFrom_line h _)
  · have hloop := State.inputFrom_loop h hn fun q => row s.loopReturns q
    have hret : s.samples.ret p = row s.loopReturns p := (State.row_returns p).trans (if_pos h)
    rw [← State.row_inputs, ← hret] at hloop
    exact hloop
  · rw [hl]
    exact row_ext fun p => (row_tab _ p).symm
  · rw [State.inputsFor_loop hp]
    exact State.inputFrom_loop hq hn _
  · have hret : t.ret p = s.ret p := congrArg (row · p) hr
    rw [hret]
    exact s.samples_ret p

/-- What the movement of the gains changes is of no account to the samples, but for the returns that the frame leaves. -/
theorem State.signals_of_advanceRamps {t : State} {g : Signals} (h : s.advanceRamps.signals t g) : s.signals t g := h

end

/-! ### The outbound frames -/

section
variable (s : State)

/-- The frame that a port sends while it is LOCKED (R42, R96, R155). -/
def State.frameOf : PortId → OutFrame
  | .lp0 => s.lineFrame (fun p => row s.returns p) .lp0
  | .lp1 => s.lineFrame (fun p => row s.returns p) .lp1
  | .sp => s.studioFrame (fun p => row s.inputs p) fun p => row s.returns p

theorem State.audioFrame_port (x : PortId) : s.audioFrame.port x = (s.port x).drive (s.advanceRamps.frameOf x) := by
  cases x <;> rfl

theorem State.frameOf_line (p : Party) : s.frameOf (portOf p) = s.lineFrame (fun q => row s.returns q) (portOf p) := by
  cases h : portOf p
  · rfl
  · rfl
  · exact absurd h (portOf_ne_sp p)

theorem State.frameOf_alignment (x : PortId) : (s.frameOf x).alignment = 0xB16D#16 := by cases x <;> rfl

theorem State.frameOf_length (x : PortId) :
    (s.frameOf x).slots.length = match x with | .lp0 => 12 | .lp1 => 12 | .sp => 11 := by
  cases x
  · exact (List.length_map _).trans (partiesOf_length .lp0)
  · exact (List.length_map _).trans (partiesOf_length .lp1)
  · simp [State.frameOf, State.studioFrame, allSlots, allLinks, upTo]

theorem State.frameOf_party (p : Party) : (s.frameOf (portOf p)).slots[slotIndexOf p]?
    = some ((s.partySlot p).drives (row s.returns p) (some (signalWord (s.party p).signalOut))) := by
  rw [State.frameOf_line, State.lineFrame, List.getElem?_map, partiesOf_slotIndexOf]
  rfl

theorem State.frameOf_airSlot (n : AirSlot) : (s.frameOf .sp).slots[n.val]?
    = some ((s.ports.sp.slot (16 + n.val)).drives (s.airOutput (fun p => row s.inputs p) n) none) := by
  rw [State.frameOf, State.studioFrame, List.getElem?_append_left (by simp [allSlots, upTo]), List.getElem?_map,
    allSlots, upTo_getElem?]
  rfl

theorem State.frameOf_cueSlot (k : Link) : (s.frameOf .sp).slots[8 + k.val]?
    = some ((s.ports.sp.slot (24 + k.val)).drives
        (s.samples.cue (s.cue k).current + s.samples.cue (s.cue k).previous) none) := by
  rw [State.frameOf, State.studioFrame, List.getElem?_append_right (by simp [allSlots, upTo]), List.length_map,
    show allSlots.length = 8 from rfl, Nat.add_sub_cancel_left, List.getElem?_map, allLinks, upTo_getElem?,
    State.samples_cue, State.samples_cue]
  rfl

/-- A port sends its frame while it is LOCKED, and nothing else (R163). -/
theorem State.audioFrame_outbound {x : PortId} {f : OutFrame} (h : (s.audioFrame.port x).outbound = some f) :
    f = s.advanceRamps.frameOf x := by
  rw [State.audioFrame_port, PortRec.drive] at h
  dsimp only at h
  split_ifs at h
  exact (Option.some.inj h).symm

end

/-! ### A sample at a gain -/

theorem atGain_silent (h : Rat) : atGain h 0 = 0 := if_pos rfl

theorem atGain_unity (x : Int) : atGain 0 x = x := by
  unfold atGain
  by_cases hx : x = 0 <;> simp [hx]

/-- Settles O45. -/
theorem audioFrameDrivesOnlyLockedPorts : Obligations.AudioFrameDrivesOnlyLockedPorts := by
  refine ⟨fun h x => ⟨atGain_silent h, atGain_unity x, atGain_near h x⟩, fun s =>
    ⟨s.audioFrame, s.advanceRamps.samples, rfl,
      s.signals_of_advanceRamps (s.advanceRamps.signals_samples rfl rfl), fun x => ?_, fun x hx => ?_, fun x hx => ?_,
      fun p f hf => ?_, fun f n hf => ?_, fun f k hf => ?_⟩⟩
  · rw [State.audioFrame_port]
    rfl
  · rw [State.audioFrame_port]
    exact if_neg hx
  · refine ⟨s.advanceRamps.frameOf x, ?_, State.frameOf_alignment _ x, State.frameOf_length _ x⟩
    rw [State.audioFrame_port]
    exact if_pos hx
  · rw [s.audioFrame_outbound hf, State.frameOf_party]
    change some ((s.partySlot p).drives (row s.advanceRamps.returns p) (some (signalWord (s.party p).signalOut))) = _
    cases (s.party p).signalOut <;> rfl
  · rw [s.audioFrame_outbound hf, State.frameOf_airSlot]
    rfl
  · rw [s.audioFrame_outbound hf, State.frameOf_cueSlot]
    rfl

end Sys2Proof.Machine

namespace Sys2Proof.Machine

/-! ### What the law of the groups reads -/

/-- The groups, and the state and the owner of every party, stay. -/
def State.sameGroups (s t : State) : Prop :=
  t.conf = s.conf ∧ ∀ p, (t.party p).state = (s.party p).state ∧ (t.party p).owner = (s.party p).owner

theorem State.sameGroups_refl (s : State) : s.sameGroups s := ⟨rfl, fun _ => ⟨rfl, rfl⟩⟩

theorem State.sameGroups.trans {s t u : State} (h : s.sameGroups t) (g : t.sameGroups u) : s.sameGroups u :=
  ⟨g.1.trans h.1, fun p => ⟨(g.2 p).1.trans (h.2 p).1, (g.2 p).2.trans (h.2 p).2⟩⟩

theorem sameGroups_foldl {α : Type} (f : State → α → State) (h : ∀ (s : State) (a : α), s.sameGroups (f s a)) (l : List α)
    (s : State) : s.sameGroups (l.foldl f s) := by
  induction l generalizing s with
  | nil => exact s.sameGroups_refl
  | cons a l ih => exact (h s a).trans (ih _)

theorem State.sameGroups_of_eq {s t : State} (hp : t.parties = s.parties) (hc : t.conf = s.conf) : s.sameGroups t :=
  ⟨hc, fun p => by simp [State.party, hp]⟩

theorem State.sameCalls.sameGroups {s t : State} (h : s.sameCalls t) (hc : t.conf = s.conf) : s.sameGroups t :=
  State.sameGroups_of_eq h.1 hc

/-- A change of one party's record that keeps its state and its owner. -/
theorem State.writes.sameGroups {s t : State} {p : Party} {r : PartyRec} {os : List Offer} (h : s.writes t p r os)
    (hs : r.state = (s.party p).state) (ho : r.owner = (s.party p).owner) : s.sameGroups t := by
  obtain ⟨hp, hq, -, hf⟩ := h
  refine ⟨by rw [hf], fun q => ?_⟩
  by_cases e : q = p
  · rw [e, hp]
    exact ⟨hs, ho⟩
  · rw [hq q e]
    exact ⟨rfl, rfl⟩

theorem State.sameGroups.groupLaw {s t : State} (h : s.sameGroups t) (hs : s.groupLaw) : t.groupLaw := by
  obtain ⟨hc, hp⟩ := h
  have eg : ∀ g, t.group g = s.group g := fun g => by simp only [State.group, hc]
  unfold State.groupLaw at *
  simpa only [eg, hp] using hs

/-! ### A party out of its group -/

theorem State.outOfGroup.subset {s t : State} {p : Party} (h : s.outOfGroup t p) (g : Group) :
    (t.group g).members ⊆ (s.group g).members := by
  by_cases hm : p ∈ (s.group g).members
  · rw [((h g).2 hm).1]
    exact List.filter_subset_self _
  · rw [(h g).1 hm]
    exact List.Subset.refl _

theorem State.outOfGroup.notMem {s t : State} {p : Party} (h : s.outOfGroup t p) (g : Group) : p ∉ (t.group g).members := by
  by_cases hm : p ∈ (s.group g).members
  · rw [((h g).2 hm).1]
    simp
  · rwa [(h g).1 hm]

theorem State.outOfGroup.groupOf {s t : State} {p : Party} (h : s.outOfGroup t p) : t.groupOf p = none := by
  unfold State.groupOf
  rw [List.find?_eq_none]
  exact fun g _ => by simpa using h.notMem g

theorem State.ungroup_outOfGroup (s : State) (p : Party) : s.outOfGroup (s.ungroup p) p := State.outOfGroup_of_ungroup p rfl

/-- Whatever becomes of the record of a party that leaves its group, the groups stay lawful (R48). -/
theorem State.groupLaw.outOfGroup {s t : State} (h : s.groupLaw) {p : Party} (hg : s.outOfGroup t p)
    (ho : s.otherParties t p) : t.groupLaw := by
  intro g
  obtain ⟨h1, h2, h3, h4⟩ := h g
  have member : ∀ q ∈ (t.group g).members, (t.party q).state = .screening ∧ (t.party q).owner = (s.group g).owner
      ∧ ∀ g', q ∈ (t.group g').members → g' = g := by
    intro q hq
    obtain ⟨hs, hown, hone⟩ := h4 q (hg.subset g hq)
    rw [ho q fun e => hg.notMem g (e ▸ hq)]
    exact ⟨hs, hown, fun g' hq' => hone g' (hg.subset g' hq')⟩
  by_cases hm : p ∈ (s.group g).members
  · obtain ⟨em, eo⟩ := (hg g).2 hm
    have hne : (s.group g).owner ≠ none := fun e => List.ne_nil_of_mem hm (h3.2 e)
    refine ⟨em ▸ h1.filter _, ?_, ?_, fun q hq => ?_⟩
    · rw [em]
      exact (List.length_filter_le _ _).trans h2
    · rw [eo]
      split <;> simp_all
    · rw [eo, if_neg (List.ne_nil_of_mem hq)]
      exact member q hq
  · rw [(hg g).1 hm] at member ⊢
    exact ⟨h1, h2, h3, member⟩

/-- The removals of R26 keep the law of the groups, but for a party that stays SCREENING. -/
theorem State.groupLaw.left {s t : State} (h : s.groupLaw) {p : Party} {into : PartyState} (hc : t.conf = (s.leave p into).conf)
    (ho : s.otherParties t p) (hi : (s.party p).state = .screening → into ≠ .screening) : t.groupLaw := by
  by_cases hs : (s.party p).state = .screening
  · exact h.outOfGroup (State.outOfGroup_of_ungroup p (hc.trans (s.leave_conf_screening p into hs (hi hs)))) ho
  · exact h.outside hs (hc.trans (s.leave_conf_none p into hs)) ho

theorem State.groupLaw.conclude {s : State} (h : s.groupLaw) (p : Party) (into : PartyState) (r : PartyRec) (j : Option Link)
    (call : List Event) (tail : List Offer) (hi : (s.party p).state = .screening → into ≠ .screening) :
    ((s.entered p into r).conclude s p j call tail).groupLaw := by
  obtain ⟨-, -, hc, -, -, -, -, ho, -, -⟩ := s.conclude_moved p into r j call tail
  exact h.left hc ho hi

/-! ### A party at the tail of a group -/

/-- The groups with party `p` at the tail of group `g`, before RMIX is told (R46). -/
def State.grouped (s : State) (p : Party) (g : Group) (k : Link) : State :=
  { s.ungroup p with conf := put (s.ungroup p).conf g (((s.ungroup p).group g).withTail p k) }

theorem State.moveToGroup_eq (s : State) (p : Party) (g : Group) (k : Link) :
    s.moveToGroup p g k = ((s.grouped p g k).reportFeeds (s.groupMates p g)).retargetCues := rfl

section
variable (s : State) (p : Party) (g : Group) (k : Link)

theorem State.grouped_group (h : Group) : (s.grouped p g k).group h
    = if h = g then ((s.ungroup p).group g).withTail p k else (s.ungroup p).group h := row_put _ _ _ _

@[simp] theorem State.grouped_party (q : Party) : (s.grouped p g k).party q = s.party q := rfl

theorem State.moveToGroup_sameGroups : (s.grouped p g k).sameGroups (s.moveToGroup p g k) := by
  rw [State.moveToGroup_eq]
  exact State.sameGroups_of_eq (by simp) (by simp)

theorem State.leaveGroup_sameGroups : (s.ungroup p).sameGroups (s.leaveGroup p g) :=
  State.sameGroups_of_eq (by simp [State.leaveGroup]) (by simp [State.leaveGroup])

end

section
variable {s : State} {p : Party} {g : Group} {k : Link}

/-- The group that a party joins, coming from outside it. -/
theorem State.grouped_self (hp : p ∉ (s.group g).members) : (s.grouped p g k).group g
    = { members := (s.group g).members ++ [p],
        owner := if (s.group g).members = [] then some k else (s.group g).owner } := by
  rw [State.grouped_group, if_pos rfl, (s.ungroup_outOfGroup p g).1 hp]
  simp [GroupRec.withTail]

theorem State.grouped_other {h : Group} (hh : h ≠ g) : (s.grouped p g k).group h = (s.ungroup p).group h := by
  rw [State.grouped_group, if_neg hh]

theorem State.mem_grouped (hp : p ∉ (s.group g).members) (q : Party) (h : Group) :
    q ∈ ((s.grouped p g k).group h).members ↔ q = p ∧ h = g ∨ q ∈ ((s.ungroup p).group h).members := by
  by_cases e : h = g
  · subst e
    rw [State.grouped_self hp, (s.ungroup_outOfGroup p h).1 hp]
    simp [or_comm]
  · simp [State.grouped_other e, e]

/-- No party stands in two groups after a join (R43). -/
theorem State.groupLaw.grouped_one (hu : (s.ungroup p).groupLaw) (hp : p ∉ (s.group g).members) {q : Party} {h h' : Group}
    (hq : q ∈ ((s.grouped p g k).group h).members) (hq' : q ∈ ((s.grouped p g k).group h').members) : h' = h := by
  have out := s.ungroup_outOfGroup p
  rw [State.mem_grouped hp] at hq hq'
  rcases hq with ⟨rfl, rfl⟩ | hq <;> rcases hq' with ⟨e, rfl⟩ | hq'
  · rfl
  · exact absurd hq' (out.notMem h')
  · exact absurd (e ▸ hq) (out.notMem h)
  · exact ((hu h).2.2.2 q hq).2.2 h' hq'

/-- A group that is empty or the joining link's own, with room for its party (R45, R46). -/
theorem State.groupLaw.grouped (h : s.groupLaw) (hs : (s.party p).state = .screening) (ho : (s.party p).owner = some k)
    (hg : (s.group g).members = [] ∨ (s.group g).owner = some k) (hp : p ∉ (s.group g).members)
    (hl : (s.group g).members.length < 8) : (s.grouped p g k).groupLaw := by
  have hu : (s.ungroup p).groupLaw := h.outOfGroup (s.ungroup_outOfGroup p) fun _ _ => rfl
  intro g'
  by_cases e : g' = g
  · subst e
    obtain ⟨h1, -, -, h4⟩ := h g'
    have eg : (s.grouped p g' k).group g' = { members := (s.group g').members ++ [p], owner := some k } := by
      rw [State.grouped_self hp]
      rcases hg with hg | hg <;> simp [hg]
    have member : ∀ q ∈ (s.group g').members ++ [p], (s.party q).state = .screening ∧ (s.party q).owner = some k := by
      intro q hq
      rcases List.mem_append.mp hq with hq | hq
      · obtain ⟨hqs, hqo, -⟩ := h4 q hq
        exact ⟨hqs, hqo.trans (hg.resolve_left (List.ne_nil_of_mem hq))⟩
      · rw [List.mem_singleton.mp hq]
        exact ⟨hs, ho⟩
    refine ⟨?_, ?_, by simp [eg], fun q hq => ?_⟩
    · rw [eg]
      exact List.nodup_append.mpr ⟨h1, List.nodup_singleton p, by rintro a ha b hb rfl; simp_all⟩
    · simp only [eg, List.length_append, List.length_singleton]
      omega
    · have hm := member q (by rwa [eg] at hq)
      exact ⟨hm.1, by rw [eg]; exact hm.2, fun g'' hq' => hu.grouped_one hp hq hq'⟩
  · obtain ⟨h1, h2, h3, h4⟩ := hu g'
    have eg : (s.grouped p g k).group g' = (s.ungroup p).group g' := State.grouped_other e
    refine ⟨eg ▸ h1, eg ▸ h2, eg ▸ h3, fun q hq => ?_⟩
    obtain ⟨hqs, hqo, -⟩ := h4 q (eg ▸ hq)
    exact ⟨hqs, eg ▸ hqo, fun g'' hq' => hu.grouped_one hp hq hq'⟩

end

end Sys2Proof.Machine

namespace Sys2Proof.Machine

/-! ### The transitions keep the law of the groups -/

section
variable {s : State} (h : s.groupLaw) (p : Party) (k : Link)
include h

theorem State.groupLaw.toVacant (call : State → State → List Event) : (s.toVacant p call).groupLaw :=
  h.conclude p .vacant _ _ _ _ fun _ => by decide

theorem State.groupLaw.toFault (cause : Nat) : (s.toFault p cause).groupLaw :=
  h.conclude p .fault _ _ _ _ fun _ => by decide

theorem State.groupLaw.toAlerting : (s.toAlerting p).groupLaw := by
  rw [s.toAlerting_eq]
  exact h.conclude p .alerting _ _ _ _ fun _ => by decide

/-- ANSR takes in a party that stands in no group, being ALERTING (R9). -/
theorem State.groupLaw.answer (hs : (s.party p).state = .alerting) : (s.answer p k).groupLaw := by
  rw [s.answer_eq]
  exact h.conclude p .screening _ _ _ _ fun e => by simp [hs] at e

theorem State.groupLaw.toParked : (s.toParked p k).groupLaw := by
  rw [s.toParked_eq]
  exact h.conclude p .parked _ _ _ _ fun _ => by decide

theorem State.groupLaw.toQueue (x : Studio) : (s.toQueue p x k).groupLaw := by
  obtain ⟨-, -, hc, -, -, -, -, ho, -, -⟩ := s.toQueue_moved p x k
  exact h.left hc ho fun _ => by decide

theorem State.groupLaw.toAir (n : AirSlot) : (s.toAir p n k).groupLaw := by
  obtain ⟨-, -, hc, -, -, -, -, ho, -, -⟩ := s.toAir_moved p n k
  exact h.left hc ho fun _ => by decide

theorem State.groupLaw.release : (s.release p k).groupLaw := by
  rw [s.release_eq]
  exact h.conclude p .clearing _ _ _ _ fun _ => by decide

theorem State.groupLaw.startLoop (src : Source) : (s.startLoop p src k).groupLaw := by
  rw [s.startLoop_eq]
  exact h.conclude p .looptest _ _ _ _ fun _ => by decide

theorem State.groupLaw.partyReset : (s.partyReset p).groupLaw := by
  rw [s.partyReset_eq]
  exact h.conclude p .vacant _ _ _ _ fun _ => by decide

theorem State.groupLaw.portFailure : (s.portFailure p).groupLaw := by
  unfold State.portFailure
  split
  case h_7 => exact h.toVacant p _
  case h_8 | h_9 => exact h
  all_goals exact h.toFault p _

/-! ### Transfers and handovers -/

/-- A party that passes to another link leaves its group (R49, R131). -/
theorem State.groupLaw.passTo (r : Link) (cause : Nat) (first last : List Offer) : (s.passTo p r cause first last).groupLaw := by
  obtain ⟨-, hg, ho, -⟩ := s.passTo_passes p r cause first last
  exact h.outOfGroup hg ho

omit h in
theorem State.endHandover_sameGroups (outcome : Nat) : s.sameGroups (s.endHandover p outcome) := by
  rcases e : (s.party p).handover with _ | w
  · simpa only [State.endHandover, e] using s.sameGroups_refl
  · exact (s.endHandover_writes p w outcome e).sameGroups rfl rfl

omit h in
theorem State.cancelHandover_sameGroups : s.sameGroups (s.cancelHandover p) := by
  unfold State.cancelHandover
  split
  · exact (s.writes_offerAll p { s.party p with handover := none } _).sameGroups rfl rfl
  · exact s.sameGroups_refl

theorem State.groupLaw.grantHandover (outcome cause : Nat) : (s.grantHandover p outcome cause).groupLaw := by
  unfold State.grantHandover
  split
  · split
    · exact h.passTo p _ _ _ _
    · exact (State.endHandover_sameGroups p _).groupLaw h
  · exact h

theorem groupLaw_foldl {α : Type} (f : State → α → State) (hf : ∀ (s : State) (a : α), s.groupLaw → (f s a).groupLaw)
    (l : List α) : (l.foldl f s).groupLaw := by
  induction l generalizing s with
  | nil => exact h
  | cons a l ih => exact ih (hf s a h)

end

/-! ### The requests that leave the groups as they are -/

section
variable (k : Link) (a b c d : Byte) (s : State)

theorem State.ownerNamed_sameGroups (p : Party) : s.sameGroups (s.ownerNamed k p) :=
  (s.writes_ownerNamed k p).sameGroups (PartyRec.named_state _ _ _) (PartyRec.named_owner _ _ _)

/-- What an accepted request that names a party does before it is reported to HCTL. -/
theorem State.sameGroups.acceptNaming {s t : State} (g : s.sameGroups t) (k : Link) (p : Party) (data : List Byte) :
    s.sameGroups (acceptNaming t k p data).state := g.trans (t.ownerNamed_sameGroups k p)

theorem refuse_sameGroups (st : Status) : s.sameGroups (refuse s st).state := s.sameGroups_refl

/-- A record rewritten alone, its state and its owner kept. -/
theorem State.modParty_sameGroups (p : Party) (f : PartyRec → PartyRec) (hs : (f (s.party p)).state = (s.party p).state)
    (ho : (f (s.party p)).owner = (s.party p).owner) : s.sameGroups (s.modParty p f) :=
  (s.writes_offerAll p (f (s.party p)) []).sameGroups hs ho

theorem State.setKind_sameGroups (p : Party) (kd : Kind) : s.sameGroups (s.setKind p kd) :=
  (s.modParty_sameGroups p (fun r => { r with kind := kd }) rfl rfl).trans (State.sameGroups_of_eq rfl rfl)

theorem askSknd_sameGroups : s.sameGroups (askSknd k a b s).state := by
  unfold askSknd
  repeat' split
  all_goals first
    | with_reducible exact refuse_sameGroups s _
    | exact (s.setKind_sameGroups _ _).acceptNaming _ _ _

theorem State.moveQueued_sameGroups (p : Party) (x : Studio) (n : Nat) : s.sameGroups (s.moveQueued p x n k) := by
  unfold State.moveQueued
  dsimp only
  split
  · exact s.sameGroups_refl
  · exact State.sameGroups_of_eq (by simp) (by simp)

theorem askMove_sameGroups : s.sameGroups (askMove k a b s).state := by
  unfold askMove
  repeat' split
  all_goals first
    | with_reducible exact refuse_sameGroups s _
    | exact (s.moveQueued_sameGroups k _ _ _).acceptNaming _ _ _

theorem State.select_sameGroups (x : Option Selection) : s.sameGroups (s.select k x) :=
  State.sameGroups_of_eq (by simp) (by simp)

theorem askListen_sameGroups (sel : Party → Selection) : s.sameGroups (askListen k a sel s).state := by
  unfold askListen
  repeat' split
  all_goals first
    | with_reducible exact refuse_sameGroups s _
    | exact (s.select_sameGroups k _).acceptNaming _ _ _

theorem askLstn_sameGroups : s.sameGroups (askLstn k a b s).state := by
  unfold askLstn
  repeat' split
  all_goals first
    | with_reducible exact refuse_sameGroups s _
    | with_reducible exact askListen_sameGroups k _ s _
    | exact s.select_sameGroups k _

theorem State.gainSource_sameGroups (x : Studio) (n : Source) (g : Gain) : s.sameGroups (s.gainSource x n g) := by
  refine (State.gainSource_sameCalls x n g).sameGroups ?_
  unfold State.gainSource
  split <;> simp

theorem State.gainParty_sameGroups (x : Studio) (p : Party) (n : AirSlot) (g : Gain) : s.sameGroups (s.gainParty x p n g) := by
  refine (State.gainParty_sameCalls x p n g).sameGroups ?_
  unfold State.gainParty
  split <;> simp

theorem askGain_sameGroups : s.sameGroups (askGain k a b c d s).state := by
  unfold askGain askGainSource askGainParty
  repeat' split
  all_goals first
    | with_reducible exact refuse_sameGroups s _
    | exact s.gainSource_sameGroups _ _ _
    | exact (s.gainParty_sameGroups _ _ _ _).acceptNaming _ _ _

theorem State.reworkActive_sameGroups (b : State) (p : Party) (own : Option Link) : s.sameGroups (s.reworkActive b p own) :=
  State.sameGroups_of_eq (by simp) (by simp)

theorem State.makeEntry_sameGroups (e : TalkEntry) (p : Party) : s.sameGroups (s.makeEntry e p) :=
  State.sameGroups.trans (State.sameGroups_of_eq (by simp) (by simp)) (State.ownerNamed_sameGroups _ _ p)

theorem askTalk_sameGroups : s.sameGroups (askTalk k a b c d s).state := by
  unfold askTalk
  dsimp only
  repeat' split
  all_goals first
    | with_reducible exact refuse_sameGroups s _
    | exact State.sameGroups.trans (State.sameGroups_of_eq rfl rfl)
        (sameGroups_foldl (fun (t : State) p => t.makeEntry _ p) (fun t p => t.makeEntry_sameGroups _ p) _ { s with tarb := _ })

theorem State.dropEntry_sameGroups (p : Party) : s.sameGroups (s.dropEntry k p) :=
  State.sameGroups_of_eq (by simp [State.dropEntry]) (by simp [State.dropEntry])

theorem askTend_sameGroups : s.sameGroups (askTend k a b s).state := by
  unfold askTend
  split
  · exact sameGroups_foldl _ (fun t p => (t.dropEntry_sameGroups k p).trans (State.ownerNamed_sameGroups k _ p)) _ s
  · exact refuse_sameGroups s _

theorem askStlk_sameGroups : s.sameGroups (askStlk k a b c d s).state := by
  refine (askStlk_sameCalls k a b c d s).sameGroups ?_
  unfold askStlk State.setTalk
  dsimp only [accept, refuse]
  repeat' split
  all_goals simp

theorem askSsrc_sameGroups : s.sameGroups (askSsrc k a b s).state := by
  refine (askSsrc_sameCalls k a b s).sameGroups ?_
  unfold askSsrc State.setMembership
  dsimp only [accept, refuse]
  repeat' split
  all_goals simp

theorem askShld_sameGroups : s.sameGroups (askShld k a b s).state := by
  refine (askShld_sameCalls k a b s).sameGroups ?_
  unfold askShld State.setHold
  dsimp only [accept, refuse]
  repeat' split
  all_goals simp

theorem askSplt_sameGroups : s.sameGroups (askSplt k a s).state := by
  refine (askSplt_sameCalls k a s).sameGroups ?_
  unfold askSplt
  repeat' split
  all_goals rfl

theorem askSflr_sameGroups : s.sameGroups (askSflr k a b s).state := by
  unfold askSflr
  repeat' split
  all_goals first
    | with_reducible exact refuse_sameGroups s _
    | exact State.sameGroups.trans (State.sameGroups_of_eq (by simp) (by simp))
        (sameGroups_foldl (fun (t : State) p => t.reworkActive s p none) (fun t p => t.reworkActive_sameGroups s p none) _
          (s.setFloor _ _))

theorem askSprt_sameGroups (ss : List Byte) : s.sameGroups (askSprt k a b ss s).state := by
  refine (askSprt_sameCalls k a b s ss).sameGroups ?_
  unfold askSprt askSprtIn
  dsimp only [accept, refuse]
  repeat' split
  all_goals simp [State.writePort, State.monitorsAfter]

theorem askStim_sameGroups (v w x y z : Word16) : s.sameGroups (askStim k v w x y z a b s).state := by
  refine (askStim_sameCalls k a b s v w x y z).sameGroups ?_
  unfold askStim
  repeat' split
  all_goals rfl

theorem askSpat_sameGroups (e f g : Byte) : s.sameGroups (askSpat k a b c d e f g s).state := by
  refine (askSpat_sameCalls k a b c d s e f g).sameGroups ?_
  unfold askSpat
  repeat' split
  all_goals rfl

theorem askSreg_sameGroups (e f g i j : Byte) : s.sameGroups (askSreg k a b c d e f g i j s).state := by
  refine (askSreg_sameCalls k a b c d s e f g i j).sameGroups ?_
  unfold askSreg askSregIn
  repeat' split
  all_goals rfl

theorem askLreg_sameGroups : s.sameGroups (askLreg k a s).state := by
  refine (askLreg_sameCalls k a s).sameGroups ?_
  unfold askLreg
  repeat' split
  all_goals rfl

theorem askEmsk_sameGroups : s.sameGroups (askEmsk k a s).state := by
  refine (askEmsk_sameCalls k a s).sameGroups ?_
  unfold askEmsk
  split <;> rfl

theorem askFtch_sameGroups : s.sameGroups (askFtch k a s).state := by
  refine (askFtch_sameCalls k a s).sameGroups ?_
  unfold askFtch
  split <;> rfl

theorem askAtcf_sameGroups : s.sameGroups (askAtcf k a b s).state := by
  refine (askAtcf_sameCalls k a b s).sameGroups ?_
  unfold askAtcf
  split <;> rfl

theorem askKeep_sameGroups : s.sameGroups (askKeep k a b s).state := by
  unfold askKeep
  repeat' split
  all_goals first
    | with_reducible exact refuse_sameGroups s _
    | exact (State.endHandover_sameGroups _ _).acceptNaming _ _ _

theorem askTcan_sameGroups : s.sameGroups (askTcan k a s).state := by
  unfold askTcan
  repeat' split
  all_goals first
    | with_reducible exact refuse_sameGroups s _
    | exact State.endHandover_sameGroups _ _

theorem askLock_sameGroups : s.sameGroups (askLock k a s).state := by
  unfold askLock
  repeat' split
  all_goals first
    | with_reducible exact refuse_sameGroups s _
    | exact State.sameGroups.acceptNaming
        ((State.endHandover_sameGroups _ _).trans (State.modParty_sameGroups _ _ _ rfl rfl)) _ _ _

theorem askUlck_sameGroups : s.sameGroups (askUlck k a s).state := by
  unfold askUlck
  repeat' split
  all_goals first
    | with_reducible exact refuse_sameGroups s _
    | exact State.sameGroups.acceptNaming (State.modParty_sameGroups _ _ _ rfl rfl) _ _ _

theorem State.modLink_sameGroups (f : LinkRec → LinkRec) : s.sameGroups (s.modLink k f) := State.sameGroups_of_eq rfl rfl

theorem askLrst_sameGroups : s.sameGroups (askLrst k s).state :=
  (s.modLink_sameGroups k LinkRec.cleared).trans <|
    (sameGroups_foldl (fun t p => t.dropEntry k p) (fun t p => t.dropEntry_sameGroups k p) _ _).trans <|
    (sameGroups_foldl (fun t p => t.cancelHandover p) (fun _ p => State.cancelHandover_sameGroups p) _ _).trans <|
    (State.select_sameGroups k _ none).trans (State.modLink_sameGroups k _ _)

theorem askRdpy_sameGroups : s.sameGroups (askRdpy k a s).state := by
  unfold askRdpy
  repeat' split
  all_goals first
    | with_reducible exact refuse_sameGroups s _
    | exact s.sameGroups_refl.acceptNaming _ _ _

theorem askRdrt_sameGroups : s.sameGroups (askRdrt k a b s).state := by
  unfold askRdrt
  repeat' split
  all_goals first
    | with_reducible exact refuse_sameGroups s _
    | exact s.sameGroups_refl.acceptNaming _ _ _

end

/-! ### The requests that move a party or pass it on -/

section
variable (k : Link) (a b : Byte) {s : State} (h : s.groupLaw)
include h

theorem refuse_groupLaw (st : Status) : (refuse s st).state.groupLaw := h

theorem State.groupLaw.ownerNamed (p : Party) : (s.ownerNamed k p).groupLaw := (s.ownerNamed_sameGroups k p).groupLaw h

theorem acceptNaming_groupLaw (p : Party) (data : List Byte) : (acceptNaming s k p data).state.groupLaw := h.ownerNamed k p

theorem askAnsr_groupLaw : (askAnsr k a s).state.groupLaw := by
  unfold askAnsr
  repeat' split
  all_goals first
    | with_reducible exact refuse_groupLaw h _
    | exact acceptNaming_groupLaw _ (h.answer _ _ ‹_›) _ _

theorem askPark_groupLaw : (askPark k a s).state.groupLaw := by
  unfold askPark
  repeat' split
  all_goals first
    | with_reducible exact refuse_groupLaw h _
    | exact acceptNaming_groupLaw _ (h.toParked _ _) _ _

theorem askQueu_groupLaw : (askQueu k a b s).state.groupLaw := by
  unfold askQueu
  repeat' split
  all_goals first
    | with_reducible exact refuse_groupLaw h _
    | exact (h.ownerNamed k _).toQueue _ _ _

theorem askAirp_groupLaw : (askAirp k a s).state.groupLaw := by
  unfold askAirp
  repeat' split
  all_goals first
    | with_reducible exact refuse_groupLaw h _
    | exact acceptNaming_groupLaw _ (h.toAir _ _ _) _ _

theorem askNext_groupLaw : (askNext k a s).state.groupLaw := by
  unfold askNext
  repeat' split
  all_goals first
    | with_reducible exact refuse_groupLaw h _
    | exact h.toAir _ _ _

theorem askOffa_groupLaw : (askOffa k a s).state.groupLaw := by
  unfold askOffa
  repeat' split
  all_goals first
    | with_reducible exact refuse_groupLaw h _
    | exact acceptNaming_groupLaw _ (h.toParked _ _) _ _

theorem askUnqu_groupLaw : (askUnqu k a s).state.groupLaw := by
  unfold askUnqu
  repeat' split
  all_goals first
    | with_reducible exact refuse_groupLaw h _
    | exact acceptNaming_groupLaw _ (h.toParked _ _) _ _

theorem askRlse_groupLaw : (askRlse k a s).state.groupLaw := by
  unfold askRlse
  repeat' split
  all_goals first
    | with_reducible exact refuse_groupLaw h _
    | exact (h.ownerNamed k _).release _ _

theorem askLoop_groupLaw : (askLoop k a b s).state.groupLaw := by
  unfold askLoop
  repeat' split
  all_goals first
    | with_reducible exact refuse_groupLaw h _
    | exact acceptNaming_groupLaw _ (h.startLoop _ _ _) _ _

theorem askLend_groupLaw : (askLend k a s).state.groupLaw := by
  unfold askLend
  repeat' split
  all_goals first
    | with_reducible exact refuse_groupLaw h _
    | exact acceptNaming_groupLaw _ (h.toVacant _ _) _ _

theorem askPrst_groupLaw : (askPrst k a s).state.groupLaw := by
  unfold askPrst
  repeat' split
  all_goals first
    | with_reducible exact refuse_groupLaw h _
    | exact (h.ownerNamed k _).partyReset _

/-- The checks of R45 are what the joined group needs. -/
theorem askJoin_groupLaw : (askJoin k a b s).state.groupLaw := by
  unfold askJoin
  split
  · rename_i p g _ _
    split_ifs with hc hs ho hg hp hl
    iterate 4 · exact refuse_groupLaw h _
    · exact acceptNaming_groupLaw k h _ _
    · exact refuse_groupLaw h _
    · refine acceptNaming_groupLaw k ((s.moveToGroup_sameGroups p g k).groupLaw (h.grouped ?_ ?_ ?_ ?_ ?_)) _ _
      · simpa using hs
      · simpa [State.owns] using ho
      · simpa [or_iff_not_imp_left] using hg
      · simpa using hp
      · simpa [Config.groupRoom] using hl
  · exact refuse_groupLaw h _

theorem askLeav_groupLaw : (askLeav k a s).state.groupLaw := by
  unfold askLeav
  repeat' split
  all_goals first
    | with_reducible exact refuse_groupLaw h _
    | exact acceptNaming_groupLaw _ ((s.leaveGroup_sameGroups _ _).groupLaw
        (h.outOfGroup (s.ungroup_outOfGroup _) fun _ _ => rfl)) _ _

theorem State.groupLaw.askOwner (p : Party) : (s.askOwner p k).groupLaw :=
  State.sameGroups.groupLaw ((s.writes_offerAll p { s.party p with handover := some _ } _).sameGroups rfl rfl) h

theorem askTake_groupLaw : (askTake k a s).state.groupLaw := by
  unfold askTake takeAnswered takeNow takeOver
  repeat' split
  all_goals first
    | with_reducible exact refuse_groupLaw h _
    | with_reducible exact acceptNaming_groupLaw k h _ _
    | exact h.passTo _ _ _ _ _
    | exact h.askOwner k _

theorem askGive_groupLaw : (askGive k a b s).state.groupLaw := by
  unfold askGive
  repeat' split
  all_goals first
    | with_reducible exact refuse_groupLaw h _
    | exact acceptNaming_groupLaw _ (h.grantHandover _ _ _) _ _

theorem askAway_groupLaw : (askAway k a s).state.groupLaw := by
  have away : ∀ v, (s.setAway k v).groupLaw := fun v => (s.modLink_sameGroups k fun l => { l with away := v }).groupLaw h
  unfold askAway
  split
  · exact refuse_groupLaw h _
  · exact away false
  · exact groupLaw_foldl (away true) _ (fun t p ht => ht.grantHandover p _ _) _

end

end Sys2Proof.Machine

namespace Sys2Proof.Machine

/-! ### Every step keeps the law of the groups -/

/-- A request whose taking keeps the law of the groups. -/
def keepsGroupLaw (ask : State → Answer) : Prop := ∀ s : State, s.groupLaw → (ask s).state.groupLaw

theorem keepsGroupLaw_of_same {ask : State → Answer} (h : ∀ s : State, s.sameGroups (ask s).state) : keepsGroupLaw ask :=
  fun s hs => (h s).groupLaw hs

theorem keepsGroupLaw_of_state {ask : State → Answer} (h : ∀ s, (ask s).state = s) : keepsGroupLaw ask :=
  fun s hs => by rw [h s]; exact hs

/-- Each request command keeps the law of the groups. -/
theorem asked_keepsGroupLaw {c : Instr} {k : Link} {tag code : Byte} {ask : State → Answer}
    (h : asked c = some (k, tag, code, ask)) : keepsGroupLaw ask := by
  cases c <;> cases h
  case unknownRequest => exact fun s hs => refuse_groupLaw hs _
  case ansr => exact fun s => askAnsr_groupLaw _ _
  case park => exact fun s => askPark_groupLaw _ _
  case queu => exact fun s => askQueu_groupLaw _ _ _
  case airp => exact fun s => askAirp_groupLaw _ _
  case next => exact fun s => askNext_groupLaw _ _
  case offa => exact fun s => askOffa_groupLaw _ _
  case unqu => exact fun s => askUnqu_groupLaw _ _
  case move => exact keepsGroupLaw_of_same (askMove_sameGroups _ _ _)
  case rlse => exact fun s => askRlse_groupLaw _ _
  case loop => exact fun s => askLoop_groupLaw _ _ _
  case lend => exact fun s => askLend_groupLaw _ _
  case prst => exact fun s => askPrst_groupLaw _ _
  case sknd => exact keepsGroupLaw_of_same (askSknd_sameGroups _ _ _)
  case join => exact fun s => askJoin_groupLaw _ _ _
  case leav => exact fun s => askLeav_groupLaw _ _
  case lstn => exact keepsGroupLaw_of_same (askLstn_sameGroups _ _ _)
  case gain => exact keepsGroupLaw_of_same (askGain_sameGroups _ _ _ _ _)
  case talk => exact keepsGroupLaw_of_same (askTalk_sameGroups _ _ _ _ _)
  case tend => exact keepsGroupLaw_of_same (askTend_sameGroups _ _ _)
  case stlk => exact keepsGroupLaw_of_same (askStlk_sameGroups _ _ _ _ _)
  case take => exact fun s => askTake_groupLaw _ _
  case give => exact fun s => askGive_groupLaw _ _ _
  case keep => exact keepsGroupLaw_of_same (askKeep_sameGroups _ _ _)
  case tcan => exact keepsGroupLaw_of_same (askTcan_sameGroups _ _)
  case lock => exact keepsGroupLaw_of_same (askLock_sameGroups _ _)
  case ulck => exact keepsGroupLaw_of_same (askUlck_sameGroups _ _)
  case away => exact fun s => askAway_groupLaw _ _
  case sreg => exact keepsGroupLaw_of_same fun s => askSreg_sameGroups _ _ _ _ _ s _ _ _ _ _
  case lreg => exact keepsGroupLaw_of_same (askLreg_sameGroups _ _)
  case rdrg => exact keepsGroupLaw_of_state (askRdrg_sameBase _ _ _)
  case sprt => exact keepsGroupLaw_of_same fun s => askSprt_sameGroups _ _ _ s _
  case ssrc => exact keepsGroupLaw_of_same (askSsrc_sameGroups _ _ _)
  case shld => exact keepsGroupLaw_of_same (askShld_sameGroups _ _ _)
  case splt => exact keepsGroupLaw_of_same (askSplt_sameGroups _ _)
  case sflr => exact keepsGroupLaw_of_same (askSflr_sameGroups _ _ _)
  case stim => exact keepsGroupLaw_of_same fun s => askStim_sameGroups _ _ _ s _ _ _ _ _
  case spat => exact keepsGroupLaw_of_same fun s => askSpat_sameGroups _ _ _ _ _ s _ _ _
  case emsk => exact keepsGroupLaw_of_same (askEmsk_sameGroups _ _)
  case ftch => exact keepsGroupLaw_of_same (askFtch_sameGroups _ _)
  case atcf => exact keepsGroupLaw_of_same (askAtcf_sameGroups _ _ _)
  case lrst => exact keepsGroupLaw_of_same (askLrst_sameGroups _)
  case idnt => exact keepsGroupLaw_of_state fun _ => rfl
  case rdpy => exact keepsGroupLaw_of_same (askRdpy_sameGroups _ _)
  case rdqu => exact keepsGroupLaw_of_state (askRdqu_same _ _)
  case rdrt => exact keepsGroupLaw_of_same (askRdrt_sameGroups _ _ _)
  case rdpt => exact keepsGroupLaw_of_state fun _ => rfl

theorem askRequest_keepsGroupLaw (k : Link) (r : Request) : keepsGroupLaw (askRequest k r) := by
  intro s hs
  rcases askRequest_cases k r s with ⟨st, e⟩ | ⟨c, ask, hc, e⟩
  · rw [e]
    exact refuse_groupLaw hs st
  · rw [e]
    exact asked_keepsGroupLaw hc s hs

theorem State.groupLaw.deliver {a : Answer} (h : a.state.groupLaw) (k : Link) (tag code : Byte) :
    (a.deliver k tag code).groupLaw := (State.sameGroups_of_eq rfl rfl).groupLaw h

/-! ### The ports, the monitor and the mixer touch no group -/

section
variable (s : State) (x : PortId)

theorem State.setPort_sameGroups (r : PortRec) : s.sameGroups (s.setPort x r) := State.sameGroups_of_eq (by simp) (by simp)

theorem State.syncFound_sameGroups : s.sameGroups (s.syncFound x) := by
  refine (s.syncFound_sameCalls x).sameGroups ?_
  unfold State.syncFound
  dsimp only
  split <;> simp

theorem State.syncLost_sameGroups (c : LossCause) : s.sameGroups (s.syncLost x c) := by
  refine (s.syncLost_sameCalls x c).sameGroups ?_
  unfold State.syncLost
  dsimp only
  split <;> simp

theorem State.misaligned_sameGroups (c : LossCause) : s.sameGroups (s.misaligned x c) := by
  unfold State.misaligned
  dsimp only
  split
  · split
    · exact s.syncLost_sameGroups x c
    · exact s.setPort_sameGroups x _
  · exact s.sameGroups_refl
  all_goals exact s.setPort_sameGroups x _

theorem State.alignedFrame_sameGroups : s.sameGroups (s.alignedFrame x) := by
  unfold State.alignedFrame
  dsimp only
  split
  · exact s.sameGroups_refl
  · exact s.setPort_sameGroups x _
  all_goals
    split
    · exact s.syncFound_sameGroups x
    · exact s.setPort_sameGroups x _

theorem State.monitorFrame_sameGroups (bits : BitVec 512) : s.sameGroups (s.monitorFrame x bits) :=
  sameGroups_foldl (fun (t : State) p => t.monitorWord p (lineWord bits (slotIndexOf p)))
    (fun t p => State.sameGroups_of_eq (t.monitorWord_parties p _) (by rw [State.monitorWord_eq])) _ s

theorem State.inboundFrame_sameGroups (bits : BitVec 512) : s.sameGroups (s.inboundFrame x bits) := by
  have latched : ∀ t : State, t.sameGroups (t.latch x bits).edge := fun t =>
    (t.setPort_sameGroups x _).trans (State.sameGroups_of_eq rfl rfl)
  have checked : s.sameGroups (if alignmentOf bits = Config.alignmentCode then s.alignedFrame x else s.misaligned x .alignment) := by
    split
    · exact s.alignedFrame_sameGroups x
    · exact s.misaligned_sameGroups x _
  unfold State.inboundFrame
  dsimp only
  generalize (if alignmentOf bits = Config.alignmentCode then s.alignedFrame x else s.misaligned x .alignment) = u
    at checked ⊢
  refine State.sameGroups.trans ?_ (latched _)
  split
  · exact checked.trans (u.monitorFrame_sameGroups x bits)
  · exact checked

theorem State.clockMissed_sameGroups : s.sameGroups s.clockMissed := by
  refine sameGroups_foldl (fun (t : State) y => if (s.port y).sync = .locked then t.misaligned y .clock else t) (fun t y => ?_) _ s
  split
  · exact t.misaligned_sameGroups y _
  · exact t.sameGroups_refl

theorem State.qualifyBy_sameGroups (p : Party) (e : Pattern) : s.sameGroups (s.qualifyBy p e) :=
  (s.qualifyBy_sameCalls p e).sameGroups (by rw [State.qualifyBy_eq])

theorem State.completeRamp_sameGroups (r : RampRef) : s.sameGroups (s.completeRamp r) :=
  (s.completeRamp_sameCalls r).sameGroups (by cases r <;> rfl)

/-- Every record rewritten at once, its state and owner as they were. -/
theorem State.sameGroups_of_records {t : State} (f : PartyRec → PartyRec) (hp : ∀ p, t.party p = f (s.party p))
    (hs : ∀ r, (f r).state = r.state) (ho : ∀ r, (f r).owner = r.owner) (hc : t.conf = s.conf) : s.sameGroups t :=
  ⟨hc, fun p => by rw [hp]; exact ⟨hs _, ho _⟩⟩

theorem State.realert_sameGroups (p : Party) : s.sameGroups (s.realert p) :=
  (s.writes_offerAll p _ _).sameGroups rfl rfl

theorem State.remind_sameGroups (p : Party) : s.sameGroups (s.remind p) :=
  (s.writes_offerAll p _ _).sameGroups rfl rfl

end

/-! ### The links and the timers keep the law of the groups -/

section
variable {s : State} (h : s.groupLaw)
include h

theorem State.groupLaw.takeRequests (k : Link) (n : Nat) : (s.takeRequests k n).groupLaw := by
  induction n generalizing s with
  | zero => exact h
  | succ n ih =>
    unfold State.takeRequests
    split
    · exact h
    · split
      · exact ih ((askRequest_keepsGroupLaw k _ _ ((s.modLink_sameGroups k _).groupLaw h)).deliver k _ _)
      · exact h

theorem State.groupLaw.acceptFrame (k : Link) (r : Request) : (s.acceptFrame k r).groupLaw := by
  unfold State.acceptFrame
  split
  · exact ((askLrst_sameGroups k s).groupLaw h).deliver k _ _
  · split
    · exact ((s.modLink_sameGroups k _).groupLaw h).takeRequests k _
    · exact (s.modLink_sameGroups k _).groupLaw h

theorem State.groupLaw.graceExpired (x : PortId) : (s.graceExpired x).groupLaw :=
  groupLaw_foldl ((State.sameGroups_of_eq (by simp) (by simp)).groupLaw h) _ (fun t p ht => ht.portFailure p) _

theorem State.groupLaw.takeMeaning (p : Party) (m : Meaning) : (s.takeMeaning p m).groupLaw := by
  cases m
  case seize =>
    show (s.seized p).groupLaw
    unfold State.seized
    split
    case h_1 | h_2 => exact h.toAlerting p
    all_goals exact h
  case onhook =>
    show (s.onhook p).groupLaw
    unfold State.onhook
    split
    case h_8 | h_9 => exact h
    all_goals exact h.toVacant p _
  case flash =>
    show (s.flashed p).groupLaw
    unfold State.flashed
    split
    · exact (State.sameGroups_of_eq (by simp) (by simp)).groupLaw h
    · exact h
  case fault =>
    show (s.faulted p).groupLaw
    unfold State.faulted
    split
    · exact h
    · exact h.toFault p _

theorem State.groupLaw.clearExpired (p : Party) : (s.clearExpired p).groupLaw := by
  unfold State.clearExpired
  split
  case h_1 => exact h.toVacant p _
  case h_2 => exact (s.modParty_sameGroups p _ rfl rfl).groupLaw h
  all_goals exact h

/-- An orphaned party loses its owner, and stands in no group, being PARKED (R138). -/
theorem State.groupLaw.orphan (p : Party) (cause : Nat) (hs : (s.party p).state = .parked) : (s.orphan p cause).groupLaw := by
  refine h.outside (p := p) (by simp [hs]) (by simp [State.orphan]) fun q hq => ?_
  simp [State.orphan, State.party, State.setParty, hq]

theorem State.groupLaw.parkHandover (p : Party) : (s.parkHandover p).groupLaw := by
  unfold State.parkHandover
  split
  · exact h.grantHandover p _ _
  · exact (State.modParty_sameGroups _ p _ rfl rfl).groupLaw (h.grantHandover p _ _)

/-- The law of the party records says that only a PARKED party has a park timer to expire (R2, R137). -/
theorem State.groupLaw.parkExpired (p : Party) (o : Link) (hs : (s.party p).state = .parked) : (s.parkExpired p o).groupLaw := by
  unfold State.parkExpired
  split
  · exact h.orphan p _ hs
  · split
    · exact (s.remind_sameGroups p).groupLaw h
    · split
      · exact h.parkHandover p
      · exact h.orphan p _ hs

/-- Every command keeps the law of the groups where the party records are lawful. -/
theorem exec_groupLaw {c : Instr} {t : State} (hr : s.recordLaw) (e : exec c s = .next t) : t.groupLaw := by
  rcases ha : asked c with _ | ⟨k, tag, code, ask⟩
  case some =>
    rw [exec_asked ha] at e
    cases e
    exact (asked_keepsGroupLaw ha s h).deliver k tag code
  cases c <;> try (cases ha; done)
  case powerOnReset => cases e; exact State.powerOn_groupLaw _ _ _
  case linkFrameReceived k f =>
    simp only [exec, execLinkFrameReceived] at e
    split at e <;> cases e
    · exact h.acceptFrame k _
    · exact h
  case responseSent k =>
    simp only [exec, execResponseSent] at e
    split at e <;> cases e
    · exact h
    · exact ((s.modLink_sameGroups k _).groupLaw h).takeRequests k _
  case audioFrame => cases e; exact (State.sameGroups_of_eq rfl rfl).groupLaw h
  case rampComplete r => cases e; exact (s.completeRamp_sameGroups r).groupLaw h
  case inboundFrame x bits =>
    simp only [exec, execInboundFrame] at e
    split at e <;> cases e
    · exact (State.sameGroups_of_eq rfl rfl).groupLaw h
    · exact (s.inboundFrame_sameGroups x bits).groupLaw h
  case missingClockCheck =>
    cases e
    exact (s.clockMissed_sameGroups.trans (State.sameGroups_of_eq rfl rfl)).groupLaw h
  case syncFound x => cases e; exact (s.syncFound_sameGroups x).groupLaw h
  case syncLost x cause => cases e; exact (s.syncLost_sameGroups x cause).groupLaw h
  case graceTimerExpiry x =>
    simp only [exec, execGraceTimerExpiry] at e
    split at e <;> cases e
    · exact h.graceExpired x
    · exact h
  case qualify p i =>
    simp only [exec, execQualify] at e
    split at e <;> cases e
    · exact (s.qualifyBy_sameGroups p _).groupLaw h
    · exact h
  case signalReport p m =>
    have ht : (s.takeReport p m).groupLaw := (State.sameGroups_of_eq rfl rfl).groupLaw h
    simp only [exec, execSignalReport] at e
    split at e <;> cases e
    · exact ht.takeMeaning p m
    · exact ht
  case realertTimerExpiry p =>
    simp only [exec, execRealertTimerExpiry] at e
    split at e <;> cases e
    · exact (s.realert_sameGroups p).groupLaw h
    · exact h
  case clearTimerExpiry p =>
    simp only [exec, execClearTimerExpiry] at e
    split at e <;> cases e
    · exact h.clearExpired p
    · exact h
  case oneSecondMark =>
    cases e
    exact State.sameGroups.groupLaw (s.sameGroups_of_records PartyRec.marked (fun p => row_tab _ _) (fun _ => rfl) (fun _ => rfl) rfl) h
  case parkTimerExpiry p =>
    simp only [exec, execParkTimerExpiry] at e
    split at e <;> cases e
    · rename_i hp _
      obtain ⟨-, -, -, -, -, parked, -⟩ := (hr p).1
      exact h.parkExpired p _ (parked (by simp [hp])).1
    · exact h
  case grantTimerExpiry p =>
    simp only [exec, execGrantTimerExpiry] at e
    split at e <;> cases e
    · exact h.grantHandover p _ _
    · exact h
  case shortWordClockPeriod =>
    cases e
    exact (s.clockMissed_sameGroups.trans (State.sameGroups_of_eq rfl rfl)).groupLaw h
  case resetAsserted => cases e; exact (State.sameGroups_of_eq rfl rfl).groupLaw h

end

/-- Settles O57: a party leaves its group in the very change that takes it out of SCREENING or from its owner. -/
theorem everyStepKeepsTheGroupLaw : Obligations.EveryStepKeepsTheGroupLaw := by
  intro s t hr h e
  unfold step at e
  split at e
  · rename_i c rest _
    exact exec_groupLaw (s := { s with pending := rest }) h hr e
  · unfold State.idle at e
    split at e
    · exact exec_groupLaw h hr e
    · cases e
      exact State.sameGroups.groupLaw (s.sameGroups_of_records PartyRec.tick (fun p => row_tab _ _) (fun _ => rfl) (fun _ => rfl) rfl) h

end Sys2Proof.Machine

namespace Sys2Proof.Machine

/-! ### AUDIO_FRAME -/

theorem State.audioFrame_ret (s : State) (p : Party) : s.audioFrame.ret p
    = { s.ret p with ingredients := (s.ret p).ingredients.filterMap fun i => i.advance s.times.ramp } := row_tab _ _

theorem State.audioFrame_cue (s : State) (k : Link) : s.audioFrame.cue k = (s.cue k).advance s.times.ramp := row_tab _ _

/-- A previous selection stays in its place unless it has come to −80.0 dB (R98). -/
theorem dropQuiet_some (c : CuePlace) : dropQuiet (some c) = if c.level.applied = -160 then none else some c := by
  have e : (floorGain : Rat) = -160 := by norm_num [floorGain]
  unfold dropQuiet
  rw [e]
  split <;> simp_all [Option.filter]

/-- Settles O44: one frame of a return, of a cue place and of a group's members is one frame of each of its levels. -/
theorem audioFrameMovesEveryRamp : Obligations.AudioFrameMovesEveryRamp := by
  intro s
  refine ⟨s.audioFrame, rfl, rfl, rfl, rfl, fun p => ?_, fun k => ?_⟩
  · rw [State.audioFrame_ret]
    exact ⟨rfl, framedList_advance _ _⟩
  · rw [State.audioFrame_cue]
    refine ⟨fun h => ?_, fun h => ?_, fun c h => ⟨_, c.framed_advance _, ?_⟩, fun c h => ⟨_, c.framed_advance _, ?_⟩⟩
    · simp [Cue.advance, h]
    · simp [Cue.advance, h, dropQuiet]
    · simp [Cue.advance, h]
    · simp [Cue.advance, h, dropQuiet_some]

/-! ### RAMP_COMPLETE -/

theorem exec_rampComplete (r : RampRef) (s : State) : exec (.rampComplete r) s = .next (s.completeRamp r) := rfl

section
variable (s : State)

theorem State.completeRamp_ret (p q : Party) (i : Ident) : (s.completeRamp (.ingredient p i)).ret q
    = if q = p then { s.ret p with ingredients := completeIn (s.ret p).ingredients i s.times.ramp } else s.ret q :=
  State.setReturn_ret _ _ _ _

theorem State.completeRamp_cue (k j : Link) (side : CueSide) :
    (s.completeRamp (.cue k side)).cue j = if j = k then (s.cue k).complete side else s.cue j := State.setCue_cue _ _ _ _

theorem State.completeRamp_member (k j : Link) (side : CueSide) (q : Party) : (s.completeRamp (.cueMember k side q)).cue j
    = if j = k then (s.cue k).modSide side fun c => { c with members := completeIn c.members (.party q) s.times.ramp }
      else s.cue j := State.setCue_cue _ _ _ _

end

/-- The completion of the current selection's cue gain. -/
theorem Cue.complete_current (c : Cue) : c.complete .current = { c with current := c.current.map CuePlace.completed } := by
  rw [← funext CuePlace.complete_completed]
  rfl

/-- The completion of the previous selection's cue gain. -/
theorem Cue.complete_previous (c : Cue) : c.complete .previous = { c with
    previous := c.previous.bind fun x =>
      if x.level.ramp.running then if x.completed.level.applied = -160 then none else some x.completed else some x } := by
  simp only [Cue.complete, CuePlace.complete_completed, dropQuiet_some]

/-- Settles O46: the completion of a level is the end of its ramp, that of a list the completion of the named identity. -/
theorem rampCompleteReachesTheTarget : Obligations.RampCompleteReachesTheTarget := by
  intro s
  refine ⟨fun p i => ?_, fun k => ?_, fun k => ?_, fun k side q => ?_⟩
  all_goals refine ⟨_, exec_rampComplete _ s, rfl, fun j hj => ?_, ?_⟩
  · rw [State.completeRamp_ret, if_neg hj]
  · rw [State.completeRamp_ret, if_pos rfl]
    exact ⟨rfl, completedList_completeIn _ _ _⟩
  · rw [State.completeRamp_cue, if_neg hj]
  · rw [State.completeRamp_cue, if_pos rfl, Cue.complete_current]
    exact ⟨rfl, rfl⟩
  · rw [State.completeRamp_cue, if_neg hj]
  · rw [State.completeRamp_cue, if_pos rfl, Cue.complete_previous]
    refine ⟨rfl, fun h => ?_, fun c h => ⟨fun hr => ?_, fun hr => ?_⟩⟩
    · simp [h]
    · simp [h, hr]
    · simp [h, hr]
  · rw [State.completeRamp_member, if_neg hj]
  · have e := s.completeRamp_member k k side q
    rw [if_pos rfl] at e
    cases side
    all_goals
      refine ⟨by rw [e]; rfl, fun h => ?_, fun c h => ⟨_, ?_, completedList_completeIn c.members _ s.times.ramp⟩⟩
      all_goals
        dsimp only at h ⊢
        simp [e, Cue.modSide, h]

end Sys2Proof.Machine

namespace Sys2Proof.Machine

/-! ### A new selection of a cue -/

section
variable (s : State) (k : Link)

/-- The current selection named again changes nothing (R98). -/
theorem State.select_again {x : Option Selection} (h : (s.cue k).current.map (fun c => c.selection) = x) : s.select k x = s := by
  unfold State.select
  dsimp only
  rw [if_pos h]

/-- The place of a selection that becomes the current one of cue `k`: the previous place where it is that selection, and a new
one at −80.0 dB where not (R98). -/
def State.coming (x : Selection) : CuePlace :=
  match (s.cue k).previous with
  | some old =>
    if old.selection = x then { old with level := old.level.retarget (.half 0) s.times.ramp }
    else { selection := x, level := Level.joining (.half 0) s.times.ramp, members := s.cueMembers k x }
  | none => { selection := x, level := Level.joining (.half 0) s.times.ramp, members := s.cueMembers k x }

theorem State.select_other {x : Option Selection} (h : (s.cue k).current.map (fun c => c.selection) ≠ x) :
    (s.select k x).cue k = {
      current := x.map (s.coming k),
      previous := (s.cue k).current.map fun c => { c with level := c.level.retarget .off s.times.ramp } } := by
  unfold State.select
  dsimp only
  rw [if_neg h, State.setCue_cue, if_pos rfl]
  rfl

theorem State.coming_previous {x : Selection} {old : CuePlace} (h : (s.cue k).previous = some old) (hx : old.selection = x) :
    s.coming k x = { old with level := old.level.retarget (.half 0) s.times.ramp } := by
  simp [State.coming, h, hx]

theorem State.coming_new {x : Selection} (h : ∀ old, (s.cue k).previous = some old → old.selection ≠ x) :
    s.coming k x = { selection := x, level := Level.joining (.half 0) s.times.ramp, members := s.cueMembers k x } := by
  unfold State.coming
  split
  · rename_i old hp
    rw [if_neg (h old hp)]
  · rfl

theorem State.coming_facts (x : Selection) : (s.coming k x).selection = x ∧ (s.coming k x).level.target = .half 0 := by
  by_cases h : ∃ old, (s.cue k).previous = some old ∧ old.selection = x
  · obtain ⟨old, hp, hx⟩ := h
    rw [s.coming_previous k hp hx]
    exact ⟨hx, (Level.retarget_facts _ _ _).1⟩
  · rw [s.coming_new k fun old hp hx => h ⟨old, hp, hx⟩]
    exact ⟨rfl, rfl⟩

end

/-! ### LSTN -/

/-- An accepted LSTN selects, and restarts the park timer of a party that its owner names. -/
theorem exec_lstn_accepted {k : Link} {tag b d : Byte} {want : Option Selection} {s : State}
    (h : (∃ p, b = 0 ∧ partyArg d = some p ∧ s.mayRead k p = true ∧ want = some (.input p))
      ∨ (∃ p, b = 1 ∧ partyArg d = some p ∧ s.mayRead k p = true ∧ want = some (.ret p))
      ∨ (∃ g, b = 2 ∧ groupArg d = some g ∧ want = some (.group g)) ∨ (b = 3 ∧ d = 0xFF ∧ want = none)) :
    ∃ t, exec (.lstn k tag b d) s = .next ((accept t []).deliver k tag 0x12)
      ∧ t = { s.select k want with parties := t.parties }
      ∧ (∀ p, want = some (.input p) ∨ want = some (.ret p) → (s.select k want).onlyNamed t k p)
      ∧ ((∀ p, want ≠ some (.input p) ∧ want ≠ some (.ret p)) → t.parties = s.parties) := by
  have run : exec (.lstn k tag b d) s = .next ((askLstn k b d s).deliver k tag 0x12) := rfl
  rcases h with ⟨p, rfl, hd, hm, rfl⟩ | ⟨p, rfl, hd, hm, rfl⟩ | ⟨g, rfl, hd, rfl⟩ | ⟨rfl, rfl, rfl⟩
  · refine ⟨_, ?_, State.ownerNamed_form _ k p, fun q hq => ?_, fun hq => absurd rfl (hq p).1⟩
    · rw [run]
      simp [askLstn, askListen, hd, hm, acceptNaming]
    · obtain rfl : p = q := by simpa using hq
      exact State.ownerNamed_onlyNamed _ _ _
  · refine ⟨_, ?_, State.ownerNamed_form _ k p, fun q hq => ?_, fun hq => absurd rfl (hq p).2⟩
    · rw [run]
      simp [askLstn, askListen, hd, hm, acceptNaming]
    · obtain rfl : p = q := by simpa using hq
      exact State.ownerNamed_onlyNamed _ _ _
  · refine ⟨s.select k (some (.group g)), ?_, rfl, by simp, fun _ => by simp⟩
    rw [run]
    simp [askLstn, hd]
  · refine ⟨s.select k none, ?_, rfl, by simp, fun _ => by simp⟩
    rw [run]
    simp [askLstn]

/-- Settles O22: the new place is `State.coming`, and the current one falls to OFF as the previous. -/
theorem lstnSetsTheCueSelection : Obligations.LstnSetsTheCueSelection := by
  intro k tag b d want s h
  obtain ⟨t, hx, hf, hn, hs⟩ := exec_lstn_accepted (tag := tag) h
  have cue : ∀ j, t.cue j = (s.select k want).cue j := fun j => by rw [hf]; rfl
  refine ⟨t, hx, ?_, fun j hj => ?_, fun p hp => ?_, hs, fun hw => ?_, fun hw => ?_⟩
  · rw [hf, s.select_form]
  · rw [cue, State.select_cue _ _ _ _ hj]
  · have := hn p hp
    rwa [s.select_form] at this
  · rw [cue, s.select_again k hw]
  · rw [cue, s.select_other k hw]
    refine ⟨fun hc => by simp [hc], fun old hc => ?_, fun e => by simp [e], fun x e => ?_⟩
    · exact ⟨{ old with level := old.level.retarget .off s.times.ramp }, by rw [hc]; rfl, rfl, Level.retarget_facts _ _ _⟩
    · obtain ⟨hsel, htarget⟩ := s.coming_facts k x
      refine ⟨s.coming k x, by rw [e]; rfl, hsel, htarget, fun old hp ho => ?_, fun hp => ?_⟩
      · rw [s.coming_previous k hp ho]
        exact (Level.retarget_facts _ _ _).2
      · rw [s.coming_new k hp]
        norm_num [Level.joining, floorGain]

end Sys2Proof.Machine

namespace Sys2Proof.Machine

/-! ### What RMIX's reports leave of a change of the groups -/

theorem groupCode_of_groupArg {b : Byte} {g : Group} (h : groupArg b = some g) : byte (groupCode g) = b := by
  unfold groupArg at h
  split at h
  · rename_i hb
    cases h
    rw [groupCode, show b.toNat - 1 + 1 = b.toNat by omega, byte_toNat]
  · cases h

/-- The reports of a change of the groups change RMIX's returns and cues alone. -/
theorem State.toldGroups_form (s : State) (ps : List Party) :
    (s.reportFeeds ps).retargetCues = { s with rmix := (s.reportFeeds ps).retargetCues.rmix } := by
  rw [s.reportFeeds_form ps]
  rfl

theorem State.toldGroups_sameHold (s : State) (ps : List Party) : s.sameHold (s.reportFeeds ps).retargetCues := by
  simp [State.sameHold]

/-- A SCREENING party among those reported hears its feed after the reports. -/
theorem State.groupLaw.toldGroups_hears {s : State} (h : s.groupLaw) {ps : List Party} {q : Party}
    (hs : (s.party q).state = .screening) (hq : q ∈ ps) : (s.reportFeeds ps).retargetCues.hears q := by
  have hh := State.reportFeeds_hears ps s q (fun e => by simp [hs] at e) (fun _ => h) hq
  exact State.sameFeeds.hears (s := s.reportFeeds ps) ⟨fun _ => ⟨rfl, rfl, rfl⟩, rfl, rfl, rfl, rfl, rfl⟩ rfl hh

/-! ### JOIN -/

section
variable {s : State} {p : Party} {g : Group} {k : Link}

theorem State.moveToGroup_group (h : Group) : (s.moveToGroup p g k).group h = (s.grouped p g k).group h := by
  simp only [State.group, (s.moveToGroup_sameGroups p g k).1]

theorem State.moveToGroup_form : s.moveToGroup p g k
    = { s with conf := (s.moveToGroup p g k).conf, rmix := (s.moveToGroup p g k).rmix } := by
  rw [State.moveToGroup_eq, State.toldGroups_form]
  rfl

theorem State.moveToGroup_party (q : Party) : (s.moveToGroup p g k).party q = s.party q := by
  rw [State.moveToGroup_form]
  rfl

/-- Every member of the joined group has its return recomputed (R50). -/
theorem State.groupLaw.mem_groupMates (h : s.groupLaw) {q : Party} (hq : q ∈ (s.group g).members ++ [p]) :
    q ∈ s.groupMates p g := by
  unfold State.groupMates
  rw [List.mem_filter]
  refine ⟨mem_upTo q, ?_⟩
  rcases List.mem_append.mp hq with hq | hq
  · simp [(s.groupOf_iff h q g).mpr hq]
  · simp [List.mem_singleton.mp hq]

/-- Every member of the joined group hears the others and its owner's talk path (R80, R82). -/
theorem State.groupLaw.moveToGroup_hears (h : s.groupLaw) (hs : (s.party p).state = .screening)
    (ho : (s.party p).owner = some k) (hg : (s.group g).members = [] ∨ (s.group g).owner = some k)
    (hp : p ∉ (s.group g).members) (hl : (s.group g).members.length < 8) {q : Party}
    (hq : q ∈ (s.group g).members ++ [p]) : (s.moveToGroup p g k).hears q := by
  have hgr := h.grouped hs ho hg hp hl
  have hm : q ∈ ((s.grouped p g k).group g).members := by
    rw [State.grouped_self hp]
    exact hq
  rw [State.moveToGroup_eq]
  exact hgr.toldGroups_hears ((hgr g).2.2.2 q hm).1 (h.mem_groupMates hq)

/-- An accepted JOIN of a party that stands in the named group already (R46; log entry 17). -/
theorem askJoin_already {b d : Byte} (hb : partyArg b = some p) (hd : groupArg d = some g) (hc : s.controls k p = true)
    (hs : (s.party p).state = .screening) (ho : (s.party p).owner = some k)
    (hg : (s.group g).members = [] ∨ (s.group g).owner = some k) (hp : p ∈ (s.group g).members) :
    askJoin k b d s = accept s (joinData s p g 0) := by
  have hown : s.owns k p = true := by simp [State.owns, ho]
  have hopen : ((s.group g).members.isEmpty || (s.group g).owner == some k) = true := by simpa using hg
  simp only [askJoin, hb, hd, hc, hs, hown, hopen, List.contains_iff_mem, hp, if_true, Bool.not_true, ne_eq, not_true, if_false,
    Bool.false_eq_true]
  exact acceptNaming_notParked (by simp [hs]) _

/-- An accepted JOIN of any other party (R46). -/
theorem askJoin_moves {b d : Byte} (hb : partyArg b = some p) (hd : groupArg d = some g) (hc : s.controls k p = true)
    (hs : (s.party p).state = .screening) (ho : (s.party p).owner = some k)
    (hg : (s.group g).members = [] ∨ (s.group g).owner = some k) (hp : p ∉ (s.group g).members)
    (hl : (s.group g).members.length < 8) : askJoin k b d s = accept (s.moveToGroup p g k)
      (joinData (s.moveToGroup p g k) p g (match s.groupOf p with | some old => groupCode old | none => 0)) := by
  have hown : s.owns k p = true := by simp [State.owns, ho]
  have hopen : ((s.group g).members.isEmpty || (s.group g).owner == some k) = true := by simpa using hg
  have hroom : ¬ Config.groupRoom ≤ (s.group g).members.length := by simpa [Config.groupRoom] using hl
  simp only [askJoin, hb, hd, hc, hs, hown, hopen, List.contains_iff_mem, hp, hroom, Bool.not_true, ne_eq, not_true, if_false,
    Bool.false_eq_true]
  exact acceptNaming_notParked (by rw [State.moveToGroup_party]; simp [hs]) _

end

/-- Settles O20: the groups are those of `State.grouped`, and the reports reach every member of the joined group. -/
theorem joinPutsAPartyAtTheTailOfAGroup : Obligations.JoinPutsAPartyAtTheTailOfAGroup := by
  intro k tag b d p g s hb hd hc hs ho hg
  have run : exec (.join k tag b d) s = .next ((askJoin k b d s).deliver k tag 0x10) := rfl
  refine ⟨fun hp => ?_, fun hp hl => ?_⟩
  · rw [run, askJoin_already hb hd hc hs ho hg hp, joinData, groupCode_of_groupArg hd]
    rfl
  · have self : (s.moveToGroup p g k).group g = {
        members := (s.group g).members ++ [p],
        owner := if (s.group g).members = [] then some k else (s.group g).owner } := by
      rw [State.moveToGroup_group, State.grouped_self hp]
    have other : ∀ h, h ≠ g → (s.moveToGroup p g k).group h = (s.ungroup p).group h := fun h hh => by
      rw [State.moveToGroup_group, State.grouped_other hh]
    have out := s.ungroup_outOfGroup p
    refine ⟨s.moveToGroup p g k, ?_, self, fun h hh hm => ?_, fun h hh hm => ?_, State.moveToGroup_form, ?_, fun hlaw q hq => ?_⟩
    · rw [run, askJoin_moves hb hd hc hs ho hg hp hl, joinData, groupCode_of_groupArg hd, self]
      simp only [List.idxOf_append_of_notMem hp, List.idxOf_cons_self, List.length_append, List.length_singleton, Nat.add_zero]
      cases s.groupOf p <;> rfl
    · rw [other h hh, (out h).1 hm]
    · rw [other h hh]
      exact (out h).2 hm
    · exact State.toldGroups_sameHold (s.grouped p g k) _
    · rw [self] at hq
      exact hlaw.moveToGroup_hears hs ho hg hp hl hq

/-! ### LEAV -/

/-- An accepted LEAV (R47). -/
theorem askLeav_accepted {k : Link} {b : Byte} {p : Party} {g : Group} {s : State} (hb : partyArg b = some p)
    (hc : s.controls k p = true) (hs : (s.party p).state = .screening) (ho : (s.party p).owner = some k)
    (hg : s.groupOf p = some g) : askLeav k b s
      = accept (s.leaveGroup p g) [byte (groupCode g), byte ((s.leaveGroup p g).group g).members.length] := by
  have hown : s.owns k p = true := by simp [State.owns, ho]
  simp only [askLeav, hb, hc, hs, hg, hown, Bool.not_true, ne_eq, not_true, if_false, Bool.false_eq_true]
  refine acceptNaming_notParked ?_ _
  rw [((s.leaveGroup_sameGroups p g).2 p).1, show (s.ungroup p).party p = s.party p from rfl, hs]
  decide

/-- Settles O21: what `State.ungroup` leaves is out of the group, and the reports change RMIX alone. -/
theorem leavTakesAPartyOutOfItsGroup : Obligations.LeavTakesAPartyOutOfItsGroup := by
  intro k tag b p g s hb hc hs ho hg
  have out : s.outOfGroup (s.leaveGroup p g) p := State.outOfGroup_of_ungroup p (s.leaveGroup_sameGroups p g).1
  refine ⟨s.leaveGroup p g, ?_, out, out.groupOf, ?_, State.toldGroups_sameHold (s.ungroup p) _⟩
  · show Host.Outcome.next ((askLeav k b s).deliver k tag 0x11) = _
    rw [askLeav_accepted hb hc hs ho hg]
    rfl
  · rw [State.leaveGroup, State.toldGroups_form]
    rfl

end Sys2Proof.Machine

namespace Sys2Proof.Machine

/-! ### What the law of the places reads -/

/-- The state of every party, the ready queues, and who stands on each air slot, stay. -/
def State.samePlaces (s t : State) : Prop :=
  (∀ p, (t.party p).state = (s.party p).state) ∧ t.stud.queueA = s.stud.queueA ∧ t.stud.queueB = s.stud.queueB
    ∧ ∀ n, (row t.stud.slots n).map (fun o => o.party) = (row s.stud.slots n).map fun o => o.party

theorem State.samePlaces_refl (s : State) : s.samePlaces s := ⟨fun _ => rfl, rfl, rfl, fun _ => rfl⟩

theorem State.samePlaces.trans {s t u : State} (h : s.samePlaces t) (g : t.samePlaces u) : s.samePlaces u := by
  obtain ⟨hp, ha, hb, hs⟩ := h
  obtain ⟨gp, ga, gb, gs⟩ := g
  exact ⟨fun p => (gp p).trans (hp p), ga.trans ha, gb.trans hb, fun n => (gs n).trans (hs n)⟩

theorem State.samePlaces.placesLaw {s t : State} (h : s.samePlaces t) (hs : s.placesLaw) : t.placesLaw := by
  obtain ⟨hp, ha, hb, hn⟩ := h
  exact State.placesLaw_of_sameSlots hp ha hb hn hs

/-- A change that leaves STUD and the states of the parties. -/
theorem State.sameGroups.samePlaces {s t : State} (h : s.sameGroups t) (hs : t.stud = s.stud) : s.samePlaces t :=
  ⟨fun p => (h.2 p).1, by rw [hs], by rw [hs], fun n => by rw [hs]⟩

theorem State.sameCalls.samePlaces {s t : State} (h : s.sameCalls t) (hs : t.stud.slots = s.stud.slots) : s.samePlaces t :=
  ⟨fun p => by simp only [State.party, h.1], h.2.1 .a, h.2.1 .b, fun n => by rw [hs]⟩

theorem State.writes.samePlaces {s t : State} {p : Party} {r : PartyRec} {os : List Offer} (h : s.writes t p r os)
    (hr : r.state = (s.party p).state) : s.samePlaces t := by
  obtain ⟨hp, hq, -, hf⟩ := h
  have hs : t.stud = s.stud := by rw [hf]
  refine ⟨fun q => ?_, by rw [hs], by rw [hs], fun n => by rw [hs]⟩
  by_cases e : q = p
  · rw [e, hp, hr]
  · rw [hq q e]

theorem samePlaces_foldl {α : Type} (f : State → α → State) (h : ∀ (s : State) (a : α), s.samePlaces (f s a)) (l : List α)
    (s : State) : s.samePlaces (l.foldl f s) := by
  induction l generalizing s with
  | nil => exact s.samePlaces_refl
  | cons a l ih => exact (h s a).trans (ih _)

/-! ### A party out of its place -/

section
variable {s : State} (h : s.placesLaw) {p : Party} {into : PartyState}
include h

/-- The removals for another state than QUEUED leave the ready queues without the party (R62). -/
theorem State.placesLaw.leave_queue (hi : into ≠ .queued) (x : Studio) :
    (s.leave p into).queue x = (s.queue x).filter (· != p) := by
  rw [State.leave_queue]
  by_cases hs : (s.party p).state = .queued
  · rw [if_pos ⟨hs, hi⟩]
  · rw [if_neg fun e => hs e.1, List.filter_eq_self.mpr]
    intro q hq
    have hne : q ≠ p := fun e => h.notMem_queue hs x (e ▸ hq)
    simpa using hne

/-- The removals for another state than ON_AIR leave the air slots without the party (R67). -/
theorem State.placesLaw.leave_slots (hi : into ≠ .onAir) (n : AirSlot) :
    row (s.leave p into).stud.slots n = (row s.stud.slots n).filter fun o => o.party != p := by
  by_cases hs : (s.party p).state = .onAir
  · exact s.leave_slots_onAir p into hs hi n
  · rw [s.leave_slots_other p into hs]
    rcases e : row s.stud.slots n with _ | o
    · rfl
    · have hne : o.party ≠ p := fun he => hs ((h.2.2.1 p).1 ⟨n, o, e, he⟩)
      simp [Option.filter, hne]

/-- A party that goes to a state without a place leaves every other party in its own (R26). -/
theorem State.placesLaw.left {t : State} (hs : t.stud = (s.leave p into).stud) (ho : s.otherParties t p)
    (hp : (t.party p).state = into) (hq : into ≠ .queued) (ha : into ≠ .onAir) : t.placesLaw := by
  have hA : t.stud.queueA = s.stud.queueA.filter (· != p) := by rw [hs]; exact h.leave_queue hq .a
  have hB : t.stud.queueB = s.stud.queueB.filter (· != p) := by rw [hs]; exact h.leave_queue hq .b
  have hslots : ∀ n o, row t.stud.slots n = some o ↔ row s.stud.slots n = some o ∧ o.party ≠ p := fun n o => by
    rw [hs, h.leave_slots ha, Option.filter_eq_some_iff, bne_iff_ne]
  obtain ⟨hnd, hmem, hair, huniq, hlA, hlB⟩ := h
  have hqs : t.stud.queueA ++ t.stud.queueB = (s.stud.queueA ++ s.stud.queueB).filter (· != p) := by
    rw [hA, hB, List.filter_append]
  refine ⟨hqs ▸ hnd.filter _, fun q => ?_, fun q => ?_, fun n m o w hn hm e => ?_, ?_, ?_⟩
  · rw [hqs, List.mem_filter, hmem, bne_iff_ne]
    by_cases e : q = p
    · simp [e, hp, hq]
    · simp [e, ho q e]
  · by_cases e : q = p
    · rw [e, hp]
      exact ⟨fun ⟨n, o, hn, hop⟩ => absurd hop ((hslots n o).1 hn).2, fun g => absurd g ha⟩
    · rw [ho q e, ← hair]
      constructor
      · rintro ⟨n, o, hn, hop⟩
        exact ⟨n, o, ((hslots n o).1 hn).1, hop⟩
      · rintro ⟨n, o, hn, hop⟩
        exact ⟨n, o, (hslots n o).2 ⟨hn, hop ▸ e⟩, hop⟩
  · exact huniq n m o w ((hslots n o).1 hn).1 ((hslots m w).1 hm).1 e
  · rw [hA]
    exact (List.length_filter_le _ _).trans hlA
  · rw [hB]
    exact (List.length_filter_le _ _).trans hlB

/-- A transition to a state without a place keeps the law of the places. -/
theorem State.placesLaw.conclude (r : PartyRec) (j : Option Link) (call : List Event) (tail : List Offer)
    (hr : r.state = into) (hq : into ≠ .queued) (ha : into ≠ .onAir) :
    ((s.entered p into r).conclude s p j call tail).placesLaw := by
  obtain ⟨hp, hs, -, -, -, -, -, ho, -, -⟩ := s.conclude_moved p into r j call tail
  exact h.left hs ho (by rw [hp, hr]) hq ha

end

/-! ### A ready queue in another order -/

/-- A party put at another position of its queue leaves the same parties in it (R61). -/
theorem moveIn_perm {q : List Party} {p : Party} (hn : q.Nodup) (hp : p ∈ q) (n : Nat) : (moveIn q p n).Perm q := by
  have parted : (moveIn q p n).Perm (p :: q.filter (· != p)) := by
    unfold moveIn
    refine List.perm_middle.trans (List.Perm.cons p ?_)
    rw [List.take_append_drop]
  rw [← hn.erase_eq_filter p] at parted
  exact parted.trans (List.perm_cons_erase hp).symm

theorem State.placesLaw.queue_nodup {s : State} (h : s.placesLaw) (x : Studio) : (s.queue x).Nodup := by
  obtain ⟨hA, hB, -⟩ := List.nodup_append.mp h.1
  cases x
  · exact hA
  · exact hB

/-- The law of the places does not look at the order of a ready queue. -/
theorem State.placesLaw.setQueue {s : State} (h : s.placesLaw) {x : Studio} {q : List Party} (hq : q.Perm (s.queue x)) :
    (s.setQueue x q).placesLaw := by
  obtain ⟨hnd, hmem, hair, huniq, hlA, hlB⟩ := h
  cases x
  · have hp : (q ++ s.stud.queueB).Perm (s.stud.queueA ++ s.stud.queueB) := hq.append_right _
    exact ⟨hp.nodup_iff.2 hnd, fun r => hp.mem_iff.trans (hmem r), hair, huniq, hq.length_eq.trans_le hlA, hlB⟩
  · have hp : (s.stud.queueA ++ q).Perm (s.stud.queueA ++ s.stud.queueB) := hq.append_left _
    exact ⟨hp.nodup_iff.2 hnd, fun r => hp.mem_iff.trans (hmem r), hair, huniq, hlA, hq.length_eq.trans_le hlB⟩

theorem State.offerAll_samePlaces (s : State) (os : List Offer) : s.samePlaces (s.offerAll os) :=
  (State.sameGroups_of_eq (by simp) (by simp)).samePlaces (by simp)

theorem State.placesLaw.moveQueued {s : State} (h : s.placesLaw) (k : Link) {p : Party} {x : Studio} (n : Nat)
    (hp : s.queueOf p = some x) : (s.moveQueued p x n k).placesLaw := by
  have hm := h.setQueue (moveIn_perm (h.queue_nodup x) (State.mem_queue_of_queueOf hp) n)
  unfold State.moveQueued
  dsimp only
  split
  · exact h
  · exact (State.offerAll_samePlaces _ _).placesLaw hm

end Sys2Proof.Machine

namespace Sys2Proof.Machine

/-! ### The transitions keep the law of the places -/

section
variable {s : State} (h : s.placesLaw) (p : Party) (k : Link)
include h

theorem State.placesLaw.toVacant (call : State → State → List Event) : (s.toVacant p call).placesLaw :=
  h.conclude _ _ _ _ rfl (by decide) (by decide)

theorem State.placesLaw.toFault (cause : Nat) : (s.toFault p cause).placesLaw :=
  h.conclude _ _ _ _ rfl (by decide) (by decide)

theorem State.placesLaw.toAlerting : (s.toAlerting p).placesLaw := by
  rw [s.toAlerting_eq]
  exact h.conclude _ _ _ _ rfl (by decide) (by decide)

theorem State.placesLaw.answer : (s.answer p k).placesLaw := by
  rw [s.answer_eq]
  exact h.conclude _ _ _ _ rfl (by decide) (by decide)

theorem State.placesLaw.toParked : (s.toParked p k).placesLaw := by
  rw [s.toParked_eq]
  exact h.conclude _ _ _ _ rfl (by decide) (by decide)

theorem State.placesLaw.release : (s.release p k).placesLaw := by
  rw [s.release_eq]
  exact h.conclude _ _ _ _ rfl (by decide) (by decide)

theorem State.placesLaw.startLoop (src : Source) : (s.startLoop p src k).placesLaw := by
  rw [s.startLoop_eq]
  exact h.conclude _ _ _ _ rfl (by decide) (by decide)

theorem State.placesLaw.partyReset : (s.partyReset p).placesLaw := by
  rw [s.partyReset_eq]
  exact h.conclude _ _ _ _ rfl (by decide) (by decide)

theorem State.placesLaw.portFailure : (s.portFailure p).placesLaw := by
  unfold State.portFailure
  split
  case h_7 => exact h.toVacant p _
  case h_8 | h_9 => exact h
  all_goals exact h.toFault p _

omit h in
theorem State.conclude_samePlaces (b : State) (j : Option Link) (call : List Event) (tail : List Offer) :
    s.samePlaces (s.conclude b p j call tail) :=
  (State.sameGroups_of_eq (by simp) (by simp)).samePlaces (by simp)

theorem State.placesLaw.toQueue (x : Studio) (hq : (s.party p).state ≠ .queued) (ha : (s.party p).state ≠ .onAir)
    (hl : (s.queue x).length < 12) : (s.toQueue p x k).placesLaw := by
  rw [s.toQueue_joining]
  exact (State.conclude_samePlaces p _ _ _ _).placesLaw (h.joining x k hq ha hl)

theorem State.placesLaw.toAir (n : AirSlot) (hs : (s.party p).state = .queued) (hn : row s.stud.slots n = none) :
    (s.toAir p n k).placesLaw := by
  rw [s.toAir_airing]
  exact (State.conclude_samePlaces p _ _ _ _).placesLaw (h.airing n hs hn)

end

/-- A free slot of a share is free (R65). -/
theorem State.freeSlot_free {s : State} {x : Studio} {n : AirSlot} (h : s.freeSlot x = some n) : row s.stud.slots n = none := by
  simpa using List.find?_some h

theorem State.slotFor_free {s : State} {p : Party} {n : AirSlot} (h : s.slotFor p = some n) : row s.stud.slots n = none := by
  unfold State.slotFor at h
  split at h
  · exact State.freeSlot_free h
  · cases h

/-! ### Transfers and handovers move no party -/

section
variable (s : State) (p : Party)

theorem State.passTo_samePlaces (r : Link) (cause : Nat) (first last : List Offer) :
    s.samePlaces (s.passTo p r cause first last) := by
  obtain ⟨hp, -, ho, -, hf, -, -⟩ := s.passTo_passes p r cause first last
  have hs : (s.passTo p r cause first last).stud = s.stud := by rw [hf]
  refine ⟨fun q => ?_, by rw [hs], by rw [hs], fun n => by rw [hs]⟩
  by_cases e : q = p
  · rw [e, hp]
  · rw [ho q e]

theorem State.endHandover_samePlaces (outcome : Nat) : s.samePlaces (s.endHandover p outcome) := by
  rcases e : (s.party p).handover with _ | w
  · simpa only [State.endHandover, e] using s.samePlaces_refl
  · exact (s.endHandover_writes p w outcome e).samePlaces rfl

theorem State.cancelHandover_samePlaces : s.samePlaces (s.cancelHandover p) := by
  unfold State.cancelHandover
  split
  · exact (s.writes_offerAll p { s.party p with handover := none } _).samePlaces rfl
  · exact s.samePlaces_refl

theorem State.grantHandover_samePlaces (outcome cause : Nat) : s.samePlaces (s.grantHandover p outcome cause) := by
  unfold State.grantHandover
  split
  · split
    · exact s.passTo_samePlaces p _ _ _ _
    · exact s.endHandover_samePlaces p _
  · exact s.samePlaces_refl

theorem State.askOwner_samePlaces (k : Link) : s.samePlaces (s.askOwner p k) :=
  (s.writes_offerAll p { s.party p with handover := some _ } _).samePlaces rfl

theorem State.orphan_samePlaces (cause : Nat) : s.samePlaces (s.orphan p cause) :=
  (s.writes_offerAll p { s.party p with owner := none, lock := false, park := none } _).samePlaces rfl

/-- A record rewritten alone, its state kept. -/
theorem State.modParty_samePlaces (f : PartyRec → PartyRec) (hs : (f (s.party p)).state = (s.party p).state) :
    s.samePlaces (s.modParty p f) :=
  (s.writes_offerAll p (f (s.party p)) []).samePlaces hs

theorem State.ownerNamed_samePlaces (k : Link) : s.samePlaces (s.ownerNamed k p) :=
  (s.writes_ownerNamed k p).samePlaces (PartyRec.named_state _ _ _)

end

end Sys2Proof.Machine

namespace Sys2Proof.Machine

/-! ### The requests that move no party -/

section
variable (k : Link) (a b c d : Byte) (s : State)

theorem refuse_samePlaces (st : Status) : s.samePlaces (refuse s st).state := s.samePlaces_refl

/-- What an accepted request that names a party does before it is reported to HCTL. -/
theorem State.samePlaces.acceptNaming {s t : State} (g : s.samePlaces t) (k : Link) (p : Party) (data : List Byte) :
    s.samePlaces (acceptNaming t k p data).state := g.trans (t.ownerNamed_samePlaces p k)

theorem askSknd_samePlaces : s.samePlaces (askSknd k a b s).state := by
  refine (askSknd_sameGroups k a b s).samePlaces ?_
  unfold askSknd
  repeat' split
  all_goals simp [acceptNaming, accept, refuse, State.setKind]

theorem askJoin_samePlaces : s.samePlaces (askJoin k a b s).state := by
  unfold askJoin
  repeat' split
  all_goals first
    | with_reducible exact refuse_samePlaces s _
    | with_reducible exact s.samePlaces_refl.acceptNaming _ _ _
    | exact State.samePlaces.acceptNaming ((State.sameCalls_of_eq (by simp [State.moveToGroup]) (by simp [State.moveToGroup])
        (by simp [State.moveToGroup])).samePlaces (by simp [State.moveToGroup])) _ _ _

theorem askLeav_samePlaces : s.samePlaces (askLeav k a s).state := by
  unfold askLeav
  repeat' split
  all_goals first
    | with_reducible exact refuse_samePlaces s _
    | exact State.samePlaces.acceptNaming ((State.sameCalls_of_eq (by simp [State.leaveGroup]) (by simp [State.leaveGroup])
        (by simp [State.leaveGroup])).samePlaces (by simp [State.leaveGroup])) _ _ _

theorem askLstn_samePlaces : s.samePlaces (askLstn k a b s).state := by
  refine (askLstn_sameGroups k a b s).samePlaces ?_
  unfold askLstn askListen
  repeat' split
  all_goals simp [acceptNaming, accept, refuse]

theorem State.gainSource_samePlaces (x : Studio) (n : Source) (g : Gain) : s.samePlaces (s.gainSource x n g) := by
  refine (State.gainSource_sameCalls x n g).samePlaces ?_
  unfold State.gainSource
  split <;> simp [State.setSource]

/-- A gain written on the slot of a party leaves the party there. -/
theorem State.gainParty_samePlaces {p : Party} {n : AirSlot} (x : Studio) (g : Gain) (hp : s.slotOf p = some n) :
    s.samePlaces (s.gainParty x p n g) := by
  obtain ⟨hpar, hq, -⟩ := State.gainParty_sameCalls (s := s) x p n g
  refine ⟨fun q => by simp only [State.party, hpar], hq .a, hq .b, fun m => ?_⟩
  obtain ⟨o, ho, hop⟩ : ∃ o, row s.stud.slots n = some o ∧ o.party = p := by
    have := List.find?_some hp
    rcases e : row s.stud.slots n with _ | o
    · simp [e] at this
    · exact ⟨o, rfl, by simpa [e] using this⟩
  unfold State.gainParty
  split
  · rfl
  · rw [State.reportFeeds_stud]
    exact State.setSlot_sameSlots g ho hop m

theorem askGain_samePlaces : s.samePlaces (askGain k a b c d s).state := by
  unfold askGain askGainSource askGainParty
  repeat' split
  all_goals first
    | with_reducible exact refuse_samePlaces s _
    | exact s.gainSource_samePlaces _ _ _
    | exact (s.gainParty_samePlaces _ _ ‹_›).acceptNaming _ _ _

theorem State.makeEntry_samePlaces (e : TalkEntry) (p : Party) : s.samePlaces (s.makeEntry e p) :=
  (s.makeEntry_sameGroups e p).samePlaces (by simp [State.makeEntry])

theorem askTalk_samePlaces : s.samePlaces (askTalk k a b c d s).state := by
  unfold askTalk
  dsimp only
  repeat' split
  all_goals first
    | with_reducible exact refuse_samePlaces s _
    | exact samePlaces_foldl (fun (t : State) p => t.makeEntry _ p) (fun t p => t.makeEntry_samePlaces _ p) _ { s with tarb := _ }

theorem State.dropEntry_samePlaces (p : Party) : s.samePlaces (s.dropEntry k p) :=
  (s.dropEntry_sameGroups k p).samePlaces (by simp [State.dropEntry])

theorem askTend_samePlaces : s.samePlaces (askTend k a b s).state := by
  unfold askTend
  split
  · exact samePlaces_foldl _ (fun t p => (t.dropEntry_samePlaces k p).trans (State.ownerNamed_samePlaces _ p k)) _ s
  · exact refuse_samePlaces s _

theorem askStlk_samePlaces : s.samePlaces (askStlk k a b c d s).state := by
  refine (askStlk_sameCalls k a b c d s).samePlaces ?_
  unfold askStlk State.setTalk
  dsimp only [accept, refuse]
  repeat' split
  all_goals simp

theorem askTake_samePlaces : s.samePlaces (askTake k a s).state := by
  unfold askTake takeAnswered takeNow takeOver
  repeat' split
  all_goals first
    | with_reducible exact refuse_samePlaces s _
    | with_reducible exact s.samePlaces_refl.acceptNaming _ _ _
    | exact s.passTo_samePlaces _ _ _ _ _
    | exact s.askOwner_samePlaces _ k

theorem askGive_samePlaces : s.samePlaces (askGive k a b s).state := by
  unfold askGive
  repeat' split
  all_goals first
    | with_reducible exact refuse_samePlaces s _
    | exact (s.grantHandover_samePlaces _ _ _).acceptNaming _ _ _

theorem askKeep_samePlaces : s.samePlaces (askKeep k a b s).state := by
  unfold askKeep
  repeat' split
  all_goals first
    | with_reducible exact refuse_samePlaces s _
    | exact (s.endHandover_samePlaces _ _).acceptNaming _ _ _

theorem askTcan_samePlaces : s.samePlaces (askTcan k a s).state := by
  unfold askTcan
  repeat' split
  all_goals first
    | with_reducible exact refuse_samePlaces s _
    | exact s.endHandover_samePlaces _ _

theorem askLock_samePlaces : s.samePlaces (askLock k a s).state := by
  unfold askLock
  repeat' split
  all_goals first
    | with_reducible exact refuse_samePlaces s _
    | exact State.samePlaces.acceptNaming
        ((s.endHandover_samePlaces _ _).trans (State.modParty_samePlaces _ _ _ rfl)) _ _ _

theorem askUlck_samePlaces : s.samePlaces (askUlck k a s).state := by
  unfold askUlck
  repeat' split
  all_goals first
    | with_reducible exact refuse_samePlaces s _
    | exact State.samePlaces.acceptNaming (State.modParty_samePlaces _ _ _ rfl) _ _ _

theorem askAway_samePlaces : s.samePlaces (askAway k a s).state := by
  have away : ∀ v, s.samePlaces (s.setAway k v) := fun _ => ⟨fun _ => rfl, rfl, rfl, fun _ => rfl⟩
  unfold askAway
  split
  · exact refuse_samePlaces s _
  · exact away false
  · exact (away true).trans (samePlaces_foldl _ (fun t p => t.grantHandover_samePlaces p _ _) _ _)

theorem askSsrc_samePlaces : s.samePlaces (askSsrc k a b s).state := by
  refine (askSsrc_sameCalls k a b s).samePlaces ?_
  unfold askSsrc State.setMembership
  dsimp only [accept, refuse]
  repeat' split
  all_goals simp [State.setSource]

theorem askSplt_samePlaces : s.samePlaces (askSplt k a s).state := by
  refine (askSplt_sameCalls k a s).samePlaces ?_
  unfold askSplt
  repeat' split
  all_goals rfl

theorem State.applyFloor_samePlaces (x : Studio) (n : Nat) : s.samePlaces (s.applyFloor x n) := by
  have floored : s.samePlaces (s.setFloor x n) := (s.setFloor_sameCalls x n).samePlaces (by cases x <;> rfl)
  exact floored.trans (samePlaces_foldl (fun (t : State) p => t.reworkActive s p none)
    (fun t p => (t.reworkActive_sameGroups s p none).samePlaces (by simp)) _ _)

theorem askSflr_samePlaces : s.samePlaces (askSflr k a b s).state := by
  unfold askSflr
  repeat' split
  all_goals first
    | with_reducible exact refuse_samePlaces s _
    | exact s.applyFloor_samePlaces _ _

theorem askShld_samePlaces : s.samePlaces (askShld k a b s).state := by
  refine (askShld_sameCalls k a b s).samePlaces ?_
  unfold askShld State.setHold
  dsimp only [accept, refuse]
  repeat' split
  all_goals simp

theorem askSprt_samePlaces (ss : List Byte) : s.samePlaces (askSprt k a b ss s).state := by
  refine (askSprt_sameCalls k a b s ss).samePlaces ?_
  unfold askSprt askSprtIn
  dsimp only [accept, refuse]
  repeat' split
  all_goals simp [State.writePort, State.monitorsAfter]

theorem askStim_samePlaces (v w x y z : Word16) : s.samePlaces (askStim k v w x y z a b s).state := by
  refine (askStim_sameCalls k a b s v w x y z).samePlaces ?_
  unfold askStim
  repeat' split
  all_goals rfl

theorem askSpat_samePlaces (e f g : Byte) : s.samePlaces (askSpat k a b c d e f g s).state := by
  refine (askSpat_sameCalls k a b c d s e f g).samePlaces ?_
  unfold askSpat
  repeat' split
  all_goals rfl

theorem askSreg_samePlaces (e f g i j : Byte) : s.samePlaces (askSreg k a b c d e f g i j s).state := by
  refine (askSreg_sameCalls k a b c d s e f g i j).samePlaces ?_
  unfold askSreg askSregIn
  repeat' split
  all_goals rfl

theorem askLreg_samePlaces : s.samePlaces (askLreg k a s).state := by
  refine (askLreg_sameCalls k a s).samePlaces ?_
  unfold askLreg
  repeat' split
  all_goals rfl

theorem State.modLink_samePlaces (f : LinkRec → LinkRec) : s.samePlaces (s.modLink k f) := ⟨fun _ => rfl, rfl, rfl, fun _ => rfl⟩

theorem askEmsk_samePlaces : s.samePlaces (askEmsk k a s).state := by
  unfold askEmsk
  split
  · exact refuse_samePlaces s _
  · exact s.modLink_samePlaces k _

theorem askFtch_samePlaces : s.samePlaces (askFtch k a s).state := by
  unfold askFtch
  split
  · exact refuse_samePlaces s _
  · exact s.modLink_samePlaces k _

theorem askAtcf_samePlaces : s.samePlaces (askAtcf k a b s).state := by
  unfold askAtcf
  split
  · exact s.modLink_samePlaces k _
  · exact refuse_samePlaces s _

theorem State.select_samePlaces (x : Option Selection) : s.samePlaces (s.select k x) :=
  (s.select_sameGroups k x).samePlaces (by simp)

theorem askLrst_samePlaces : s.samePlaces (askLrst k s).state :=
  (s.modLink_samePlaces k LinkRec.cleared).trans <|
    (samePlaces_foldl (fun t p => t.dropEntry k p) (fun t p => t.dropEntry_samePlaces k p) _ _).trans <|
    (samePlaces_foldl (fun t p => t.cancelHandover p) (fun t p => t.cancelHandover_samePlaces p) _ _).trans <|
    (State.select_samePlaces k _ none).trans (State.modLink_samePlaces k _ _)

theorem askRdpy_samePlaces : s.samePlaces (askRdpy k a s).state := by
  unfold askRdpy
  repeat' split
  all_goals first
    | with_reducible exact refuse_samePlaces s _
    | exact s.samePlaces_refl.acceptNaming _ _ _

theorem askRdrt_samePlaces : s.samePlaces (askRdrt k a b s).state := by
  unfold askRdrt
  repeat' split
  all_goals first
    | with_reducible exact refuse_samePlaces s _
    | exact s.samePlaces_refl.acceptNaming _ _ _

end

/-! ### The requests that move a party -/

section
variable (k : Link) (a b : Byte) {s : State} (h : s.placesLaw)
include h

theorem refuse_placesLaw (st : Status) : (refuse s st).state.placesLaw := h

theorem acceptNaming_placesLaw (p : Party) (data : List Byte) : (acceptNaming s k p data).state.placesLaw :=
  State.ownerNamed_placesLaw k p h

theorem askAnsr_placesLaw : (askAnsr k a s).state.placesLaw := by
  unfold askAnsr
  repeat' split
  all_goals first
    | with_reducible exact refuse_placesLaw h _
    | exact acceptNaming_placesLaw _ (h.answer _ _) _ _

theorem askPark_placesLaw : (askPark k a s).state.placesLaw := by
  unfold askPark
  repeat' split
  all_goals first
    | with_reducible exact refuse_placesLaw h _
    | exact acceptNaming_placesLaw _ (h.toParked _ _) _ _

/-- The checks of R11 are what the ready queue needs: a party of a state without a place, and room. -/
theorem askQueu_placesLaw : (askQueu k a b s).state.placesLaw := by
  unfold askQueu
  repeat' split
  all_goals first
    | with_reducible exact refuse_placesLaw h _
    | rename_i hs hl
      refine (State.ownerNamed_placesLaw k _ h).toQueue _ _ _ ?_ ?_ ?_
      · rw [State.ownerNamed_state, hs]
        decide
      · rw [State.ownerNamed_state, hs]
        decide
      · rw [State.ownerNamed_queue]
        exact Nat.not_le.1 hl

theorem askAirp_placesLaw : (askAirp k a s).state.placesLaw := by
  unfold askAirp
  repeat' split
  all_goals first
    | with_reducible exact refuse_placesLaw h _
    | exact acceptNaming_placesLaw _ (h.toAir _ _ _ (not_not.mp ‹_›) (State.slotFor_free ‹_›)) _ _

theorem askNext_placesLaw : (askNext k a s).state.placesLaw := by
  unfold askNext
  repeat' split
  all_goals first
    | with_reducible exact refuse_placesLaw h _
    | rename_i hq _ n hn
      exact h.toAir _ _ _ (h.queuedLaw _ _ (by rw [hq]; exact List.mem_cons_self)) (State.freeSlot_free hn)

theorem askOffa_placesLaw : (askOffa k a s).state.placesLaw := by
  unfold askOffa
  repeat' split
  all_goals first
    | with_reducible exact refuse_placesLaw h _
    | exact acceptNaming_placesLaw _ (h.toParked _ _) _ _

theorem askUnqu_placesLaw : (askUnqu k a s).state.placesLaw := by
  unfold askUnqu
  repeat' split
  all_goals first
    | with_reducible exact refuse_placesLaw h _
    | exact acceptNaming_placesLaw _ (h.toParked _ _) _ _

theorem askMove_placesLaw : (askMove k a b s).state.placesLaw := by
  unfold askMove
  repeat' split
  all_goals first
    | with_reducible exact refuse_placesLaw h _
    | exact acceptNaming_placesLaw _ (h.moveQueued _ _ ‹_›) _ _

theorem askRlse_placesLaw : (askRlse k a s).state.placesLaw := by
  unfold askRlse
  repeat' split
  all_goals first
    | with_reducible exact refuse_placesLaw h _
    | exact (State.ownerNamed_placesLaw k _ h).release _ _

theorem askLoop_placesLaw : (askLoop k a b s).state.placesLaw := by
  unfold askLoop
  repeat' split
  all_goals first
    | with_reducible exact refuse_placesLaw h _
    | exact acceptNaming_placesLaw _ (h.startLoop _ _ _) _ _

theorem askLend_placesLaw : (askLend k a s).state.placesLaw := by
  unfold askLend
  repeat' split
  all_goals first
    | with_reducible exact refuse_placesLaw h _
    | exact acceptNaming_placesLaw _ (h.toVacant _ _) _ _

theorem askPrst_placesLaw : (askPrst k a s).state.placesLaw := by
  unfold askPrst
  repeat' split
  all_goals first
    | with_reducible exact refuse_placesLaw h _
    | exact (State.ownerNamed_placesLaw k _ h).partyReset _

end

end Sys2Proof.Machine

namespace Sys2Proof.Machine

/-! ### Every step keeps the law of the places -/

/-- A request whose taking keeps the law of the places. -/
def keepsPlacesLaw (ask : State → Answer) : Prop := ∀ s : State, s.placesLaw → (ask s).state.placesLaw

theorem keepsPlacesLaw_of_same {ask : State → Answer} (h : ∀ s : State, s.samePlaces (ask s).state) : keepsPlacesLaw ask :=
  fun s hs => (h s).placesLaw hs

theorem keepsPlacesLaw_of_state {ask : State → Answer} (h : ∀ s, (ask s).state = s) : keepsPlacesLaw ask :=
  fun s hs => by rw [h s]; exact hs

/-- Each request command keeps the law of the places. -/
theorem asked_keepsPlacesLaw {c : Instr} {k : Link} {tag code : Byte} {ask : State → Answer}
    (h : asked c = some (k, tag, code, ask)) : keepsPlacesLaw ask := by
  cases c <;> cases h
  case unknownRequest => exact fun s hs => refuse_placesLaw hs _
  case ansr => exact fun s => askAnsr_placesLaw _ _
  case park => exact fun s => askPark_placesLaw _ _
  case queu => exact fun s => askQueu_placesLaw _ _ _
  case airp => exact fun s => askAirp_placesLaw _ _
  case next => exact fun s => askNext_placesLaw _ _
  case offa => exact fun s => askOffa_placesLaw _ _
  case unqu => exact fun s => askUnqu_placesLaw _ _
  case move => exact fun s => askMove_placesLaw _ _ _
  case rlse => exact fun s => askRlse_placesLaw _ _
  case loop => exact fun s => askLoop_placesLaw _ _ _
  case lend => exact fun s => askLend_placesLaw _ _
  case prst => exact fun s => askPrst_placesLaw _ _
  case sknd => exact keepsPlacesLaw_of_same (askSknd_samePlaces _ _ _)
  case join => exact keepsPlacesLaw_of_same (askJoin_samePlaces _ _ _)
  case leav => exact keepsPlacesLaw_of_same (askLeav_samePlaces _ _)
  case lstn => exact keepsPlacesLaw_of_same (askLstn_samePlaces _ _ _)
  case gain => exact keepsPlacesLaw_of_same (askGain_samePlaces _ _ _ _ _)
  case talk => exact keepsPlacesLaw_of_same (askTalk_samePlaces _ _ _ _ _)
  case tend => exact keepsPlacesLaw_of_same (askTend_samePlaces _ _ _)
  case stlk => exact keepsPlacesLaw_of_same (askStlk_samePlaces _ _ _ _ _)
  case take => exact keepsPlacesLaw_of_same (askTake_samePlaces _ _)
  case give => exact keepsPlacesLaw_of_same (askGive_samePlaces _ _ _)
  case keep => exact keepsPlacesLaw_of_same (askKeep_samePlaces _ _ _)
  case tcan => exact keepsPlacesLaw_of_same (askTcan_samePlaces _ _)
  case lock => exact keepsPlacesLaw_of_same (askLock_samePlaces _ _)
  case ulck => exact keepsPlacesLaw_of_same (askUlck_samePlaces _ _)
  case away => exact keepsPlacesLaw_of_same (askAway_samePlaces _ _)
  case sreg => exact keepsPlacesLaw_of_same fun s => askSreg_samePlaces _ _ _ _ _ s _ _ _ _ _
  case lreg => exact keepsPlacesLaw_of_same (askLreg_samePlaces _ _)
  case rdrg => exact keepsPlacesLaw_of_state (askRdrg_sameBase _ _ _)
  case sprt => exact keepsPlacesLaw_of_same fun s => askSprt_samePlaces _ _ _ s _
  case ssrc => exact keepsPlacesLaw_of_same (askSsrc_samePlaces _ _ _)
  case shld => exact keepsPlacesLaw_of_same (askShld_samePlaces _ _ _)
  case splt => exact keepsPlacesLaw_of_same (askSplt_samePlaces _ _)
  case sflr => exact keepsPlacesLaw_of_same (askSflr_samePlaces _ _ _)
  case stim => exact keepsPlacesLaw_of_same fun s => askStim_samePlaces _ _ _ s _ _ _ _ _
  case spat => exact keepsPlacesLaw_of_same fun s => askSpat_samePlaces _ _ _ _ _ s _ _ _
  case emsk => exact keepsPlacesLaw_of_same (askEmsk_samePlaces _ _)
  case ftch => exact keepsPlacesLaw_of_same (askFtch_samePlaces _ _)
  case atcf => exact keepsPlacesLaw_of_same (askAtcf_samePlaces _ _ _)
  case lrst => exact keepsPlacesLaw_of_same (askLrst_samePlaces _)
  case idnt => exact keepsPlacesLaw_of_state fun _ => rfl
  case rdpy => exact keepsPlacesLaw_of_same (askRdpy_samePlaces _ _)
  case rdqu => exact keepsPlacesLaw_of_state (askRdqu_same _ _)
  case rdrt => exact keepsPlacesLaw_of_same (askRdrt_samePlaces _ _ _)
  case rdpt => exact keepsPlacesLaw_of_state fun _ => rfl

theorem askRequest_keepsPlacesLaw (k : Link) (r : Request) : keepsPlacesLaw (askRequest k r) := by
  intro s hs
  rcases askRequest_cases k r s with ⟨st, e⟩ | ⟨c, ask, hc, e⟩
  · rw [e]
    exact refuse_placesLaw hs st
  · rw [e]
    exact asked_keepsPlacesLaw hc s hs

theorem State.placesLaw.deliver {a : Answer} (h : a.state.placesLaw) (k : Link) (tag code : Byte) :
    (a.deliver k tag code).placesLaw := ((State.sameGroups_of_eq rfl rfl).samePlaces rfl).placesLaw h

/-! ### The ports, the monitor and the mixer move no party -/

section
variable (s : State) (x : PortId)

theorem State.setPort_samePlaces (r : PortRec) : s.samePlaces (s.setPort x r) :=
  (s.setPort_sameGroups x r).samePlaces (by simp)

theorem State.syncFound_samePlaces : s.samePlaces (s.syncFound x) := by
  refine (s.syncFound_sameGroups x).samePlaces ?_
  unfold State.syncFound
  dsimp only
  split <;> simp

theorem State.syncLost_samePlaces (c : LossCause) : s.samePlaces (s.syncLost x c) := by
  refine (s.syncLost_sameGroups x c).samePlaces ?_
  unfold State.syncLost
  dsimp only
  split <;> simp

theorem State.misaligned_samePlaces (c : LossCause) : s.samePlaces (s.misaligned x c) := by
  unfold State.misaligned
  dsimp only
  split
  · split
    · exact s.syncLost_samePlaces x c
    · exact s.setPort_samePlaces x _
  · exact s.samePlaces_refl
  all_goals exact s.setPort_samePlaces x _

theorem State.alignedFrame_samePlaces : s.samePlaces (s.alignedFrame x) := by
  unfold State.alignedFrame
  dsimp only
  split
  · exact s.samePlaces_refl
  · exact s.setPort_samePlaces x _
  all_goals
    split
    · exact s.syncFound_samePlaces x
    · exact s.setPort_samePlaces x _

theorem State.monitorFrame_samePlaces (bits : BitVec 512) : s.samePlaces (s.monitorFrame x bits) :=
  samePlaces_foldl (fun (t : State) p => t.monitorWord p (lineWord bits (slotIndexOf p)))
    (fun t p => (t.monitorWord_sameCalls p _).samePlaces (by rw [State.monitorWord_eq])) _ s

theorem State.inboundFrame_samePlaces (bits : BitVec 512) : s.samePlaces (s.inboundFrame x bits) := by
  have latched : ∀ t : State, t.samePlaces (t.latch x bits).edge := fun t =>
    (t.setPort_samePlaces x _).trans ⟨fun _ => rfl, rfl, rfl, fun _ => rfl⟩
  have checked : s.samePlaces (if alignmentOf bits = Config.alignmentCode then s.alignedFrame x else s.misaligned x .alignment) := by
    split
    · exact s.alignedFrame_samePlaces x
    · exact s.misaligned_samePlaces x _
  unfold State.inboundFrame
  dsimp only
  generalize (if alignmentOf bits = Config.alignmentCode then s.alignedFrame x else s.misaligned x .alignment) = u
    at checked ⊢
  refine State.samePlaces.trans ?_ (latched _)
  split
  · exact checked.trans (u.monitorFrame_samePlaces x bits)
  · exact checked

theorem State.clockMissed_samePlaces : s.samePlaces s.clockMissed := by
  refine samePlaces_foldl (fun (t : State) y => if (s.port y).sync = .locked then t.misaligned y .clock else t) (fun t y => ?_) _ s
  split
  · exact t.misaligned_samePlaces y _
  · exact t.samePlaces_refl

theorem State.qualifyBy_samePlaces (p : Party) (e : Pattern) : s.samePlaces (s.qualifyBy p e) :=
  (s.qualifyBy_sameCalls p e).samePlaces (by rw [State.qualifyBy_eq])

theorem State.completeRamp_samePlaces (r : RampRef) : s.samePlaces (s.completeRamp r) :=
  (s.completeRamp_sameCalls r).samePlaces (by cases r <;> rfl)

/-- Every record rewritten at once, its state as it was. -/
theorem State.samePlaces_of_records {t : State} (f : PartyRec → PartyRec) (hp : ∀ p, t.party p = f (s.party p))
    (hf : ∀ r, (f r).state = r.state) (hs : t.stud = s.stud) : s.samePlaces t :=
  ⟨fun p => by rw [hp, hf], by rw [hs], by rw [hs], fun n => by rw [hs]⟩

theorem State.realert_samePlaces (p : Party) : s.samePlaces (s.realert p) := (s.writes_offerAll p _ _).samePlaces rfl

theorem State.remind_samePlaces (p : Party) : s.samePlaces (s.remind p) := (s.writes_offerAll p _ _).samePlaces rfl

theorem State.parkHandover_samePlaces (p : Party) : s.samePlaces (s.parkHandover p) := by
  unfold State.parkHandover
  split
  · exact s.grantHandover_samePlaces p _ _
  · exact (s.grantHandover_samePlaces p _ _).trans (State.modParty_samePlaces _ p _ rfl)

theorem State.parkExpired_samePlaces (p : Party) (o : Link) : s.samePlaces (s.parkExpired p o) := by
  unfold State.parkExpired
  split
  · exact s.orphan_samePlaces p _
  · split
    · exact s.remind_samePlaces p
    · split
      · exact s.parkHandover_samePlaces p
      · exact s.orphan_samePlaces p _

end

/-! ### The links and the timers keep the law of the places -/

section
variable {s : State} (h : s.placesLaw)
include h

theorem placesLaw_foldl {α : Type} (f : State → α → State) (hf : ∀ (s : State) (a : α), s.placesLaw → (f s a).placesLaw)
    (l : List α) : (l.foldl f s).placesLaw := by
  induction l generalizing s with
  | nil => exact h
  | cons a l ih => exact ih (hf s a h)

theorem State.placesLaw.takeRequests (k : Link) (n : Nat) : (s.takeRequests k n).placesLaw := by
  induction n generalizing s with
  | zero => exact h
  | succ n ih =>
    unfold State.takeRequests
    split
    · exact h
    · split
      · exact ih ((askRequest_keepsPlacesLaw k _ _ ((s.modLink_samePlaces k _).placesLaw h)).deliver k _ _)
      · exact h

theorem State.placesLaw.acceptFrame (k : Link) (r : Request) : (s.acceptFrame k r).placesLaw := by
  unfold State.acceptFrame
  split
  · exact ((askLrst_samePlaces k s).placesLaw h).deliver k _ _
  · split
    · exact ((s.modLink_samePlaces k _).placesLaw h).takeRequests k _
    · exact (s.modLink_samePlaces k _).placesLaw h

theorem State.placesLaw.graceExpired (x : PortId) : (s.graceExpired x).placesLaw :=
  placesLaw_foldl (((State.sameGroups_of_eq (by simp) (by simp)).samePlaces (by simp)).placesLaw h) _
    (fun t p ht => ht.portFailure p) _

theorem State.placesLaw.takeMeaning (p : Party) (m : Meaning) : (s.takeMeaning p m).placesLaw := by
  cases m
  case seize =>
    show (s.seized p).placesLaw
    unfold State.seized
    split
    case h_1 | h_2 => exact h.toAlerting p
    all_goals exact h
  case onhook =>
    show (s.onhook p).placesLaw
    unfold State.onhook
    split
    case h_8 | h_9 => exact h
    all_goals exact h.toVacant p _
  case flash =>
    show (s.flashed p).placesLaw
    unfold State.flashed
    split
    · exact (s.offerAll_samePlaces _).placesLaw h
    · exact h
  case fault =>
    show (s.faulted p).placesLaw
    unfold State.faulted
    split
    · exact h
    · exact h.toFault p _

theorem State.placesLaw.clearExpired (p : Party) : (s.clearExpired p).placesLaw := by
  unfold State.clearExpired
  split
  case h_1 => exact h.toVacant p _
  case h_2 => exact (s.modParty_samePlaces p _ rfl).placesLaw h
  all_goals exact h

/-- Every command keeps the law of the places. -/
theorem exec_placesLaw {c : Instr} {t : State} (e : exec c s = .next t) : t.placesLaw := by
  rcases ha : asked c with _ | ⟨k, tag, code, ask⟩
  case some =>
    rw [exec_asked ha] at e
    cases e
    exact (asked_keepsPlacesLaw ha s h).deliver k tag code
  cases c <;> try (cases ha; done)
  case powerOnReset => cases e; exact State.powerOn_placesLaw _ _ _
  case linkFrameReceived k f =>
    simp only [exec, execLinkFrameReceived] at e
    split at e <;> cases e
    · exact h.acceptFrame k _
    · exact h
  case responseSent k =>
    simp only [exec, execResponseSent] at e
    split at e <;> cases e
    · exact h
    · exact ((s.modLink_samePlaces k _).placesLaw h).takeRequests k _
  case audioFrame => cases e; exact h
  case rampComplete r => cases e; exact (s.completeRamp_samePlaces r).placesLaw h
  case inboundFrame x bits =>
    simp only [exec, execInboundFrame] at e
    split at e <;> cases e
    · exact h
    · exact (s.inboundFrame_samePlaces x bits).placesLaw h
  case missingClockCheck => cases e; exact s.clockMissed_samePlaces.placesLaw h
  case syncFound x => cases e; exact (s.syncFound_samePlaces x).placesLaw h
  case syncLost x cause => cases e; exact (s.syncLost_samePlaces x cause).placesLaw h
  case graceTimerExpiry x =>
    simp only [exec, execGraceTimerExpiry] at e
    split at e <;> cases e
    · exact h.graceExpired x
    · exact h
  case qualify p i =>
    simp only [exec, execQualify] at e
    split at e <;> cases e
    · exact (s.qualifyBy_samePlaces p _).placesLaw h
    · exact h
  case signalReport p m =>
    have ht : (s.takeReport p m).placesLaw := h
    simp only [exec, execSignalReport] at e
    split at e <;> cases e
    · exact ht.takeMeaning p m
    · exact ht
  case realertTimerExpiry p =>
    simp only [exec, execRealertTimerExpiry] at e
    split at e <;> cases e
    · exact (s.realert_samePlaces p).placesLaw h
    · exact h
  case clearTimerExpiry p =>
    simp only [exec, execClearTimerExpiry] at e
    split at e <;> cases e
    · exact h.clearExpired p
    · exact h
  case oneSecondMark =>
    cases e
    exact State.samePlaces.placesLaw (s.samePlaces_of_records PartyRec.marked (fun p => row_tab _ _) (fun _ => rfl) rfl) h
  case parkTimerExpiry p =>
    simp only [exec, execParkTimerExpiry] at e
    split at e <;> cases e
    · exact (s.parkExpired_samePlaces p _).placesLaw h
    · exact h
  case grantTimerExpiry p =>
    simp only [exec, execGrantTimerExpiry] at e
    split at e <;> cases e
    · exact (s.grantHandover_samePlaces p _ _).placesLaw h
    · exact h
  case shortWordClockPeriod => cases e; exact s.clockMissed_samePlaces.placesLaw h
  case resetAsserted => cases e; exact h

end

/-- Settles O56: a party stands in its new place from the very change that brings its new state. -/
theorem everyStepKeepsPartiesInTheirPlaces : Obligations.EveryStepKeepsPartiesInTheirPlaces := by
  intro s t h e
  unfold step at e
  split at e
  · rename_i c rest _
    exact exec_placesLaw (s := { s with pending := rest }) h e
  · unfold State.idle at e
    split at e
    · exact exec_placesLaw h e
    · cases e
      exact State.samePlaces.placesLaw (s.samePlaces_of_records PartyRec.tick (fun p => row_tab _ _) (fun _ => rfl) rfl) h

end Sys2Proof.Machine

namespace Sys2Proof.Machine

/-! ### SPLT -/

/-- Settles O25. -/
theorem spltSetsTheAirSplit : Obligations.SpltSetsTheAirSplit := by
  intro tag b s hb ha hbB hair
  have run : exec (.splt s.supervisor tag b) s = .next ((askSplt s.supervisor b s).deliver s.supervisor tag 0x33) := rfl
  have hr : rangeArg 0 8 b = some b.toNat := if_pos ⟨Nat.zero_le _, hb⟩
  have hno : (allParties.any fun p => (s.party p).state == .onAir) = false := by simp [hair]
  rw [run, askSplt, hr]
  simp only [ha, hbB, hno, ne_eq, not_true, if_false, Bool.and_self, Bool.not_true, Bool.false_eq_true]
  rfl

/-! ### MOVE -/

section
variable {q : List Party} {p : Party}

theorem moveIn_filter (n : Nat) : (moveIn q p n).filter (· != p) = q.filter (· != p) := by
  rw [moveIn, List.filter_append, List.filter_cons_of_neg (by simp), ← List.filter_append, List.take_append_drop,
    List.filter_filter]
  simp

/-- The place that a position names, counted from 1: the tail where it lies beyond the count (R61). -/
theorem idxOf_moveIn (hn : q.Nodup) (hp : p ∈ q) {n : Nat} (h : 1 ≤ n) : (moveIn q p n).idxOf p + 1 = min n q.length := by
  have hout : p ∉ (q.filter (· != p)).take (n - 1) := fun hm => by simpa using List.mem_of_mem_take hm
  have hlen : (q.filter (· != p)).length + 1 = q.length := by
    rw [← hn.erase_eq_filter p]
    exact (List.perm_cons_erase hp).length_eq.symm
  rw [moveIn, List.idxOf_append_of_notMem hout, List.idxOf_cons_self, List.length_take]
  omega

end

/-- Which queue holds a party does not depend on the order of a queue. -/
theorem State.setQueue_queueOf {s : State} {x : Studio} {q : List Party} (hq : ∀ r, r ∈ q ↔ r ∈ s.queue x) (p : Party) :
    (s.setQueue x q).queueOf p = s.queueOf p := by
  have hc : q.contains p = (s.queue x).contains p := by rw [Bool.eq_iff_iff, List.contains_iff_mem, List.contains_iff_mem, hq]
  unfold State.queueOf
  cases x
  · rw [show (s.setQueue .a q).stud.queueA = q from rfl, hc]
    rfl
  · rw [show (s.setQueue .b q).stud.queueB = q from rfl, hc]
    rfl

section
variable {s : State} {p : Party} {x : Studio} (hq : s.queueOf p = some x) (hn : (s.queue x).Nodup)
include hq hn

/-- The place of a party that MOVE has put at a position of its queue (R61). -/
theorem State.moved_positionOf {n : Nat} (h : 1 ≤ n) :
    (s.setQueue x (moveIn (s.queue x) p n)).positionOf p = some (min n (s.queue x).length) := by
  have hp := State.mem_queue_of_queueOf hq
  unfold State.positionOf
  rw [State.setQueue_queueOf (fun r => (moveIn_perm hn hp n).mem_iff), hq, Option.map_some, State.setQueue_queue, if_pos rfl,
    idxOf_moveIn hn hp h]

/-- MOVE to the place that the party has already changes nothing (R61). -/
theorem State.moveQueued_same {n : Nat} (k : Link) (h : 1 ≤ n) (hi : (s.queue x).idxOf p + 1 = min n (s.queue x).length) :
    s.moveQueued p x n k = s := by
  have hpos : s.positionOf p = some (min n (s.queue x).length) := by rw [State.positionOf, hq, Option.map_some, hi]
  unfold State.moveQueued
  dsimp only
  rw [if_pos ((State.moved_positionOf hq hn h).trans hpos.symm)]

/-- MOVE to another place rewrites the queue and offers QUEUE_CHANGED MOVED (R61, R72). -/
theorem State.moveQueued_moves {n : Nat} (k : Link) (h : 1 ≤ n) (hi : (s.queue x).idxOf p + 1 ≠ min n (s.queue x).length) :
    s.moveQueued p x n k = (s.setQueue x (moveIn (s.queue x) p n)).offerAll
      [{ event := { partyEvent .queueChanged p with
           studio := some x, link := some k, value1 := some 0x36, value2 := some (min n (s.queue x).length) },
         receives := fun j => s.views j p || s.viewsStudio j x || (s.party p).owner == some j }] := by
  have hpos : s.positionOf p = some ((s.queue x).idxOf p + 1) := by rw [State.positionOf, hq, Option.map_some]
  have hmoved := State.moved_positionOf hq hn h
  have hne : (s.setQueue x (moveIn (s.queue x) p n)).positionOf p ≠ s.positionOf p := by
    rw [hmoved, hpos]
    exact fun e => hi (Option.some.inj e).symm
  unfold State.moveQueued
  dsimp only
  rw [if_neg hne, hmoved, studioOffer_sameOwner (by simp [State.party]) (by simp) (by simp)]
  rfl

/-- What MOVE answers: the place of the party after it (R61). -/
theorem State.moveQueued_positionOf {n : Nat} (k : Link) (h : 1 ≤ n) :
    (s.moveQueued p x n k).positionOf p = some (min n (s.queue x).length) := by
  by_cases hi : (s.queue x).idxOf p + 1 = min n (s.queue x).length
  · rw [State.moveQueued_same hq hn k h hi, State.positionOf, hq, Option.map_some, hi]
  · rw [State.moveQueued_moves hq hn k h hi, State.offerAll_form]
    exact State.moved_positionOf hq hn h

end

/-- MOVE of a QUEUED party in a studio that the link controls (R61). -/
theorem askMove_accepted {k : Link} {b d : Byte} {p : Party} {x : Studio} {s : State} (hb : partyArg b = some p)
    (hd : 1 ≤ d.toNat) (hs : (s.party p).state = .queued) (hq : s.queueOf p = some x) (hn : (s.queue x).Nodup)
    (hc : s.controlsStudio k x = true) :
    askMove k b d s = accept (s.moveQueued p x d.toNat k) [byte (min d.toNat (s.queue x).length)] := by
  have hits : s.controlsItsStudio k p = true := by simp [State.controlsItsStudio, State.studioOf, hq, hc]
  have hst : ((s.moveQueued p x d.toNat k).party p).state = .queued := ((s.moveQueued_sameGroups k p x _).2 p).1.trans hs
  simp only [askMove, hb, rangeArg_count hd, hits, hs, hq, Bool.not_true, Bool.false_eq_true, if_false, ne_eq, not_true,
    State.moveQueued_positionOf hq hn k hd, Option.getD_some]
  exact acceptNaming_notParked (by simp [hst]) _

/-- Settles O19: the queue is `moveIn` of itself, unless the party has the place already. -/
theorem moveReordersAQueue : Obligations.MoveReordersAQueue := by
  intro k tag b d p x s hb hd hs hq hn hc
  dsimp only
  have run : exec (.move k tag b d) s = .next ((askMove k b d s).deliver k tag 0x08) := rfl
  have hp := State.mem_queue_of_queueOf hq
  refine ⟨s.moveQueued p x d.toNat k, by rw [run, askMove_accepted hb hd hs hq hn hc], ?_⟩
  by_cases hi : (s.queue x).idxOf p + 1 = min d.toNat (s.queue x).length
  · rw [State.moveQueued_same hq hn k hd hi, if_pos hi]
    exact ⟨hi, rfl, rfl, fun _ _ => rfl, rfl, State.offersExactly_refl s⟩
  · rw [State.moveQueued_moves hq hn k hd hi, if_neg hi]
    have hqueue : ∀ y os, ((s.setQueue x (moveIn (s.queue x) p d.toNat)).offerAll os).queue y
        = if y = x then moveIn (s.queue x) p d.toNat else s.queue y := fun y os => by
      rw [State.offerAll_form, ← State.setQueue_queue]
      cases y <;> rfl
    refine ⟨?_, ?_, ?_, fun y hy => ?_, ?_, fun j => ?_⟩
    · rw [hqueue, if_pos rfl, idxOf_moveIn hn hp hd]
    · rw [hqueue, if_pos rfl, (moveIn_perm hn hp _).length_eq]
    · rw [hqueue, if_pos rfl, moveIn_filter]
    · rw [hqueue, if_neg hy]
    · rw [State.offerAll_form]
      cases x <;> rfl
    · rw [State.offerAll_link]
      cases x <;> rfl

end Sys2Proof.Machine

namespace Sys2Proof.Machine

/-! ### GAIN of a source -/

/-- A gain is answered by the byte that it was read from (11.5). -/
theorem gainCode_of_gainArg {b : Byte} {g : Gain} (h : gainArg b = some g) : byte (gainCode g) = b := by
  unfold gainArg at h
  split at h
  · rename_i hb
    cases h
    exact hb.symm
  · split at h
    · cases h
      rw [gainCode, show ((b.toNat : Int) - 161 + 161).toNat = b.toNat by omega, byte_toNat]
    · cases h

section
variable (r : SourceRec) (x y : Studio) (g : Gain)

theorem SourceRec.withGain_gainIn : (r.withGain x g).gainIn y = if y = x then g else r.gainIn y := by
  cases x <;> cases y <;> rfl

theorem SourceRec.withGain_inStudio : (r.withGain x g).inStudio y = r.inStudio y := by
  cases x <;> cases y <;> rfl

end

theorem State.gainSource_form (s : State) (x : Studio) (n : Source) (g : Gain) : s.gainSource x n g = { s with
    stud := { s.stud with sources := (s.gainSource x n g).stud.sources }, rmix := (s.gainSource x n g).rmix } := by
  unfold State.gainSource
  split
  · rfl
  · rw [State.reportFeeds_form]
    rfl

/-- The sources after a GAIN of one of them: the gain in force rewritten is the gain as it was. -/
theorem State.gainSource_source (s : State) (x : Studio) (n : Source) (g : Gain) (m : Source) :
    (s.gainSource x n g).source m = if m = n then (s.source n).withGain x g else s.source m := by
  unfold State.gainSource
  split
  · rename_i e
    have hw : (s.source n).withGain x g = s.source n := by
      subst e
      cases x <;> rfl
    split
    · rename_i hm
      rw [hm, hw]
    · rfl
  · rw [State.source, State.reportFeeds_stud]
    exact State.setSource_source _ _ _ _

theorem State.gainSource_sameHold (s : State) (x : Studio) (n : Source) (g : Gain) : s.sameHold (s.gainSource x n g) := by
  unfold State.gainSource State.sameHold
  split <;> simp

/-- A GAIN of a source touches the returns that hear the studio alone (R71). -/
theorem State.gainSource_ret (s : State) (x : Studio) (n : Source) (g : Gain) {p : Party}
    (h : ¬ (((s.party p).state = .queued ∨ (s.party p).state = .onAir) ∧ s.studioOf p = some x)) :
    (s.gainSource x n g).ret p = s.ret p := by
  unfold State.gainSource
  split
  · rfl
  · exact State.reportFeeds_ret _ _ _ fun hm => h (State.mem_hearers.mp hm)

/-- GAIN of a member source in a studio that the link controls (R70). -/
theorem askGain_source {k : Link} {b d code : Byte} {x : Studio} {n : Source} {g : Gain} {s : State}
    (hb : studioArg b = some x) (hg : gainArg code = some g) (hc : s.controlsStudio k x = true)
    (hd : sourceArg d = some n) (hin : (s.source n).inStudio x = true) :
    askGain k b 0 d code s = accept (s.gainSource x n g) [code] := by
  simp only [askGain, hb, hg, hd, askGainSource, hc, hin, gainCode_of_gainArg hg, if_true, Bool.not_true, Bool.false_eq_true,
    if_false]

/-! ### GAIN of a party -/

section
variable {s : State} {x : Studio} {p : Party} {n : AirSlot} {g : Gain} {o : OnSlot}

/-- The party that a slot found for it holds, and its air gain (R64). -/
theorem State.onSlot_of_slotOf (hsl : s.slotOf p = some n) (ho : row s.stud.slots n = some o) :
    o.party = p ∧ s.airGainOf p = some o.gain := by
  have hp := List.find?_some hsl
  exact ⟨by simpa [ho] using hp, by simp [State.airGainOf, hsl, ho]⟩

/-- The gain in force changes nothing (R70). -/
theorem State.gainParty_same (h : s.airGainOf p = some g) : s.gainParty x p n g = s := if_pos h

theorem State.gainParty_other (h : s.airGainOf p ≠ some g) : s.gainParty x p n g
    = (s.setSlot n (some { party := p, gain := g })).reportFeeds ((s.hearers x).filter (· != p)) := if_neg h

/-- The slots after a GAIN of the party on one of them. -/
theorem State.gainParty_slots (hsl : s.slotOf p = some n) (ho : row s.stud.slots n = some o) (m : AirSlot) :
    row (s.gainParty x p n g).stud.slots m = if m = n then some { party := p, gain := g } else row s.stud.slots m := by
  obtain ⟨hop, hgain⟩ := State.onSlot_of_slotOf hsl ho
  by_cases h : s.airGainOf p = some g
  · rw [State.gainParty_same h]
    split
    · rename_i e
      have hog : o.gain = g := Option.some.inj (hgain.symm.trans h)
      rw [e, ho, ← hop, ← hog]
    · rfl
  · rw [State.gainParty_other h, State.reportFeeds_stud]
    exact row_put _ _ _ _

/-- A GAIN of a party touches the returns of the other parties that hear the studio alone (R71). -/
theorem State.gainParty_ret {q : Party}
    (h : q = p ∨ ¬ (((s.party q).state = .queued ∨ (s.party q).state = .onAir) ∧ s.studioOf q = some x)) :
    (s.gainParty x p n g).ret q = s.ret q := by
  unfold State.gainParty
  split
  · rfl
  · refine State.reportFeeds_ret _ _ _ fun hm => ?_
    obtain ⟨hm, hne⟩ := List.mem_filter.mp hm
    exact h.elim (by simpa using hne) fun h => h (State.mem_hearers.mp hm)

theorem State.gainParty_form : s.gainParty x p n g = { s with
    stud := { s.stud with slots := (s.gainParty x p n g).stud.slots }, rmix := (s.gainParty x p n g).rmix } := by
  unfold State.gainParty
  split
  · rfl
  · rw [State.reportFeeds_form]
    rfl

theorem State.gainParty_sameHold : s.sameHold (s.gainParty x p n g) := by
  unfold State.gainParty State.sameHold
  split <;> simp

/-- GAIN of a party on air in a studio that the link controls (R70). -/
theorem askGain_party {k : Link} {b d code : Byte} (hb : studioArg b = some x) (hg : gainArg code = some g)
    (hc : s.controlsStudio k x = true) (hd : partyArg d = some p) (hs : (s.party p).state = .onAir)
    (hsl : s.slotOf p = some n) (hx : s.studioOfSlot n = x) :
    askGain k b 1 d code s = accept (s.gainParty x p n g) [code] := by
  have hst : ((s.gainParty x p n g).party p).state ≠ .parked := by
    rw [(s.gainParty_samePlaces x g hsl).1 p, hs]
    decide
  have h01 : ¬ (1 : Byte) = 0 := by decide
  simp only [askGain, hb, hg, hd, h01, askGainParty, hc, hs, hsl, hx, gainCode_of_gainArg hg, if_true, if_false, ne_eq, not_true,
    Bool.not_true, Bool.false_eq_true]
  exact acceptNaming_notParked hst _

end

/-! ### GAIN -/

/-- Settles O23: the gain in force is left by both kinds of GAIN, and any other is reported to the hearers. -/
theorem gainSetsAnAirGain : Obligations.GainSetsAnAirGain := by
  intro k tag b d code x g s hb hg hc
  have run : ∀ c, exec (.gain k tag b c d code) s = .next ((askGain k b c d code s).deliver k tag 0x13) := fun _ => rfl
  refine ⟨fun n hd hin => ⟨s.gainSource x n g, ?_, ?_, fun y hy => ?_, fun y => ?_, fun m hm => ?_, s.gainSource_form x n g,
    s.gainSource_sameHold x n g, fun h => if_pos h, fun p hp => s.gainSource_ret x n g hp,
    fun hl q hq hx h => s.gainSource_hears x n g hl q hq hx h⟩,
    fun p n o hd hs hsl hx ho => ⟨s.gainParty x p n g, ?_, ?_, fun m hm => ?_, State.gainParty_form, State.gainParty_sameHold,
      fun h => ?_, State.gainParty_ret (.inl rfl), fun q hq => State.gainParty_ret (.inr hq), fun hl q hq hxq h =>
        s.gainParty_hears x p n g o hl ho hsl q hq hxq h⟩⟩
  · rw [run, askGain_source hb hg hc hd hin]
  · rw [State.gainSource_source, if_pos rfl, SourceRec.withGain_gainIn, if_pos rfl]
  · rw [State.gainSource_source, if_pos rfl, SourceRec.withGain_gainIn, if_neg hy]
  · rw [State.gainSource_source, if_pos rfl, SourceRec.withGain_inStudio]
  · rw [State.gainSource_source, if_neg hm]
  · rw [run, askGain_party hb hg hc hd hs hsl hx]
  · rw [State.gainParty_slots hsl ho, if_pos rfl]
  · rw [State.gainParty_slots hsl ho, if_neg hm]
  · exact State.gainParty_same ((State.onSlot_of_slotOf hsl ho).2.trans (congrArg some h))

/-! ### SSRC -/

section
variable (s : State) (n : Source) (inA inB : Bool)

theorem State.setMembership_source (m : Source) : (s.setMembership n inA inB).source m
    = if m = n then { s.source n with inA := inA, inB := inB } else s.source m := by
  rw [State.setMembership, State.source, State.reportFeeds_stud]
  exact State.setSource_source _ _ _ _

theorem State.setMembership_form : s.setMembership n inA inB = { s with
    stud := { s.stud with sources := (s.setMembership n inA inB).stud.sources }, rmix := (s.setMembership n inA inB).rmix } := by
  unfold State.setMembership
  dsimp only
  rw [State.reportFeeds_form]
  rfl

theorem State.setMembership_sameHold : s.sameHold (s.setMembership n inA inB) := by
  simp [State.sameHold, State.setMembership]

/-- SSRC leaves the return of a party in no studio whose membership changes (R55). -/
theorem State.setMembership_ret {p : Party}
    (h : ∀ x, s.studioOf p = some x → (s.source n).inStudio x = ((s.setMembership n inA inB).source n).inStudio x) :
    (s.setMembership n inA inB).ret p = s.ret p := by
  rw [State.setMembership_source, if_pos rfl] at h
  have hA : s.studioOf p = some .a → (s.source n).inA = inA := h .a
  have hB : s.studioOf p = some .b → (s.source n).inB = inB := h .b
  unfold State.setMembership
  dsimp only
  refine State.reportFeeds_ret _ _ _ fun hm => ?_
  rcases List.mem_append.mp hm with hm | hm
  · split at hm
    · cases hm
    · rename_i hne
      exact hne (hA (State.mem_hearers.mp hm).2)
  · split at hm
    · cases hm
    · rename_i hne
      exact hne (hB (State.mem_hearers.mp hm).2)

end

/-- SSRC by a supervisor that controls the studios whose membership changes (R55). -/
theorem askSsrc_accepted {b d : Byte} {n : Source} {inA inB : Bool} {s : State} (hb : sourceArg b = some n)
    (hd : membershipArg d = some (inA, inB)) (hA : (s.source n).inA = inA ∨ s.controlsStudio s.supervisor .a = true)
    (hB : (s.source n).inB = inB ∨ s.controlsStudio s.supervisor .b = true) :
    askSsrc s.supervisor b d s = accept (s.setMembership n inA inB) [] := by
  have hc : (((s.source n).inA == inA || s.controlsStudio s.supervisor .a)
      && ((s.source n).inB == inB || s.controlsStudio s.supervisor .b)) = true := by simpa using ⟨hA, hB⟩
  simp only [askSsrc, hb, hd, hc, ne_eq, not_true, if_false, Bool.not_true, Bool.false_eq_true]

/-- Settles O24. -/
theorem ssrcSetsAMembership : Obligations.SsrcSetsAMembership := by
  intro tag b d n inA inB s hb hd hA hB
  have run : exec (.ssrc s.supervisor tag b d) s = .next ((askSsrc s.supervisor b d s).deliver s.supervisor tag 0x31) := rfl
  refine ⟨s.setMembership n inA inB, by rw [run, askSsrc_accepted hb hd hA hB], ?_, fun m hm => ?_, s.setMembership_form n inA inB,
    s.setMembership_sameHold n inA inB, fun p hp => s.setMembership_ret n inA inB hp,
    fun hl q x hq hx h => s.setMembership_hears n inA inB hl q x hq hx h⟩
  · rw [State.setMembership_source, if_pos rfl]
  · rw [State.setMembership_source, if_neg hm]

end Sys2Proof.Machine

namespace Sys2Proof.Machine

/-! ### The floor alone -/

section
variable (s : State) (x : Studio) (n : Nat) (p : Party)

theorem State.setFloor_floor (y : Studio) : (s.setFloor x n).floor y = if y = x then n else s.floor y := by
  cases x <;> cases y <;> rfl

theorem State.setFloor_same : s.setFloor x (s.floor x) = s := by cases x <;> rfl

theorem State.setFloor_party : (s.setFloor x n).party p = s.party p := by cases x <;> rfl

theorem State.setFloor_talkList : (s.setFloor x n).talkList p = s.talkList p := by cases x <;> rfl

theorem State.setFloor_studioOf : (s.setFloor x n).studioOf p = s.studioOf p := by cases x <;> rfl

theorem State.setFloor_link (j : Link) : (s.setFloor x n).link j = s.link j := by cases x <;> rfl

theorem State.setFloor_ret : (s.setFloor x n).ret p = s.ret p := by cases x <;> rfl

/-- The floor that holds back the entries of a party ON_AIR in the studio (R57). -/
theorem State.setFloor_talkFloor (ha : (s.party p).state = .onAir) (hx : s.studioOf p = some x) :
    (s.setFloor x n).talkFloor p = n := by
  unfold State.talkFloor
  rw [State.setFloor_party, if_pos ha, State.setFloor_studioOf, hx]
  exact (s.setFloor_floor x n x).trans (if_pos rfl)

end

/-! ### The active entry of a lawful list -/

/-- In a lawful list only the first entry can be active: no entry behind it has a higher priority (R106, R107). -/
theorem State.talkLaw.activeEntry {s : State} (h : s.talkLaw) (p : Party) :
    s.activeEntry p = (s.talkList p).head?.filter (s.eligible p) := by
  unfold State.activeEntry
  rcases hp : s.talkList p with _ | ⟨e, es⟩
  · rfl
  · by_cases he : s.eligible p e = true
    · simp [he, Option.filter]
    · have below : ∀ f ∈ e :: es, ¬ s.eligible p f = true := fun f hf => by
        have hle := h.head_priority hp (hp ▸ hf)
        simp only [State.eligible, decide_eq_true_eq] at he ⊢
        omega
      rw [List.find?_eq_none.mpr below]
      simp [he, Option.filter]

theorem State.talkLaw.setFloor {s : State} (h : s.talkLaw) (x : Studio) (n : Nat) : (s.setFloor x n).talkLaw := by
  cases x <;> exact h

/-! ### What a change of the active entry offers -/

/-- Every event of a change of a return's active entry is TALK_ACTIVE or TALK_HELD of its party (R116). -/
theorem activeOffers_kind {b s : State} {p : Party} {own : Option Link} {o : Offer} (h : o ∈ activeOffers b s p own) :
    (o.event.kind = .talkActive ∨ o.event.kind = .talkHeld) ∧ o.event.subject = .party p := by
  have held : ∀ was, o ∈ heldEvent b s p own was → (o.event.kind = .talkActive ∨ o.event.kind = .talkHeld)
      ∧ o.event.subject = .party p := by
    intro was ho
    unfold heldEvent at ho
    split at ho
    · cases ho
    · rw [List.mem_singleton.mp ho]
      exact ⟨.inr rfl, rfl⟩
  have active : ∀ e, o ∈ [activeEvent b s p e] → (o.event.kind = .talkActive ∨ o.event.kind = .talkHeld)
      ∧ o.event.subject = .party p := by
    intro e ho
    rw [List.mem_singleton.mp ho]
    exact ⟨.inl rfl, rfl⟩
  unfold activeOffers at h
  split at h
  · cases h
  · exact held _ h
  · exact active _ h
  · split at h
    · cases h
    · exact (List.mem_append.mp h).elim (held _) (active _)

/-- What SFLR offers of one party: TALK_HELD FLOOR where its active entry is held back, TALK_ACTIVE where one comes in
(R115, R116). -/
def floorOffers (s : State) (p : Party) (before after : Option TalkEntry) : List Offer :=
  match before, after with
  | some e, none =>
    [{ event := { partyEvent .talkHeld p with link := some e.link, value1 := some e.priority, value2 := some 0x3B },
       receives := fun j => j == e.link || (s.party p).owner == some j }]
  | none, some e =>
    [{ event := { partyEvent .talkActive p with
         link := some e.link, value1 := some e.priority, value2 := some (depthCode e.depth) },
       receives := fun j => j == e.link || (s.party p).owner == some j }]
  | _, _ => []

/-- A change of the floor passes the lead from no entry to another: the first entry of a lawful list is active or none is. -/
theorem State.talkLaw.floor_offers {s : State} (h : s.talkLaw) (x : Studio) (n : Nat) (p : Party) :
    activeOffers s (s.setFloor x n) p none = floorOffers s p (s.activeEntry p) ((s.setFloor x n).activeEntry p) := by
  have hb := h.activeEntry p
  have ha := (h.setFloor x n).activeEntry p
  have howner : ((s.setFloor x n).party p).owner = (s.party p).owner := by rw [State.setFloor_party]
  rw [State.setFloor_talkList] at ha
  unfold activeOffers
  rcases hp : s.talkList p with _ | ⟨e, es⟩
  · rw [hp] at hb ha
    rw [hb, ha]
    rfl
  · rw [hp, List.head?_cons] at hb ha
    rcases hbe : s.eligible p e with _ | _ <;> rcases hae : (s.setFloor x n).eligible p e with _ | _
    · rw [hb, ha, Option.filter_some_neg hbe, Option.filter_some_neg hae]
      rfl
    · rw [hb, ha, Option.filter_some_neg hbe, Option.filter_some_pos hae]
      dsimp only [activeEvent]
      rw [howner, talkOffer_sameOwner]
      rfl
    · rw [hb, ha, Option.filter_some_pos hbe, Option.filter_some_neg hae]
      dsimp only
      rw [heldEvent_floor ((s.setFloor_talkList x n p).trans hp) hae, howner, talkOffer_sameOwner]
      rfl
    · rw [hb, ha, Option.filter_some_pos hbe, Option.filter_some_pos hae]
      exact if_pos rfl

/-! ### SFLR -/

/-- The parties ON_AIR in a studio, ascending: those whose active entries SFLR works out afresh (R115). -/
def State.airParties (s : State) (x : Studio) : List Party :=
  allParties.filter fun p => (s.party p).state == .onAir && s.studioOf p == some x

theorem State.mem_airParties {s : State} {x : Studio} {p : Party} :
    p ∈ s.airParties x ↔ (s.party p).state = .onAir ∧ s.studioOf p = some x := by
  simp [State.airParties, allParties]

section
variable (s : State) (x : Studio) (n : Nat)

theorem State.applyFloor_eq : s.applyFloor x n
    = (s.airParties x).foldl (fun t p => t.reworkActive s p none) (s.setFloor x n) := rfl

theorem State.applyFloor_rework : s.applyFloor x n
    = { s.setFloor x n with links := (s.applyFloor x n).links, rmix := (s.applyFloor x n).rmix } :=
  (State.reworkActive_foldl s (s.airParties x) (s.setFloor x n)).1

theorem State.applyFloor_form : s.applyFloor x n = { s with
    stud := { s.stud with floorA := (s.applyFloor x n).stud.floorA, floorB := (s.applyFloor x n).stud.floorB },
    links := (s.applyFloor x n).links, rmix := (s.applyFloor x n).rmix } := by
  have hstud : (s.applyFloor x n).stud = (s.setFloor x n).stud := by rw [State.applyFloor_rework]
  conv => lhs; rw [State.applyFloor_rework]
  rw [hstud]
  cases x <;> rfl

theorem State.applyFloor_floor (y : Studio) : (s.applyFloor x n).floor y = if y = x then n else s.floor y := by
  rw [← State.setFloor_floor, State.applyFloor_rework]
  cases y <;> rfl

theorem State.applyFloor_activeEntry (p : Party) : (s.applyFloor x n).activeEntry p = (s.setFloor x n).activeEntry p := by
  rw [State.applyFloor_rework]
  rfl

theorem State.applyFloor_sameHold : s.sameHold (s.applyFloor x n) := by
  have kept : ∀ {α : Type} (g : Rmix → α), (∀ t b p own, g (State.reworkActive t b p own).rmix = g t.rmix) →
      g (s.applyFloor x n).rmix = g s.rmix := fun g hg => by
    rw [State.applyFloor_eq, foldl_keeps (fun t => g t.rmix) _ fun t p => hg t s p none]
    exact congrArg g (s.setFloor_rmix x n)
  exact ⟨kept (fun r => r.holdSource) fun t b p own => t.reworkActive_holdSource b p own,
    kept (fun r => r.holdGain) fun t b p own => t.reworkActive_holdGain b p own,
    kept (fun r => r.lastReturns) fun t b p own => t.reworkActive_lastReturns b p own⟩

/-- SFLR offers what the change of each party's active entry offers, in ascending party number (R115). -/
theorem State.applyFloor_exactly : s.offersExactly (s.applyFloor x n)
    ((s.airParties x).flatMap fun p => activeOffers s (s.setFloor x n) p none) := by
  intro j
  have hl : (s.applyFloor x n).link j
      = ((s.setFloor x n).offerAll ((s.airParties x).flatMap fun p => activeOffers s (s.setFloor x n) p none)).link j := by
    have e := (State.reworkActive_foldl s (s.airParties x) (s.setFloor x n)).2
    rw [← State.applyFloor_eq] at e
    simp only [State.link, e]
  rw [hl, State.offerAll_link, State.setFloor_link]

/-- The floor in force offers nothing (R57). -/
theorem State.applyFloor_same : (s.applyFloor x (s.floor x)).links = s.links ∧ (s.applyFloor x (s.floor x)).stud = s.stud := by
  have nothing : (s.airParties x).flatMap (fun p => activeOffers s s p none) = [] :=
    List.flatMap_eq_nil_iff.mpr fun p _ => activeOffers_same rfl none
  refine ⟨row_ext fun j => ?_, ?_⟩
  · have e := s.applyFloor_exactly x (s.floor x) j
    rw [State.setFloor_same, nothing] at e
    exact e
  · rw [State.applyFloor_rework, State.setFloor_same]

end

/-- SFLR by a supervisor that controls the studio (R57). -/
theorem askSflr_accepted {b d : Byte} {x : Studio} {s : State} (hb : studioArg b = some x) (hd : d.toNat ≤ 8)
    (hc : s.controlsStudio s.supervisor x = true) : askSflr s.supervisor b d s = accept (s.applyFloor x d.toNat) [] := by
  have hr : rangeArg 0 8 d = some d.toNat := if_pos ⟨Nat.zero_le _, hd⟩
  simp only [askSflr, hb, hr, hc, ne_eq, not_true, if_false, Bool.not_true, Bool.false_eq_true]

/-- Settles O26: each active entry is worked out on the state with the new floor, and what it offers is `activeOffers`. -/
theorem sflrSetsTheAirTalkFloor : Obligations.SflrSetsTheAirTalkFloor := by
  intro tag b d x s hb hd hc
  have run : exec (.sflr s.supervisor tag b d) s = .next ((askSflr s.supervisor b d s).deliver s.supervisor tag 0x34) := rfl
  obtain ⟨other, active, known⟩ := State.reworkActive_foldl_ret s (s.airParties x) (s.setFloor x d.toNat)
  have exactly := s.applyFloor_exactly x d.toNat
  refine ⟨s.applyFloor x d.toNat, by rw [run, askSflr_accepted hb hd hc], ?_, fun y hy => ?_, s.applyFloor_form x d.toNat,
    s.applyFloor_sameHold x d.toNat, fun p hp => ?_, fun p ha hx => ?_, ⟨_, exactly, fun o ho => ?_⟩,
    fun ht => ⟨fun p ha hx => ?_, ?_⟩, fun hf => ?_⟩
  · rw [State.applyFloor_floor, if_pos rfl]
  · rw [State.applyFloor_floor, if_neg hy]
  · rw [← s.setFloor_ret x d.toNat p]
    exact other p fun hm => hp (State.mem_airParties.mp hm)
  · rw [State.applyFloor_activeEntry]
    exact active p (State.mem_airParties.mpr ⟨ha, hx⟩)
  · obtain ⟨p, hp, hop⟩ := List.mem_flatMap.mp ho
    obtain ⟨hk, hs⟩ := activeOffers_kind hop
    exact ⟨hk, p, hs, State.mem_airParties.mp hp⟩
  · rw [State.applyFloor_activeEntry, (ht.setFloor x d.toNat).activeEntry, State.setFloor_talkList]
    unfold State.eligible
    rw [s.setFloor_talkFloor x d.toNat p ha hx]
  · simp only [ht.floor_offers, ← s.applyFloor_activeEntry] at exactly
    exact exactly
  · obtain ⟨hl, hs⟩ := s.applyFloor_same x
    rw [← hf]
    refine ⟨hl, hs, fun p hp => ?_⟩
    rw [← hf, State.setFloor_same] at known
    rw [State.applyFloor_eq, State.setFloor_same]
    exact known p hp

end Sys2Proof.Machine

namespace Sys2Proof.Machine

/-! ### RDPY and RDRT -/

/-- The standing of an entry by its priority and the active entry (R106). -/
theorem State.standingCode_standing (s : State) (p : Party) (e : TalkEntry) : standingCode (s.standing p e)
    = if e.priority < s.talkFloor p then 2 else if s.activeEntry p = some e then 0 else 1 := by
  unfold State.standing State.eligible
  by_cases hf : e.priority < s.talkFloor p
  · have hn : ¬ s.talkFloor p ≤ e.priority := Nat.not_le.mpr hf
    simp [hf, hn, standingCode]
  · have hn : s.talkFloor p ≤ e.priority := Nat.not_lt.mp hf
    by_cases ha : s.activeEntry p = some e <;> simp [hf, hn, ha, standingCode]

/-- A link with VIEW on a party or that owns it may read it (R146). -/
theorem State.mayRead_of {s : State} {k : Link} {p : Party} (h : s.views k p = true ∨ (s.party p).owner = some k) :
    s.mayRead k p = true := by
  rcases h with h | h <;> simp [State.mayRead, State.owns, h]

theorem askRdpy_accepted {k : Link} {b : Byte} {s : State} {p : Party} (hb : partyArg b = some p) (h : s.mayRead k p = true) :
    askRdpy k b s = accept (s.ownerNamed k p) (partyData s p ++ monitorData (s.monitor p) ++ talkListData s p) := by
  simp only [askRdpy, hb, h, Bool.not_true, Bool.false_eq_true, if_false]
  rfl

theorem askRdrt_accepted {k : Link} {b d : Byte} {s : State} {p : Party} (hb : partyArg b = some p) (hd : d.toNat ≤ 41)
    (h : s.mayRead k p = true) : askRdrt k b d s = accept (s.ownerNamed k p) (returnData s p d.toNat) := by
  have hr : rangeArg 0 41 d = some d.toNat := if_pos ⟨Nat.zero_le _, hd⟩
  simp only [askRdrt, hb, hr, h, Bool.not_true, Bool.false_eq_true, if_false]
  rfl

/-! ### RDQU -/

theorem askRdqu_accepted {k : Link} {b : Byte} {s : State} {x : Studio} (hb : studioArg b = some x)
    (h : s.viewsStudio k x = true) : askRdqu k b s = accept s (studioData s x) := by
  simp only [askRdqu, hb, h, Bool.not_true, Bool.false_eq_true, if_false]

/-! ### RDRG -/

section
variable (s : State) (k : Link)

/-- The permissions of a link under an entry that applies, as RDRG sends them (R144). -/
theorem State.permsCode_under (i : Fin 8) : byte (permsCode (s.permsUnder (some i) k))
    = if k = s.supervisor ∧ (s.region i).locked = false then 7 else byte (permsCode (row (s.region i).perms k)) := by
  have hi : s.permsUnder (some i) k
      = if k = s.supervisor ∧ (s.region i).locked = false then Perms.all else row (s.region i).perms k := by
    simp [State.permsUnder]
  rw [hi]
  split <;> rfl

/-- The permissions of a link where no entry applies (R144). -/
theorem State.permsCode_none : byte (permsCode (s.permsUnder none k)) = if k = s.supervisor then 7 else 0 := by
  unfold State.permsUnder
  dsimp only
  split <;> rfl

theorem State.yesNo_owns (p : Party) : yesNo (s.owns k p) = if (s.party p).owner = some k then 1 else 0 := by
  simp only [yesNo, State.owns, beq_iff_eq]

/-- An entry as RDRG sends it (11.6). -/
theorem regionData_eq (r : Region) : regionData r
    = yesNo r.valid :: [r.cover.kindByte, byte r.cover.run.1, byte r.cover.run.2, r.cover.studioByte]
      ++ [byte (permsCode (row r.perms 0)), byte (permsCode (row r.perms 1)), byte (permsCode (row r.perms 2)),
        yesNo r.locked] := by
  obtain ⟨valid, cover, ⟨⟨ps⟩, hps⟩, locked⟩ := r
  match ps, hps with
  | [p0, p1, p2], _ => rfl

variable {s}

theorem State.partyRegion_some {p : Party} {i : Fin 8} (h : (s.region i).coversParty p = true)
    (hl : ∀ j, j < i → (s.region j).coversParty p = false) : s.partyRegion p = some i := find?_upTo h hl

theorem State.partyRegion_none {p : Party} (h : ∀ i, (s.region i).coversParty p = false) : s.partyRegion p = none :=
  List.find?_eq_none.mpr fun i _ => by simp [h i]

theorem State.studioRegion_some {x : Studio} {i : Fin 8} (h : (s.region i).coversStudio x = true)
    (hl : ∀ j, j < i → (s.region j).coversStudio x = false) : s.studioRegion x = some i := find?_upTo h hl

theorem State.studioRegion_none {x : Studio} (h : ∀ i, (s.region i).coversStudio x = false) : s.studioRegion x = none :=
  List.find?_eq_none.mpr fun i _ => by simp [h i]

variable {k} {d : Byte}

theorem askRdrg_entry {i : Fin 8} (hd : numberArg 8 d = some i) : askRdrg k 0 d s = accept s (regionData (s.region i)) := by
  simp only [askRdrg, hd, if_true]

theorem askRdrg_party {p : Party} (hd : partyArg d = some p) : askRdrg k 1 d s
    = accept s (applyingData s (s.partyRegion p) ++ [byte (permsCode (s.partyPerms k p)), yesNo (s.owns k p)]) := by
  have h10 : ¬ (1 : Byte) = 0 := by decide
  simp only [askRdrg, hd, h10, if_true, if_false]

theorem askRdrg_studio {x : Studio} (hd : studioArg d = some x) : askRdrg k 2 d s
    = accept s (applyingData s (s.studioRegion x) ++ [byte (permsCode (s.studioPerms k x))]) := by
  have h20 : ¬ (2 : Byte) = 0 := by decide
  have h21 : ¬ (2 : Byte) = 1 := by decide
  simp only [askRdrg, hd, h20, h21, if_true, if_false]

end

/-- Settles O36: the items of each layout are those of the model's own, the standing and the permissions spelled out. -/
theorem readsChangeNothingButTheOwnersParkTimer : Obligations.ReadsChangeNothingButTheOwnersParkTimer := by
  intro k tag b d s
  refine ⟨fun p hb hv => ⟨⟨s.ownerNamed k p, ?_, s.writes_ownerNamed k p⟩,
    fun hd => ⟨s.ownerNamed k p, ?_, s.writes_ownerNamed k p⟩⟩, fun x hb hv => ?_, fun i hd => ?_,
    fun p hd => ⟨fun i hi hl => ?_, fun hn => ?_⟩, fun x hd => ⟨fun i hi hl => ?_, fun hn => ?_⟩, ?_⟩
  · show Host.Outcome.next ((askRdpy k b s).deliver k tag 0x40) = _
    rw [askRdpy_accepted hb (State.mayRead_of hv), talkListData]
    simp only [s.standingCode_standing p]
    rfl
  · show Host.Outcome.next ((askRdrt k b d s).deliver k tag 0x42) = _
    rw [askRdrt_accepted hb hd (State.mayRead_of hv), returnData, byte_toNat]
    rfl
  · show Host.Outcome.next ((askRdqu k b s).deliver k tag 0x41) = _
    have pairs : slotPairs s x = allSlots.flatMap (fun n => match row s.stud.slots n with
        | none => [0xFF, 0xFF]
        | some o => if s.studioOfSlot n = x then [byte o.party.val, byte (gainCode o.gain)] else [0xFF, 0xFF]) := by
      unfold slotPairs
      congr 1
      funext n
      cases row s.stud.slots n <;> rfl
    rw [askRdqu_accepted hb hv, studioData, pairs]
    cases x <;> rfl
  · show Host.Outcome.next ((askRdrg k 0 d s).deliver k tag 0x2A) = _
    rw [askRdrg_entry hd, regionData_eq]
    cases (s.region i).cover <;> rfl
  · show Host.Outcome.next ((askRdrg k 1 d s).deliver k tag 0x2A) = _
    rw [askRdrg_party hd, State.partyPerms, State.partyRegion_some hi hl, s.permsCode_under k, s.yesNo_owns k]
    rfl
  · show Host.Outcome.next ((askRdrg k 1 d s).deliver k tag 0x2A) = _
    rw [askRdrg_party hd, State.partyPerms, State.partyRegion_none hn, s.permsCode_none k, s.yesNo_owns k]
    rfl
  · show Host.Outcome.next ((askRdrg k 2 d s).deliver k tag 0x2A) = _
    rw [askRdrg_studio hd, State.studioPerms, State.studioRegion_some hi hl, s.permsCode_under k]
    rfl
  · show Host.Outcome.next ((askRdrg k 2 d s).deliver k tag 0x2A) = _
    rw [askRdrg_studio hd, State.studioPerms, State.studioRegion_none hn, s.permsCode_none k]
    rfl
  · show Host.Outcome.next ((askRdpt s).deliver k tag 0x43) = _
    rw [askRdpt, s.notVacant_eq, s.notVacant_eq]
    rfl

end Sys2Proof.Machine

namespace Sys2Proof.Machine

/-! ### Ingredient lists in identity order -/

/-- Identity order, each identity at most once (R77). -/
def inOrder (is : List Ingredient) : Prop := is.Pairwise fun i j => identCode i.ident < identCode j.ident

theorem identCode_injective {i j : Ident} (h : identCode i = identCode j) : i = j := by
  cases i <;> cases j <;> simp only [identCode] at h
  case source.source | party.party | talk.talk => exact congrArg _ (Fin.ext (by omega))
  all_goals omega

/-- A list whose identities are those of an ordered list, or a sublist of them. -/
theorem inOrder_of_sublist {is js : List Ingredient} (h : inOrder is)
    (hs : (js.map fun i => i.ident).Sublist (is.map fun i => i.ident)) : inOrder js := by
  have ordered : ∀ l : List Ingredient, inOrder l ↔ (l.map fun i => i.ident).Pairwise fun a b => identCode a < identCode b :=
    fun l => by rw [inOrder, List.pairwise_map]
  exact (ordered js).2 (((ordered is).1 h).sublist hs)

theorem insertIngredient_inOrder {i : Ingredient} {is : List Ingredient} (h : inOrder is) (hi : ∀ j ∈ is, j.ident ≠ i.ident) :
    inOrder (insertIngredient i is) := by
  induction is with
  | nil => exact List.pairwise_singleton _ _
  | cons j is ih =>
    obtain ⟨hj, his⟩ := List.pairwise_cons.1 h
    unfold insertIngredient
    split
    · rename_i lt
      exact List.pairwise_cons.2 ⟨fun x hx => by
        rcases List.mem_cons.1 hx with rfl | hx
        · exact lt
        · exact lt.trans (hj x hx), h⟩
    · rename_i ge
      have lt : identCode j.ident < identCode i.ident :=
        lt_of_le_of_ne (not_lt.1 ge) fun e => hi j List.mem_cons_self (identCode_injective e)
      refine List.pairwise_cons.2 ⟨fun x hx => ?_, ih his fun x hx => hi x (List.mem_cons_of_mem _ hx)⟩
      rcases (mem_insertIngredient i x is).1 hx with rfl | hx
      · exact lt
      · exact hj x hx

/-- Ingredients of distinct identities, none of them in the list, join it in order (R78). -/
theorem foldl_insert_inOrder (ns : List Ingredient) (hn : (ns.map fun i => i.ident).Nodup) {is : List Ingredient} (h : inOrder is)
    (ha : ∀ n ∈ ns, ∀ i ∈ is, i.ident ≠ n.ident) : inOrder (ns.foldl (fun acc i => insertIngredient i acc) is) := by
  induction ns generalizing is with
  | nil => exact h
  | cons n ns ih =>
    obtain ⟨hnew, hns⟩ := List.nodup_cons.1 hn
    refine ih hns (insertIngredient_inOrder h (ha n List.mem_cons_self)) fun m hm i hi => ?_
    rcases (mem_insertIngredient n i is).1 hi with rfl | hi
    · exact fun e => hnew (List.mem_map.2 ⟨m, hm, e.symm⟩)
    · exact ha m (List.mem_cons_of_mem _ hm) i hi

/-! ### What a recomputation puts into a list -/

section
variable (s : State) (why : Because) (f : List Wanted) (gs : List Goal) (is : List Ingredient)

/-- What joins is named by a goal and is not in the list. -/
theorem State.mem_joiners {i : Ingredient} (h : i ∈ s.joiners why f gs is) :
    (∃ g ∈ gs, g.ident = i.ident) ∧ ∀ j ∈ is, j.ident ≠ i.ident := by
  obtain ⟨g, hg, e⟩ := List.mem_filterMap.1 h
  split at e
  · cases e
  · rename_i hout
    cases e
    simp only [Bool.or_eq_true, List.any_eq_true, beq_iff_eq, not_or, not_exists, not_and] at hout
    exact ⟨⟨g, hg, rfl⟩, hout.1⟩

theorem State.joiners_nodup (hn : (gs.map fun g => g.ident).Nodup) : ((s.joiners why f gs is).map fun i => i.ident).Nodup := by
  unfold State.joiners
  rw [List.Nodup, List.pairwise_map, List.pairwise_filterMap]
  refine (List.pairwise_map.1 hn).imp fun hab i hi j hj => ?_
  split at hi <;> cases hi
  split at hj <;> cases hj
  exact hab

/-- A recomputation with goals of distinct identities keeps the identity order (R77, R78). -/
theorem State.recompute_inOrder (hn : (gs.map fun g => g.ident).Nodup) (h : inOrder is) : inOrder (s.recompute why f gs is) := by
  refine foldl_insert_inOrder _ (s.joiners_nodup why f gs is hn) (inOrder_of_sublist h ?_) fun n hn i hi => ?_
  · simp [Function.comp_def, Ingredient.retarget_target]
  · obtain ⟨j, hj, rfl⟩ := List.mem_map.1 hi
    rw [(j.retarget_target _ _ _).2]
    exact (s.mem_joiners why f gs is hn).2 j hj

/-- Every identity of a recomputed list was in the list or is named by a goal. -/
theorem State.recompute_ident {i : Ingredient} (h : i ∈ s.recompute why f gs is) :
    (∃ g ∈ gs, g.ident = i.ident) ∨ ∃ j ∈ is, j.ident = i.ident := by
  rcases (mem_foldl_insert _ _ _).1 h with hi | hi
  · exact .inl (s.mem_joiners why f gs is hi).1
  · obtain ⟨j, hj, rfl⟩ := List.mem_map.1 hi
    exact .inr ⟨j, hj, (j.retarget_target _ _ _).2.symm⟩

end

/-- A goal is for an identity of the feed or for a talk path. -/
theorem State.goals_ident {s : State} {f : List Wanted} {a : Option Duck} {g : Goal} (h : g ∈ s.goals f a) :
    (∃ w ∈ f, w.ident = g.ident) ∨ ∃ k, g.ident = .talk k := by
  unfold State.goals at h
  rcases List.mem_append.1 h with h | h
  · obtain ⟨w, hw, rfl⟩ := List.mem_map.1 h
    exact .inl ⟨w, hw, rfl⟩
  · rcases a with _ | d
    · cases h
    · dsimp only at h
      split at h
      · cases h
      · obtain ⟨w, hw, rfl⟩ := List.mem_map.1 h
        exact .inr ⟨d.link, (State.talkPath_some (Option.mem_toList.1 hw)).1⟩

/-- No feed names the party's own input (R77). -/
theorem State.feed_notOwn (s : State) (p : Party) : ∀ w ∈ s.feed p, w.ident ≠ .party p := by
  intro w hw
  rcases hst : (s.party p).state <;> simp only [State.feed, hst] at hw
  case screening =>
    rcases List.mem_append.1 hw with hw | hw
    · split at hw
      · rw [(State.talkPath_some (Option.mem_toList.1 hw)).1]
        simp
      · cases hw
    · unfold State.groupInputs at hw
      split at hw
      · obtain ⟨q, hq, rfl⟩ := List.mem_map.1 hw
        simpa using (List.mem_filter.1 hq).2
      · cases hw
  case parked =>
    unfold State.holdFeed at hw
    split at hw
    · rw [List.mem_singleton.1 hw]
      simp
    · cases hw
  case queued | onAir =>
    split at hw
    · simpa using (List.mem_filter.1 hw).2
    · cases hw
  case looptest =>
    split at hw
    · rw [List.mem_singleton.1 hw]
      simp
    · cases hw
  all_goals cases hw

end Sys2Proof.Machine

namespace Sys2Proof.Machine

/-! ### What the laws of the returns and of the lists read -/

/-- The laws under which every feed names each identity once. -/
def State.placed (s : State) : Prop := s.placesLaw ∧ s.groupLaw

/-- The returns of `t` keep what the laws of `s` say of them: no return of its own input where there was none, and, where `d`
holds, identity order where there was identity order. -/
def State.composes (d : Prop) (s t : State) : Prop := ∀ p,
  ((∀ i ∈ (s.ret p).ingredients, i.ident ≠ .party p) → ∀ i ∈ (t.ret p).ingredients, i.ident ≠ .party p)
    ∧ (d → inOrder (s.ret p).ingredients → inOrder (t.ret p).ingredients)

section
variable {d : Prop} {s t u : State}

theorem State.composes.returnLaw (h : s.composes d t) (hs : s.returnLaw) : t.returnLaw := fun p => (h p).1 (hs p)

theorem State.composes.listLaw (h : s.composes d t) (hd : d) (hs : s.listLaw) : t.listLaw := fun p => (h p).2 hd (hs p)

theorem State.composes.trans (h : s.composes d t) (g : t.composes d u) : s.composes d u :=
  fun p => ⟨fun hs => (g p).1 ((h p).1 hs), fun hd hs => (g p).2 hd ((h p).2 hd hs)⟩

theorem State.composes_of_returns (h : t.rmix.returns = s.rmix.returns) : s.composes d t := fun p => by
  simp only [State.ret, h]
  exact ⟨id, fun _ => id⟩

theorem State.composes_of_rmix (h : t.rmix = s.rmix) : s.composes d t := State.composes_of_returns (congrArg Rmix.returns h)

theorem State.composes_refl (s : State) : s.composes d s := State.composes_of_returns rfl

/-- A change of the ingredients that drops some and renames none. -/
theorem State.composes_of_sublist
    (h : ∀ p, ((t.ret p).ingredients.map fun i => i.ident).Sublist ((s.ret p).ingredients.map fun i => i.ident)) :
    s.composes d t := fun p => by
  refine ⟨fun hs i hi => ?_, fun _ hs => inOrder_of_sublist hs (h p)⟩
  obtain ⟨j, hj, e⟩ := List.mem_map.1 ((h p).subset (List.mem_map_of_mem hi))
  exact e ▸ hs j hj

theorem composes_foldl {α : Type} (P : State → Prop) (f : State → α → State)
    (hf : ∀ (s : State) (a : α), (d → P s) → s.composes d (f s a) ∧ (d → P (f s a))) (l : List α) (h : d → P s) :
    s.composes d (l.foldl f s) := by
  induction l generalizing s with
  | nil => exact s.composes_refl
  | cons a l ih => exact (hf s a h).1.trans (ih (hf s a h).2)

end

/-! ### A recomputed return -/

/-- Feeds that name each identity once. -/
def State.feedsDistinct (s : State) : Prop := ∀ p, ((s.feed p).map fun w => w.ident).Nodup

theorem State.placed.feedsDistinct {s : State} (h : s.placed) : s.feedsDistinct := fun p =>
  (s.feed_gain p (fun _ => h.1) (fun _ => h.2)).1

theorem State.sameFeeds.feedsDistinct {s t : State} (h : s.sameFeeds t) (hs : s.feedsDistinct) : t.feedsDistinct := fun p => by
  rw [h.feed p]
  exact hs p

theorem State.retargetActive_sameFeeds (s : State) (p : Party) (f : List Wanted) (a : Option Duck) :
    s.sameFeeds (s.retargetActive p f a) := ⟨fun _ => ⟨rfl, rfl, rfl⟩, rfl, rfl, rfl, rfl, rfl⟩

section
variable {d : Prop} (s : State) (p : Party)

/-- One return recomputed for a feed without the party's own input, and, where `d` holds, of distinct identities. -/
theorem State.setReturn_composes (why : Because) (f : List Wanted) (a b : Option Duck) (hf : ∀ w ∈ f, w.ident ≠ .party p)
    (hd : d → (f.map fun w => w.ident).Nodup) :
    s.composes d (s.setReturn p { ingredients := s.recompute why f (s.goals f a) (s.ret p).ingredients, active := b }) := by
  intro q
  by_cases e : q = p
  · subst e
    simp only [State.setReturn, State.ret, row_put_same]
    refine ⟨fun hs i hi => ?_, fun h hs => s.recompute_inOrder why f _ _ (s.goalOf_goals f a (.party q) (hd h)).1 hs⟩
    rcases s.recompute_ident why f _ _ hi with ⟨g, hg, e⟩ | ⟨j, hj, e⟩
    · rcases State.goals_ident hg with ⟨w, hw, ew⟩ | ⟨k, ek⟩
      · exact e ▸ ew ▸ hf w hw
      · simp [← e, ek]
    · exact e ▸ hs j hj
  · simp only [State.setReturn, State.ret, row_put_other _ _ _ _ e]
    exact ⟨id, fun _ => id⟩

theorem State.retargetFeed_composes (hd : d → s.feedsDistinct) : s.composes d (s.retargetFeed p) :=
  s.setReturn_composes p .feed (s.feed p) _ _ (s.feed_notOwn p) fun h => hd h p

theorem State.retargetActive_composes {b : State} (a : Option Duck) (hd : d → b.feedsDistinct) :
    s.composes d (s.retargetActive p (b.feed p) a) :=
  s.setReturn_composes p .active (b.feed p) a a (b.feed_notOwn p) fun h => hd h p

end

/-! ### The reports to RMIX -/

section
variable {d : Prop} {s b : State} (hs : d → s.feedsDistinct)
include hs

theorem State.reportFeeds_composes (ps : List Party) : s.composes d (s.reportFeeds ps) :=
  composes_foldl State.feedsDistinct State.retargetFeed (fun t p ht =>
    ⟨t.retargetFeed_composes p ht, fun h => (State.reportFeeds_sameFeeds [p] t).feedsDistinct (ht h)⟩) ps hs

/-- RMIX's report of a change of groups reaches the cues too, which are no returns. -/
theorem State.toldGroups_composes (ps : List Party) : s.composes d (s.reportFeeds ps).retargetCues :=
  (State.reportFeeds_composes hs ps).trans (State.composes_of_returns rfl)

theorem State.reportParty_composes (p : Party) : s.composes d (s.reportParty b p) := by
  unfold State.reportParty
  dsimp only
  split
  · exact State.reportFeeds_composes hs _
  · exact State.toldGroups_composes hs _

theorem State.reportTransition_composes (hb : d → b.feedsDistinct) (p : Party) : s.composes d (s.reportTransition b p) := by
  obtain ⟨u, hu⟩ : ∃ u : State, u = { s with choices := s.choices + 1 } := ⟨_, rfl⟩
  have drawn : s.sameFeeds u := by subst hu; exact ⟨fun _ => ⟨rfl, rfl, rfl⟩, rfl, rfl, rfl, rfl, rfl⟩
  have hsu : s.composes d u := by subst hu; exact State.composes_of_returns rfl
  have hud : d → u.feedsDistinct := fun h => drawn.feedsDistinct (hs h)
  unfold State.reportTransition
  dsimp only
  rw [← hu]
  split
  · exact State.reportParty_composes hs p
  · split
    · refine hsu.trans ((u.retargetActive_composes p _ hb).trans (State.reportParty_composes (fun h => ?_) p))
      exact (u.retargetActive_sameFeeds p _ _).feedsDistinct (hud h)
    · exact hsu.trans ((State.reportParty_composes hud p).trans (State.retargetActive_composes _ p _ hud))

end

/-- A transition whose change has not reached RMIX yet, and that keeps the places and the groups. -/
theorem State.conclude_composes {d : Prop} {s t : State} (hs : d → s.placed) (hr : t.rmix = s.rmix) (p : Party) (j : Option Link)
    (call : List Event) (tail : List Offer) (ht : d → (t.conclude s p j call tail).placed) :
    s.composes d (t.conclude s p j call tail) := by
  have same : (t.conclude s p j call tail).sameFeeds (t.offerAll (transitionOffers s t p j call ++ tail)) :=
    ⟨fun q => by simp [State.party], by simp, by simp, by simp, by simp, by simp⟩
  have ho : s.composes d (t.offerAll (transitionOffers s t p j call ++ tail)) := State.composes_of_rmix (by simp [hr])
  exact ho.trans (State.reportTransition_composes (fun h => same.feedsDistinct (ht h).feedsDistinct)
    (fun h => (hs h).feedsDistinct) p)

end Sys2Proof.Machine

namespace Sys2Proof.Machine

/-! ### The transitions compose the returns -/

section
variable {d : Prop} {s : State} (h : d → s.placed) (p : Party) (k : Link)
include h

theorem State.toVacant_composes (call : State → State → List Event) : s.composes d (s.toVacant p call) :=
  State.conclude_composes h (by simp) _ _ _ _ fun hd => ⟨(h hd).1.toVacant p _, (h hd).2.toVacant p _⟩

theorem State.toFault_composes (cause : Nat) : s.composes d (s.toFault p cause) :=
  State.conclude_composes h (by simp) _ _ _ _ fun hd => ⟨(h hd).1.toFault p _, (h hd).2.toFault p _⟩

theorem State.toAlerting_composes : s.composes d (s.toAlerting p) :=
  State.conclude_composes h (by simp) _ _ _ _ fun hd => ⟨(h hd).1.toAlerting p, (h hd).2.toAlerting p⟩

theorem State.answer_composes (hs : (s.party p).state = .alerting) : s.composes d (s.answer p k) :=
  State.conclude_composes h (by simp) _ _ _ _ fun hd => ⟨(h hd).1.answer p k, (h hd).2.answer p k hs⟩

theorem State.toParked_composes : s.composes d (s.toParked p k) :=
  State.conclude_composes h (by simp) _ _ _ _ fun hd => ⟨(h hd).1.toParked p k, (h hd).2.toParked p k⟩

theorem State.toQueue_composes (x : Studio) (hq : (s.party p).state ≠ .queued) (ha : (s.party p).state ≠ .onAir)
    (hl : (s.queue x).length < 12) : s.composes d (s.toQueue p x k) :=
  State.conclude_composes h (by simp) _ _ _ _ fun hd => ⟨(h hd).1.toQueue p k x hq ha hl, (h hd).2.toQueue p k x⟩

theorem State.toAir_composes (n : AirSlot) (hs : d → (s.party p).state = .queued) (hn : row s.stud.slots n = none) :
    s.composes d (s.toAir p n k) :=
  State.conclude_composes h (by simp) _ _ _ _ fun hd => ⟨(h hd).1.toAir p k n (hs hd) hn, (h hd).2.toAir p k n⟩

theorem State.release_composes : s.composes d (s.release p k) :=
  State.conclude_composes h (by simp) _ _ _ _ fun hd => ⟨(h hd).1.release p k, (h hd).2.release p k⟩

theorem State.startLoop_composes (src : Source) : s.composes d (s.startLoop p src k) :=
  State.conclude_composes h (by simp) _ _ _ _ fun hd => ⟨(h hd).1.startLoop p k src, (h hd).2.startLoop p k src⟩

theorem State.partyReset_composes : s.composes d (s.partyReset p) :=
  State.conclude_composes h (by simp) _ _ _ _ fun hd => ⟨(h hd).1.partyReset p, (h hd).2.partyReset p⟩

theorem State.portFailure_composes : s.composes d (s.portFailure p) := by
  unfold State.portFailure
  split
  case h_7 => exact State.toVacant_composes h p _
  case h_8 | h_9 => exact s.composes_refl
  all_goals exact State.toFault_composes h p _

end

/-! ### The changes that are no transition -/

section
variable {d : Prop} {s t : State}

theorem State.placed.kept (h : s.placed) (hp : s.samePlaces t) (hg : s.sameGroups t) : t.placed :=
  ⟨hp.placesLaw h.1, hg.groupLaw h.2⟩

/-- A change that reaches no return but by its report, made where the places and the groups are lawful. -/
theorem State.reported_composes (hr : t.rmix.returns = s.rmix.returns) (ht : d → t.placed) (ps : List Party) :
    s.composes d (t.reportFeeds ps) :=
  (State.composes_of_returns hr).trans (State.reportFeeds_composes (fun hd => (ht hd).feedsDistinct) ps)

/-- A change that has not reached RMIX yet, and its report, with the places and the groups kept. -/
theorem State.told_composes (hr : t.rmix = s.rmix) (ps : List Party) (ht : d → (t.reportFeeds ps).placed) :
    s.composes d (t.reportFeeds ps) :=
  (State.composes_of_rmix hr).trans (State.reportFeeds_composes (fun hd p => by
    rw [← (State.reportFeeds_sameFeeds ps t).feed p]
    exact (ht hd).feedsDistinct p) ps)

/-- The same of a change of the groups, which the cues hear too. -/
theorem State.toldGroups_composes_of (hr : t.rmix = s.rmix) (ps : List Party) (ht : d → (t.reportFeeds ps).retargetCues.placed) :
    s.composes d (t.reportFeeds ps).retargetCues :=
  (State.told_composes hr ps ht).trans (State.composes_of_returns rfl)

end

section
variable {d : Prop} {s : State} (h : d → s.placed) (p : Party) (k : Link)
include h

theorem State.moveToGroup_composes (g : Group) (hm : d → (s.moveToGroup p g k).groupLaw) : s.composes d (s.moveToGroup p g k) :=
  State.toldGroups_composes_of (s := s) (t := s.grouped p g k) rfl _ fun hd =>
    ⟨State.placesLaw_of_sameSlots (fun q => by rw [← State.moveToGroup_eq, State.moveToGroup_party])
      (by simp [State.grouped]) (by simp [State.grouped]) (fun n => by simp [State.grouped]) (h hd).1, hm hd⟩

theorem State.leaveGroup_composes (g : Group) : s.composes d (s.leaveGroup p g) :=
  State.toldGroups_composes_of (s := s) (t := s.ungroup p) rfl _ fun hd =>
    ⟨State.placesLaw_of_sameSlots (fun q => by simp [State.party]) (by simp) (by simp) (fun n => by simp) (h hd).1,
      (s.leaveGroup_sameGroups p g).groupLaw ((h hd).2.outOfGroup (s.ungroup_outOfGroup p) fun _ _ => rfl)⟩

theorem State.passTo_composes (r : Link) (cause : Nat) (first last : List Offer) : s.composes d (s.passTo p r cause first last) := by
  have ht : d → (s.passTo p r cause first last).placed := fun hd =>
    ⟨(s.passTo_samePlaces p r cause first last).placesLaw (h hd).1, (h hd).2.passTo p r cause first last⟩
  unfold State.passTo State.reportTransfer at *
  dsimp only at *
  by_cases e : (s.party p).state = .screening
  · simp only [if_pos e] at ht ⊢
    exact State.toldGroups_composes_of (by simp [State.transferTo]) _ ht
  · simp only [if_neg e] at ht ⊢
    exact State.composes_of_rmix (by simp [State.transferTo])

theorem State.grantHandover_composes (outcome cause : Nat) : s.composes d (s.grantHandover p outcome cause) := by
  unfold State.grantHandover
  split
  · split
    · exact State.passTo_composes h p _ _ _ _
    · exact State.composes_of_rmix (by unfold State.endHandover; split <;> simp)
  · exact s.composes_refl

theorem State.placed.grantHandover (outcome cause : Nat) : d → (s.grantHandover p outcome cause).placed := fun hd =>
  ⟨(s.grantHandover_samePlaces p outcome cause).placesLaw (h hd).1, (h hd).2.grantHandover p outcome cause⟩

theorem State.gainSource_composes (x : Studio) (n : Source) (g : Gain) : s.composes d (s.gainSource x n g) := by
  have ht : d → (s.gainSource x n g).placed := fun hd =>
    (h hd).kept (s.gainSource_samePlaces x n g) (s.gainSource_sameGroups x n g)
  by_cases e : (s.source n).gainIn x = g
  · rw [State.gainSource, if_pos e]
    exact s.composes_refl
  · rw [State.gainSource, if_neg e] at *
    exact State.told_composes (by simp) _ ht

theorem State.gainParty_composes (x : Studio) {n : AirSlot} (g : Gain) (hn : s.slotOf p = some n) :
    s.composes d (s.gainParty x p n g) := by
  have ht : d → (s.gainParty x p n g).placed := fun hd =>
    (h hd).kept (s.gainParty_samePlaces x g hn) (s.gainParty_sameGroups x p n g)
  by_cases e : s.airGainOf p = some g
  · rw [State.gainParty_same e]
    exact s.composes_refl
  · rw [State.gainParty_other e] at *
    exact State.told_composes (by simp) _ ht

/-- TARB's work on one return. -/
theorem State.reworkActive_composes (b : State) (own : Option Link) : s.composes d (s.reworkActive b p own) := by
  have told : s.sameFeeds (s.offerAll (activeOffers b s p own)) :=
    ⟨fun q => by simp [State.party], by simp, by simp, by simp, by simp, by simp⟩
  have offered : s.composes d (s.offerAll (activeOffers b s p own)) := State.composes_of_rmix (by simp)
  unfold State.reworkActive
  dsimp only
  split
  · exact offered
  · exact offered.trans (State.retargetActive_composes _ p _ fun hd => told.feedsDistinct (h hd).feedsDistinct)

theorem State.makeEntry_composes (e : TalkEntry) : s.composes d (s.makeEntry e p) := by
  have set : d → (s.setTalkList p (insertEntry e (withoutLink e.link (s.talkList p)))).placed := h
  exact State.composes.trans (State.composes_of_rmix (t := s.setTalkList p _) rfl)
    ((State.reworkActive_composes set p s _).trans (State.composes_of_rmix (State.ownerNamed_rmix _ _ _)))

theorem State.dropEntry_composes : s.composes d (s.dropEntry k p) := by
  have set : d → (s.setTalkList p (withoutLink k (s.talkList p))).placed := h
  exact State.composes.trans (State.composes_of_rmix (t := s.setTalkList p _) rfl) (State.reworkActive_composes set p s _)

theorem State.setMembership_composes (n : Source) (inA inB : Bool) : s.composes d (s.setMembership n inA inB) :=
  State.reported_composes (t := s.setSource n _) rfl (fun hd =>
    (h hd).kept ⟨fun _ => rfl, rfl, rfl, fun _ => rfl⟩ (State.sameGroups_of_eq rfl rfl)) _

theorem State.setHold_composes (x : Option Source) (g : Gain) : s.composes d (s.setHold x g) := by
  unfold State.setHold
  split
  · exact s.composes_refl
  · exact State.reported_composes (t := { s with rmix := { s.rmix with holdSource := x, holdGain := g } }) rfl h _

omit h in
/-- A dip of a falling talk path renames nothing. -/
theorem State.dipFalling_composes (j : Link) (src : Option Source) : s.composes d (s.dipFalling j src) :=
  State.composes_of_sublist fun p => by simp [State.dipFalling_ret, Function.comp_def, Ingredient.dipFalling_same]

theorem State.setTalk_composes (j : Link) (r : TalkSettings) : s.composes d (s.setTalk j r) := by
  have told := fun ps => State.reported_composes (t := s.setSettings j r) rfl h ps
  unfold State.setTalk
  dsimp only
  split
  · exact State.composes_of_rmix rfl
  · split
    · exact (told _).trans (State.dipFalling_composes _ _)
    · exact told _

theorem State.talkTo_composes (e : TalkEntry) (ps : List Party) : s.composes d (s.talkTo e ps) :=
  State.composes.trans (State.composes_of_rmix (t := { s with tarb := { s.tarb with arrivals := s.tarb.arrivals + 1 } }) rfl)
    (composes_foldl State.placed (fun (t : State) p => t.makeEntry e p) (fun t p ht => ⟨State.makeEntry_composes ht p e, fun hd =>
      (ht hd).kept (t.makeEntry_samePlaces e p) (t.makeEntry_sameGroups e p)⟩) ps h)

theorem State.applyFloor_composes (x : Studio) (n : Nat) : s.composes d (s.applyFloor x n) :=
  State.composes.trans (State.composes_of_rmix (t := s.setFloor x n) (by simp))
    (composes_foldl State.placed (fun (t : State) p => t.reworkActive s p none)
      (fun t p ht => ⟨State.reworkActive_composes ht p _ _, fun hd =>
        (ht hd).kept ((t.reworkActive_sameCalls s p none).samePlaces (by simp)) (t.reworkActive_sameGroups s p none)⟩) _
      fun hd => (h hd).kept ((s.setFloor_sameCalls x n).samePlaces (by cases x <;> rfl))
        ((s.setFloor_sameCalls x n).sameGroups (by simp)))

end

end Sys2Proof.Machine

namespace Sys2Proof.Machine

/-! ### The requests that reach the returns -/

/-- A request whose taking composes the returns. -/
def composing (ask : State → Answer) : Prop := ∀ (d : Prop) (s : State), (d → s.placed) → s.composes d (ask s).state

section
variable {d : Prop} (k : Link) (a b c e : Byte) {s : State}

theorem State.composes.acceptNaming {t : State} (g : s.composes d t) (p : Party) (data : List Byte) :
    s.composes d (acceptNaming t k p data).state := g.trans (State.composes_of_rmix (State.ownerNamed_rmix _ _ _))

theorem refuse_composes (st : Status) : s.composes d (refuse s st).state := s.composes_refl

/-- A party named before the change that takes it out of its state (R136). -/
theorem State.composes.afterNaming {t : State} {p : Party} (g : (s.ownerNamed k p).composes d t) : s.composes d t :=
  (State.composes_of_rmix (State.ownerNamed_rmix _ _ _)).trans g

theorem State.placed.ownerNamed (p : Party) (h : s.placed) : (s.ownerNamed k p).placed :=
  h.kept (s.ownerNamed_samePlaces p k) (State.ownerNamed_sameGroups k s p)

end

section
variable (k : Link) (a b c e : Byte)

theorem askAnsr_composing : composing (askAnsr k a) := by
  intro d s h
  unfold askAnsr
  repeat' split
  all_goals first
    | with_reducible exact refuse_composes _
    | exact State.composes.acceptNaming k (State.answer_composes h _ k ‹_›) _ _

theorem askPark_composing : composing (askPark k a) := by
  intro d s h
  unfold askPark
  repeat' split
  all_goals first
    | with_reducible exact refuse_composes _
    | exact State.composes.acceptNaming k (State.toParked_composes h _ k) _ _

theorem askQueu_composing : composing (askQueu k a b) := by
  intro d s h
  unfold askQueu
  repeat' split
  all_goals first
    | with_reducible exact refuse_composes _
    | rename_i hs hl
      refine State.composes.afterNaming k (State.toQueue_composes (fun hd => (h hd).ownerNamed k _) _ k _ ?_ ?_ ?_)
      · rw [State.ownerNamed_state, hs]
        decide
      · rw [State.ownerNamed_state, hs]
        decide
      · rw [State.ownerNamed_queue]
        exact Nat.not_le.1 hl

theorem askAirp_composing : composing (askAirp k a) := by
  intro d s h
  unfold askAirp
  repeat' split
  all_goals first
    | with_reducible exact refuse_composes _
    | exact State.composes.acceptNaming k
        (State.toAir_composes h _ k _ (fun _ => not_not.mp ‹_›) (State.slotFor_free ‹_›)) _ _

theorem askNext_composing : composing (askNext k a) := by
  intro d s h
  unfold askNext
  repeat' split
  all_goals first
    | with_reducible exact refuse_composes _
    | rename_i hq _ n hn
      exact State.toAir_composes h _ k n (fun hd => (h hd).1.queuedLaw _ _ (by rw [hq]; exact List.mem_cons_self))
        (State.freeSlot_free hn)

theorem askOffa_composing : composing (askOffa k a) := by
  intro d s h
  unfold askOffa
  repeat' split
  all_goals first
    | with_reducible exact refuse_composes _
    | exact State.composes.acceptNaming k (State.toParked_composes h _ k) _ _

theorem askUnqu_composing : composing (askUnqu k a) := by
  intro d s h
  unfold askUnqu
  repeat' split
  all_goals first
    | with_reducible exact refuse_composes _
    | exact State.composes.acceptNaming k (State.toParked_composes h _ k) _ _

theorem askRlse_composing : composing (askRlse k a) := by
  intro d s h
  unfold askRlse
  repeat' split
  all_goals first
    | with_reducible exact refuse_composes _
    | exact State.composes.afterNaming k (State.release_composes (fun hd => (h hd).ownerNamed k _) _ k)

theorem askLoop_composing : composing (askLoop k a b) := by
  intro d s h
  unfold askLoop
  repeat' split
  all_goals first
    | with_reducible exact refuse_composes _
    | exact State.composes.acceptNaming k (State.startLoop_composes h _ k _) _ _

theorem askLend_composing : composing (askLend k a) := by
  intro d s h
  unfold askLend
  repeat' split
  all_goals first
    | with_reducible exact refuse_composes _
    | exact State.composes.acceptNaming k (State.toVacant_composes h _ _) _ _

theorem askPrst_composing : composing (askPrst k a) := by
  intro d s h
  unfold askPrst
  repeat' split
  all_goals first
    | with_reducible exact refuse_composes _
    | exact State.composes.afterNaming k (State.partyReset_composes (fun hd => (h hd).ownerNamed k _) _)

/-- The checks of R45 are what the joined group needs. -/
theorem askJoin_composing : composing (askJoin k a b) := by
  intro d s h
  unfold askJoin
  split
  · rename_i p g _ _
    split_ifs with hc hs ho hg hp hl
    iterate 4 · exact refuse_composes _
    · exact s.composes_refl.acceptNaming k _ _
    · exact refuse_composes _
    · refine (State.moveToGroup_composes h p k g fun hd =>
        (s.moveToGroup_sameGroups p g k).groupLaw ((h hd).2.grouped ?_ ?_ ?_ ?_ ?_)).acceptNaming k _ _
      · simpa using hs
      · simpa [State.owns] using ho
      · simpa [or_iff_not_imp_left] using hg
      · simpa using hp
      · simpa [Config.groupRoom] using hl
  · exact refuse_composes _

theorem askLeav_composing : composing (askLeav k a) := by
  intro d s h
  unfold askLeav
  repeat' split
  all_goals first
    | with_reducible exact refuse_composes _
    | exact State.composes.acceptNaming k (State.leaveGroup_composes h _ _) _ _

theorem askGain_composing : composing (askGain k a b c e) := by
  intro d s h
  unfold askGain askGainSource askGainParty
  repeat' split
  all_goals first
    | with_reducible exact refuse_composes _
    | exact State.gainSource_composes h _ _ _
    | exact State.composes.acceptNaming k (State.gainParty_composes h _ _ _ ‹_›) _ _

theorem askTalk_composing : composing (askTalk k a b c e) := by
  intro d s h
  unfold askTalk
  dsimp only
  repeat' split
  all_goals first
    | with_reducible exact refuse_composes _
    | exact State.talkTo_composes h _ _

theorem askTend_composing : composing (askTend k a b) := by
  intro d s h
  unfold askTend
  split
  · refine composes_foldl State.placed (fun (t : State) p => (t.dropEntry k p).ownerNamed k p) (fun t p ht => ⟨?_, fun hd => ?_⟩) _ h
    · exact (State.dropEntry_composes ht p k).trans (State.composes_of_rmix (State.ownerNamed_rmix _ _ _))
    · exact ((ht hd).kept (t.dropEntry_samePlaces k p) (t.dropEntry_sameGroups k p)).ownerNamed k p
  · exact refuse_composes _

theorem askStlk_composing : composing (askStlk k a b c e) := by
  intro d s h
  unfold askStlk
  repeat' split
  all_goals first
    | with_reducible exact refuse_composes _
    | exact State.setTalk_composes h _ _

theorem askTake_composing : composing (askTake k a) := by
  intro d s h
  unfold askTake takeAnswered takeNow takeOver
  repeat' split
  all_goals first
    | with_reducible exact refuse_composes _
    | with_reducible exact s.composes_refl.acceptNaming k _ _
    | exact State.passTo_composes h _ _ _ _ _
    | exact State.composes_of_rmix (by simp [takePending, State.askOwner])

theorem askGive_composing : composing (askGive k a b) := by
  intro d s h
  unfold askGive
  repeat' split
  all_goals first
    | with_reducible exact refuse_composes _
    | exact State.composes.acceptNaming k (State.grantHandover_composes h _ _ _) _ _

theorem askAway_composing : composing (askAway k a) := by
  intro d s h
  unfold askAway
  split
  · exact refuse_composes _
  · exact State.composes_of_rmix rfl
  · exact State.composes.trans (State.composes_of_rmix rfl) (composes_foldl State.placed (fun (t : State) p => t.grantHandover p _ _)
      (fun t p ht => ⟨State.grantHandover_composes ht p _ _, State.placed.grantHandover ht p _ _⟩) _ (s := s.setAway k true) h)

theorem askSsrc_composing : composing (askSsrc k a b) := by
  intro d s h
  unfold askSsrc
  dsimp only
  repeat' split
  all_goals first
    | with_reducible exact refuse_composes _
    | exact State.setMembership_composes h _ _ _

theorem askShld_composing : composing (askShld k a b) := by
  intro d s h
  unfold askShld
  repeat' split
  all_goals first
    | with_reducible exact refuse_composes _
    | exact State.setHold_composes h _ _

theorem askSflr_composing : composing (askSflr k a b) := by
  intro d s h
  unfold askSflr
  repeat' split
  all_goals first
    | with_reducible exact refuse_composes _
    | exact State.applyFloor_composes h _ _

theorem askLrst_composing : composing (askLrst k) := by
  intro d s h
  have dropped : (s.modLink k LinkRec.cleared).composes d ((s.modLink k LinkRec.cleared).dropEntries k) :=
    composes_foldl State.placed (fun (t : State) p => t.dropEntry k p) (fun t p ht => ⟨State.dropEntry_composes ht p k, fun hd =>
      (ht hd).kept (t.dropEntry_samePlaces k p) (t.dropEntry_sameGroups k p)⟩) _ h
  have cancelled : ∀ t : State, t.composes d (t.cancelHandovers k) := fun t =>
    composes_foldl (fun _ => True) (fun (t : State) p => t.cancelHandover p)
      (fun t p _ => ⟨State.composes_of_rmix (by unfold State.cancelHandover; split <;> simp), fun _ => trivial⟩) _ fun _ => trivial
  have left : ∀ t : State, t.composes d (t.leaveStation k) := fun t =>
    State.composes_of_returns (by simp only [State.leaveStation, State.modLink_rmix]; unfold State.select; dsimp only; split <;> rfl)
  exact State.composes.trans (State.composes_of_rmix rfl) (dropped.trans ((cancelled _).trans (left _)))

end

end Sys2Proof.Machine

namespace Sys2Proof.Machine

/-! ### The requests that leave RMIX's returns as they are -/

/-- A request whose taking leaves every return as it was. -/
def quiet (ask : State → Answer) : Prop := ∀ s : State, (ask s).state.rmix.returns = s.rmix.returns

theorem quiet.composing {ask : State → Answer} (h : quiet ask) : composing ask := fun _ s _ => State.composes_of_returns (h s)

@[simp] theorem State.select_returns (s : State) (k : Link) (x : Option Selection) : (s.select k x).rmix.returns = s.rmix.returns := by
  unfold State.select
  dsimp only
  split <;> rfl

@[simp] theorem State.endHandover_rmix (s : State) (p : Party) (outcome : Nat) : (s.endHandover p outcome).rmix = s.rmix := by
  unfold State.endHandover
  split <;> simp

@[simp] theorem State.moveQueued_rmix (s : State) (p : Party) (x : Studio) (n : Nat) (k : Link) :
    (s.moveQueued p x n k).rmix = s.rmix := by
  unfold State.moveQueued
  dsimp only
  split <;> simp

section
variable (k : Link) (a b c d : Byte)

theorem askSknd_quiet : quiet (askSknd k a b) := by
  intro s
  unfold askSknd
  repeat' split
  all_goals simp [acceptNaming, accept, refuse, State.setKind]

theorem askMove_quiet : quiet (askMove k a b) := by
  intro s
  unfold askMove
  repeat' split
  all_goals simp [acceptNaming, accept, refuse]

theorem askLstn_quiet : quiet (askLstn k a b) := by
  intro s
  unfold askLstn askListen
  repeat' split
  all_goals simp [acceptNaming, accept, refuse]

theorem askKeep_quiet : quiet (askKeep k a b) := by
  intro s
  unfold askKeep
  repeat' split
  all_goals simp [acceptNaming, accept, refuse]

theorem askTcan_quiet : quiet (askTcan k a) := by
  intro s
  unfold askTcan
  repeat' split
  all_goals simp [accept, refuse]

theorem askLock_quiet : quiet (askLock k a) := by
  intro s
  unfold askLock
  repeat' split
  all_goals simp [acceptNaming, accept, refuse, State.lockParty]

theorem askUlck_quiet : quiet (askUlck k a) := by
  intro s
  unfold askUlck
  repeat' split
  all_goals simp [acceptNaming, accept, refuse, State.unlockParty]

theorem askSreg_quiet (e f g i j : Byte) : quiet (askSreg k a b c d e f g i j) := by
  intro s
  unfold askSreg askSregIn
  repeat' split
  all_goals simp [accept, refuse]

theorem askLreg_quiet : quiet (askLreg k a) := by
  intro s
  unfold askLreg
  repeat' split
  all_goals simp [accept, refuse]

theorem askSprt_quiet (ss : List Byte) : quiet (askSprt k a b ss) := by
  intro s
  unfold askSprt askSprtIn
  repeat' split
  all_goals simp [accept, refuse, State.writePort, State.monitorsAfter]

theorem askSplt_quiet : quiet (askSplt k a) := by
  intro s
  unfold askSplt
  repeat' split
  all_goals simp [accept, refuse]

theorem askStim_quiet (v w x y z : Word16) : quiet (askStim k v w x y z a b) := by
  intro s
  unfold askStim
  repeat' split
  all_goals simp [accept, refuse]

theorem askSpat_quiet (e f g : Byte) : quiet (askSpat k a b c d e f g) := by
  intro s
  unfold askSpat
  repeat' split
  all_goals simp [accept, refuse, State.writePattern]

theorem askEmsk_quiet : quiet (askEmsk k a) := by
  intro s
  unfold askEmsk
  split <;> simp [accept, refuse]

theorem askFtch_quiet : quiet (askFtch k a) := by
  intro s
  unfold askFtch
  split <;> simp [accept, refuse]

theorem askAtcf_quiet : quiet (askAtcf k a b) := by
  intro s
  unfold askAtcf
  split <;> simp [accept, refuse]

theorem askRdpy_quiet : quiet (askRdpy k a) := by
  intro s
  unfold askRdpy
  repeat' split
  all_goals simp [acceptNaming, accept, refuse]

theorem askRdrt_quiet : quiet (askRdrt k a b) := by
  intro s
  unfold askRdrt
  repeat' split
  all_goals simp [acceptNaming, accept, refuse]

theorem quiet_of_state {ask : State → Answer} (h : ∀ s, (ask s).state = s) : quiet ask := fun s => by rw [h s]

end

/-- Each request command composes the returns. -/
theorem asked_composing {c : Instr} {k : Link} {tag code : Byte} {ask : State → Answer}
    (h : asked c = some (k, tag, code, ask)) : composing ask := by
  cases c <;> cases h
  case unknownRequest => exact fun _ s _ => s.composes_refl
  case ansr => exact askAnsr_composing _ _
  case park => exact askPark_composing _ _
  case queu => exact askQueu_composing _ _ _
  case airp => exact askAirp_composing _ _
  case next => exact askNext_composing _ _
  case offa => exact askOffa_composing _ _
  case unqu => exact askUnqu_composing _ _
  case move => exact (askMove_quiet _ _ _).composing
  case rlse => exact askRlse_composing _ _
  case loop => exact askLoop_composing _ _ _
  case lend => exact askLend_composing _ _
  case prst => exact askPrst_composing _ _
  case sknd => exact (askSknd_quiet _ _ _).composing
  case join => exact askJoin_composing _ _ _
  case leav => exact askLeav_composing _ _
  case lstn => exact (askLstn_quiet _ _ _).composing
  case gain => exact askGain_composing _ _ _ _ _
  case talk => exact askTalk_composing _ _ _ _ _
  case tend => exact askTend_composing _ _ _
  case stlk => exact askStlk_composing _ _ _ _ _
  case take => exact askTake_composing _ _
  case give => exact askGive_composing _ _ _
  case keep => exact (askKeep_quiet _ _ _).composing
  case tcan => exact (askTcan_quiet _ _).composing
  case lock => exact (askLock_quiet _ _).composing
  case ulck => exact (askUlck_quiet _ _).composing
  case away => exact askAway_composing _ _
  case sreg => exact (askSreg_quiet _ _ _ _ _ _ _ _ _ _).composing
  case lreg => exact (askLreg_quiet _ _).composing
  case rdrg => exact (quiet_of_state (askRdrg_sameBase _ _ _)).composing
  case sprt => exact (askSprt_quiet _ _ _ _).composing
  case ssrc => exact askSsrc_composing _ _ _
  case shld => exact askShld_composing _ _ _
  case splt => exact (askSplt_quiet _ _).composing
  case sflr => exact askSflr_composing _ _ _
  case stim => exact (askStim_quiet _ _ _ _ _ _ _ _).composing
  case spat => exact (askSpat_quiet _ _ _ _ _ _ _ _).composing
  case emsk => exact (askEmsk_quiet _ _).composing
  case ftch => exact (askFtch_quiet _ _).composing
  case atcf => exact (askAtcf_quiet _ _ _).composing
  case lrst => exact askLrst_composing _
  case idnt => exact (quiet_of_state fun _ => rfl).composing
  case rdpy => exact (askRdpy_quiet _ _).composing
  case rdqu => exact (quiet_of_state (askRdqu_same _ _)).composing
  case rdrt => exact (askRdrt_quiet _ _ _).composing
  case rdpt => exact (quiet_of_state fun _ => rfl).composing

theorem askRequest_composing (k : Link) (r : Request) : composing (askRequest k r) := by
  intro d s h
  rcases askRequest_cases k r s with ⟨st, e⟩ | ⟨c, ask, hc, e⟩
  · rw [e]
    exact refuse_composes st
  · rw [e]
    exact asked_composing hc d s h

/-! ### The ports, the monitor and the timers leave RMIX as it is -/

section
variable (s : State) (x : PortId) (p : Party)

@[simp] theorem State.syncFound_rmix : (s.syncFound x).rmix = s.rmix := by
  unfold State.syncFound
  dsimp only
  split <;> simp

@[simp] theorem State.syncLost_rmix (cause : LossCause) : (s.syncLost x cause).rmix = s.rmix := by
  unfold State.syncLost
  dsimp only
  split <;> simp

@[simp] theorem State.misaligned_rmix (cause : LossCause) : (s.misaligned x cause).rmix = s.rmix := by
  unfold State.misaligned
  dsimp only
  repeat' split
  all_goals simp

@[simp] theorem State.alignedFrame_rmix : (s.alignedFrame x).rmix = s.rmix := by
  unfold State.alignedFrame
  dsimp only
  repeat' split
  all_goals simp

@[simp] theorem State.monitorFrame_rmix (bits : BitVec 512) : (s.monitorFrame x bits).rmix = s.rmix :=
  foldl_keeps (fun t => t.rmix) (fun (t : State) p => t.monitorWord p (lineWord bits (slotIndexOf p)))
    (fun t p => by rw [State.monitorWord_eq]) _ s

@[simp] theorem State.inboundFrame_rmix (bits : BitVec 512) : (s.inboundFrame x bits).rmix = s.rmix := by
  have latched : ∀ t : State, (t.latch x bits).edge.rmix = t.rmix := fun t => State.setPort_rmix t x _
  unfold State.inboundFrame
  rw [latched]
  repeat' split
  all_goals simp

@[simp] theorem State.clockMissed_rmix : s.clockMissed.rmix = s.rmix :=
  foldl_keeps (fun t => t.rmix) (fun (t : State) y => if (s.port y).sync = .locked then t.misaligned y .clock else t)
    (fun t y => by split <;> simp) _ s

@[simp] theorem State.qualifyBy_rmix (e : Pattern) : (s.qualifyBy p e).rmix = s.rmix := by rw [State.qualifyBy_eq]

end

/-! ### The ramps drop ingredients and rename none -/

theorem Ingredient.advance_ident {i j : Ingredient} {ms : Nat} (h : i.advance ms = some j) : j.ident = i.ident := by
  unfold Ingredient.advance at h
  dsimp only at h
  split at h <;> cases h
  unfold Ingredient.swap
  dsimp only
  split <;> [split; skip] <;> rfl

theorem Ingredient.complete_ident {i j : Ingredient} {ms : Nat} (h : i.complete ms = some j) : j.ident = i.ident := by
  unfold Ingredient.complete at h
  split at h
  · cases h
    rfl
  · dsimp only at h
    split at h <;> cases h
    unfold Ingredient.swap
    dsimp only
    split <;> [split; skip] <;> rfl

/-- A list filtered by a change that renames nothing. -/
theorem filterMap_ident_sublist {f : Ingredient → Option Ingredient} (h : ∀ i j, f i = some j → j.ident = i.ident)
    (is : List Ingredient) : ((is.filterMap f).map fun i => i.ident).Sublist (is.map fun i => i.ident) := by
  induction is with
  | nil => exact List.Sublist.refl _
  | cons i is ih =>
    rcases e : f i with _ | j
    · rw [List.filterMap_cons_none e]
      exact ih.cons _
    · rw [List.filterMap_cons_some e, List.map_cons, List.map_cons, h i j e]
      exact ih.cons_cons _

section
variable {d : Prop} (s : State)

theorem State.audioFrame_composes : s.composes d s.audioFrame := State.composes_of_sublist fun p => by
  rw [State.audioFrame_ret]
  exact filterMap_ident_sublist (fun _ _ => Ingredient.advance_ident) _

theorem State.completeRamp_composes (r : RampRef) : s.composes d (s.completeRamp r) := by
  cases r with
  | ingredient p i =>
    refine State.composes_of_sublist fun q => ?_
    by_cases e : q = p
    · subst e
      rw [State.completeRamp_ret, if_pos rfl]
      refine filterMap_ident_sublist (fun j l h => ?_) _
      split at h
      · exact Ingredient.complete_ident h
      · cases h
        rfl
    · rw [State.completeRamp_ret, if_neg e]
  | cue k side => exact State.composes_of_returns rfl
  | cueMember k side q => exact State.composes_of_returns rfl

end

end Sys2Proof.Machine

namespace Sys2Proof.Machine

/-! ### Every command composes the returns -/

section
variable {d : Prop} {s : State} (h : d → s.placed)
include h

theorem Answer.deliver_composes {ask : State → Answer} (ha : composing ask) (k : Link) (tag code : Byte) :
    s.composes d ((ask s).deliver k tag code) := (ha d s h).trans (State.composes_of_rmix rfl)

theorem State.takeRequests_composes (k : Link) (n : Nat) : s.composes d (s.takeRequests k n) := by
  induction n generalizing s with
  | zero => exact s.composes_refl
  | succ n ih =>
    unfold State.takeRequests
    split
    · exact s.composes_refl
    · split
      · rename_i r rest _ _
        have taken : d → (s.modLink k fun l => { l with requests := rest }).placed := h
        refine State.composes.trans (State.composes_of_rmix rfl) ((Answer.deliver_composes taken (askRequest_composing k r) k _ _).trans
          (ih fun hd => ⟨(askRequest_keepsPlacesLaw k r _ (taken hd).1).deliver k _ _,
            (askRequest_keepsGroupLaw k r _ (taken hd).2).deliver k _ _⟩))
      · exact s.composes_refl

theorem State.acceptFrame_composes (k : Link) (r : Request) : s.composes d (s.acceptFrame k r) := by
  unfold State.acceptFrame
  split
  · exact Answer.deliver_composes h (askLrst_composing k) k _ _
  · split
    · exact State.composes.trans (State.composes_of_rmix rfl) (State.takeRequests_composes (s := s.modLink k _) h k _)
    · exact State.composes_of_rmix rfl

theorem State.graceExpired_composes (x : PortId) : s.composes d (s.graceExpired x) := by
  refine State.composes.trans (State.composes_of_rmix (by simp)) (composes_foldl State.placed State.portFailure
    (fun t p ht => ⟨State.portFailure_composes ht p, fun hd => ⟨(ht hd).1.portFailure p, (ht hd).2.portFailure p⟩⟩) _ fun hd => ?_)
  exact (h hd).kept ((State.sameGroups_of_eq (by simp) (by simp)).samePlaces (by simp)) (State.sameGroups_of_eq (by simp) (by simp))

theorem State.takeMeaning_composes (p : Party) (m : Meaning) : s.composes d (s.takeMeaning p m) := by
  cases m
  case seize =>
    show s.composes d (s.seized p)
    unfold State.seized
    split
    case h_1 | h_2 => exact State.toAlerting_composes h p
    all_goals exact s.composes_refl
  case onhook =>
    show s.composes d (s.onhook p)
    unfold State.onhook
    split
    case h_8 | h_9 => exact s.composes_refl
    all_goals exact State.toVacant_composes h p _
  case flash =>
    show s.composes d (s.flashed p)
    unfold State.flashed
    split
    · exact State.composes_of_rmix (by simp)
    · exact s.composes_refl
  case fault =>
    show s.composes d (s.faulted p)
    unfold State.faulted
    split
    · exact s.composes_refl
    · exact State.toFault_composes h p _

theorem State.clearExpired_composes (p : Party) : s.composes d (s.clearExpired p) := by
  unfold State.clearExpired
  split
  case h_1 => exact State.toVacant_composes h p _
  case h_2 => exact State.composes_of_rmix rfl
  all_goals exact s.composes_refl

omit h in
theorem State.orphan_composes (p : Party) (cause : Nat) : s.composes d (s.orphan p cause) :=
  State.composes_of_rmix (by simp [State.orphan])

theorem State.parkExpired_composes (p : Party) (o : Link) : s.composes d (s.parkExpired p o) := by
  have granted := State.grantHandover_composes h p Result.timeoutGranted Cause.timeout
  unfold State.parkExpired State.parkHandover
  repeat' split
  case isTrue | isFalse.isFalse.isFalse => exact s.orphan_composes p _
  case isFalse.isTrue => exact State.composes_of_rmix (by simp [State.remind])
  case isFalse.isFalse.isTrue.isTrue => exact granted
  case isFalse.isFalse.isTrue.isFalse => exact granted.trans (State.composes_of_rmix rfl)

/-- Every command composes the returns. -/
theorem exec_composes {c : Instr} {t : State} (e : exec c s = .next t) : s.composes d t := by
  rcases ha : asked c with _ | ⟨k, tag, code, ask⟩
  case some =>
    rw [exec_asked ha] at e
    cases e
    exact Answer.deliver_composes h (asked_composing ha) k tag code
  cases c <;> try (cases ha; done)
  case powerOnReset =>
    cases e
    exact State.composes_of_sublist fun p => by simp
  case linkFrameReceived k f =>
    simp only [exec, execLinkFrameReceived] at e
    split at e <;> cases e
    · exact State.acceptFrame_composes h k _
    · exact s.composes_refl
  case responseSent k =>
    simp only [exec, execResponseSent] at e
    split at e <;> cases e
    · exact s.composes_refl
    · exact State.composes.trans (State.composes_of_rmix rfl) (State.takeRequests_composes (s := s.modLink k _) h k _)
  case audioFrame => cases e; exact s.audioFrame_composes
  case rampComplete r => cases e; exact s.completeRamp_composes r
  case inboundFrame x bits =>
    simp only [exec, execInboundFrame] at e
    split at e <;> cases e
    · exact State.composes_of_rmix rfl
    · exact State.composes_of_rmix (by simp)
  case missingClockCheck => cases e; exact State.composes_of_rmix s.clockMissed_rmix
  case syncFound x => cases e; exact State.composes_of_rmix (by simp)
  case syncLost x cause => cases e; exact State.composes_of_rmix (by simp)
  case graceTimerExpiry x =>
    simp only [exec, execGraceTimerExpiry] at e
    split at e <;> cases e
    · exact State.graceExpired_composes h x
    · exact s.composes_refl
  case qualify p i =>
    simp only [exec, execQualify] at e
    split at e <;> cases e
    · exact State.composes_of_rmix (by simp)
    · exact s.composes_refl
  case signalReport p m =>
    have taken : s.composes d (s.takeReport p m) := State.composes_of_rmix rfl
    simp only [exec, execSignalReport] at e
    split at e <;> cases e
    · exact taken.trans (State.takeMeaning_composes (s := s.takeReport p m)
        (fun hd => (h hd).kept (State.samePlaces_refl s) (State.sameGroups_of_eq rfl rfl)) p m)
    · exact taken
  case realertTimerExpiry p =>
    simp only [exec, execRealertTimerExpiry] at e
    split at e <;> cases e
    · exact State.composes_of_rmix (by simp [State.realert])
    · exact s.composes_refl
  case clearTimerExpiry p =>
    simp only [exec, execClearTimerExpiry] at e
    split at e <;> cases e
    · exact State.clearExpired_composes h p
    · exact s.composes_refl
  case oneSecondMark => cases e; exact State.composes_of_rmix rfl
  case parkTimerExpiry p =>
    simp only [exec, execParkTimerExpiry] at e
    split at e <;> cases e
    · exact State.parkExpired_composes h p _
    · exact s.composes_refl
  case grantTimerExpiry p =>
    simp only [exec, execGrantTimerExpiry] at e
    split at e <;> cases e
    · exact State.grantHandover_composes h p _ _
    · exact s.composes_refl
  case shortWordClockPeriod => cases e; exact State.composes_of_rmix s.clockMissed_rmix
  case resetAsserted => cases e; exact State.composes_of_rmix rfl

theorem step_composes {t : State} (e : step s = .next t) : s.composes d t := by
  unfold step at e
  split at e
  · rename_i c rest _
    exact State.composes.trans (State.composes_of_rmix rfl) (exec_composes (s := { s with pending := rest }) h e)
  · unfold State.idle at e
    split at e
    · exact exec_composes h e
    · cases e
      exact State.composes_of_rmix rfl

end

/-- Settles O55: a recomputation joins only what a feed or a talk path names, in its place. No feed names the party's own input,
and where the places and the groups are lawful each feed names every identity once. -/
theorem noPartyHearsItself : Obligations.NoPartyHearsItself :=
  ⟨fun _ _ hs e => (step_composes (d := False) False.elim e).returnLaw hs,
    fun _ _ hp hg hl e => (step_composes (d := True) (fun _ => ⟨hp, hg⟩) e).listLaw trivial hl⟩

end Sys2Proof.Machine

namespace Sys2Proof.Machine

/-! ### STIM -/

theorem rangeArg16_in {lo hi : Nat} {w : Word16} (h : lo ≤ w.toNat ∧ w.toNat ≤ hi) : rangeArg16 lo hi w = some w.toNat := if_pos h

theorem rangeArg_in {lo hi : Nat} {b : Byte} (h : lo ≤ b.toNat ∧ b.toNat ≤ hi) : rangeArg lo hi b = some b.toNat := if_pos h

/-- A byte takes a number modulo 256. -/
theorem byte_mod (n : Nat) : byte (n % 256) = byte n := BitVec.eq_of_toNat_eq (by simp [byte])

theorem bytes16_eq (n : Nat) : bytes16 n = [byte (n / 256), byte (n % 256)] := by simp only [bytes16, byte_mod]

theorem exec_stim (k : Link) (tag nprk tgiv : Byte) (ramp datk drel talr tprk : Word16) (s : State) :
    exec (.stim k tag ramp datk drel talr tprk nprk tgiv) s
      = .next ((askStim k ramp datk drel talr tprk nprk tgiv s).deliver k tag 0x35) := rfl

/-- Settles O39: the seven values are read together, so that one out of range leaves none to write. -/
theorem stimWritesItsSevenValues : Obligations.StimWritesItsSevenValues := by
  intro tag nprk tgiv ramp datk drel talr tprk s
  refine ⟨fun hr ha hd hl hp hn hg => ⟨_, ?_, rfl⟩, fun h k => ?_⟩
  · have inRange : timesArg ramp datk drel talr tprk nprk tgiv = some {
        ramp := ramp.toNat, datk := datk.toNat, drel := drel.toNat, talr := talr.toNat, tprk := tprk.toNat,
        nprk := nprk.toNat, tgiv := tgiv.toNat } := by
      simp only [timesArg, rangeArg16_in ⟨Nat.zero_le _, hr⟩, rangeArg16_in ⟨Nat.zero_le _, ha⟩, rangeArg16_in ⟨Nat.zero_le _, hd⟩,
        rangeArg16_in hl, rangeArg16_in hp, rangeArg_in ⟨Nat.zero_le _, hn⟩, rangeArg_in hg]
    simp [exec_stim, askStim, inRange, timesData, bytes16_eq, byte_toNat]
  · have outOfRange : timesArg ramp datk drel talr tprk nprk tgiv = none := by
      unfold timesArg
      split
      · rename_i ea eb ec ed ee ef eg
        simp only [rangeArg16, rangeArg, Option.ite_none_right_eq_some] at ea eb ec ed ee ef eg
        omega
      · rfl
    rw [exec_stim, askStim, outOfRange]

end Sys2Proof.Machine

namespace Sys2Proof.Machine

/-! ### What an active entry leaves of a feed gain -/

/-- Only the depth FULL lowers a gain to OFF (R87). -/
theorem Depth.lower_ne_off {d : Depth} (h : d ≠ .full) (g : Int) : d.lower g ≠ .off := by
  cases d <;> simp_all [Depth.lower]

section
variable (s : State) (a : Duck) (i : Ident)

theorem State.underTalk_none (g : Gain) : s.underTalk none i g = g := rfl

theorem State.underTalk_half (h : Int) : s.underTalk (some a) i (.half h) = a.depth.lower h := rfl

theorem State.underTalk_off : s.underTalk (some a) i .off = if i = .talk a.link then s.talkGain a.link else .off := rfl

end

/-- A source, or none, is answered by the byte that it was read from. -/
theorem sourceByte_of_arg {b : Byte} {src : Option Source} (h : sourceOrNoneArg b = some src) : sourceByte src = b := by
  unfold sourceOrNoneArg at h
  split at h
  · rename_i hb
    cases h
    exact hb.symm
  · obtain ⟨n, hn, rfl⟩ := Option.map_eq_some_iff.1 h
    unfold sourceArg numberArg at hn
    split at hn <;> cases hn
    exact byte_toNat b

/-! ### What the reports of feeds leave -/

theorem State.reportFeeds_cues (s : State) (ps : List Party) : (s.reportFeeds ps).rmix.cues = s.rmix.cues :=
  foldl_keeps (fun t => t.rmix.cues) State.retargetFeed (fun _ _ => rfl) ps s

/-- Only TARB's report changes the active entry that RMIX keeps (R85). -/
theorem State.reportFeeds_active (s : State) (ps : List Party) (q : Party) :
    ((s.reportFeeds ps).ret q).active = (s.ret q).active := by
  refine foldl_keeps (fun t => (t.ret q).active) State.retargetFeed (fun t p => ?_) ps s
  by_cases e : q = p
  · rw [e, State.retargetFeed_ret]
  · exact congrArg Return.active (State.reportFeeds_ret [p] t q (by simpa using e))

/-! ### SHLD -/

section
variable {s : State} {src : Option Source} {g : Gain}

theorem State.setHold_same (hs : s.rmix.holdSource = src) (hg : s.rmix.holdGain = g) : s.setHold src g = s := if_pos ⟨hs, hg⟩

/-- RMIX with new hold values, before the PARKED parties' returns are recomputed (R83). -/
def State.holding (s : State) (src : Option Source) (g : Gain) : State :=
  { s with rmix := { s.rmix with holdSource := src, holdGain := g } }

/-- The parties whose feed is the hold source (R80). -/
def State.parkedParties (s : State) : List Party := allParties.filter fun p => (s.party p).state == .parked

theorem State.mem_parkedParties {p : Party} : p ∈ s.parkedParties ↔ (s.party p).state = .parked := by
  simp [State.parkedParties, allParties]

theorem State.setHold_changed (h : s.rmix.holdSource ≠ src ∨ s.rmix.holdGain ≠ g) :
    s.setHold src g = (s.holding src g).reportFeeds s.parkedParties := if_neg (by tauto)

variable (s src g)

theorem State.setHold_form : s.setHold src g = { s with rmix := (s.setHold src g).rmix } := by
  by_cases h : s.rmix.holdSource = src ∧ s.rmix.holdGain = g
  · rw [State.setHold_same h.1 h.2]
  · rw [State.setHold_changed (not_and_or.1 h), State.reportFeeds_form]
    rfl

/-- What SHLD leaves of RMIX beside the ingredients: the new hold values, and the cues, the samples and the active entries as they
were. -/
theorem State.setHold_rmix : (s.setHold src g).rmix.holdSource = src ∧ (s.setHold src g).rmix.holdGain = g
    ∧ (s.setHold src g).rmix.cues = s.rmix.cues ∧ (s.setHold src g).rmix.lastReturns = s.rmix.lastReturns := by
  by_cases h : s.rmix.holdSource = src ∧ s.rmix.holdGain = g
  · rw [State.setHold_same h.1 h.2]
    exact ⟨h.1, h.2, rfl, rfl⟩
  · rw [State.setHold_changed (not_and_or.1 h)]
    simp [State.holding, State.reportFeeds_cues]

theorem State.setHold_ret {p : Party} (hp : (s.party p).state ≠ .parked) : (s.setHold src g).ret p = s.ret p := by
  by_cases h : s.rmix.holdSource = src ∧ s.rmix.holdGain = g
  · rw [State.setHold_same h.1 h.2]
  · rw [State.setHold_changed (not_and_or.1 h)]
    exact State.reportFeeds_ret _ _ _ fun hm => hp (State.mem_parkedParties.1 hm)

end

/-- The gain of an identity in the hold feed, whose one source is the hold source (R80). -/
def holdFeedGain (src : Option Source) (g : Gain) (i : Ident) : Gain := if src.map Ident.source = some i then g else .off

section
variable (src : Option Source) (g : Gain)

theorem holdFeedGain_source (n : Source) : holdFeedGain src g (.source n) = if src = some n then g else .off := by
  cases src <;> simp [holdFeedGain]

theorem holdFeedGain_talk (j : Link) : holdFeedGain src g (.talk j) = .off := by cases src <;> simp [holdFeedGain]

theorem holdFeedGain_party (q : Party) : holdFeedGain src g (.party q) = .off := by cases src <;> simp [holdFeedGain]

end

/-- What a PARKED party hears: the hold source at the hold gain and no other feed, under the active entry (R83, R87). -/
theorem State.targetOf_parked {s : State} {p : Party} (h : (s.party p).state = .parked) (i : Ident) :
    s.targetOf p i = s.underTalk (s.ret p).active i (holdFeedGain s.rmix.holdSource s.rmix.holdGain i) := by
  have feed : s.feedGain p i = holdFeedGain s.rmix.holdSource s.rmix.holdGain i := by
    unfold State.feedGain
    rw [h]
    by_cases e : i = .party p
    · rw [if_pos e, e, holdFeedGain_party]
    · rw [if_neg e]
      rfl
  rw [State.targetOf, feed]

section
variable {s : State} {src : Option Source} {g : Int}

/-- A hold value that changes reaches the return of every PARKED party (R83). -/
theorem State.setHold_hears (h : s.rmix.holdSource ≠ src ∨ s.rmix.holdGain ≠ .half g) {p : Party}
    (hp : (s.party p).state = .parked) : (s.setHold src (.half g)).hears p := by
  rw [State.setHold_changed h]
  refine State.reportFeeds_hears _ (s.holding src (.half g)) p (fun e => ?_) (fun e => absurd (hp.symm.trans e) (by decide))
    (State.mem_parkedParties.2 hp)
  rcases e with e | e <;> exact absurd (hp.symm.trans e) (by decide)

theorem State.setHold_active (s : State) (src : Option Source) (g : Gain) (p : Party) :
    ((s.setHold src g).ret p).active = (s.ret p).active := by
  by_cases h : s.rmix.holdSource = src ∧ s.rmix.holdGain = g
  · rw [State.setHold_same h.1 h.2]
  · rw [State.setHold_changed (not_and_or.1 h), State.reportFeeds_active]
    rfl

theorem exec_shld (k : Link) (tag b d : Byte) (s : State) :
    exec (.shld k tag b d) s = .next ((askShld k b d s).deliver k tag 0x32) := rfl

theorem askShld_accepts {b d : Byte} {s : State} (hb : sourceOrNoneArg b = some src) (hd : gainArg d = some (.half g)) :
    askShld s.supervisor b d s = accept (s.setHold src (.half g)) [b, d] := by
  simp only [askShld, hb, hd, sourceByte_of_arg hb, gainCode_of_gainArg hd, ne_eq, not_true_eq_false, if_false]

/-- What a PARKED party hears once SHLD has changed a hold value (R83, R87). -/
theorem State.setHold_targets (h : s.rmix.holdSource ≠ src ∨ s.rmix.holdGain ≠ .half g) {p : Party} (hp : (s.party p).state = .parked) :
    (∀ i ∈ ((s.setHold src (.half g)).ret p).ingredients,
        i.level.target = s.underTalk (s.ret p).active i.ident (holdFeedGain src (.half g) i.ident))
      ∧ ∀ i, s.underTalk (s.ret p).active i (holdFeedGain src (.half g) i) ≠ .off →
          ∃ j ∈ ((s.setHold src (.half g)).ret p).ingredients, j.ident = i := by
  obtain ⟨source, gain, -, -⟩ := State.setHold_rmix s src (.half g)
  have form := State.setHold_form s src (.half g)
  have talk (a : Option Duck) (i : Ident) (f : Gain) : (s.setHold src (.half g)).underTalk a i f = s.underTalk a i f := by
    rw [form]
    rfl
  have goal (i : Ident) : (s.setHold src (.half g)).targetOf p i
      = s.underTalk (s.ret p).active i (holdFeedGain src (.half g) i) := by
    rw [State.targetOf_parked (by rw [form]; exact hp), source, gain, State.setHold_active, talk]
  simpa only [State.hears, goal] using State.setHold_hears h hp

end

/-- Settles O38: the report of a hold value recomputes the return of every PARKED party to the hold source under the active
entry. -/
theorem shldSetsTheHoldFeed : Obligations.ShldSetsTheHoldFeed := by
  intro tag b d src g s hb hd
  obtain ⟨source, gain, cues, samples⟩ := State.setHold_rmix s src (.half g)
  refine ⟨s.setHold src (.half g), by rw [exec_shld, askShld_accepts hb hd], State.setHold_form s src (.half g), source, gain, cues,
    samples, fun p => State.setHold_ret s src (.half g), State.setHold_same, fun p hp h => ⟨State.setHold_active _ _ _ _, ?_, ?_⟩⟩
  all_goals obtain ⟨target, present⟩ := State.setHold_targets h hp
  · intro none
    simp only [none, State.underTalk_none] at target present
    refine ⟨fun i hi n e => ?_, fun i hi ne => ?_, fun n e => present (.source n) ?_⟩
    · rw [target i hi, e, holdFeedGain_source]
    · rw [target i hi]
      match e : i.ident with
      | .source n => exact absurd e (ne n)
      | .talk j => exact holdFeedGain_talk _ _ _
      | .party q => exact holdFeedGain_party _ _ _
    · simp [holdFeedGain_source, e]
  · intro a active
    rw [active] at target present
    refine ⟨fun i hi n e => ?_, fun i hi j e => ?_, fun i hi q e => ?_, fun n e full => present (.source n) ?_,
      fun off => present (.talk a.link) ?_⟩
    · rw [target i hi, e, holdFeedGain_source]
      split
      · rfl
      · rw [State.underTalk_off, if_neg nofun]
    · rw [target i hi, e, holdFeedGain_talk, State.underTalk_off]
      by_cases m : j = a.link <;> simp [m]
    · rw [target i hi, e, holdFeedGain_party, State.underTalk_off, if_neg nofun]
    · rw [holdFeedGain_source, if_pos e, State.underTalk_half]
      exact Depth.lower_ne_off full g
    · rwa [holdFeedGain_talk, State.underTalk_off, if_pos rfl]

end Sys2Proof.Machine

namespace Sys2Proof.Machine

/-! ### The feed of a PARKED or QUEUED party -/

section
variable {s : State} {p : Party} {w : Wanted}

theorem State.mix_notTalk {x : Studio} (h : w ∈ s.mix x) (j : Link) : w.ident ≠ .talk j := by
  rcases List.mem_append.1 h with h | h
  · obtain ⟨n, -, h⟩ := List.mem_filterMap.1 h
    split at h
    · split at h <;> cases h
      nofun
    · cases h
  · obtain ⟨o, -, h⟩ := List.mem_filterMap.1 h
    split at h <;> cases h
    nofun

theorem State.holdFeed_notTalk (h : w ∈ s.holdFeed) (j : Link) : w.ident ≠ .talk j := by
  unfold State.holdFeed at h
  split at h
  · rw [List.mem_singleton.1 h]
    nofun
  · cases h

/-- Only SCREENING puts a talk path into a feed; here, of PARKED and QUEUED parties (R80, R81, R83). -/
theorem State.feed_notTalk (hp : (s.party p).state = .parked ∨ (s.party p).state = .queued) (h : w ∈ s.feed p) (j : Link) :
    w.ident ≠ .talk j := by
  unfold State.feed at h
  rcases hp with hp | hp <;> rw [hp] at h
  · exact State.holdFeed_notTalk h j
  · dsimp only at h
    split at h
    · exact State.mix_notTalk (List.mem_of_mem_filter h) j
    · cases h

end

/-! ### A return whose active entry changes -/

/-- The targets of the return that TARB reports a new active entry for: each feed gain under that entry (R85, R87). -/
theorem State.reworkActive_targets {s : State} {p : Party} {a : Option Duck} (b : State) (own : Option Link)
    (entry : (s.activeEntry p).map TalkEntry.duck = a) (new : (s.ret p).active ≠ a) (hn : ((s.feed p).map fun w => w.ident).Nodup) :
    (∀ i ∈ ((s.reworkActive b p own).ret p).ingredients,
        i.level.target = s.underTalk a i.ident (wantedGain (s.feed p) i.ident))
      ∧ ∀ i, s.underTalk a i (wantedGain (s.feed p) i) ≠ .off →
          ∃ j ∈ ((s.reworkActive b p own).ret p).ingredients, j.ident = i := by
  let u := s.offerAll (activeOffers b s p own)
  have form : u = { s with links := u.links } := State.offerAll_form _ _
  have feed : u.feed p = s.feed p := State.sameFeeds.feed (by rw [form]; simp [State.sameFeeds, State.party]) p
  have talk (i : Ident) (g : Gain) : u.underTalk a i g = s.underTalk a i g := by
    rw [form]
    rfl
  have ret : ((s.reworkActive b p own).ret p).ingredients = u.recompute .active (s.feed p) (u.goals (s.feed p) a)
      (u.ret p).ingredients := by
    have still : (u.ret p).active ≠ (s.activeEntry p).map TalkEntry.duck := by
      rw [entry, form]
      exact new
    unfold State.reworkActive
    rw [if_neg still]
    simp only [State.retargetActive, State.setReturn_ret, if_pos, entry]
    rw [feed]
  have goal (i : Ident) := State.goalOf_goals u (s.feed p) a i hn
  simp only [talk] at goal
  rw [ret]
  refine ⟨fun i hi => ?_, fun i off => State.recompute_present u _ _ _ _ i (by rwa [(goal i).2])⟩
  rw [State.recompute_target u _ _ _ _ (goal i.ident).1 i hi, (goal i.ident).2]

/-! ### TALK to one party -/

section
variable {s : State} {k : Link} {p : Party} {e : TalkEntry}

theorem State.targetSet_party (s : State) (k : Link) (p : Party) : s.targetSet k (.party p) = [p] := by
  have one : allParties.count p = 1 := List.count_eq_one_of_mem (nodup_upTo 24) (by simp [allParties])
  unfold State.targetSet State.inTarget
  rw [List.filter_beq, one, List.replicate_one]

/-- The arrival that a TALK counts before it makes its entries (R109). -/
def State.arrived (s : State) : State := { s with tarb := { s.tarb with arrivals := s.tarb.arrivals + 1 } }

/-- The arrival and the first entry of a party, before TARB reports the entry (R109). -/
def State.withFirstEntry (s : State) (e : TalkEntry) (p : Party) : State := s.arrived.setTalkList p [e]

theorem State.talkTo_first (h : s.talkList p = []) : s.talkTo e [p]
    = ((s.withFirstEntry e p).reworkActive s.arrived p (some e.link)).ownerNamed e.link p := by
  have list : insertEntry e (withoutLink e.link (s.talkList p)) = [e] := by
    rw [h]
    rfl
  show s.arrived.makeEntry e p = _
  unfold State.makeEntry State.withFirstEntry
  rw [← list]
  rfl

theorem State.withFirstEntry_active (h : (s.party p).state ≠ .onAir) : (s.withFirstEntry e p).activeEntry p = some e := by
  have list : (s.withFirstEntry e p).talkList p = [e] := by
    unfold State.withFirstEntry
    rw [State.setTalkList_talkList, if_pos rfl]
  rw [State.activeEntry_offAir (s := s.withFirstEntry e p) h, list]
  rfl

/-- TALK_ACTIVE of a first entry goes to its link and to the party's owner (R116, R117). -/
theorem State.talkTo_first_offers (h : s.talkList p = []) (hp : (s.party p).state ≠ .onAir) : s.offersExactly (s.talkTo e [p])
    [{ event := talkEvent .talkActive p e e.priority (depthCode e.depth),
       receives := fun j => j == e.link || (s.party p).owner == some j }] := by
  have offers : activeOffers s.arrived (s.withFirstEntry e p) p (some e.link)
      = [talkOffer (s.party p).owner (s.party p).owner e.link (talkEvent .talkActive p e e.priority (depthCode e.depth))] := by
    unfold activeOffers
    rw [State.withFirstEntry_active hp, State.activeEntry_offAir (s := s.arrived) hp, show s.arrived.talkList p = [] from h]
    rfl
  intro j
  rw [State.talkTo_first h, State.link, State.ownerNamed_links, State.reworkActive_links, offers, talkOffer_sameOwner]
  exact State.offerAll_link _ _ j

theorem State.talkTo_first_ret (h : s.talkList p = []) (hp : (s.party p).state ≠ .onAir) (idle : (s.ret p).active = none)
    (hn : ((s.feed p).map fun w => w.ident).Nodup) :
    ((s.talkTo e [p]).ret p).active = some e.duck
      ∧ (∀ i ∈ ((s.talkTo e [p]).ret p).ingredients,
          i.level.target = s.underTalk (some e.duck) i.ident (wantedGain (s.feed p) i.ident))
      ∧ ∀ i, s.underTalk (some e.duck) i (wantedGain (s.feed p) i) ≠ .off →
          ∃ j ∈ ((s.talkTo e [p]).ret p).ingredients, j.ident = i := by
  have feed : (s.withFirstEntry e p).feed p = s.feed p :=
    State.sameFeeds.feed ⟨fun _ => ⟨rfl, rfl, rfl⟩, rfl, rfl, rfl, rfl, rfl⟩ p
  have entry : ((s.withFirstEntry e p).activeEntry p).map TalkEntry.duck = some e.duck := by
    rw [State.withFirstEntry_active hp]
    rfl
  have targets := State.reworkActive_targets s.arrived (some e.link) entry
    (by rw [show (s.withFirstEntry e p).ret p = s.ret p from rfl, idle]; nofun) (by rwa [feed])
  rw [feed] at targets
  rw [State.talkTo_first h]
  simp only [State.ret, State.ownerNamed_rmix]
  exact ⟨(State.reworkActive_active _ _ _ _).trans entry, targets⟩

end

theorem exec_talk (k : Link) (tag c d n dep : Byte) (s : State) :
    exec (.talk k tag c d n dep) s = .next ((askTalk k c d n dep s).deliver k tag 0x18) := rfl

theorem targetArg_party {d : Byte} {p : Party} (h : partyArg d = some p) : targetArg 0 d = some (.party p) := by
  simp [targetArg, h]

/-- TALK to a talkable party that the link may talk to makes its one entry there (R108, R109). -/
theorem askTalk_party {s : State} {k : Link} {d n dep : Byte} {p : Party} {depth : Depth} (hd : partyArg d = some p)
    (hn : n.toNat ≤ 7) (hdep : depthArg dep = some depth) (source : (s.settings k).source.isNone = false)
    (reach : s.talkReaches k p = true) :
    ∃ data, askTalk k 0 d n dep s = accept (s.talkTo (s.newEntry k n.toNat depth) [p]) data := by
  have reached : [p].filter (s.talkReaches k) = [p] := by simp [reach]
  simp only [askTalk, targetArg_party hd, rangeArg_in ⟨Nat.zero_le _, hn⟩, hdep, source, State.targetSet_party, reached,
    Bool.false_eq_true, if_false]
  exact ⟨_, rfl⟩

/-- Settles O28: the first entry of a list is the active one, and its report recomputes the return under its depth. -/
theorem talkIsHeardAndDucksTheFeed : Obligations.TalkIsHeardAndDucksTheFeed := by
  intro k tag d n dep p depth src h s hd hn hdep perm hp list idle source gain nodup
  have air : (s.party p).state ≠ .onAir := by rcases hp with hp | hp <;> simp [hp]
  have reach : s.talkReaches k p = true := by
    unfold State.talkReaches
    rcases hp with hp | hp <;> simp [hp, perm, PartyState.talkable]
  obtain ⟨data, asked⟩ := askTalk_party hd hn hdep (by rw [source]; rfl) reach
  obtain ⟨active, target, present⟩ := State.talkTo_first_ret (e := s.newEntry k n.toNat depth) list air idle nodup
  have talkGoal : s.underTalk (some (s.newEntry k n.toNat depth).duck) (.talk k) (wantedGain (s.feed p) (.talk k)) = .half h := by
    rw [wantedGain_absent fun w hw => State.feed_notTalk hp hw k, State.underTalk_off]
    simp [State.newEntry, TalkEntry.duck, State.talkGain, source, gain]
  have feedGoal (w : Wanted) (hw : w ∈ s.feed p) : s.underTalk (some (s.newEntry k n.toNat depth).duck) w.ident
      (wantedGain (s.feed p) w.ident) = depth.lower w.gain := by
    rw [wantedGain_mem nodup hw]
    rfl
  refine ⟨_, data, by rw [exec_talk, asked], active, fun i hi => ⟨fun e => ?_, fun w hw e => ?_, fun ne absent => ?_⟩,
    present (.talk k) (by rw [talkGoal]; nofun), fun w hw full => present w.ident ?_, State.talkTo_first_offers list air⟩
  · rw [target i hi, e, talkGoal]
  · rw [target i hi, ← e, feedGoal w hw]
  · rw [target i hi, wantedGain_absent absent]
    exact if_neg ne
  · rw [feedGoal w hw]
    exact Depth.lower_ne_off full _

end Sys2Proof.Machine

namespace Sys2Proof.Machine

/-! ### A talk path that takes the talk settings of its link -/

section
variable {i : Ingredient} {g : Goal} {j : Link} {ms : Nat}

/-- A level that leaves the applied gain for a target, as a retarget over a time makes it (R90). -/
def Level.leaving (l : Level) (target : Gain) (ms : Nat) : Level :=
  { target := target, applied := l.applied, ramp := { start := l.applied, len := ms * 48, done := 0, running := true } }

/-- A talk path that has fallen, or falls, to OFF goes on so while its target stays OFF. -/
theorem Ingredient.retarget_talk_keeps (h : i.ident = .talk j) (hg : g.target = .off) (hi : i.level.target = .off) :
    i.retarget g ms ms = i := by
  simp only [Ingredient.retarget, h, Ingredient.retargetTalk, if_pos hg, if_pos hi]

/-- A talk path that carries the new source takes its target without a dip (log entry 53). -/
theorem Ingredient.dipFalling_retarget_carries {src : Option Source} (h : i.ident = .talk j) (hd : i.dipTo = none)
    (ne : g.target ≠ i.level.target) (hg : g.target = .off ∨ g.carries = i.carries) (hc : src = i.carries) :
    (i.retarget g ms ms).dipFalling j src ms = { i with level := i.level.leaving g.target ms } := by
  rw [Ingredient.retarget_talk_takes i g j ms ms h hd ne hg, Ingredient.dipFalling_none _ _ _ _ (.inr (.inr (by simp [hd, hc])))]
  rfl

/-- A talk path dips to the source that its link's passes to, whatever its target becomes (R104, log entry 41). -/
theorem Ingredient.dipFalling_retarget_passes {a b : Source} (h : i.ident = .talk j) (hd : i.dipTo = none)
    (hc : i.carries = some a) (hg : g.target ≠ .off → g.carries = some b) (ab : a ≠ b) :
    (i.retarget g ms ms).dipFalling j (some b) ms = { i with level := i.level.leaving g.target ms, dipTo := some b } := by
  have other : (i.dipTo <|> i.carries) ≠ some b := by simpa [hd, hc] using ab
  by_cases off : g.target = .off
  · by_cases fallen : i.level.target = .off
    · rw [Ingredient.retarget_talk_keeps h off fallen, Ingredient.dipFalling, if_pos ⟨h, fallen, other⟩, off]
      simp only [fallen]
      rfl
    · rw [Ingredient.retarget_talk_takes i g j ms ms h hd (by rw [off]; exact Ne.symm fallen) (.inl off), Ingredient.dipFalling,
        if_pos ⟨h, off, other⟩]
      rfl
  · have dips : g.carries ≠ i.carries := by simpa [hg off, hc] using ab.symm
    rw [Ingredient.retarget_talk_dips i g j ms ms h hd off dips, Ingredient.dipFalling_none _ _ _ _ (.inr (.inl off)), hg off]
    rfl

end

/-- A return without a talk path of the link holds none that dips. -/
theorem map_dipFalling_of_absent {is : List Ingredient} {j : Link} (h : ∀ i ∈ is, i.ident ≠ .talk j) (src : Option Source) (ms : Nat) :
    (is.map fun i => i.dipFalling j src ms) = is := by
  rw [List.map_congr_left fun i hi => Ingredient.dipFalling_none i j src ms (.inl (h i hi)), List.map_id'']
  exact fun _ => rfl

/-! ### What a change of talk settings leaves -/

section
variable (s : State) (j : Link) (r : TalkSettings)

/-- TARB's report of changed talk settings, before the falling talk paths dip (R104). -/
def State.talkTold : State := (s.setSettings j r).reportFeeds (s.talkHolders j)

variable {s j r}

/-- STLK stores the settings, reports a changed source or gain, and lets the falling talk paths dip where the source passes. -/
theorem State.setTalk_cases {P : State → Prop} (same : (s.settings j).source = r.source ∧ (s.settings j).gain = r.gain →
      P (s.setSettings j r))
    (told : ¬ ((s.settings j).source = r.source ∧ (s.settings j).gain = r.gain) → P (s.talkTold j r))
    (dips : ¬ ((s.settings j).source = r.source ∧ (s.settings j).gain = r.gain) → P ((s.talkTold j r).dipFalling j r.source)) :
    P (s.setTalk j r) := by
  unfold State.setTalk
  dsimp only
  split
  · exact same ‹_›
  · split
    · exact dips ‹_›
    · exact told ‹_›

variable (s j r)

theorem State.setTalk_form : s.setTalk j r = { s.setSettings j r with rmix := (s.setTalk j r).rmix } :=
  State.setTalk_cases (P := fun t => t = { s.setSettings j r with rmix := t.rmix }) (fun _ => rfl)
    (fun _ => State.reportFeeds_form _ _)
    fun _ => congrArg (fun t : State => { t with rmix := ((s.talkTold j r).dipFalling j r.source).rmix }) (State.reportFeeds_form _ _)

theorem State.setTalk_settings (i : Link) : (s.setTalk j r).settings i = if i = j then r else s.settings i := by
  rw [← State.setSettings_settings, State.setTalk_form]
  rfl

theorem State.setTalk_frame :
    s.setTalk j r = { s with tarb := { s.tarb with settings := (s.setTalk j r).tarb.settings }, rmix := (s.setTalk j r).rmix } := by
  have settings : (s.setTalk j r).tarb.settings = (s.setSettings j r).tarb.settings := by
    rw [State.setTalk_form]
  rw [settings]
  exact State.setTalk_form s j r

theorem State.setTalk_sameHold : s.sameHold (s.setTalk j r) := by
  refine State.setTalk_cases (P := s.sameHold) (fun _ => ?_) (fun _ => ?_) fun _ => ?_ <;>
    simp [State.sameHold, State.talkTold]

theorem State.setTalk_cues : (s.setTalk j r).rmix.cues = s.rmix.cues :=
  State.setTalk_cases (P := fun t => t.rmix.cues = s.rmix.cues) (fun _ => rfl) (fun _ => State.reportFeeds_cues _ _)
    fun _ => State.reportFeeds_cues _ _

theorem State.setTalk_rmix_same (h : (s.settings j).source = r.source ∧ (s.settings j).gain = r.gain) :
    (s.setTalk j r).rmix = s.rmix := State.setTalk_cases (P := fun t => t.rmix = s.rmix) (fun _ => rfl) (absurd h) (absurd h)

theorem State.setTalk_active (p : Party) : ((s.setTalk j r).ret p).active = (s.ret p).active := by
  have told : ((s.talkTold j r).ret p).active = (s.ret p).active := State.reportFeeds_active _ _ _
  refine State.setTalk_cases (P := fun t => (t.ret p).active = (s.ret p).active) (fun _ => rfl) (fun _ => told) fun _ => ?_
  rw [State.dipFalling_ret]
  exact told

/-- The returns that the change does not concern stay (R85, R104). -/
theorem State.setTalk_ret {p : Party} (h : p ∉ s.talkHolders j) : (s.setTalk j r).ret p = s.ret p := by
  have told : (s.talkTold j r).ret p = s.ret p := State.reportFeeds_ret _ _ _ h
  refine State.setTalk_cases (P := fun t => t.ret p = s.ret p) (fun _ => rfl) (fun _ => told) fun _ => ?_
  rw [State.dipFalling_ret, told, map_dipFalling_of_absent]
  exact fun i hi e => h (State.mem_talkHolders.2 (.inr (.inr ⟨i, hi, e⟩)))

/-! ### What the returns hear afterwards -/

theorem State.setTalk_sameFeeds : (s.setSettings j r).sameFeeds (s.setTalk j r) := by
  have told : (s.setSettings j r).sameFeeds (s.talkTold j r) := State.reportFeeds_sameFeeds _ _
  exact State.setTalk_cases (P := (s.setSettings j r).sameFeeds) (fun _ => ⟨fun _ => ⟨rfl, rfl, rfl⟩, rfl, rfl, rfl, rfl, rfl⟩)
    (fun _ => told) fun _ => told

variable {s j r}

/-- A return that a changed source or gain concerns hears its feed with the new settings (R104). -/
theorem State.setTalk_hears (places : s.placesLaw) (groups : s.groupLaw)
    (changed : ¬ ((s.settings j).source = r.source ∧ (s.settings j).gain = r.gain)) {p : Party} (hp : p ∈ s.talkHolders j) :
    (s.setTalk j r).hears p := by
  have told : (s.talkTold j r).hears p := State.reportFeeds_hears _ _ _ (fun _ => places) (fun _ => groups) hp
  exact State.setTalk_cases (P := fun t => t.hears p) (fun same => absurd same changed) (fun _ => told)
    fun _ => (State.dipFalling_hears _ _ _ _).2 told

theorem State.setTalk_talkGain {k : Link} (h : k ≠ j ∨ ((s.settings j).source = r.source ∧ (s.settings j).gain = r.gain)) :
    (s.setTalk j r).talkGain k = s.talkGain k := by
  unfold State.talkGain
  rw [State.setTalk_settings]
  by_cases e : k = j
  · obtain ⟨source, gain⟩ := h.resolve_left (not_not_intro e)
    rw [if_pos e, e, source, gain]
  · rw [if_neg e]

/-- The feed law reads the talk gain of the owner of a SCREENING party and of the link of the active entry, of no other (R80, R87). -/
theorem State.setTalk_targetOf {p : Party} (h : p ∉ s.talkHolders j ∨ ((s.settings j).source = r.source ∧ (s.settings j).gain = r.gain))
    (i : Ident) : (s.setTalk j r).targetOf p i = s.targetOf p i := by
  have owner (hs : (s.party p).state = .screening) {k : Link} (ho : (s.party p).owner = some k) :
      (s.setSettings j r).talkGain k = s.talkGain k := by
    rw [← (State.setTalk_sameFeeds s j r).gains.2 k]
    exact State.setTalk_talkGain (h.imp_left fun hp e => hp (State.mem_talkHolders.2 (.inl ⟨hs, e ▸ ho⟩)))
  have entry {a : Duck} (ha : (s.ret p).active = some a) : (s.setTalk j r).talkGain a.link = s.talkGain a.link :=
    State.setTalk_talkGain (h.imp_left fun hp e => hp (State.mem_talkHolders.2 (.inr (.inl (by simp [ha, e])))))
  have feed : (s.setTalk j r).feedGain p i = s.feedGain p i := by
    rw [(State.setTalk_sameFeeds s j r).gains.1]
    unfold State.feedGain
    rw [show (s.setSettings j r).party p = s.party p from rfl]
    cases hs : (s.party p).state with
    | screening =>
      cases i with
      | talk k =>
        by_cases ho : (s.party p).owner = some k
        · simp only [owner hs ho]
        · simp only [if_neg ho]
      | source n => rfl
      | party q => rfl
    | _ => rfl
  unfold State.targetOf State.underTalk
  rw [State.setTalk_active, feed]
  cases ha : (s.ret p).active with
  | none => rfl
  | some a => simp only [entry ha]

theorem State.setTalk_keeps_hears {p : Party} (places : s.placesLaw) (groups : s.groupLaw) (h : s.hears p) :
    (s.setTalk j r).hears p := by
  by_cases concerned : p ∈ s.talkHolders j ∧ ¬ ((s.settings j).source = r.source ∧ (s.settings j).gain = r.gain)
  · exact State.setTalk_hears places groups concerned.2 concerned.1
  · have kept : p ∉ s.talkHolders j ∨ ((s.settings j).source = r.source ∧ (s.settings j).gain = r.gain) := by tauto
    have ret : (s.setTalk j r).ret p = s.ret p := by
      rcases kept with hp | same
      · exact State.setTalk_ret s j r hp
      · simp only [State.ret, State.setTalk_rmix_same s j r same]
    simpa only [State.hears, ret, State.setTalk_targetOf kept] using h

/-! ### The talk path itself -/

/-- What becomes of a talk path of the link where its source or its gain changes: it takes its goal, and dips where the source passes
(R104). -/
theorem State.setTalk_talkPath (places : s.placesLaw) (groups : s.groupLaw)
    (changed : ¬ ((s.settings j).source = r.source ∧ (s.settings j).gain = r.gain)) {p : Party} {i : Ingredient}
    (hi : i ∈ (s.ret p).ingredients) (ht : i.ident = .talk j) :
    ∃ g : Goal, g.target = (s.setTalk j r).targetOf p (.talk j) ∧ (g.target ≠ .off → g.carries = r.source)
      ∧ (if (s.settings j).passes r then (i.retarget g s.times.ramp s.times.ramp).dipFalling j r.source s.times.ramp
          else i.retarget g s.times.ramp s.times.ramp) ∈ ((s.setTalk j r).ret p).ingredients := by
  let u := s.setSettings j r
  let g := goalOf (u.goals (u.feed p) (s.ret p).active) (.talk j)
  have target : g.target = (s.setTalk j r).targetOf p (.talk j) := by
    obtain ⟨nodup, gain⟩ := u.feed_gain p (fun _ => places) fun _ => groups
    have gains := (State.setTalk_sameFeeds s j r).gains
    rw [(u.goalOf_goals (u.feed p) (s.ret p).active (.talk j) nodup).2, gain]
    unfold State.targetOf State.underTalk
    rw [State.setTalk_active, gains.1]
    simp only [gains.2]
    rfl
  have carries (off : g.target ≠ .off) : g.carries = r.source := by
    rw [State.goals_talk_carries off, State.setSettings_settings, if_pos rfl]
  have told : i.retarget g s.times.ramp s.times.ramp ∈ ((s.talkTold j r).ret p).ingredients := by
    rw [State.talkTold, State.reportFeeds_ret_mem _ (State.nodup_talkHolders s j) _ _
      (State.mem_talkHolders.2 (.inr (.inr ⟨i, hi, ht⟩))), State.retargetFeed_ret]
    exact (mem_foldl_insert _ _ _).2 (.inr (List.mem_map.2 ⟨i, hi, by rw [ht]; rfl⟩))
  refine ⟨g, target, carries, ?_⟩
  unfold State.setTalk
  simp only [if_neg changed]
  split
  · rw [State.dipFalling_ret]
    have times : (s.talkTold j r).times = s.times := by
      rw [State.talkTold, State.reportFeeds_form]
      rfl
    exact List.mem_map.2 ⟨_, told, by rw [← times]; rfl⟩
  · exact told

end

theorem exec_stlk (k : Link) (tag b c d n : Byte) (s : State) :
    exec (.stlk k tag b c d n) s = .next ((askStlk k b c d n s).deliver k tag 0x1A) := rfl

theorem askStlk_accepts {s : State} {b c d n : Byte} {j : Link} {src : Option Source} {g : Gain} (hb : linkArg b = some j)
    (hc : sourceOrNoneArg c = some src) (hd : gainArg d = some g) (hn : n.toNat ≤ 7) : askStlk s.supervisor b c d n s
      = accept (s.setTalk j { source := src, gain := g, maxPriority := n.toNat }) [c, d, n] := by
  simp only [askStlk, hb, hc, hd, rangeArg_in ⟨Nat.zero_le _, hn⟩, settingsData, sourceByte_of_arg hc, gainCode_of_gainArg hd,
    byte_toNat, ne_eq, not_true_eq_false, if_false]

/-- Talk settings pass where both have a source, and not the same. -/
theorem TalkSettings.passes_iff {old new : TalkSettings} :
    old.passes new = true ↔ ¬ (old.source = none ∨ new.source = none ∨ old.source = new.source) := by
  simp [TalkSettings.passes, Option.isSome_iff_ne_none, not_or, and_assoc]

/-- Settles O30: the report recomputes the returns that the settings concern, and each talk path of the link takes its goal there,
with a dip where the source passes. -/
theorem stlkSetsALinksTalkSettings : Obligations.StlkSetsALinksTalkSettings := by
  intro tag b c d n j src g s hb hc hd hn
  let r : TalkSettings := { source := src, gain := g, maxPriority := n.toNat }
  refine ⟨s.setTalk j r, by rw [exec_stlk, askStlk_accepts hb hc hd hn], by rw [State.setTalk_settings, if_pos rfl],
    fun i ne => by rw [State.setTalk_settings, if_neg ne], State.setTalk_frame s j r, State.setTalk_sameHold s j r,
    State.setTalk_cues s j r, fun source gain => State.setTalk_rmix_same s j r ⟨source, gain⟩,
    fun p out => State.setTalk_ret s j r (mt State.mem_talkHolders.1 out), State.setTalk_active s j r,
    fun places groups p => ⟨?_, ?_⟩⟩
  · rintro (⟨changed, concerned⟩ | heard)
    · exact State.setTalk_hears places groups (not_and_or.2 changed) (State.mem_talkHolders.2 concerned)
    · exact State.setTalk_keeps_hears places groups heard
  · intro changed i hi ht hd goal level
    obtain ⟨w, target, carries, mem⟩ := State.setTalk_talkPath (r := r) places groups (not_and_or.2 changed) hi ht
    replace target : w.target = goal := target
    refine ⟨fun ne taken => ?_, fun off fallen same => ?_, fun a b ha hs hsrc ab => ?_⟩
    · have own : w.target = .off ∨ w.carries = i.carries := by
        rcases taken with same | ⟨off, -⟩
        · exact or_iff_not_imp_left.2 fun off => (carries off).trans same
        · exact .inl (target.trans off)
      by_cases passes : (s.settings j).passes r = true
      · have same : src = i.carries := taken.resolve_right fun h => TalkSettings.passes_iff.1 passes h.2
        rw [if_pos passes, Ingredient.dipFalling_retarget_carries ht hd (target ▸ ne) own same, target] at mem
        exact mem
      · rw [if_neg passes, Ingredient.retarget_talk_takes i w j _ _ ht hd (target ▸ ne) own, target] at mem
        exact mem
    · rwa [if_neg (fun passes => TalkSettings.passes_iff.1 passes same), Ingredient.retarget_talk_keeps ht (target.trans off) fallen] at mem
    · have passes : (s.settings j).passes r = true := TalkSettings.passes_iff.2 (by simp [r, hs, hsrc, ab])
      rw [if_pos passes, show r.source = some b from hsrc, Ingredient.dipFalling_retarget_passes ht hd ha
        (fun off => (carries off).trans hsrc) ab, target] at mem
      exact mem

end Sys2Proof.Machine

namespace Sys2Proof.Machine

/-! ### An entry put in its place -/

/-- The place of an entry: behind every entry of its priority or a higher one (R106, R109). -/
theorem insertEntry_split (e : TalkEntry) (es : List TalkEntry) : ∃ l m, insertEntry e es = l ++ e :: m ∧ es = l ++ m
    ∧ (∀ x ∈ l, e.priority ≤ x.priority) ∧ ∀ x ∈ m.head?, x.priority < e.priority := by
  induction es with
  | nil => exact ⟨[], [], rfl, rfl, by simp, by simp⟩
  | cons f es ih =>
    by_cases h : f.priority < e.priority
    · exact ⟨[], f :: es, if_pos h, rfl, by simp, by simpa using h⟩
    · obtain ⟨l, m, hi, hes, hl, hm⟩ := ih
      exact ⟨f :: l, m, (if_neg h).trans (congrArg (f :: ·) hi), congrArg (f :: ·) hes,
        List.forall_mem_cons.2 ⟨Nat.le_of_not_lt h, hl⟩, hm⟩

/-! ### Work on the parties, one after the other -/

/-- Nothing but events offered, and the records, the talkback lists and the returns of the parties `ps`. -/
structure State.WorksOn (s t : State) (ps : List Party) : Prop where
  form : t = { s with parties := t.parties, tarb := { s.tarb with lists := t.tarb.lists }, links := t.links, rmix := t.rmix }
  offers : s.onlyOffers t
  hold : s.sameHold t
  cues : t.rmix.cues = s.rmix.cues
  party : ∀ {p}, p ∉ ps → t.party p = s.party p
  talkList : ∀ {p}, p ∉ ps → t.talkList p = s.talkList p
  ret : ∀ {p}, p ∉ ps → t.ret p = s.ret p

theorem State.WorksOn.refl (s : State) : s.WorksOn s [] :=
  ⟨rfl, s.onlyOffers_refl, ⟨rfl, rfl, rfl⟩, rfl, fun _ => rfl, fun _ => rfl, fun _ => rfl⟩

section
variable {s t u : State} {ps qs : List Party}

theorem State.WorksOn.trans (h : s.WorksOn t ps) (g : t.WorksOn u qs) : s.WorksOn u (ps ++ qs) := by
  obtain ⟨h1, h2, h3⟩ := h.hold
  obtain ⟨g1, g2, g3⟩ := g.hold
  refine ⟨?_, State.onlyOffers_trans h.offers g.offers, ⟨g1.trans h1, g2.trans h2, g3.trans h3⟩,
    g.cues.trans h.cues, ?_, ?_, ?_⟩
  · have form := g.form
    rw [h.form] at form
    exact form
  all_goals
    intro p hn
    obtain ⟨hp, hq⟩ := not_or.1 (mt List.mem_append.2 hn)
  · exact (g.party hq).trans (h.party hp)
  · exact (g.talkList hq).trans (h.talkList hp)
  · exact (g.ret hq).trans (h.ret hp)

theorem State.WorksOn.widen (h : s.WorksOn t ps) (hs : ps ⊆ qs) : s.WorksOn t qs :=
  ⟨h.form, h.offers, h.hold, h.cues, fun hp => h.party (hp <| hs ·), fun hp => h.talkList (hp <| hs ·),
    fun hp => h.ret (hp <| hs ·)⟩

theorem State.WorksOn.times (h : s.WorksOn t ps) : t.times = s.times := by rw [h.form]

theorem State.WorksOn.stud (h : s.WorksOn t ps) : t.stud = s.stud := by rw [h.form]

end

section
variable {f : State → Party → State} (hf : ∀ (s : State) (p : Party), s.WorksOn (f s p) [p])
include hf

theorem worksOn_foldl (ps : List Party) (s : State) : s.WorksOn (ps.foldl f s) ps := by
  induction ps generalizing s with
  | nil => exact State.WorksOn.refl s
  | cons p ps ih => exact (hf s p).trans (ih _)

/-- The turn of one party: whoever comes before it or after it leaves what is its own. -/
theorem worksOn_turn {ps : List Party} (hn : ps.Nodup) {p : Party} (hp : p ∈ ps) (s : State) :
    ∃ u l r, s.WorksOn u l ∧ p ∉ l ∧ (f u p).WorksOn (ps.foldl f s) r ∧ p ∉ r := by
  obtain ⟨l, r, rfl⟩ := List.append_of_mem hp
  obtain ⟨-, hr, hlr⟩ := List.nodup_append.1 hn
  refine ⟨l.foldl f s, l, r, worksOn_foldl hf l s, fun h => hlr p h p (by simp) rfl, ?_, (List.nodup_cons.1 hr).1⟩
  rw [List.foldl_append, List.foldl_cons]
  exact worksOn_foldl hf r _

end

theorem filter_allParties_nodup (g : Party → Bool) : (allParties.filter g).Nodup := (nodup_upTo 24).filter g

theorem mem_filter_allParties {g : Party → Bool} {p : Party} : p ∈ allParties.filter g ↔ g p = true := by
  simp [allParties]

/-! ### What TARB and HCTL do to one party -/

section
variable (s : State) (e : TalkEntry) (k : Link) (p : Party)

theorem State.reworkActive_cues (b : State) (own : Option Link) : (s.reworkActive b p own).rmix.cues = s.rmix.cues := by
  unfold State.reworkActive
  dsimp only
  split <;> simp [State.retargetActive, State.setReturn]

/-- A talkback list rewritten, and its active entry worked out afresh. -/
theorem State.rework_worksOn (b : State) (own : Option Link) (l : List TalkEntry) :
    s.WorksOn ((s.setTalkList p l).reworkActive b p own) [p] := by
  refine ⟨?_, (s.setTalkList p l).reworkActive_onlyOffers b p own, ⟨by simp, by simp, by simp⟩, ?_, fun _ => ?_,
    fun hq => ?_, fun hq => ?_⟩
  · conv => lhs; rw [State.reworkActive_form]
    simp [State.setTalkList]
  · rw [State.reworkActive_cues, State.setTalkList_rmix]
  · simp [State.party]
  · simp [State.talkList, State.setTalkList, mt List.mem_singleton.2 hq]
  · exact State.reworkActive_ret _ _ _ _ _ (mt List.mem_singleton.2 hq)

theorem State.ownerNamed_worksOn : s.WorksOn (s.ownerNamed k p) [p] := by
  refine ⟨?_, State.onlyOffers_of_links (by simp), ⟨by simp, by simp, by simp⟩, by simp, fun hq => ?_,
    fun _ => by simp [State.talkList], fun _ => by simp [State.ret]⟩
  · rw [s.ownerNamed_form]
  · rw [s.ownerNamed_party, if_neg (mt List.mem_singleton.2 hq)]

theorem State.makeEntry_worksOn : s.WorksOn (s.makeEntry e p) [p] :=
  ((s.rework_worksOn p s _ _).trans (State.ownerNamed_worksOn _ _ p)).widen (by simp)

theorem State.dropEntry_worksOn : s.WorksOn (s.dropEntry k p) [p] := s.rework_worksOn p s _ _

theorem State.makeEntry_talkList : (s.makeEntry e p).talkList p = insertEntry e (withoutLink e.link (s.talkList p)) := by
  simp [State.makeEntry, State.talkList, State.setTalkList]

theorem State.makeEntry_party : (s.makeEntry e p).party p = (s.party p).named e.link s.times.tprk := by
  rw [State.makeEntry, State.ownerNamed_party, if_pos rfl]
  simp [State.party]

theorem State.dropEntry_talkList : (s.dropEntry k p).talkList p = withoutLink k (s.talkList p) := by
  simp [State.dropEntry, State.talkList, State.setTalkList]

theorem State.dropEntry_party (q : Party) : (s.dropEntry k p).party q = s.party q := by simp [State.dropEntry, State.party]

end

/-! ### TALK to several parties -/

section
variable (s : State) (e : TalkEntry) {ps : List Party} {p : Party}

theorem State.talkTo_worksOn (ps : List Party) : s.arrived.WorksOn (s.talkTo e ps) ps :=
  worksOn_foldl (fun t p => t.makeEntry_worksOn e p) ps s.arrived

theorem State.talkTo_reached (hn : ps.Nodup) (hp : p ∈ ps) :
    (s.talkTo e ps).party p = (s.party p).named e.link s.times.tprk
      ∧ (s.talkTo e ps).talkList p = insertEntry e (withoutLink e.link (s.talkList p)) := by
  obtain ⟨u, l, r, before, hl, after, hr⟩ := worksOn_turn (fun t p => t.makeEntry_worksOn e p) hn hp s.arrived
  constructor
  · exact (after.party hr).trans (by rw [State.makeEntry_party, before.party hl, before.times]; rfl)
  · exact (after.talkList hr).trans (by rw [State.makeEntry_talkList, before.talkList hl]; rfl)

end

/-- An accepted TALK, its reached parties and its data (R108 to R110). -/
theorem askTalk_accepts {s : State} {k : Link} {b d n dep : Byte} {target : TalkTarget} {depth : Depth}
    (ht : targetArg b d = some target) (hn : n.toNat ≤ 7) (hd : depthArg dep = some depth)
    (source : (s.settings k).source.isSome = true) :
    let ps := (s.targetSet k target).filter (s.talkReaches k)
    let t := s.talkTo (s.newEntry k n.toNat depth) ps
    askTalk k b d n dep s = accept t (talkData s t k (s.targetSet k target) ps (s.newEntry k n.toNat depth)) := by
  have some' : (s.settings k).source.isNone = false := by simpa using source
  simp only [askTalk, ht, rangeArg_in ⟨Nat.zero_le _, hn⟩, hd, some', Bool.false_eq_true, if_false]

/-- Settles O27: each party reached has one turn, in which the entry takes its place in the list. -/
theorem talkPutsAnEntryOnEveryPartyItReaches : Obligations.TalkPutsAnEntryOnEveryPartyItReaches := by
  intro k tag b d n dep target depth s ht hn hd source reached e
  let ps := (s.targetSet k target).filter (s.talkReaches k)
  have nodup : ps.Nodup := (filter_allParties_nodup _).filter _
  have mem (p : Party) : p ∈ ps ↔ reached p := by
    simp [ps, reached, State.targetSet, allParties, State.talkReaches, and_comm]
  have works := s.talkTo_worksOn e ps
  refine ⟨s.talkTo e ps, talkData s (s.talkTo e ps) k (s.targetSet k target) ps e,
    by rw [exec_talk, askTalk_accepts ht hn hd source]; rfl, fun p hp => ?_, fun p hp => ?_, works.form,
    works.offers, works.hold, rfl, ?_⟩
  · obtain ⟨hparty, hlist⟩ := s.talkTo_reached e nodup ((mem p).2 hp)
    exact ⟨hparty, by rw [hlist]; exact insertEntry_split e _⟩
  · have hp := mt (mem p).1 hp
    exact ⟨works.party hp, works.talkList hp, works.ret hp⟩
  · have byPermission (p : Party) : (!s.talkSkippedByState p && !s.talkReaches k p)
        = ((s.party p).state.talkable && !(s.partyPerms k p).talk) := by
      unfold State.talkSkippedByState State.talkReaches
      cases (s.party p).state.talkable <;> rfl
    simp only [talkData, byPermission]
    rfl

/-! ### TEND -/

section
variable (s : State) (k : Link) {ps : List Party} {p : Party}

theorem State.endTalk_turn (p : Party) : s.WorksOn ((s.dropEntry k p).ownerNamed k p) [p] :=
  ((s.dropEntry_worksOn k p).trans (State.ownerNamed_worksOn _ k p)).widen (by simp)

theorem State.endTalk_worksOn (ps : List Party) : s.WorksOn (s.endTalk k ps) ps :=
  worksOn_foldl (fun t p => t.endTalk_turn k p) ps s

theorem State.endTalk_ended (hn : ps.Nodup) (hp : p ∈ ps) :
    (s.endTalk k ps).party p = (s.party p).named k s.times.tprk
      ∧ (s.endTalk k ps).talkList p = withoutLink k (s.talkList p) := by
  obtain ⟨u, l, r, before, hl, after, hr⟩ := worksOn_turn (fun t p => t.endTalk_turn k p) hn hp s
  constructor
  · refine (after.party hr).trans ?_
    rw [State.ownerNamed_party, if_pos rfl, State.dropEntry_party, before.party hl, (u.dropEntry_worksOn k p).times, before.times]
  · refine (after.talkList hr).trans ?_
    rw [State.ownerNamed_talkList, State.dropEntry_talkList, before.talkList hl]

/-- A list without an entry of the link is left as it is (R112). -/
theorem State.withoutLink_absent (h : s.hasEntry k p = false) : withoutLink k (s.talkList p) = s.talkList p := by
  simpa [withoutLink, State.hasEntry] using h

end

theorem exec_tend (k : Link) (tag b d : Byte) (s : State) :
    exec (.tend k tag b d) s = .next ((askTend k b d s).deliver k tag 0x19) := rfl

/-- Settles O29: each party of the set that holds an entry of the link has one turn, and the others hold none. -/
theorem tendRemovesTheLinksEntries : Obligations.TendRemovesTheLinksEntries := by
  intro k tag b d target s ht
  let ps := (s.targetSet k target).filter (s.hasEntry k)
  have nodup : ps.Nodup := (filter_allParties_nodup _).filter _
  have mem (p : Party) : p ∈ ps ↔ s.inTarget k p target = true ∧ s.hasEntry k p = true := by
    simp [ps, State.targetSet, allParties, and_comm]
  have works := s.endTalk_worksOn k ps
  refine ⟨s.endTalk k ps, by simp only [exec_tend, askTend, ht]; rfl, fun p hp => ?_, fun p hp => ?_, works.form, works.offers,
    works.hold⟩
  · rcases held : s.hasEntry k p with _ | _
    · have out : p ∉ ps := fun h => absurd (((mem p).1 h).2.symm.trans held) (by decide)
      refine ⟨(works.talkList out).trans (s.withoutLink_absent k held).symm, fun h => ?_, fun _ => works.party out⟩
      exact absurd (held.symm.trans h) (by decide)
    · obtain ⟨hparty, hlist⟩ := s.endTalk_ended k nodup ((mem p).2 ⟨hp, held⟩)
      exact ⟨hlist, fun _ => hparty, fun h => absurd (held.symm.trans h) (by decide)⟩
  · have out : p ∉ ps := fun h => hp ((mem p).1 h).1
    exact ⟨works.party out, works.talkList out, works.ret out⟩

end Sys2Proof.Machine

namespace Sys2Proof.Machine

/-! ### A lawful talkback list -/

/-- One entry a link, in the order of priority and arrival, and every arrival before `n` (R105, R106). -/
def lawfulEntries (n : Nat) (l : List TalkEntry) : Prop :=
  l.Pairwise TalkEntry.ahead ∧ (l.map fun e => e.link).Nodup ∧ ∀ e ∈ l, e.arrival < n

theorem State.talkLaw_iff (s : State) : s.talkLaw ↔ ∀ p, lawfulEntries s.tarb.arrivals (s.talkList p)
    ∧ (s.talkList p ≠ [] → (s.party p).state.talkable = true) :=
  forall_congr' fun _ => ⟨fun ⟨order, one, live, old⟩ => ⟨⟨order, one, old⟩, live⟩,
    fun ⟨⟨order, one, old⟩, live⟩ => ⟨order, one, live, old⟩⟩

theorem lawfulEntries_nil (n : Nat) : lawfulEntries n [] := ⟨.nil, .nil, by simp⟩

section
variable {n : Nat} {es fs : List TalkEntry} (h : lawfulEntries n es)
include h

theorem lawfulEntries.sublist (hs : fs.Sublist es) : lawfulEntries n fs :=
  ⟨h.1.sublist hs, h.2.1.sublist (hs.map _), fun e he => h.2.2 e (hs.subset he)⟩

theorem lawfulEntries.later {m : Nat} (hm : n ≤ m) : lawfulEntries m es :=
  ⟨h.1, h.2.1, fun e he => (h.2.2 e he).trans_le hm⟩

/-- The latest entry, of a link without one, in its place (R106, R109). -/
theorem lawfulEntries.insert {e : TalkEntry} (ha : e.arrival = n) (hk : ∀ f ∈ es, f.link ≠ e.link) :
    lawfulEntries (n + 1) (insertEntry e es) := by
  obtain ⟨order, one, old⟩ := h
  obtain ⟨l, m, hi, rfl, hl, hm⟩ := insertEntry_split e es
  rw [hi]
  obtain ⟨ol, om, olm⟩ := List.pairwise_append.1 order
  have behind : ∀ f ∈ m, e.ahead f := by
    rcases m with _ | ⟨g, m⟩
    · simp
    · have hg : g.priority < e.priority := hm g rfl
      refine List.forall_mem_cons.2 ⟨.inl hg, fun f hf => .inl ?_⟩
      rcases (List.pairwise_cons.1 om).1 f hf with hgf | ⟨hgf, -⟩ <;> omega
  have front : ∀ f ∈ l, f.ahead e := fun f hf => by
    have hp := hl f hf
    have hq := old f (List.mem_append_left _ hf)
    unfold TalkEntry.ahead
    omega
  refine ⟨List.pairwise_append.2 ⟨ol, List.pairwise_cons.2 ⟨behind, om⟩, fun f hf =>
    List.forall_mem_cons.2 ⟨front f hf, olm f hf⟩⟩, ?_, ?_⟩
  · have links : ((l ++ e :: m).map fun f => f.link).Perm (e.link :: (l ++ m).map fun f => f.link) := List.perm_middle.map _
    have new : e.link ∉ (l ++ m).map fun f => f.link := by
      rw [List.mem_map]
      exact fun ⟨f, hf, same⟩ => hk f hf same
    exact links.nodup_iff.2 (List.nodup_cons.2 ⟨new, one⟩)
  · simp only [List.mem_append, List.mem_cons] at old ⊢
    rintro f (hf | rfl | hf)
    · exact (old f (.inl hf)).trans (Nat.lt_succ_self _)
    · exact ha ▸ Nat.lt_succ_self _
    · exact (old f (.inr hf)).trans (Nat.lt_succ_self _)

end

theorem withoutLink_sublist (k : Link) (l : List TalkEntry) : (withoutLink k l).Sublist l := List.filter_sublist

/-! ### What the law of the talkback lists reads -/

/-- The talkback lists, the count of arrivals, and the state of every party stay. -/
def State.sameTalk (s t : State) : Prop :=
  t.tarb.lists = s.tarb.lists ∧ t.tarb.arrivals = s.tarb.arrivals ∧ ∀ p, (t.party p).state = (s.party p).state

theorem State.sameTalk.talkLaw {s t : State} (h : s.sameTalk t) (hs : s.talkLaw) : t.talkLaw := by
  obtain ⟨hl, ha, hp⟩ := h
  have list : ∀ p, t.talkList p = s.talkList p := fun p => by simp only [State.talkList, hl]
  unfold State.talkLaw at *
  simpa only [list, ha, hp] using hs

/-- A change that moves no party and leaves TARB. -/
theorem State.samePlaces.sameTalk {s t : State} (h : s.samePlaces t) (ht : t.tarb = s.tarb) : s.sameTalk t :=
  ⟨by rw [ht], by rw [ht], h.1⟩

theorem State.sameGroups.sameTalk {s t : State} (h : s.sameGroups t) (ht : t.tarb = s.tarb) : s.sameTalk t :=
  ⟨by rw [ht], by rw [ht], fun p => (h.2 p).1⟩

theorem State.sameTalk_of_eq {s t : State} (hp : t.parties = s.parties) (ht : t.tarb = s.tarb) : s.sameTalk t :=
  ⟨by rw [ht], by rw [ht], fun p => by simp only [State.party, hp]⟩

/-- A move empties the list of its party, or takes it where a list may hold entries (R113). -/
theorem State.talkLaw.moved {s t : State} (h : s.talkLaw) {p : Party} {into : PartyState} (hs : (t.party p).state = into)
    (hl : t.talkList p = if into.talkable then s.talkList p else []) (hf : s.partyFrame t p) : t.talkLaw := by
  obtain ⟨-, -, -, parties, ⟨-, arrivals, lists⟩, -⟩ := hf
  rw [State.talkLaw_iff] at h ⊢
  intro q
  by_cases e : q = p
  · subst e
    rw [hl, hs, arrivals]
    by_cases ht : into.talkable = true
    · simpa [ht] using (h q).1
    · simpa [ht] using lawfulEntries_nil _
  · rw [lists q e, parties q e, arrivals]
    exact h q

theorem State.talkLaw.conclude {s : State} (h : s.talkLaw) (p : Party) {into : PartyState} {r : PartyRec} (j : Option Link)
    (call : List Event) (tail : List Offer) (hr : r.state = into) : ((s.entered p into r).conclude s p j call tail).talkLaw := by
  obtain ⟨hp, -, -, hl, hf⟩ := s.conclude_moved p into r j call tail
  exact h.moved (by rw [hp, hr]) hl hf

/-! ### The transitions keep the law of the talkback lists -/

section
variable {s : State} (h : s.talkLaw) (p : Party) (k : Link)
include h

theorem State.talkLaw.toVacant (call : State → State → List Event) : (s.toVacant p call).talkLaw := h.conclude p _ _ _ rfl

theorem State.talkLaw.toFault (cause : Nat) : (s.toFault p cause).talkLaw := h.conclude p _ _ _ rfl

theorem State.talkLaw.toAlerting : (s.toAlerting p).talkLaw := by
  rw [s.toAlerting_eq]
  exact h.conclude p _ _ _ rfl

theorem State.talkLaw.answer : (s.answer p k).talkLaw := by
  rw [s.answer_eq]
  exact h.conclude p _ _ _ rfl

theorem State.talkLaw.toParked : (s.toParked p k).talkLaw := by
  rw [s.toParked_eq]
  exact h.conclude p _ _ _ rfl

theorem State.talkLaw.toQueue (x : Studio) : (s.toQueue p x k).talkLaw := by
  obtain ⟨hp, -, -, hl, hf⟩ := s.toQueue_moved p x k
  exact h.moved (into := .queued) (by rw [hp]; rfl) hl hf

theorem State.talkLaw.toAir (n : AirSlot) : (s.toAir p n k).talkLaw := by
  obtain ⟨hp, -, -, hl, hf⟩ := s.toAir_moved p n k
  exact h.moved (into := .onAir) (by rw [hp]; rfl) hl hf

theorem State.talkLaw.release : (s.release p k).talkLaw := by
  rw [s.release_eq]
  exact h.conclude p _ _ _ rfl

theorem State.talkLaw.startLoop (src : Source) : (s.startLoop p src k).talkLaw := by
  rw [s.startLoop_eq]
  exact h.conclude p _ _ _ rfl

theorem State.talkLaw.partyReset : (s.partyReset p).talkLaw := by
  rw [s.partyReset_eq]
  exact h.conclude p _ _ _ rfl

theorem State.talkLaw.portFailure : (s.portFailure p).talkLaw := by
  unfold State.portFailure
  split
  case h_7 => exact h.toVacant p _
  case h_8 | h_9 => exact h
  all_goals exact h.toFault p _

theorem talkLaw_foldl {α : Type} (f : State → α → State) (hf : ∀ (s : State) (a : α), s.talkLaw → (f s a).talkLaw)
    (l : List α) : (l.foldl f s).talkLaw := by
  induction l generalizing s with
  | nil => exact h
  | cons a l ih => exact ih (hf s a h)

end

/-! ### The operations that leave TARB -/

section
variable (s : State) (p : Party) (k : Link)

theorem State.writes.tarb {s t : State} {p : Party} {r : PartyRec} {os : List Offer} (h : s.writes t p r os) :
    t.tarb = s.tarb := by rw [h.2.2.2]

@[simp] theorem State.passTo_tarb (r : Link) (cause : Nat) (first last : List Offer) :
    (s.passTo p r cause first last).tarb = s.tarb := by
  simp [State.passTo, State.transferTo]

@[simp] theorem State.endHandover_tarb (outcome : Nat) : (s.endHandover p outcome).tarb = s.tarb := by
  unfold State.endHandover
  split <;> simp

@[simp] theorem State.cancelHandover_tarb : (s.cancelHandover p).tarb = s.tarb := by
  unfold State.cancelHandover
  split <;> simp

@[simp] theorem State.grantHandover_tarb (outcome cause : Nat) : (s.grantHandover p outcome cause).tarb = s.tarb := by
  unfold State.grantHandover
  repeat' split
  all_goals simp

@[simp] theorem State.orphan_tarb (cause : Nat) : (s.orphan p cause).tarb = s.tarb := by simp [State.orphan]

@[simp] theorem State.moveQueued_tarb (x : Studio) (n : Nat) : (s.moveQueued p x n k).tarb = s.tarb := by
  unfold State.moveQueued
  dsimp only
  split <;> simp

@[simp] theorem State.gainSource_tarb (x : Studio) (n : Source) (g : Gain) : (s.gainSource x n g).tarb = s.tarb := by
  unfold State.gainSource
  split <;> simp

@[simp] theorem State.gainParty_tarb (x : Studio) (n : AirSlot) (g : Gain) : (s.gainParty x p n g).tarb = s.tarb := by
  unfold State.gainParty
  split <;> simp

@[simp] theorem State.applyFloor_tarb (x : Studio) (n : Nat) : (s.applyFloor x n).tarb = s.tarb := by
  rw [State.applyFloor_form]

@[simp] theorem State.setHold_tarb (src : Option Source) (g : Gain) : (s.setHold src g).tarb = s.tarb := by
  rw [State.setHold_form]

end

/-! ### The requests that leave TARB -/

section
variable (k : Link) (a b c d : Byte) (s : State)

theorem askSknd_tarb : (askSknd k a b s).state.tarb = s.tarb := by
  unfold askSknd
  repeat' split
  all_goals simp [acceptNaming, accept, refuse, State.setKind]

theorem askMove_tarb : (askMove k a b s).state.tarb = s.tarb := by
  unfold askMove
  repeat' split
  all_goals simp [acceptNaming, accept, refuse]

theorem askJoin_tarb : (askJoin k a b s).state.tarb = s.tarb := by
  unfold askJoin
  repeat' split
  all_goals simp [acceptNaming, accept, refuse, State.moveToGroup]

theorem askLeav_tarb : (askLeav k a s).state.tarb = s.tarb := by
  unfold askLeav
  repeat' split
  all_goals simp [acceptNaming, accept, refuse, State.leaveGroup]

theorem askLstn_tarb : (askLstn k a b s).state.tarb = s.tarb := by
  unfold askLstn askListen
  repeat' split
  all_goals simp [acceptNaming, accept, refuse]

theorem askGain_tarb : (askGain k a b c d s).state.tarb = s.tarb := by
  unfold askGain askGainSource askGainParty
  repeat' split
  all_goals simp [acceptNaming, accept, refuse]

theorem askTake_tarb : (askTake k a s).state.tarb = s.tarb := by
  unfold askTake takeAnswered takeNow takeOver takePending State.askOwner
  repeat' split
  all_goals simp [acceptNaming, accept, refuse]

theorem askGive_tarb : (askGive k a b s).state.tarb = s.tarb := by
  unfold askGive
  repeat' split
  all_goals simp [acceptNaming, accept, refuse]

theorem askKeep_tarb : (askKeep k a b s).state.tarb = s.tarb := by
  unfold askKeep
  repeat' split
  all_goals simp [acceptNaming, accept, refuse]

theorem askTcan_tarb : (askTcan k a s).state.tarb = s.tarb := by
  unfold askTcan
  repeat' split
  all_goals simp [accept, refuse]

theorem askLock_tarb : (askLock k a s).state.tarb = s.tarb := by
  unfold askLock
  repeat' split
  all_goals simp [acceptNaming, accept, refuse, State.lockParty]

theorem askUlck_tarb : (askUlck k a s).state.tarb = s.tarb := by
  unfold askUlck
  repeat' split
  all_goals simp [acceptNaming, accept, refuse, State.unlockParty]

theorem askAway_tarb : (askAway k a s).state.tarb = s.tarb := by
  unfold askAway
  split
  · rfl
  · rfl
  · exact foldl_keeps (fun t => t.tarb) _ (fun t p => t.grantHandover_tarb p _ _) _ (s.setAway k true)

theorem askSreg_tarb (e f g i j : Byte) : (askSreg k a b c d e f g i j s).state.tarb = s.tarb := by
  unfold askSreg askSregIn
  repeat' split
  all_goals rfl

theorem askLreg_tarb : (askLreg k a s).state.tarb = s.tarb := by
  unfold askLreg
  repeat' split
  all_goals rfl

theorem askSprt_tarb (ss : List Byte) : (askSprt k a b ss s).state.tarb = s.tarb := by
  unfold askSprt askSprtIn
  dsimp only [accept, refuse]
  repeat' split
  all_goals simp [State.writePort, State.monitorsAfter]

theorem askSsrc_tarb : (askSsrc k a b s).state.tarb = s.tarb := by
  unfold askSsrc State.setMembership
  dsimp only [accept, refuse]
  repeat' split
  all_goals simp

theorem askShld_tarb : (askShld k a b s).state.tarb = s.tarb := by
  unfold askShld
  repeat' split
  all_goals simp [accept, refuse]

theorem askSplt_tarb : (askSplt k a s).state.tarb = s.tarb := by
  unfold askSplt
  repeat' split
  all_goals rfl

theorem askSflr_tarb : (askSflr k a b s).state.tarb = s.tarb := by
  unfold askSflr
  repeat' split
  all_goals simp [accept, refuse]

theorem askStim_tarb (v w x y z : Word16) : (askStim k v w x y z a b s).state.tarb = s.tarb := by
  unfold askStim
  repeat' split
  all_goals rfl

theorem askSpat_tarb (e f g : Byte) : (askSpat k a b c d e f g s).state.tarb = s.tarb := by
  unfold askSpat
  repeat' split
  all_goals rfl

theorem askEmsk_tarb : (askEmsk k a s).state.tarb = s.tarb := by
  unfold askEmsk
  split <;> rfl

theorem askFtch_tarb : (askFtch k a s).state.tarb = s.tarb := by
  unfold askFtch
  split <;> rfl

theorem askAtcf_tarb : (askAtcf k a b s).state.tarb = s.tarb := by
  unfold askAtcf
  split <;> rfl

theorem askRdpy_tarb : (askRdpy k a s).state.tarb = s.tarb := by
  unfold askRdpy
  repeat' split
  all_goals simp [acceptNaming, accept, refuse]

theorem askRdrt_tarb : (askRdrt k a b s).state.tarb = s.tarb := by
  unfold askRdrt
  repeat' split
  all_goals simp [acceptNaming, accept, refuse]

end

/-! ### The requests that write the talkback lists -/

/-- Lists that have lost entries, and nothing else. -/
theorem State.talkLaw.shrunk {s t : State} (h : s.talkLaw) (ha : t.tarb.arrivals = s.tarb.arrivals)
    (hl : ∀ p, (t.talkList p).Sublist (s.talkList p)) (hs : ∀ p, (t.party p).state = (s.party p).state) : t.talkLaw := by
  rw [State.talkLaw_iff] at h ⊢
  intro p
  obtain ⟨entries, live⟩ := h p
  rw [ha, hs]
  exact ⟨entries.sublist (hl p), fun hne => live fun e => hne (List.sublist_nil.1 (e ▸ hl p))⟩

section
variable {s : State} (h : s.talkLaw) (k : Link)
include h

theorem State.talkLaw.ownerNamed (p : Party) : (s.ownerNamed k p).talkLaw :=
  ((s.ownerNamed_samePlaces p k).sameTalk (by simp)).talkLaw h

theorem State.talkLaw.dropEntry (p : Party) : (s.dropEntry k p).talkLaw := by
  refine h.shrunk (by rw [(s.dropEntry_worksOn k p).form]) (fun q => ?_) fun q => by rw [State.dropEntry_party]
  by_cases e : q = p
  · rw [e, State.dropEntry_talkList]
    exact withoutLink_sublist _ _
  · rw [(s.dropEntry_worksOn k p).talkList (by simpa using e)]

/-- Each party that a TALK reaches takes an entry of the latest arrival in place of the link's old one (R109). -/
theorem State.talkLaw.talkTo {e : TalkEntry} {ps : List Party} (hn : ps.Nodup) (ha : e.arrival = s.tarb.arrivals)
    (hp : ∀ p ∈ ps, (s.party p).state.talkable = true) : (s.talkTo e ps).talkLaw := by
  have works := s.talkTo_worksOn e ps
  have arrivals : (s.talkTo e ps).tarb.arrivals = s.tarb.arrivals + 1 := by rw [works.form]; rfl
  rw [State.talkLaw_iff] at h ⊢
  intro p
  obtain ⟨entries, live⟩ := h p
  rw [arrivals]
  by_cases hm : p ∈ ps
  · obtain ⟨party, list⟩ := s.talkTo_reached e hn hm
    rw [party, list, PartyRec.named_state]
    exact ⟨(entries.sublist (withoutLink_sublist _ _)).insert ha (by simp [withoutLink]), fun _ => hp p hm⟩
  · rw [works.party hm, works.talkList hm]
    exact ⟨entries.later (Nat.le_succ _), live⟩

end

/-! ### The requests keep the law of the talkback lists -/

theorem State.leaveStation_sameTalk (s : State) (k : Link) : s.sameTalk (s.leaveStation k) :=
  State.sameTalk_of_eq (by simp [State.leaveStation]) (by simp [State.leaveStation])

section
variable (k : Link) (a b c d : Byte) {s : State} (h : s.talkLaw)
include h

theorem refuse_talkLaw (st : Status) : (refuse s st).state.talkLaw := h

theorem accept_talkLaw (data : List Byte) : (accept s data).state.talkLaw := h

theorem acceptNaming_talkLaw (p : Party) (data : List Byte) : (acceptNaming s k p data).state.talkLaw := h.ownerNamed k p

theorem askAnsr_talkLaw : (askAnsr k a s).state.talkLaw := by
  unfold askAnsr
  repeat' split
  all_goals first
    | with_reducible exact refuse_talkLaw h _
    | exact acceptNaming_talkLaw k (h.answer _ k) _ _

theorem askPark_talkLaw : (askPark k a s).state.talkLaw := by
  unfold askPark
  repeat' split
  all_goals first
    | with_reducible exact refuse_talkLaw h _
    | exact acceptNaming_talkLaw k (h.toParked _ k) _ _

theorem askQueu_talkLaw : (askQueu k a b s).state.talkLaw := by
  unfold askQueu
  repeat' split
  all_goals first
    | with_reducible exact refuse_talkLaw h _
    | exact accept_talkLaw ((h.ownerNamed k _).toQueue _ k _) _

theorem askAirp_talkLaw : (askAirp k a s).state.talkLaw := by
  unfold askAirp
  repeat' split
  all_goals first
    | with_reducible exact refuse_talkLaw h _
    | exact acceptNaming_talkLaw k (h.toAir _ k _) _ _

theorem askNext_talkLaw : (askNext k a s).state.talkLaw := by
  unfold askNext
  repeat' split
  all_goals first
    | with_reducible exact refuse_talkLaw h _
    | exact accept_talkLaw (h.toAir _ k _) _

theorem askOffa_talkLaw : (askOffa k a s).state.talkLaw := by
  unfold askOffa
  repeat' split
  all_goals first
    | with_reducible exact refuse_talkLaw h _
    | exact acceptNaming_talkLaw k (h.toParked _ k) _ _

theorem askUnqu_talkLaw : (askUnqu k a s).state.talkLaw := by
  unfold askUnqu
  repeat' split
  all_goals first
    | with_reducible exact refuse_talkLaw h _
    | exact acceptNaming_talkLaw k (h.toParked _ k) _ _

theorem askRlse_talkLaw : (askRlse k a s).state.talkLaw := by
  unfold askRlse
  repeat' split
  all_goals first
    | with_reducible exact refuse_talkLaw h _
    | exact accept_talkLaw ((h.ownerNamed k _).release _ k) _

theorem askLoop_talkLaw : (askLoop k a b s).state.talkLaw := by
  unfold askLoop
  repeat' split
  all_goals first
    | with_reducible exact refuse_talkLaw h _
    | exact acceptNaming_talkLaw k (h.startLoop _ k _) _ _

theorem askLend_talkLaw : (askLend k a s).state.talkLaw := by
  unfold askLend
  repeat' split
  all_goals first
    | with_reducible exact refuse_talkLaw h _
    | exact acceptNaming_talkLaw k (h.toVacant _ _) _ _

theorem askPrst_talkLaw : (askPrst k a s).state.talkLaw := by
  unfold askPrst
  repeat' split
  all_goals first
    | with_reducible exact refuse_talkLaw h _
    | exact accept_talkLaw ((h.ownerNamed k _).partyReset _) _

/-- TALK reaches parties only whose lists may hold entries (R109). -/
theorem askTalk_talkLaw : (askTalk k a b c d s).state.talkLaw := by
  unfold askTalk
  split
  · split
    · exact refuse_talkLaw h _
    · refine h.talkTo ((filter_allParties_nodup _).filter _) rfl fun p hp => ?_
      exact (Bool.and_eq_true_iff.1 (List.mem_filter.1 hp).2).1
  · exact refuse_talkLaw h _

theorem askTend_talkLaw : (askTend k a b s).state.talkLaw := by
  unfold askTend
  split
  · exact talkLaw_foldl h _ (fun t p ht => (ht.dropEntry k p).ownerNamed k p) _
  · exact refuse_talkLaw h _

theorem askStlk_talkLaw : (askStlk k a b c d s).state.talkLaw := by
  unfold askStlk
  repeat' split
  all_goals first
    | with_reducible exact refuse_talkLaw h _
    | exact State.sameTalk.talkLaw (by rw [accept, State.setTalk_frame]; exact ⟨rfl, rfl, fun _ => rfl⟩) h

theorem askLrst_talkLaw : (askLrst k s).state.talkLaw := by
  have cleared : (s.modLink k LinkRec.cleared).talkLaw := (State.sameTalk_of_eq rfl rfl).talkLaw h
  have dropped : ((s.modLink k LinkRec.cleared).dropEntries k).talkLaw :=
    talkLaw_foldl cleared _ (fun t p ht => ht.dropEntry k p) _
  have cancelled : (((s.modLink k LinkRec.cleared).dropEntries k).cancelHandovers k).talkLaw :=
    talkLaw_foldl dropped _ (fun t p ht => ((t.cancelHandover_samePlaces p).sameTalk (t.cancelHandover_tarb p)).talkLaw ht) _
  exact (State.leaveStation_sameTalk _ k).talkLaw cancelled

end

/-- A request whose taking keeps the law of the talkback lists. -/
def keepsTalkLaw (ask : State → Answer) : Prop := ∀ s : State, s.talkLaw → (ask s).state.talkLaw

theorem keepsTalkLaw_of_places {ask : State → Answer} (h : ∀ s : State, s.samePlaces (ask s).state)
    (ht : ∀ s, (ask s).state.tarb = s.tarb) : keepsTalkLaw ask :=
  fun s hs => ((h s).sameTalk (ht s)).talkLaw hs

theorem keepsTalkLaw_of_state {ask : State → Answer} (h : ∀ s, (ask s).state = s) : keepsTalkLaw ask :=
  fun s hs => by rw [h s]; exact hs

/-- Each request command keeps the law of the talkback lists. -/
theorem asked_keepsTalkLaw {c : Instr} {k : Link} {tag code : Byte} {ask : State → Answer}
    (h : asked c = some (k, tag, code, ask)) : keepsTalkLaw ask := by
  cases c <;> cases h
  case unknownRequest => exact fun s hs => refuse_talkLaw hs _
  case ansr => exact fun s => askAnsr_talkLaw _ _
  case park => exact fun s => askPark_talkLaw _ _
  case queu => exact fun s => askQueu_talkLaw _ _ _
  case airp => exact fun s => askAirp_talkLaw _ _
  case next => exact fun s => askNext_talkLaw _ _
  case offa => exact fun s => askOffa_talkLaw _ _
  case unqu => exact fun s => askUnqu_talkLaw _ _
  case move => exact fun s => ((askMove_sameGroups _ _ _ s).sameTalk (askMove_tarb _ _ _ s)).talkLaw
  case rlse => exact fun s => askRlse_talkLaw _ _
  case loop => exact fun s => askLoop_talkLaw _ _ _
  case lend => exact fun s => askLend_talkLaw _ _
  case prst => exact fun s => askPrst_talkLaw _ _
  case sknd => exact keepsTalkLaw_of_places (askSknd_samePlaces _ _ _) (askSknd_tarb _ _ _)
  case join => exact keepsTalkLaw_of_places (askJoin_samePlaces _ _ _) (askJoin_tarb _ _ _)
  case leav => exact keepsTalkLaw_of_places (askLeav_samePlaces _ _) (askLeav_tarb _ _)
  case lstn => exact keepsTalkLaw_of_places (askLstn_samePlaces _ _ _) (askLstn_tarb _ _ _)
  case gain => exact keepsTalkLaw_of_places (askGain_samePlaces _ _ _ _ _) (askGain_tarb _ _ _ _ _)
  case talk => exact fun s => askTalk_talkLaw _ _ _ _ _
  case tend => exact fun s => askTend_talkLaw _ _ _
  case stlk => exact fun s => askStlk_talkLaw _ _ _ _ _
  case take => exact keepsTalkLaw_of_places (askTake_samePlaces _ _) (askTake_tarb _ _)
  case give => exact keepsTalkLaw_of_places (askGive_samePlaces _ _ _) (askGive_tarb _ _ _)
  case keep => exact keepsTalkLaw_of_places (askKeep_samePlaces _ _ _) (askKeep_tarb _ _ _)
  case tcan => exact keepsTalkLaw_of_places (askTcan_samePlaces _ _) (askTcan_tarb _ _)
  case lock => exact keepsTalkLaw_of_places (askLock_samePlaces _ _) (askLock_tarb _ _)
  case ulck => exact keepsTalkLaw_of_places (askUlck_samePlaces _ _) (askUlck_tarb _ _)
  case away => exact keepsTalkLaw_of_places (askAway_samePlaces _ _) (askAway_tarb _ _)
  case sreg => exact keepsTalkLaw_of_places (fun s => askSreg_samePlaces _ _ _ _ _ s _ _ _ _ _) fun s =>
    askSreg_tarb _ _ _ _ _ s _ _ _ _ _
  case lreg => exact keepsTalkLaw_of_places (askLreg_samePlaces _ _) (askLreg_tarb _ _)
  case rdrg => exact keepsTalkLaw_of_state (askRdrg_sameBase _ _ _)
  case sprt => exact keepsTalkLaw_of_places (fun s => askSprt_samePlaces _ _ _ s _) fun s => askSprt_tarb _ _ _ s _
  case ssrc => exact keepsTalkLaw_of_places (askSsrc_samePlaces _ _ _) (askSsrc_tarb _ _ _)
  case shld => exact keepsTalkLaw_of_places (askShld_samePlaces _ _ _) (askShld_tarb _ _ _)
  case splt => exact keepsTalkLaw_of_places (askSplt_samePlaces _ _) (askSplt_tarb _ _)
  case sflr => exact keepsTalkLaw_of_places (askSflr_samePlaces _ _ _) (askSflr_tarb _ _ _)
  case stim => exact keepsTalkLaw_of_places (fun s => askStim_samePlaces _ _ _ s _ _ _ _ _) fun s =>
    askStim_tarb _ _ _ s _ _ _ _ _
  case spat => exact keepsTalkLaw_of_places (fun s => askSpat_samePlaces _ _ _ _ _ s _ _ _) fun s =>
    askSpat_tarb _ _ _ _ _ s _ _ _
  case emsk => exact keepsTalkLaw_of_places (askEmsk_samePlaces _ _) (askEmsk_tarb _ _)
  case ftch => exact keepsTalkLaw_of_places (askFtch_samePlaces _ _) (askFtch_tarb _ _)
  case atcf => exact keepsTalkLaw_of_places (askAtcf_samePlaces _ _ _) (askAtcf_tarb _ _ _)
  case lrst => exact fun s => askLrst_talkLaw _
  case idnt => exact keepsTalkLaw_of_state fun _ => rfl
  case rdpy => exact keepsTalkLaw_of_places (askRdpy_samePlaces _ _) (askRdpy_tarb _ _)
  case rdqu => exact keepsTalkLaw_of_state (askRdqu_same _ _)
  case rdrt => exact keepsTalkLaw_of_places (askRdrt_samePlaces _ _ _) (askRdrt_tarb _ _ _)
  case rdpt => exact keepsTalkLaw_of_state fun _ => rfl

theorem askRequest_keepsTalkLaw (k : Link) (r : Request) : keepsTalkLaw (askRequest k r) := by
  intro s hs
  rcases askRequest_cases k r s with ⟨st, e⟩ | ⟨c, ask, hc, e⟩
  · rw [e]
    exact refuse_talkLaw hs st
  · rw [e]
    exact asked_keepsTalkLaw hc s hs

theorem State.talkLaw.deliver {a : Answer} (h : a.state.talkLaw) (k : Link) (tag code : Byte) :
    (a.deliver k tag code).talkLaw := (State.sameTalk_of_eq rfl rfl).talkLaw h

/-! ### The ports, the monitor and the timers leave TARB -/

section
variable (s : State) (x : PortId) (p : Party)

@[simp] theorem State.syncFound_tarb : (s.syncFound x).tarb = s.tarb := by
  unfold State.syncFound
  dsimp only
  split <;> simp

@[simp] theorem State.syncLost_tarb (cause : LossCause) : (s.syncLost x cause).tarb = s.tarb := by
  unfold State.syncLost
  dsimp only
  split <;> simp

@[simp] theorem State.misaligned_tarb (cause : LossCause) : (s.misaligned x cause).tarb = s.tarb := by
  unfold State.misaligned
  dsimp only
  repeat' split
  all_goals simp

@[simp] theorem State.alignedFrame_tarb : (s.alignedFrame x).tarb = s.tarb := by
  unfold State.alignedFrame
  dsimp only
  repeat' split
  all_goals simp

@[simp] theorem State.monitorFrame_tarb (bits : BitVec 512) : (s.monitorFrame x bits).tarb = s.tarb :=
  foldl_keeps (fun t => t.tarb) (fun (t : State) p => t.monitorWord p (lineWord bits (slotIndexOf p)))
    (fun t p => by rw [State.monitorWord_eq]) _ s

@[simp] theorem State.inboundFrame_tarb (bits : BitVec 512) : (s.inboundFrame x bits).tarb = s.tarb := by
  have latched : ∀ t : State, (t.latch x bits).edge.tarb = t.tarb := fun t => State.setPort_tarb t x _
  unfold State.inboundFrame
  rw [latched]
  repeat' split
  all_goals simp

@[simp] theorem State.clockMissed_tarb : s.clockMissed.tarb = s.tarb :=
  foldl_keeps (fun t => t.tarb) (fun (t : State) y => if (s.port y).sync = .locked then t.misaligned y .clock else t)
    (fun t y => by split <;> simp) _ s

@[simp] theorem State.qualifyBy_tarb (e : Pattern) : (s.qualifyBy p e).tarb = s.tarb := by rw [State.qualifyBy_eq]

@[simp] theorem State.completeRamp_tarb (r : RampRef) : (s.completeRamp r).tarb = s.tarb := by cases r <;> rfl

@[simp] theorem State.parkExpired_tarb (o : Link) : (s.parkExpired p o).tarb = s.tarb := by
  unfold State.parkExpired State.parkHandover State.remind
  repeat' split
  all_goals simp

end

/-! ### Every step keeps the law of the talkback lists -/

section
variable {s : State} (h : s.talkLaw)
include h

/-- Party records rewritten with their states kept. -/
theorem State.talkLaw.of_records {t : State} (f : PartyRec → PartyRec) (hp : ∀ p, t.party p = f (s.party p))
    (hf : ∀ r, (f r).state = r.state) (hs : t.stud = s.stud) (ht : t.tarb = s.tarb) : t.talkLaw :=
  ((s.samePlaces_of_records f hp hf hs).sameTalk ht).talkLaw h

theorem State.talkLaw.modLink (k : Link) (f : LinkRec → LinkRec) : (s.modLink k f).talkLaw :=
  (State.sameTalk_of_eq rfl rfl).talkLaw h

theorem State.talkLaw.takeRequests (k : Link) (n : Nat) : (s.takeRequests k n).talkLaw := by
  induction n generalizing s with
  | zero => exact h
  | succ n ih =>
    unfold State.takeRequests
    split
    · exact h
    · split
      · exact ih ((askRequest_keepsTalkLaw k _ _ (h.modLink k _)).deliver k _ _)
      · exact h

theorem State.talkLaw.acceptFrame (k : Link) (r : Request) : (s.acceptFrame k r).talkLaw := by
  unfold State.acceptFrame
  split
  · exact (askLrst_talkLaw k h).deliver k _ _
  · split
    · exact (h.modLink k _).takeRequests k _
    · exact h.modLink k _

theorem State.talkLaw.graceExpired (x : PortId) : (s.graceExpired x).talkLaw :=
  talkLaw_foldl ((State.sameTalk_of_eq (by simp) (by simp)).talkLaw h) _ (fun t p ht => ht.portFailure p) _

theorem State.talkLaw.takeMeaning (p : Party) (m : Meaning) : (s.takeMeaning p m).talkLaw := by
  cases m
  case seize =>
    show (s.seized p).talkLaw
    unfold State.seized
    split
    case h_1 | h_2 => exact h.toAlerting p
    all_goals exact h
  case onhook =>
    show (s.onhook p).talkLaw
    unfold State.onhook
    split
    case h_8 | h_9 => exact h
    all_goals exact h.toVacant p _
  case flash =>
    show (s.flashed p).talkLaw
    unfold State.flashed
    split
    · exact (State.sameTalk_of_eq (by simp) (by simp)).talkLaw h
    · exact h
  case fault =>
    show (s.faulted p).talkLaw
    unfold State.faulted
    split
    · exact h
    · exact h.toFault p _

theorem State.talkLaw.clearExpired (p : Party) : (s.clearExpired p).talkLaw := by
  unfold State.clearExpired
  split
  case h_1 => exact h.toVacant p _
  case h_2 => exact ((s.modParty_samePlaces p _ rfl).sameTalk rfl).talkLaw h
  all_goals exact h

/-- Every command keeps the law of the talkback lists. -/
theorem exec_talkLaw {c : Instr} {t : State} (e : exec c s = .next t) : t.talkLaw := by
  rcases ha : asked c with _ | ⟨k, tag, code, ask⟩
  case some =>
    rw [exec_asked ha] at e
    cases e
    exact (asked_keepsTalkLaw ha s h).deliver k tag code
  cases c <;> try (cases ha; done)
  case powerOnReset => cases e; exact State.powerOn_talkLaw _ _ _
  case linkFrameReceived k f =>
    simp only [exec, execLinkFrameReceived] at e
    split at e <;> cases e
    · exact h.acceptFrame k _
    · exact h
  case responseSent k =>
    simp only [exec, execResponseSent] at e
    split at e <;> cases e
    · exact h
    · exact (h.modLink k _).takeRequests k _
  case audioFrame => cases e; exact (State.sameTalk_of_eq rfl rfl).talkLaw h
  case rampComplete r => cases e; exact ((s.completeRamp_samePlaces r).sameTalk (s.completeRamp_tarb r)).talkLaw h
  case inboundFrame x bits =>
    simp only [exec, execInboundFrame] at e
    split at e <;> cases e
    · exact (State.sameTalk_of_eq rfl rfl).talkLaw h
    · exact ((s.inboundFrame_samePlaces x bits).sameTalk (s.inboundFrame_tarb x bits)).talkLaw h
  case missingClockCheck => cases e; exact (s.clockMissed_samePlaces.sameTalk s.clockMissed_tarb).talkLaw h
  case syncFound x => cases e; exact ((s.syncFound_samePlaces x).sameTalk (s.syncFound_tarb x)).talkLaw h
  case syncLost x cause => cases e; exact ((s.syncLost_samePlaces x cause).sameTalk (s.syncLost_tarb x cause)).talkLaw h
  case graceTimerExpiry x =>
    simp only [exec, execGraceTimerExpiry] at e
    split at e <;> cases e
    · exact h.graceExpired x
    · exact h
  case qualify p i =>
    simp only [exec, execQualify] at e
    split at e <;> cases e
    · exact ((s.qualifyBy_samePlaces p _).sameTalk (s.qualifyBy_tarb p _)).talkLaw h
    · exact h
  case signalReport p m =>
    have ht : (s.takeReport p m).talkLaw := (State.sameTalk_of_eq rfl rfl).talkLaw h
    simp only [exec, execSignalReport] at e
    split at e <;> cases e
    · exact ht.takeMeaning p m
    · exact ht
  case realertTimerExpiry p =>
    simp only [exec, execRealertTimerExpiry] at e
    split at e <;> cases e
    · exact ((s.realert_samePlaces p).sameTalk (by simp [State.realert])).talkLaw h
    · exact h
  case clearTimerExpiry p =>
    simp only [exec, execClearTimerExpiry] at e
    split at e <;> cases e
    · exact h.clearExpired p
    · exact h
  case oneSecondMark =>
    cases e
    exact h.of_records PartyRec.marked (fun p => row_tab _ _) (fun _ => rfl) rfl rfl
  case parkTimerExpiry p =>
    simp only [exec, execParkTimerExpiry] at e
    split at e <;> cases e
    · exact ((s.parkExpired_samePlaces p _).sameTalk (s.parkExpired_tarb p _)).talkLaw h
    · exact h
  case grantTimerExpiry p =>
    simp only [exec, execGrantTimerExpiry] at e
    split at e <;> cases e
    · exact ((s.grantHandover_samePlaces p _ _).sameTalk (s.grantHandover_tarb p _ _)).talkLaw h
    · exact h
  case shortWordClockPeriod => cases e; exact (s.clockMissed_samePlaces.sameTalk s.clockMissed_tarb).talkLaw h
  case resetAsserted => cases e; exact (State.sameTalk_of_eq rfl rfl).talkLaw h

end

/-- Settles O58: a list is emptied in the very change that takes its party where no entry may stand, and TALK alone adds to
lists. -/
theorem everyStepKeepsTheTalkLaw : Obligations.EveryStepKeepsTheTalkLaw := by
  intro s t h e
  unfold step at e
  split at e
  · rename_i c rest _
    exact exec_talkLaw (s := { s with pending := rest }) h e
  · unfold State.idle at e
    split at e
    · exact exec_talkLaw h e
    · cases e
      exact h.of_records PartyRec.tick (fun p => row_tab _ _) (fun _ => rfl) rfl rfl

end Sys2Proof.Machine

namespace Sys2Proof.Machine

/-! ### A link that receives with all classes admitted -/

theorem LinkRec.receive_unmasked {l : LinkRec} (h : l.mask = ClassSet.all) (e : Event) :
    l.receive e = if 48 ≤ l.events.length then { l with overflow := true } else { l with events := l.events ++ [e] } := by
  have admits (c : EventClass) : ClassSet.all.has c = true := by cases c <;> rfl
  unfold LinkRec.receive
  rcases e.kind.cls with _ | c
  · rfl
  · simp only [h, admits, Bool.not_true, Bool.false_eq_true, if_false]
    rfl

section
variable {l : LinkRec} (h : l.mask = ClassSet.all)
include h

/-- No summary flag is set, and no event but an offered one joins the queue (R174). -/
theorem foldl_receive_summaries (es : List Event) : (es.foldl LinkRec.receive l).summaries = l.summaries
    ∧ ∀ e ∈ (es.foldl LinkRec.receive l).events, e ∈ l.events ∨ e ∈ es := by
  induction es generalizing l with
  | nil => exact ⟨rfl, fun _ => .inl⟩
  | cons e es ih =>
    rw [List.foldl_cons, LinkRec.receive_unmasked h]
    split
    · obtain ⟨flags, queue⟩ := ih (l := { l with overflow := true }) h
      exact ⟨flags, fun f hf => (queue f hf).imp_right (List.mem_cons_of_mem e)⟩
    · obtain ⟨flags, queue⟩ := ih (l := { l with events := l.events ++ [e] }) h
      exact ⟨flags, fun f hf => by simpa [or_assoc] using queue f hf⟩

/-- With room for all the offered events, all of them are queued (R174). -/
theorem foldl_receive_room {es : List Event} (room : l.events.length + es.length ≤ 48) :
    es.foldl LinkRec.receive l = { l with events := l.events ++ es } := by
  induction es generalizing l with
  | nil => simp
  | cons e es ih =>
    rw [List.length_cons] at room
    have rest := ih (l := { l with events := l.events ++ [e] }) h
      (by simp only [List.length_append, List.length_singleton]; omega)
    rw [List.foldl_cons, LinkRec.receive_unmasked h, if_neg (by omega), rest]
    simp

end

/-! ### Offers made party by party -/

/-- Each party's offers are those that the state before all of the work gives, where they read nothing that the work on the
other parties writes. -/
theorem offersExactly_foldl {f : State → Party → State} {g : State → Party → List Offer}
    (hf : ∀ (s : State) (p : Party), s.WorksOn (f s p) [p]) (ho : ∀ (s : State) (p : Party), s.offersExactly (f s p) (g s p))
    (hg : ∀ {s u : State} {ps : List Party} {p : Party}, s.WorksOn u ps → p ∉ ps → g u p = g s p)
    {ps : List Party} (hn : ps.Nodup) (s : State) : s.offersExactly (ps.foldl f s) (ps.flatMap (g s)) := by
  induction ps generalizing s with
  | nil => exact s.offersExactly_refl
  | cons p ps ih =>
    obtain ⟨hp, hn⟩ := List.nodup_cons.1 hn
    have later : ps.flatMap (g (f s p)) = ps.flatMap (g s) :=
      List.flatMap_congr fun q hq => hg (hf s p) fun h => hp (List.mem_singleton.1 h ▸ hq)
    rw [List.foldl_cons, List.flatMap_cons, ← later]
    exact (ho s p).trans (ih hn _)

/-! ### A link's entries off every list -/

theorem find?_withoutLink {k : Link} {q : TalkEntry → Bool} {l : List TalkEntry}
    (h : (l.find? q).map (fun e => e.link) ≠ some k) : (withoutLink k l).find? q = l.find? q := by
  induction l with
  | nil => rfl
  | cons e l ih =>
    by_cases hq : q e = true
    · rw [List.find?_cons_of_pos hq] at h ⊢
      have other : e.link ≠ k := fun hk => h (congrArg some hk)
      simp [withoutLink, other, hq]
    · rw [List.find?_cons_of_neg hq] at h ⊢
      rw [← ih h]
      by_cases hk : e.link = k <;> simp [withoutLink, hk, hq]

theorem link_of_mem_withoutLink {k : Link} {l : List TalkEntry} {e : TalkEntry} (h : e ∈ withoutLink k l) : e.link ≠ k := by
  simpa using (List.mem_filter.1 h).2

/-- Which entries are eligible is a matter of the party's state and of STUD (R57, R106). -/
theorem State.eligible_of_stud {s t : State} {p : Party} (hp : (t.party p).state = (s.party p).state) (h : t.stud = s.stud) :
    t.eligible p = s.eligible p := by
  have places : t.studioOf p = s.studioOf p := State.studioOf_of_stud h p
  have floors : t.floor = s.floor := funext fun x => by simp only [State.floor, h]
  have floor : t.talkFloor p = s.talkFloor p := by rw [State.talkFloor, hp, places, floors, State.talkFloor]
  funext e
  rw [State.eligible, floor, State.eligible]

/-- TALK_ACTIVE of the entry that takes over from link `k`'s own as that one leaves the list (R114, R116, R117). -/
def State.handedOn (s : State) (k : Link) (p : Party) : List Offer :=
  if (s.activeEntry p).map (fun e => e.link) = some k then
    (((withoutLink k (s.talkList p)).find? (s.eligible p)).map (activeEvent s s p)).toList
  else []

section
variable (s : State) (k : Link) (p : Party)

theorem activeOffers_withoutLink :
    activeOffers s (s.setTalkList p (withoutLink k (s.talkList p))) p none = s.handedOn k p := by
  have after : (s.setTalkList p (withoutLink k (s.talkList p))).activeEntry p
      = (withoutLink k (s.talkList p)).find? (s.eligible p) := by
    rw [State.activeEntry, State.setTalkList_talkList, if_pos rfl]
    rfl
  unfold State.handedOn
  split
  next own =>
    obtain ⟨old, active, hk⟩ := Option.map_eq_some_iff.1 own
    have gone : heldEvent s (s.setTalkList p (withoutLink k (s.talkList p))) p none old = [] := by
      have none' : (withoutLink k (s.talkList p)).find? (fun e => e.link == old.link) = none :=
        List.find?_eq_none.2 fun e he => by simpa [hk] using link_of_mem_withoutLink he
      simp [heldEvent, none']
    unfold activeOffers
    rw [active, after]
    rcases found : (withoutLink k (s.talkList p)).find? (s.eligible p) with _ | new
    · exact gone
    · have other := link_of_mem_withoutLink (List.mem_of_find?_eq_some found)
      simp only [gone, hk ▸ other.symm, if_false]
      rfl
  next other => exact activeOffers_same (after.trans (find?_withoutLink other)) none

theorem State.dropEntry_exactly : s.offersExactly (s.dropEntry k p) (s.handedOn k p) := fun j => by
  rw [← activeOffers_withoutLink, State.dropEntry, State.link, State.reworkActive_links]
  exact State.offerAll_link _ _ j

theorem State.handedOn_local {s u : State} {ps : List Party} {p : Party} (h : s.WorksOn u ps) (hp : p ∉ ps) :
    u.handedOn k p = s.handedOn k p := by
  have eligible : u.eligible p = s.eligible p := State.eligible_of_stud (congrArg _ (h.party hp)) h.stud
  have event : activeEvent u u p = activeEvent s s p := by
    funext e
    simp only [activeEvent, h.party hp]
  rw [State.handedOn, State.activeEntry, h.talkList hp, eligible, event]
  rfl

theorem State.handedOn_absent (h : s.hasEntry k p = false) : s.handedOn k p = [] := by
  refine if_neg fun own => ?_
  obtain ⟨e, active, hk⟩ := Option.map_eq_some_iff.1 own
  have : s.hasEntry k p = true := List.any_eq_true.2 ⟨e, List.mem_of_find?_eq_some active, by simpa using hk⟩
  exact absurd (this.symm.trans h) (by decide)

end

/-! ### All the lists, ascending -/

theorem flatMap_filter_of_nil {α β : Type} {q : α → Bool} {g : α → List β} (h : ∀ a, q a = false → g a = []) (l : List α) :
    (l.filter q).flatMap g = l.flatMap g := by
  induction l with
  | nil => rfl
  | cons a l ih =>
    rcases hq : q a with _ | _
    · rw [List.filter_cons_of_neg (by simp [hq]), List.flatMap_cons, h a hq, ih, List.nil_append]
    · rw [List.filter_cons_of_pos hq, List.flatMap_cons, List.flatMap_cons, ih]

section
variable (s : State) (k : Link) (p : Party)

theorem State.dropEntries_worksOn : s.WorksOn (s.dropEntries k) (allParties.filter (s.hasEntry k)) :=
  worksOn_foldl (fun t p => t.dropEntry_worksOn k p) _ s

theorem State.dropEntries_party : (s.dropEntries k).party p = s.party p :=
  foldl_keeps (fun t => t.party p) _ (fun t q => t.dropEntry_party k q p) _ s

theorem State.dropEntries_talkList : (s.dropEntries k).talkList p = withoutLink k (s.talkList p) := by
  rcases held : s.hasEntry k p with _ | _
  · rw [s.withoutLink_absent k held]
    exact (s.dropEntries_worksOn k).talkList (mt mem_filter_allParties.1 (by simp [held]))
  · obtain ⟨u, l, r, before, hl, after, hr⟩ := worksOn_turn (fun t p => t.dropEntry_worksOn k p)
      (filter_allParties_nodup (s.hasEntry k)) (mem_filter_allParties.2 held) s
    exact (after.talkList hr).trans (by rw [State.dropEntry_talkList, before.talkList hl])

theorem State.dropEntries_exactly : s.offersExactly (s.dropEntries k) (allParties.flatMap (s.handedOn k)) := by
  rw [← flatMap_filter_of_nil (fun p => s.handedOn_absent k p)]
  exact offersExactly_foldl (fun t p => t.dropEntry_worksOn k p) (fun t p => t.dropEntry_exactly k p)
    (State.handedOn_local k) (filter_allParties_nodup _) s

end

/-! ### The handovers that a link asked for -/

/-- A party's record written and events offered is work on that party. -/
theorem State.writes.worksOn {s t : State} {p : Party} {r : PartyRec} {os : List Offer} (h : s.writes t p r os) :
    s.WorksOn t [p] := by
  obtain ⟨-, others, offers, form⟩ := h
  refine ⟨?_, fun j => ?_, ?_, ?_, fun hq => others _ (mt List.mem_singleton.2 hq), fun _ => ?_, fun _ => ?_⟩
  · rw [form]
  · rw [offers j]
    exact foldl_receive_offered _ _
  all_goals rw [form]
  · exact ⟨rfl, rfl, rfl⟩
  all_goals rfl

/-- TAKE_RESULT CANCELLED of the pending handover, to the owner alone (R130). -/
def State.cancelled (s : State) (p : Party) : List Offer :=
  ((s.party p).handover.map fun h =>
    { event := (resultOffer p h.requester none (s.party p).owner Result.cancelled).event,
      receives := fun k => (s.party p).owner == some k }).toList

/-- The handovers that a link asked for, but no other, out of a record (R130). -/
def PartyRec.withoutRequester (r : PartyRec) (k : Link) : PartyRec :=
  { r with handover := r.handover.filter fun h => h.requester != k }

/-- Whether a link asked for the handover of a party. -/
def State.asked (s : State) (k : Link) (p : Party) : Bool := ((s.party p).handover.map fun h => h.requester) == some k

section
variable (s : State) (k : Link) (p : Party)

theorem State.asked_of_parties {s t : State} (h : t.party = s.party) : t.asked k = s.asked k := by
  funext p
  simp only [State.asked, h]

theorem State.cancelled_of_parties {s t : State} (h : t.party = s.party) : t.cancelled = s.cancelled := by
  funext p
  simp only [State.cancelled, h]

theorem State.cancelHandover_writes : s.writes (s.cancelHandover p) p { s.party p with handover := none } (s.cancelled p) := by
  have eq : s.cancelHandover p = (s.setParty p { s.party p with handover := none }).offerAll (s.cancelled p) := by
    unfold State.cancelHandover State.cancelled
    rcases pending : (s.party p).handover with _ | h
    · exact (show s.party p = { s.party p with handover := none } by rw [← pending]) ▸ (s.setParty_same p).symm
    · rfl
  rw [eq]
  exact s.writes_offerAll p _ _

theorem State.cancelHandover_worksOn : s.WorksOn (s.cancelHandover p) [p] := (s.cancelHandover_writes p).worksOn

theorem State.cancelHandovers_worksOn : s.WorksOn (s.cancelHandovers k) (allParties.filter (s.asked k)) :=
  worksOn_foldl State.cancelHandover_worksOn _ s

theorem State.cancelHandovers_rmix : (s.cancelHandovers k).rmix = s.rmix :=
  foldl_keeps (fun t => t.rmix) _ (fun t p => by obtain ⟨-, -, -, form⟩ := t.cancelHandover_writes p; rw [form]) _ s

theorem State.cancelHandovers_tarb : (s.cancelHandovers k).tarb = s.tarb :=
  foldl_keeps (fun t => t.tarb) _ (fun t p => by obtain ⟨-, -, -, form⟩ := t.cancelHandover_writes p; rw [form]) _ s

theorem State.cancelHandovers_party : (s.cancelHandovers k).party p = (s.party p).withoutRequester k := by
  rcases asked : s.asked k p with _ | _
  · have kept : (s.party p).handover.filter (fun h => h.requester != k) = (s.party p).handover := by
      rcases pending : (s.party p).handover with _ | h
      · rfl
      · have other : h.requester ≠ k := by simpa [State.asked, pending] using asked
        exact Option.filter_some_pos (by simpa using other)
    rw [PartyRec.withoutRequester, kept]
    exact (s.cancelHandovers_worksOn k).party (mt mem_filter_allParties.1 (by simp [asked]))
  · obtain ⟨u, l, r, before, hl, after, hr⟩ := worksOn_turn State.cancelHandover_worksOn
      (filter_allParties_nodup (s.asked k)) (mem_filter_allParties.2 asked) s
    obtain ⟨h, pending, rfl⟩ := Option.map_eq_some_iff.1 (eq_of_beq asked)
    obtain ⟨written, -⟩ := u.cancelHandover_writes p
    refine (after.party hr).trans (written.trans ?_)
    rw [before.party hl, PartyRec.withoutRequester, pending, Option.filter_some_neg (by simp)]

theorem State.cancelHandovers_exactly :
    s.offersExactly (s.cancelHandovers k) ((allParties.filter (s.asked k)).flatMap s.cancelled) :=
  offersExactly_foldl State.cancelHandover_worksOn (fun t p => by
      obtain ⟨-, -, offers, -⟩ := t.cancelHandover_writes p
      exact offers)
    (fun h hp => by simp only [State.cancelled, h.party hp]) (filter_allParties_nodup _) s

end

/-! ### The link leaves its station -/

section
variable (s : State) (k j : Link)

theorem State.leaveStation_parties : (s.leaveStation k).parties = s.parties := by simp [State.leaveStation]

theorem State.leaveStation_tarb : (s.leaveStation k).tarb = s.tarb := by simp [State.leaveStation]

theorem State.leaveStation_stud : (s.leaveStation k).stud = s.stud := by simp [State.leaveStation]

theorem State.leaveStation_returns : (s.leaveStation k).rmix.returns = s.rmix.returns := by simp [State.leaveStation]

theorem State.leaveStation_sameHold : s.sameHold (s.leaveStation k) := by simp [State.leaveStation, State.sameHold]

theorem State.leaveStation_link :
    (s.leaveStation k).link j = if j = k then { s.link k with away := false } else s.link j := by
  rw [State.leaveStation, State.modLink_link]
  simp only [State.link, State.select_links]

theorem State.leaveStation_cue : ((s.leaveStation k).cue k).current = none ∧ ∀ j, j ≠ k → (s.leaveStation k).cue j = s.cue j := by
  refine ⟨?_, fun j => s.select_cue k j none⟩
  change ((s.select k none).cue k).current = none
  by_cases off : (s.cue k).current.map (fun c => c.selection) = none
  · rw [s.select_again k off]
    exact Option.map_eq_none_iff.1 off
  · rw [s.select_other k off]
    rfl

theorem State.leaveStation_form :
    ∃ ls cs, s.leaveStation k = { s with links := ls, rmix := { s.rmix with cues := cs } } := by
  refine ⟨(s.leaveStation k).links, (s.select k none).rmix.cues, ?_⟩
  change { s.select k none with links := (s.leaveStation k).links } = _
  rw [s.select_form k none]

end

/-! ### What the removal offers the link itself -/

/-- The event of the entry that takes over from link `k`'s own on a party of `k`, `t` being the state after (R116, R117). -/
def State.takenOver (s t : State) (k : Link) (p : Party) : Option Event :=
  if (s.party p).owner = some k ∧ (s.activeEntry p).map (fun e => e.link) = some k then
    (t.activeEntry p).map fun e =>
      { partyEvent .talkActive p with link := some e.link, value1 := some e.priority, value2 := some (depthCode e.depth) }
  else none

/-- What link `k` receives of a list of offers. -/
def receivedBy (k : Link) (os : List Offer) : List Event := (os.filter fun o => o.receives k).map fun o => o.event

theorem receivedBy_append (k : Link) (os ps : List Offer) : receivedBy k (os ++ ps) = receivedBy k os ++ receivedBy k ps := by
  rw [receivedBy, List.filter_append, List.map_append]
  rfl

theorem receivedBy_flatMap {α : Type} (k : Link) (g : α → List Offer) (l : List α) :
    receivedBy k (l.flatMap g) = l.flatMap fun a => receivedBy k (g a) := by
  rw [receivedBy, List.filter_flatMap, List.map_flatMap]
  rfl

section
variable {s : State} (k : Link)

theorem State.handedOn_received {t : State} {p : Party}
    (ht : t.activeEntry p = (withoutLink k (s.talkList p)).find? (s.eligible p)) :
    receivedBy k (s.handedOn k p) = (s.takenOver t k p).toList := by
  unfold State.handedOn State.takenOver
  by_cases own : (s.activeEntry p).map (fun e => e.link) = some k
  · rw [if_pos own, ← ht]
    rcases found : t.activeEntry p with _ | e
    · simp [receivedBy]
    · have other : e.link ≠ k := link_of_mem_withoutLink (List.mem_of_find?_eq_some (ht.symm.trans found))
      by_cases mine : (s.party p).owner = some k
      · simp [receivedBy, activeEvent, talkOffer, talkEvent, mine, own]
      · simp [receivedBy, activeEvent, talkOffer, mine, other.symm]
  · rw [if_neg own, if_neg (own ·.2)]
    rfl

/-- Nobody asks for a party of its own (R121), so that the link hears nothing of the handovers it asked for. -/
theorem State.cancelled_received (h : s.recordLaw) {p : Party} (hp : s.asked k p = true) : receivedBy k (s.cancelled p) = [] := by
  obtain ⟨h', pending, rfl⟩ := Option.map_eq_some_iff.1 (eq_of_beq hp)
  obtain ⟨-, -, -, asks, -⟩ := (h p).1
  obtain ⟨-, -, other⟩ := asks h' pending
  simp [State.cancelled, receivedBy, pending, other]

theorem State.handedOn_kind {p : Party} {o : Offer} (h : o ∈ s.handedOn k p) : o.event.kind = .talkActive := by
  unfold State.handedOn at h
  split at h
  · obtain ⟨e, -, rfl⟩ := Option.map_eq_some_iff.1 (Option.mem_toList.1 h)
    rfl
  · exact absurd h List.not_mem_nil

theorem State.cancelled_kind {p : Party} {o : Offer} (h : o ∈ s.cancelled p) : o.event.kind = .takeResult := by
  obtain ⟨e, -, rfl⟩ := Option.map_eq_some_iff.1 (Option.mem_toList.1 h)
  rfl

end

/-! ### LRST -/

theorem LinkRec.cleared_mask (l : LinkRec) : l.cleared.mask = ClassSet.all := rfl

theorem exec_lrst (k : Link) (tag : Byte) (s : State) :
    exec (.lrst k tag) s = .next ((accept (s.resetLink k) [byte k.val]).deliver k tag 0x3B) := rfl

/-- After steps 1 to 5 of R178. -/
def State.withdrawn (s : State) (k : Link) : State := ((s.modLink k LinkRec.cleared).dropEntries k).cancelHandovers k

/-- The offers of steps 4 and 5 of R178, in order. -/
def State.withdrawOffers (s : State) (k : Link) : List Offer :=
  allParties.flatMap (s.handedOn k) ++ (allParties.filter (s.asked k)).flatMap s.cancelled

section
variable (s : State) (k : Link)

theorem State.withdrawn_worksOn : (s.modLink k LinkRec.cleared).WorksOn (s.withdrawn k)
    (allParties.filter (s.hasEntry k) ++ allParties.filter (((s.modLink k LinkRec.cleared).dropEntries k).asked k)) :=
  (State.dropEntries_worksOn _ k).trans (State.cancelHandovers_worksOn _ k)

theorem State.withdrawn_talkList (p : Party) : (s.withdrawn k).talkList p = withoutLink k (s.talkList p) := by
  rw [State.withdrawn, State.talkList, State.cancelHandovers_tarb]
  exact State.dropEntries_talkList _ k p

theorem State.withdrawn_party (p : Party) : (s.withdrawn k).party p = (s.party p).withoutRequester k := by
  rw [State.withdrawn, State.cancelHandovers_party, State.dropEntries_party]
  rfl

theorem State.withdrawn_ret {p : Party} (h : s.hasEntry k p = false) : (s.withdrawn k).ret p = s.ret p := by
  rw [State.withdrawn, State.ret, State.cancelHandovers_rmix]
  exact (State.dropEntries_worksOn _ k).ret (mt mem_filter_allParties.1 (ne_true_of_eq_false h))

theorem State.withdrawn_exactly : (s.modLink k LinkRec.cleared).offersExactly (s.withdrawn k) (s.withdrawOffers k) := by
  have records : ((s.modLink k LinkRec.cleared).dropEntries k).party = s.party := funext (State.dropEntries_party _ k)
  have cancels := ((s.modLink k LinkRec.cleared).dropEntries k).cancelHandovers_exactly k
  rw [State.asked_of_parties k records, State.cancelled_of_parties records] at cancels
  exact (State.dropEntries_exactly _ k).trans cancels

theorem State.resetLink_eq : s.resetLink k = (s.withdrawn k).leaveStation k := rfl

theorem State.resetLink_talkList (p : Party) : (s.resetLink k).talkList p = withoutLink k (s.talkList p) := by
  rw [← s.withdrawn_talkList k p, State.talkList, s.resetLink_eq, State.leaveStation_tarb]
  rfl

theorem State.resetLink_party (p : Party) : (s.resetLink k).party p = (s.party p).withoutRequester k := by
  rw [← s.withdrawn_party k p, State.party, s.resetLink_eq, State.leaveStation_parties]
  rfl

theorem State.resetLink_ret {p : Party} (h : s.hasEntry k p = false) : (s.resetLink k).ret p = s.ret p := by
  rw [← s.withdrawn_ret k h, State.ret, s.resetLink_eq, State.leaveStation_returns]
  rfl

/-- The active entries after LRST are those of the lists without the link's entries (R107). -/
theorem State.resetLink_activeEntry (p : Party) :
    (s.resetLink k).activeEntry p = (withoutLink k (s.talkList p)).find? (s.eligible p) := by
  have studio : (s.resetLink k).stud = s.stud := (State.leaveStation_stud _ k).trans (s.withdrawn_worksOn k).stud
  rw [State.activeEntry, s.resetLink_talkList, State.eligible_of_stud (by rw [s.resetLink_party]; rfl) studio]

/-- What the link itself hears of the withdrawal: the entries that take over from its own on its parties. -/
theorem State.withdrawOffers_received (h : s.recordLaw) :
    receivedBy k (s.withdrawOffers k) = allParties.filterMap (s.takenOver (s.resetLink k) k) := by
  have cancels : ((allParties.filter (s.asked k)).flatMap fun p => receivedBy k (s.cancelled p)) = [] :=
    List.flatMap_eq_nil_iff.2 fun p hp => State.cancelled_received k h (mem_filter_allParties.1 hp)
  have hands : (fun p => receivedBy k (s.handedOn k p)) = fun p => (s.takenOver (s.resetLink k) k p).toList :=
    funext fun p => State.handedOn_received k (s.resetLink_activeEntry k p)
  rw [State.withdrawOffers, receivedBy_append, receivedBy_flatMap, receivedBy_flatMap, cancels, hands, List.append_nil,
    List.filterMap_eq_flatMap_toList]

theorem State.withdrawOffers_kind {e : Event} (h : e ∈ receivedBy k (s.withdrawOffers k)) :
    e.kind = .talkActive ∨ e.kind = .takeResult := by
  obtain ⟨o, ho, rfl⟩ := List.mem_map.1 h
  refine (List.mem_append.1 (List.mem_of_mem_filter ho)).imp (fun h => ?_) (fun h => ?_)
  all_goals obtain ⟨p, -, hp⟩ := List.mem_flatMap.1 h
  · exact State.handedOn_kind k hp
  · exact State.cancelled_kind hp

theorem State.withdrawn_link : (s.withdrawn k).link k
    = (receivedBy k (s.withdrawOffers k)).foldl LinkRec.receive (s.link k).cleared := by
  rw [s.withdrawn_exactly k k, State.modLink_link, if_pos rfl]
  rfl

theorem State.resetLink_form : s.resetLink k = { s with
    parties := (s.resetLink k).parties, tarb := { s.tarb with lists := (s.resetLink k).tarb.lists },
    links := (s.resetLink k).links, rmix := (s.resetLink k).rmix } := by
  obtain ⟨ls, cs, left⟩ := (s.withdrawn k).leaveStation_form k
  rw [s.resetLink_eq, left, (s.withdrawn_worksOn k).form]
  rfl

end

section
variable (s : State) (k : Link)

theorem State.withdrawOffers_short (h : s.recordLaw) : (receivedBy k (s.withdrawOffers k)).length ≤ 48 := by
  rw [s.withdrawOffers_received k h]
  exact (List.length_filterMap_le _ _).trans (by decide)

theorem State.resetLink_link : (s.resetLink k).link k = { (s.withdrawn k).link k with away := false } :=
  ((s.withdrawn k).leaveStation_link k k).trans (if_pos rfl)

/-- What another link is told of the withdrawal, and nothing else, happens to it. -/
theorem State.resetLink_offered {j : Link} (h : j ≠ k) : (s.link j).offered ((s.resetLink k).link j) := by
  have told := (s.withdrawn_worksOn k).offers j
  rw [State.modLink_link, if_neg h] at told
  rw [s.resetLink_eq, State.leaveStation_link, if_neg h]
  exact told

theorem State.resetLink_sameHold : s.sameHold (s.resetLink k) := by
  obtain ⟨h1, h2, h3⟩ := (s.withdrawn_worksOn k).hold
  obtain ⟨g1, g2, g3⟩ := (s.withdrawn k).leaveStation_sameHold k
  exact ⟨g1.trans h1, g2.trans h2, g3.trans h3⟩

theorem State.resetLink_cue : ((s.resetLink k).cue k).current = none ∧ ∀ j, j ≠ k → (s.resetLink k).cue j = s.cue j := by
  obtain ⟨off, others⟩ := (s.withdrawn k).leaveStation_cue k
  exact ⟨off, fun j hj => (others j hj).trans (congrArg (row · j) (s.withdrawn_worksOn k).cues)⟩

end

/-- Settles O43: what the withdrawal of its entries and handovers offers the reset link is worked out party by party, and the
emptied queue has room for all of it. -/
theorem lrstResetsItsLink : Obligations.LrstResetsItsLink := by
  intro k tag s
  let es := receivedBy k (s.withdrawOffers k)
  have link : (s.resetLink k).link k = { es.foldl LinkRec.receive (s.link k).cleared with away := false } := by
    rw [s.resetLink_link, s.withdrawn_link]
  obtain ⟨requests, sending, waiting, mask, attn, threshold, -, -⟩ := foldl_receive_offered es (s.link k).cleared
  obtain ⟨flags, queue⟩ := foldl_receive_summaries (s.link k).cleared_mask es
  obtain ⟨off, others⟩ := s.resetLink_cue k
  refine ⟨s.resetLink k, exec_lrst k tag s, ?_, ?_, ?_, ?_, ?_, ?_, ?_, ?_, fun e he => ?_, fun law => ?_,
    fun j => s.resetLink_offered k, s.resetLink_talkList k, s.resetLink_party k, off, others, s.resetLink_sameHold k,
    fun p hp => s.resetLink_ret k ?_, s.resetLink_form k⟩
  · rw [link]; exact requests
  · rw [link]; exact waiting
  · rw [link]; exact sending
  · rw [link]; exact mask
  · rw [link]; exact flags
  · rw [link]; exact attn
  · rw [link]; exact threshold
  · rw [link]
  · rw [link] at he
    exact s.withdrawOffers_kind k ((queue e he).resolve_left List.not_mem_nil)
  · have all := foldl_receive_room (s.link k).cleared_mask (es := es) ((Nat.zero_add _).trans_le (s.withdrawOffers_short k law))
    rw [link, all]
    exact ⟨rfl, s.withdrawOffers_received k law⟩
  · simpa [State.hasEntry] using hp
end Sys2Proof.Machine

namespace Sys2Proof.Machine

/-! ### The end of a pending handover -/

section
variable {s : State} {p : Party} {h : Handover} (pending : (s.party p).handover = some h)
include pending

theorem State.recheck_of_pending : s.recheck p = s.controls h.requester p := by simp only [State.recheck, pending]

theorem State.pendingFor_of_pending (r : Link) : s.pendingFor p r = (h.requester == r) := by
  simp only [State.pendingFor, pending, Option.map_some, Option.some_beq_some]

/-- The party passes to a requester that still holds CONTROL (R124, R131). -/
theorem State.grantHandover_passes (control : s.controls h.requester p = true) (outcome cause : Nat) :
    s.passes (s.grantHandover p outcome cause) p h.requester cause
      [s.resultOf p h.requester outcome (some h.requester)] [] := by
  have eq : s.grantHandover p outcome cause
      = s.passTo p h.requester cause [s.resultOf p h.requester outcome (some h.requester)] [] := by
    simp only [State.grantHandover, pending, control, if_true, resultOffer_eq]
  rw [eq]
  exact s.passTo_passes p _ _ _ _

/-- The owner stays where the requester no longer holds CONTROL (R129). -/
theorem State.grantHandover_stays (control : s.controls h.requester p = false) (outcome cause : Nat) :
    s.writes (s.grantHandover p outcome cause) p { s.party p with handover := none }
      [s.resultOf p h.requester Result.deniedRegion (s.party p).owner] := by
  have eq : s.grantHandover p outcome cause = s.endHandover p Result.deniedRegion := by
    simp only [State.grantHandover, pending, control, Bool.false_eq_true, if_false]
  rw [eq]
  exact s.endHandover_writes p h _ pending

theorem exec_grantTimerExpiry_pending : exec (.grantTimerExpiry p) s
    = .next (s.grantHandover p Result.timeoutGranted Cause.timeout) := if_pos (by rw [pending]; rfl)

end

/-- A link that has just given a party away restarts no park timer of it (R7). -/
theorem acceptNaming_passed {s t : State} {p : Party} {r k : Link} {cause : Nat} {first last : List Offer}
    (passed : s.passes t p r cause first last) (other : r ≠ k) (data : List Byte) :
    acceptNaming t k p data = accept t data := by
  obtain ⟨record, -⟩ := passed
  have notOwner : (t.party p).owner ≠ some k := by
    rw [record]
    exact fun e => other (Option.some.inj e)
  rw [acceptNaming, t.ownerNamed_other k p notOwner]

/-! ### TAKE -/

/-- That a link is the owner, as the model's offers ask it and as the statements do. -/
theorem owner_beq (o j : Link) : ((some o : Option Link) == some j) = (j == o) := by
  rw [Option.some_beq_some, BEq.comm]

section
variable {s : State} {k o : Link} {p : Party}

theorem exec_take {b : Byte} (tag : Byte) (hb : partyArg b = some p) (control : s.controls k p = true)
    (answered : (s.party p).state.answered = true) :
    exec (.take k tag b) s = .next ((takeAnswered k p s).deliver k tag 0x20) := by
  have eq : askTake k b s = takeAnswered k p s := by
    simp only [askTake, hb, control, answered, Bool.not_true, Bool.false_eq_true, if_false]
  rw [← eq]
  rfl

/-- Line 4 of R121. -/
theorem takeAnswered_own (owner : (s.party p).owner = some k) :
    takeAnswered k p s = accept (s.ownerNamed k p) [byte Result.owner] := by
  simp only [takeAnswered, owner, if_true, acceptNaming]

/-- Line 5 of R121. -/
theorem takeAnswered_orphan (owner : (s.party p).owner = none) :
    takeAnswered k p s = takeNow k p Cause.taken s := by
  simp only [takeAnswered, owner]

/-- Lines 6 to 10 of R121. -/
theorem takeAnswered_other (owner : (s.party p).owner = some o) (other : o ≠ k) :
    takeAnswered k p s = if (s.party p).handover.isSome then refuse s .busy
      else if (s.party p).lock then if k = s.supervisor then takeOver k p s else refuse s .locked
      else if (s.link o).away then takeNow k p Cause.away s
      else takePending k p s := by
  simp only [takeAnswered, owner, other, if_false]

theorem overriddenOffer_eq (owner : (s.party p).owner = some o) : overriddenOffer s p k
    = { event := { partyEvent .overridden p with link := some k, value1 := some (stateCode (s.party p).state) },
        receives := fun j => j == o } := by
  simp only [overriddenOffer, owner, owner_beq]

theorem askedOffer_eq (owner : (s.party p).owner = some o) : askedOffer s p k
    = { event := { partyEvent .takeAsked p with
          link := some k, value1 := some s.times.tgiv, value2 := some (stateCode (s.party p).state) },
        receives := fun j => j == o } := by
  simp only [askedOffer, owner, owner_beq]

end

/-- Settles O31: each line of R121 is met where the lines before it are not. -/
theorem takeFollowsItsLines : Obligations.TakeFollowsItsLines := by
  intro k tag b p s hb control answered
  rw [exec_take tag hb control answered]
  refine ⟨fun own => ?_, fun orphan => ?_, fun o owner other => ⟨fun pending => ?_, fun free lock super => ?_,
    fun free lock super => ?_, fun free lock away => ?_, fun free lock away => ?_⟩⟩
  · rw [takeAnswered_own own]
    exact ⟨_, rfl, s.writes_ownerNamed k p⟩
  · rw [takeAnswered_orphan orphan, takeNow, orphan]
    exact ⟨_, rfl, s.passTo_passes p k _ _ _⟩
  all_goals rw [takeAnswered_other owner other]
  · rw [if_pos pending]
  · rw [free, lock, if_neg (by decide), if_pos rfl, if_pos super, takeOver, overriddenOffer_eq owner, owner]
    exact ⟨_, rfl, s.passTo_passes p k _ _ _⟩
  · rw [free, lock, if_neg (by decide), if_pos rfl, if_neg super]
  · rw [free, lock, if_neg (by decide), if_neg (by decide), away, if_pos rfl, takeNow, owner]
    exact ⟨_, rfl, s.passTo_passes p k _ _ _⟩
  · rw [free, lock, if_neg (by decide), if_neg (by decide), away, if_neg (by decide), takePending, owner,
      ← askedOffer_eq owner]
    exact ⟨_, rfl, s.writes_offerAll p _ _⟩

/-! ### GIVE, KEEP, TCAN and the grant timer -/

theorem exec_tcan (k : Link) (tag b : Byte) (s : State) :
    exec (.tcan k tag b) s = .next ((askTcan k b s).deliver k tag 0x23) := rfl

section
variable {s : State} {b d : Byte} {p : Party} {h : Handover} {k : Link} (hb : partyArg b = some p)
include hb

theorem askTcan_noHandover (notAsked : ∀ h, (s.party p).handover = some h → h.requester ≠ k) :
    askTcan k b s = refuse s .noHandover := by
  have notPending : s.pendingFor p k = false := by
    rcases pending : (s.party p).handover with _ | h
    · simp only [State.pendingFor, pending]
      rfl
    · rw [State.pendingFor_of_pending pending]
      exact beq_false_of_ne (notAsked h pending)
  simp only [askTcan, hb, notPending, Bool.not_false, if_true]

variable (pending : (s.party p).handover = some h)
include pending

theorem askTcan_accepts : askTcan h.requester b s = accept (s.endHandover p Result.cancelled) [] := by
  simp only [askTcan, hb, State.pendingFor_of_pending pending, beq_self_eq_true, Bool.not_true, Bool.false_eq_true, if_false]

variable (owner : (s.party p).owner = some k) (hd : linkArg d = some h.requester)
include owner hd

theorem askGive_accepts : askGive k b d s = acceptNaming (s.grantHandover p Result.granted Cause.given) k p
    [byte (if s.controls h.requester p then Result.granted else Result.deniedRegion)] := by
  simp only [askGive, hb, hd, State.pendingFor_of_pending pending, State.owns, owner, beq_self_eq_true, Bool.not_true,
    Bool.false_eq_true, if_false, State.recheck_of_pending pending]

theorem askKeep_accepts : askKeep k b d s = acceptNaming (s.endHandover p Result.denied) k p [] := by
  simp only [askKeep, hb, hd, State.pendingFor_of_pending pending, State.owns, owner, beq_self_eq_true, Bool.not_true,
    Bool.false_eq_true, if_false]

end

/-- Settles O32: GIVE and the grant timer grant the handover where the recheck allows it, KEEP and TCAN only end it. -/
theorem aHandoverEndsByGiveKeepTcanOrTheGrantTimer : Obligations.AHandoverEndsByGiveKeepTcanOrTheGrantTimer := by
  refine ⟨fun k tag b s => ⟨fun hb => ?_, fun p hb notAsked => ?_⟩, fun p s stopped => ?_,
    fun k tag b d p h s hb pending owner hd other => ?_⟩
  · rw [exec_tcan, askTcan, hb]
  · rw [exec_tcan, askTcan_noHandover hb notAsked]
  · exact if_neg (by rw [stopped]; decide)
  have give : exec (.give k tag b d) s = .next ((askGive k b d s).deliver k tag 0x21) := rfl
  have keep : exec (.keep k tag b d) s = .next ((askKeep k b d s).deliver k tag 0x22) := rfl
  refine ⟨fun control => ⟨?_, ?_⟩, fun control => ⟨?_, ?_⟩, ?_, ?_⟩
  · have passed := State.grantHandover_passes pending control Result.granted Cause.given
    rw [give, askGive_accepts hb pending owner hd, control, acceptNaming_passed passed other]
    exact ⟨_, rfl, passed⟩
  · rw [exec_grantTimerExpiry_pending pending]
    exact ⟨_, rfl, State.grantHandover_passes pending control _ _⟩
  · rw [give, askGive_accepts hb pending owner hd, control, ← owner]
    exact ⟨_, rfl, State.writes_named (State.grantHandover_stays pending control _ _)⟩
  · rw [exec_grantTimerExpiry_pending pending, ← owner]
    exact ⟨_, rfl, State.grantHandover_stays pending control _ _⟩
  · rw [keep, askKeep_accepts hb pending owner hd, ← owner]
    exact ⟨_, rfl, State.writes_named (s.endHandover_writes p h _ pending)⟩
  · rw [exec_tcan, askTcan_accepts hb pending, ← owner]
    exact ⟨_, rfl, s.endHandover_writes p h _ pending⟩

/-! ### LOCK and ULCK -/

/-- The end of a handover, where one is pending (R124). -/
theorem State.endHandover_ends (s : State) (p : Party) (outcome : Nat) :
    s.writes (s.endHandover p outcome) p { s.party p with handover := none }
      (match (s.party p).handover with
        | some h => [s.resultOf p h.requester outcome (s.party p).owner]
        | none => []) := by
  rcases pending : (s.party p).handover with _ | h
  · have ended : s.endHandover p outcome = s := by simp only [State.endHandover, pending]
    have kept : ({ s.party p with handover := none } : PartyRec) = s.party p := by rw [← pending]
    have written := s.writes_offerAll p { s.party p with handover := none } []
    rw [kept, s.setParty_same] at written
    rw [ended, kept]
    exact written
  · exact s.endHandover_writes p h outcome pending

/-- R132. -/
theorem State.lockParty_writes (s : State) (p : Party) :
    s.writes (s.lockParty p) p { s.party p with handover := none, lock := true }
      (match (s.party p).handover with
        | some h => [s.resultOf p h.requester Result.locked (s.party p).owner]
        | none => []) :=
  State.writes_modParty (fun r => { r with lock := true }) (s.endHandover_ends p Result.locked)

theorem State.unlockParty_writes (s : State) (p : Party) :
    s.writes (s.unlockParty p) p { s.party p with lock := false } [] := s.writes_offerAll p _ []

/-- Settles O33: the two requests make the same checks. -/
theorem lockAndUlckSetTheLock : Obligations.LockAndUlckSetTheLock := by
  intro k tag b s
  have lock : exec (.lock k tag b) s = .next ((askLock k b s).deliver k tag 0x24) := rfl
  have ulck : exec (.ulck k tag b) s = .next ((askUlck k b s).deliver k tag 0x25) := rfl
  rw [lock, ulck, askLock, askUlck]
  refine ⟨fun hb => ?_, fun p hb => ?_⟩
  · rw [hb]
    exact ⟨rfl, rfl⟩
  rw [hb]
  refine ⟨fun idle => ?_, fun answered stranger => ?_, fun answered owner => ?_⟩
  · simp only [idle, Bool.not_false, if_true, and_self]
  · have notOwner : s.owns k p = false := beq_false_of_ne stranger
    simp only [answered, notOwner, Bool.not_true, Bool.not_false, Bool.false_eq_true, if_false, if_true, and_self]
  · have owns : s.owns k p = true := beq_iff_eq.2 owner
    simp only [answered, owns, Bool.not_true, Bool.false_eq_true, if_false]
    refine ⟨⟨_, rfl, ?_⟩, _, rfl, State.writes_named (s.unlockParty_writes p)⟩
    rw [← owner]
    exact State.writes_named (s.lockParty_writes p)

/-! ### Handovers ended one after the other -/

/-- Nothing but events offered, the records of the parties `ps`, the groups that hold one of them, and targets of RMIX. -/
structure State.HandsOver (s t : State) (ps : List Party) : Prop where
  form : t = { s with parties := t.parties, conf := t.conf, links := t.links, rmix := t.rmix }
  offers : s.onlyOffers t
  hold : s.sameHold t
  party : ∀ {p}, p ∉ ps → t.party p = s.party p
  group : ∀ {g}, (∀ p ∈ (s.group g).members, p ∉ ps) → t.group g = s.group g

theorem State.HandsOver.refl (s : State) : s.HandsOver s [] :=
  ⟨rfl, s.onlyOffers_refl, ⟨rfl, rfl, rfl⟩, fun _ => rfl, fun _ => rfl⟩

section
variable {s t u : State} {p : Party} {ps qs : List Party}

theorem State.HandsOver.trans (h : s.HandsOver t ps) (g : t.HandsOver u qs) : s.HandsOver u (ps ++ qs) := by
  obtain ⟨h1, h2, h3⟩ := h.hold
  obtain ⟨g1, g2, g3⟩ := g.hold
  refine ⟨?_, State.onlyOffers_trans h.offers g.offers, ⟨g1.trans h1, g2.trans h2, g3.trans h3⟩, fun out => ?_,
    fun out => ?_⟩
  · have form := g.form
    rw [h.form] at form
    exact form
  · obtain ⟨hp, hq⟩ := not_or.1 (mt List.mem_append.2 out)
    exact (g.party hq).trans (h.party hp)
  · have first := h.group fun p hp hps => out p hp (List.mem_append_left _ hps)
    refine (g.group fun p hp hqs => ?_).trans first
    rw [first] at hp
    exact out p hp (List.mem_append_right _ hqs)

theorem State.HandsOver.widen (h : s.HandsOver t ps) (hs : ps ⊆ qs) : s.HandsOver t qs :=
  ⟨h.form, h.offers, h.hold, fun out => h.party (out <| hs ·), fun out => h.group fun p hp => (out p hp <| hs ·)⟩

theorem State.HandsOver.controls (h : s.HandsOver t ps) (k : Link) (p : Party) : t.controls k p = s.controls k p := by
  rw [h.form]
  rfl

theorem State.HandsOver.times (h : s.HandsOver t ps) : t.times = s.times := by rw [h.form]

theorem State.offersExactly.onlyOffers {os : List Offer} (h : s.offersExactly t os) : s.onlyOffers t := fun j => by
  rw [h j]
  exact foldl_receive_offered _ _

theorem State.passes.handsOver {r : Link} {cause : Nat} {first last : List Offer} (h : s.passes t p r cause first last) :
    s.HandsOver t [p] := by
  obtain ⟨-, groups, others, offers, form, hold, -⟩ := h
  exact ⟨form, offers.onlyOffers, hold, fun out => others _ (mt List.mem_singleton.2 out),
    fun {g} out => (groups g).1 fun hp => out p hp (List.mem_singleton.2 rfl)⟩

theorem State.writes.handsOver {r : PartyRec} {os : List Offer} (h : s.writes t p r os) : s.HandsOver t [p] := by
  obtain ⟨-, others, offers, form⟩ := h
  refine ⟨?_, offers.onlyOffers, ?_, fun out => others _ (mt List.mem_singleton.2 out), fun _ => ?_⟩
  all_goals rw [form]
  · exact ⟨rfl, rfl, rfl⟩
  · rfl

end

/-- The record of a party after the end of a handover that passes ownership, subject to the recheck (R124, R129, R131). -/
def State.handedOver (s : State) (p : Party) : PartyRec :=
  match (s.party p).handover with
  | none => s.party p
  | some h =>
    if s.controls h.requester p then
      { s.party p with
        owner := some h.requester, lock := false, handover := none,
        park := if (s.party p).state = .parked then some (s.times.tprk * 1000) else (s.party p).park,
        reminders := if (s.party p).state = .parked then 0 else (s.party p).reminders }
    else { s.party p with handover := none }

section
variable {s : State} {p : Party} {h : Handover} (pending : (s.party p).handover = some h)
include pending

theorem State.handedOver_passes (control : s.controls h.requester p = true) : s.handedOver p = { s.party p with
    owner := some h.requester, lock := false, handover := none,
    park := if (s.party p).state = .parked then some (s.times.tprk * 1000) else (s.party p).park,
    reminders := if (s.party p).state = .parked then 0 else (s.party p).reminders } := by
  simp only [State.handedOver, pending, control, if_true]

theorem State.handedOver_stays (control : s.controls h.requester p = false) :
    s.handedOver p = { s.party p with handover := none } := by
  simp only [State.handedOver, pending, control, Bool.false_eq_true, if_false]

end

section
variable (s : State) (p : Party) (outcome cause : Nat)

theorem State.grantHandover_handsOver : s.HandsOver (s.grantHandover p outcome cause) [p]
    ∧ (s.grantHandover p outcome cause).party p = s.handedOver p := by
  rcases pending : (s.party p).handover with _ | h
  · have ended : s.grantHandover p outcome cause = s := by simp only [State.grantHandover, pending]
    have kept : s.handedOver p = s.party p := by simp only [State.handedOver, pending]
    rw [ended, kept]
    exact ⟨(State.HandsOver.refl s).widen (List.nil_subset _), rfl⟩
  · rcases control : s.controls h.requester p with _ | _
    · have stays := State.grantHandover_stays pending control outcome cause
      exact ⟨stays.handsOver, stays.1.trans (State.handedOver_stays pending control).symm⟩
    · have passed := State.grantHandover_passes pending control outcome cause
      exact ⟨passed.handsOver, passed.1.trans (State.handedOver_passes pending control).symm⟩

theorem State.HandsOver.handedOver {s t : State} {ps : List Party} {p : Party} (h : s.HandsOver t ps) (out : p ∉ ps) :
    t.handedOver p = s.handedOver p := by
  simp only [State.handedOver, h.party out, h.controls, h.times]

theorem State.grantHandovers_handsOver (ps : List Party) :
    s.HandsOver (ps.foldl (fun t p => t.grantHandover p outcome cause) s) ps := by
  induction ps generalizing s with
  | nil => exact State.HandsOver.refl s
  | cons p ps ih => exact (s.grantHandover_handsOver p outcome cause).1.trans (ih _)

/-- Each handover ends as if it were the only one: the others change no record, permission or time that it reads. -/
theorem State.grantHandovers_party {ps : List Party} (hn : ps.Nodup) {p : Party} (hp : p ∈ ps) :
    (ps.foldl (fun t p => t.grantHandover p outcome cause) s).party p = s.handedOver p := by
  induction ps generalizing s with
  | nil => exact absurd hp List.not_mem_nil
  | cons q ps ih =>
    obtain ⟨hq, hn⟩ := List.nodup_cons.1 hn
    obtain ⟨hands, self⟩ := s.grantHandover_handsOver q outcome cause
    rw [List.foldl_cons]
    rcases List.mem_cons.1 hp with rfl | hp
    · exact (((s.grantHandover p outcome cause).grantHandovers_handsOver outcome cause ps).party hq).trans self
    · have ne : p ≠ q := fun e => hq (e ▸ hp)
      exact (ih _ hn hp).trans (hands.handedOver (mt List.mem_singleton.1 ne))

end

/-! ### AWAY -/

section
variable (s : State) (k : Link) (p : Party)

theorem State.mem_askedOf {s : State} {k : Link} {p : Party} :
    p ∈ s.askedOf k ↔ (s.party p).owner = some k ∧ (s.party p).handover.isSome = true := by
  rw [State.askedOf, mem_filter_allParties, Bool.and_eq_true, State.owns, beq_iff_eq]

/-- The parties whose handover the recheck lets pass, with `g` the identity, or denies, with `g` the negation (R129). -/
theorem State.askedOf_filter (g : Bool → Bool) : (s.askedOf k).filter (fun p => g (s.recheck p))
    = allParties.filter fun p => (s.party p).owner == some k
        && (s.party p).handover.any fun h => g (s.controls h.requester p) := by
  rw [State.askedOf, List.filter_filter]
  congr 1
  funext p
  rcases pending : (s.party p).handover with _ | h
  · simp
  · simp [State.recheck_of_pending pending, State.owns, Bool.and_comm]

/-- What AWAY leaves: the presence set, and the handovers pending on the link's parties ended, ascending (R135). -/
def State.goneAway (s : State) (k : Link) : State :=
  (s.askedOf k).foldl (fun t p => t.grantHandover p Result.granted Cause.away) (s.setAway k true)

theorem exec_away_away (tag : Byte) : exec (.away k tag 1) s = .next ((accept (s.goneAway k)
    [byte ((s.askedOf k).filter s.recheck).length,
     byte ((s.askedOf k).filter fun p => !s.recheck p).length]).deliver k tag 0x26) := by
  have denied : (s.askedOf k).length - ((s.askedOf k).filter s.recheck).length
      = ((s.askedOf k).filter fun p => !s.recheck p).length := by
    rw [List.length_eq_length_filter_add s.recheck, Nat.add_sub_cancel_left]
  rw [← denied]
  rfl

theorem State.goneAway_handsOver : (s.setAway k true).HandsOver (s.goneAway k) (s.askedOf k) :=
  State.grantHandovers_handsOver _ _ _ _

theorem State.goneAway_away : ((s.goneAway k).link k).away = true := by
  obtain ⟨-, -, -, -, -, -, away, -⟩ := (s.goneAway_handsOver k).offers k
  rw [away, State.setAway, State.setLink_link, if_pos rfl]

/-- A handover ends as the state before AWAY has it: the presence of the owner is not what it turns on. -/
theorem State.goneAway_asked {s : State} {k : Link} {p : Party} (hp : p ∈ s.askedOf k) :
    (s.goneAway k).party p = s.handedOver p :=
  State.grantHandovers_party _ _ _ (filter_allParties_nodup _) hp

end

/-- Settles O34: the handovers of `askedOf` end one after the other, and each as if it were the only one. -/
theorem awaySetsThePresenceAndGrantsHandovers : Obligations.AwaySetsThePresenceAndGrantsHandovers := by
  intro k tag s
  have hands := s.goneAway_handsOver k
  have spared {p : Party} (h : (s.party p).owner ≠ some k ∨ (s.party p).handover = none) : p ∉ s.askedOf k := fun hp => by
    obtain ⟨owner, pending⟩ := State.mem_askedOf.1 hp
    rcases h with stranger | free
    · exact stranger owner
    · rw [free] at pending
      exact absurd pending (by decide)
  have asked {p : Party} {h : Handover} (owner : (s.party p).owner = some k) (pending : (s.party p).handover = some h) :
      (s.goneAway k).party p = s.handedOver p := State.goneAway_asked (State.mem_askedOf.2 ⟨owner, by rw [pending]; rfl⟩)
  have granted := s.askedOf_filter k id
  simp only [id_eq] at granted
  refine ⟨rfl, s.goneAway k, by rw [exec_away_away, granted, s.askedOf_filter k not], s.goneAway_away k,
    fun p h owner pending control => ?_, fun p h owner pending control => ?_, fun p h => hands.party (spared h),
    fun g spares => hands.group fun p hp => spared (spares p hp), hands.offers, hands.form, hands.hold⟩
  · exact (asked owner pending).trans (State.handedOver_passes pending control)
  · exact (asked owner pending).trans (State.handedOver_stays pending control)

/-! ### The park timer -/

section
variable {s : State} {p : Party} {o : Link}

theorem exec_parkTimerExpiry_running (running : (s.party p).park.isSome = true) (owner : (s.party p).owner = some o) :
    exec (.parkTimerExpiry p) s = .next (s.parkExpired p o) := by
  have eq : exec (.parkTimerExpiry p) s = execParkTimerExpiry p s := rfl
  obtain ⟨left, park⟩ := Option.isSome_iff_exists.1 running
  rw [eq, execParkTimerExpiry, park, owner]

/-- Orphaning (R138). -/
theorem State.orphan_writes (owner : (s.party p).owner = some o) (cause : Nat) :
    s.writes (s.orphan p cause) p { s.party p with owner := none, lock := false, park := none }
      [{ event := { partyEvent .orphaned p with
           link := some o, value1 := some (s.party p).reminders, value2 := some cause },
         receives := fun j => s.views j p || o == j }] := by
  simp only [State.orphan, owner, Option.some_beq_some]
  exact s.writes_offerAll p _ _

/-- A reminder (R137). -/
theorem State.remind_writes (owner : (s.party p).owner = some o) :
    s.writes (s.remind p) p
      { s.party p with reminders := min 15 ((s.party p).reminders + 1), park := some (s.times.tprk * 1000) }
      [{ event := { partyEvent .parkRemind p with
           link := some o, value1 := some (min 15 ((s.party p).reminders + 1)), value2 := some s.times.nprk },
         receives := fun j => o == j }] := by
  have told : remindOffer (s.modParty p fun r => { r with reminders := min 15 (r.reminders + 1), park := some s.parkTime }) p
      = { event := { partyEvent .parkRemind p with
            link := some o, value1 := some (min 15 ((s.party p).reminders + 1)), value2 := some s.times.nprk },
          receives := fun j => o == j } := by
    simp only [remindOffer, State.modParty_party, if_true, State.modParty_times, owner, Option.some_beq_some]
  rw [State.remind, told]
  exact s.writes_offerAll p _ _

section
variable {h : Handover} (pending : (s.party p).handover = some h)
include pending

theorem State.parkHandover_passes (control : s.controls h.requester p = true) :
    s.passes (s.parkHandover p) p h.requester Cause.timeout
      [s.resultOf p h.requester Result.timeoutGranted (some h.requester)] [] := by
  rw [State.parkHandover, State.recheck_of_pending pending, if_pos control]
  exact State.grantHandover_passes pending control _ _

theorem State.parkHandover_stays (control : s.controls h.requester p = false) :
    s.writes (s.parkHandover p) p { s.party p with handover := none, park := some (s.times.tprk * 1000) }
      [s.resultOf p h.requester Result.deniedRegion (s.party p).owner] := by
  rw [State.parkHandover, State.recheck_of_pending pending, if_neg (ne_true_of_eq_false control)]
  exact State.writes_modParty (fun r => { r with park := some s.parkTime }) (State.grantHandover_stays pending control _ _)

end

end

/-- Settles O52: an expiry follows the lines of R137. -/
theorem theParkTimerRemindsThenOrphans : Obligations.TheParkTimerRemindsThenOrphans := by
  refine ⟨fun p s stopped => ?_, fun p o s running owner => ?_⟩
  · have eq : exec (.parkTimerExpiry p) s = execParkTimerExpiry p s := rfl
    rw [eq, execParkTimerExpiry, stopped]
  rw [exec_parkTimerExpiry_running running owner, State.parkExpired]
  refine ⟨fun away => ?_, fun here => ⟨fun early => ?_, fun least last => ?_⟩⟩
  · rw [if_pos away]
    exact ⟨_, rfl, State.orphan_writes owner _⟩
  all_goals rw [if_neg (ne_true_of_eq_false here)]
  · rw [if_pos early]
    exact ⟨_, rfl, State.remind_writes owner⟩
  rw [if_neg (by omega)]
  refine ⟨fun free => ?_, fun h pending control => ?_, fun h pending control => ?_⟩
  · rw [free, if_neg (by decide)]
    exact ⟨_, rfl, State.orphan_writes owner _⟩
  all_goals rw [pending, if_pos (Option.isSome_some)]
  · exact ⟨_, rfl, State.parkHandover_passes pending control⟩
  · rw [← owner]
    exact ⟨_, rfl, State.parkHandover_stays pending control⟩

end Sys2Proof.Machine

namespace Sys2Proof.Machine

/-! ### The requests that leave the base -/

/-- A request command but SKND, SREG, LREG, SPRT, STIM and SPAT leaves the base of the state as it was. -/
theorem asked_sameBase {c : Instr} {k : Link} {tag code : Byte} {ask : State → Answer}
    (h : asked c = some (k, tag, code, ask)) (hw : Instr.writesBase c = false) (s : State) : s.sameBase (ask s).state := by
  cases c <;> cases h
  case sknd | sreg | lreg | sprt | stim | spat => cases hw
  case unknownRequest | idnt | rdpt => exact s.sameBase_refl
  case rdrg => exact (askRdrg_sameBase _ _ _ s).symm ▸ s.sameBase_refl
  case rdqu => exact (askRdqu_same _ _ s).symm ▸ s.sameBase_refl
  case ansr => exact askAnsr_sameBase _ _ _
  case park => exact askPark_sameBase _ _ _
  case queu => exact askQueu_sameBase _ _ _ _
  case airp => exact askAirp_sameBase _ _ _
  case next => exact askNext_sameBase _ _ _
  case offa => exact askOffa_sameBase _ _ _
  case unqu => exact askUnqu_sameBase _ _ _
  case move => exact askMove_sameBase _ _ _ _
  case rlse => exact askRlse_sameBase _ _ _
  case loop => exact askLoop_sameBase _ _ _ _
  case lend => exact askLend_sameBase _ _ _
  case prst => exact askPrst_sameBase _ _ _
  case join => exact askJoin_sameBase _ _ _ _
  case leav => exact askLeav_sameBase _ _ _
  case lstn => exact askLstn_sameBase _ _ _ _
  case gain => exact askGain_sameBase _ _ _ _ _ _
  case talk => exact askTalk_sameBase _ _ _ _ _ _
  case tend => exact askTend_sameBase _ _ _ _
  case stlk => exact askStlk_sameBase _ _ _ _ _ _
  case take => exact askTake_sameBase _ _ _
  case give => exact askGive_sameBase _ _ _ _
  case keep => exact askKeep_sameBase _ _ _ _
  case tcan => exact askTcan_sameBase _ _ _
  case lock => exact askLock_sameBase _ _ _
  case ulck => exact askUlck_sameBase _ _ _
  case away => exact askAway_sameBase _ _ _
  case ssrc => exact askSsrc_sameBase _ _ _ _
  case shld => exact askShld_sameBase _ _ _ _
  case splt => exact askSplt_sameBase _ _ _
  case sflr => exact askSflr_sameBase _ _ _ _
  case emsk => exact askEmsk_sameBase _ _ _
  case ftch => exact askFtch_sameBase _ _ _
  case atcf => exact askAtcf_sameBase _ _ _ _
  case lrst => exact askLrst_sameBase _ _
  case rdpy => exact askRdpy_sameBase _ _ _
  case rdrt => exact askRdrt_sameBase _ _ _ _

/-! ### The entries of the region table -/

/-- A PARTIES entry runs over 1 to 24 parties and not past party 23 (R142). -/
def Cover.inRange (c : Cover) : Prop := ∀ f n, c = .parties f n → 1 ≤ n ∧ f + n ≤ 24

/-- The law of one entry (R142, R150). -/
def Region.lawful (r : Region) : Prop := (r.locked = true → r.valid = true) ∧ r.cover.inRange

/-- SREG reads no run of parties past the end (R148). -/
theorem coverArg_inRange {kd st f n : Byte} {c : Cover} (h : coverArg kd st f n = some c) : c.inRange := by
  unfold coverArg at h
  split at h
  · split at h
    · rename_i p m _ hm
      split at h <;> cases h
      rename_i fits
      have least : 1 ≤ m := by
        unfold rangeArg at hm
        split at hm <;> cases hm
        rename_i range
        exact range.1
      rintro _ _ ⟨⟩
      exact ⟨least, fits.2⟩
    · cases h
  · split at h
    · obtain ⟨x, -, rfl⟩ := Option.map_eq_some_iff.1 h
      rintro _ _ ⟨⟩
    · cases h

/-! ### SREG and LREG by cases -/

/-- An SREG is refused, or it writes a lawful content to an entry that is not locked (R148). -/
theorem askSreg_cases (k : Link) (b v kd st f n b0 b1 b2 : Byte) (s : State) :
    (∃ e, askSreg k b v kd st f n b0 b1 b2 s = refuse s e)
      ∨ ∃ i r, (s.region i).locked = false ∧ r.lawful
          ∧ askSreg k b v kd st f n b0 b1 b2 s = accept (s.setRegion i r) (regionData r) := by
  unfold askSreg
  split
  · rename_i i valid c _ _ hc
    split
    · unfold askSregIn
      split
      · exact .inl ⟨_, rfl⟩
      · split
        · exact .inl ⟨_, rfl⟩
        · rename_i free
          have unlocked : (s.region i).locked = false := eq_false_of_ne_true free
          split
          · exact .inl ⟨_, rfl⟩
          · refine .inr ⟨i, writtenRegion (s.region i) valid c _ _ _, unlocked, ⟨fun h => absurd h free, ?_⟩, rfl⟩
            exact coverArg_inRange hc
    · exact .inl ⟨_, rfl⟩
  · exact .inl ⟨_, rfl⟩

/-- An LREG is refused, or it locks a valid entry (R150). -/
theorem askLreg_cases (k : Link) (b : Byte) (s : State) :
    (∃ e, askLreg k b s = refuse s e)
      ∨ ∃ i, (s.region i).valid = true
          ∧ askLreg k b s = accept (s.setRegion i { s.region i with locked := true }) [] := by
  unfold askLreg
  split
  · exact .inl ⟨_, rfl⟩
  · split
    · exact .inl ⟨_, rfl⟩
    · split
      · exact .inl ⟨_, rfl⟩
      · rename_i i _ _ valid
        exact .inr ⟨i, by simpa using valid, rfl⟩

/-! ### Changes that keep the region table -/

/-- A lawful table stays lawful, and a locked entry stays as it is (R142, R150). -/
def State.keepsRegions (s t : State) : Prop :=
  (s.regionLaw → t.regionLaw) ∧ ∀ i, (s.region i).locked = true → t.region i = s.region i

theorem State.keepsRegions_of_eq {s t : State} (h : t.regions = s.regions) : s.keepsRegions t := by
  have same : ∀ i, t.region i = s.region i := fun i => by simp only [State.region, h]
  exact ⟨fun law i => same i ▸ law i, fun i _ => same i⟩

theorem State.keepsRegions_refl (s : State) : s.keepsRegions s := State.keepsRegions_of_eq rfl

theorem State.keepsRegions.trans {s t u : State} (h : s.keepsRegions t) (g : t.keepsRegions u) : s.keepsRegions u :=
  ⟨g.1 ∘ h.1, fun i locked => by rw [g.2 i (by rwa [h.2 i locked]), h.2 i locked]⟩

theorem State.sameBase.regions {s t : State} (h : s.sameBase t) : t.regions = s.regions := h.2.2.1

theorem State.sameBase.keepsRegions {s t : State} (h : s.sameBase t) : s.keepsRegions t :=
  State.keepsRegions_of_eq h.regions

theorem State.setRegion_keepsRegions {s : State} {i : Fin 8} {r : Region} (law : (s.region i).lawful → r.lawful)
    (kept : (s.region i).locked = true → r = s.region i) : s.keepsRegions (s.setRegion i r) := by
  refine ⟨fun h j => ?_, fun j locked => ?_⟩
  · rw [State.setRegion_region]
    split
    · exact law (h i)
    · exact h j
  · rw [State.setRegion_region]
    split
    · rename_i e
      subst e
      exact kept locked
    · rfl

theorem askSreg_keepsRegions (k : Link) (b v kd st f n b0 b1 b2 : Byte) (s : State) :
    s.keepsRegions (askSreg k b v kd st f n b0 b1 b2 s).state := by
  rcases askSreg_cases k b v kd st f n b0 b1 b2 s with ⟨e, eq⟩ | ⟨i, r, unlocked, lawful, eq⟩ <;> rw [eq]
  · exact s.keepsRegions_refl
  · exact State.setRegion_keepsRegions (fun _ => lawful) fun locked => by simp [unlocked] at locked

theorem askLreg_keepsRegions (k : Link) (b : Byte) (s : State) : s.keepsRegions (askLreg k b s).state := by
  rcases askLreg_cases k b s with ⟨e, eq⟩ | ⟨i, valid, eq⟩ <;> rw [eq]
  · exact s.keepsRegions_refl
  · refine State.setRegion_keepsRegions (fun law => ⟨fun _ => valid, law.2⟩) fun locked => ?_
    rw [← locked]

/-! ### The other requests that write the base leave the region table -/

section
variable (k : Link) (a b c d : Byte) (s : State)

theorem askSknd_regions : (askSknd k a b s).state.regions = s.regions := by
  unfold askSknd
  repeat' split
  all_goals simp [acceptNaming, accept, refuse, State.setKind]

theorem askSprt_regions (ss : List Byte) : (askSprt k a b ss s).state.regions = s.regions := by
  unfold askSprt askSprtIn
  dsimp only [accept, refuse]
  repeat' split
  all_goals simp [State.writePort, State.monitorsAfter]

theorem askStim_regions (v w x y z : Word16) : (askStim k v w x y z a b s).state.regions = s.regions := by
  unfold askStim
  repeat' split
  all_goals rfl

theorem askSpat_regions (e f g : Byte) : (askSpat k a b c d e f g s).state.regions = s.regions := by
  unfold askSpat
  repeat' split
  all_goals rfl

end

/-- Each request command keeps the region table. -/
theorem asked_keepsRegions {c : Instr} {k : Link} {tag code : Byte} {ask : State → Answer}
    (h : asked c = some (k, tag, code, ask)) (s : State) : s.keepsRegions (ask s).state := by
  cases hw : Instr.writesBase c
  case false => exact (asked_sameBase h hw s).keepsRegions
  case true =>
    cases c <;> first | (cases hw; done) | cases h
    case sknd => exact State.keepsRegions_of_eq (askSknd_regions _ _ _ s)
    case sreg => exact askSreg_keepsRegions _ _ _ _ _ _ _ _ _ _ s
    case lreg => exact askLreg_keepsRegions _ _ s
    case sprt => exact State.keepsRegions_of_eq (askSprt_regions _ _ _ s _)
    case stim => exact State.keepsRegions_of_eq (askStim_regions _ _ _ s _ _ _ _ _)
    case spat => exact State.keepsRegions_of_eq (askSpat_regions _ _ _ _ _ s _ _ _)

theorem askRequest_keepsRegions (k : Link) (r : Request) (s : State) : s.keepsRegions (askRequest k r s).state := by
  rcases askRequest_cases k r s with ⟨st, e⟩ | ⟨c, ask, hc, e⟩ <;> rw [e]
  · exact s.keepsRegions_refl
  · exact asked_keepsRegions hc s

/-! ### The links keep the region table -/

theorem State.keepsRegions.deliver {s : State} {a : Answer} (h : s.keepsRegions a.state) (k : Link) (tag code : Byte) :
    s.keepsRegions (a.deliver k tag code) := h.trans (State.keepsRegions_of_eq rfl)

section
variable (s : State) (k : Link)

theorem State.modLink_keepsRegions (f : LinkRec → LinkRec) : s.keepsRegions (s.modLink k f) := State.keepsRegions_of_eq rfl

theorem State.takeRequests_keepsRegions (n : Nat) : s.keepsRegions (s.takeRequests k n) := by
  induction n generalizing s with
  | zero => exact s.keepsRegions_refl
  | succ n ih =>
    unfold State.takeRequests
    split
    · exact s.keepsRegions_refl
    · split
      · exact ((s.modLink_keepsRegions k _).trans ((askRequest_keepsRegions k _ _).deliver k _ _)).trans (ih _)
      · exact s.keepsRegions_refl

theorem State.acceptFrame_keepsRegions (r : Request) : s.keepsRegions (s.acceptFrame k r) := by
  unfold State.acceptFrame
  split
  · exact (askLrst_sameBase k s).keepsRegions.deliver k _ _
  · split
    · exact (s.modLink_keepsRegions k _).trans (State.takeRequests_keepsRegions _ k _)
    · exact s.modLink_keepsRegions k _

end

/-! ### The ports, the monitor, the mixer and the timers leave the region table -/

section
variable (s : State) (x : PortId) (p : Party)

@[simp] theorem State.syncFound_regions : (s.syncFound x).regions = s.regions := by
  unfold State.syncFound
  dsimp only
  split <;> simp

@[simp] theorem State.syncLost_regions (cause : LossCause) : (s.syncLost x cause).regions = s.regions := by
  unfold State.syncLost
  dsimp only
  split <;> simp

@[simp] theorem State.misaligned_regions (cause : LossCause) : (s.misaligned x cause).regions = s.regions := by
  unfold State.misaligned
  dsimp only
  repeat' split
  all_goals simp

@[simp] theorem State.alignedFrame_regions : (s.alignedFrame x).regions = s.regions := by
  unfold State.alignedFrame
  dsimp only
  repeat' split
  all_goals simp

@[simp] theorem State.monitorFrame_regions (bits : BitVec 512) : (s.monitorFrame x bits).regions = s.regions :=
  foldl_keeps (fun t => t.regions) (fun (t : State) p => t.monitorWord p (lineWord bits (slotIndexOf p)))
    (fun t p => by rw [State.monitorWord_eq]) _ s

@[simp] theorem State.inboundFrame_regions (bits : BitVec 512) : (s.inboundFrame x bits).regions = s.regions := by
  have latched : ∀ t : State, (t.latch x bits).edge.regions = t.regions := fun t => State.setPort_regions t x _
  unfold State.inboundFrame
  rw [latched]
  repeat' split
  all_goals simp

@[simp] theorem State.clockMissed_regions : s.clockMissed.regions = s.regions :=
  foldl_keeps (fun t => t.regions) (fun (t : State) y => if (s.port y).sync = .locked then t.misaligned y .clock else t)
    (fun t y => by split <;> simp) _ s

@[simp] theorem State.graceExpired_regions : (s.graceExpired x).regions = s.regions :=
  (foldl_keeps (fun t => t.regions) State.portFailure (fun t p => (t.portFailure_sameBase p).regions) _ _).trans (by simp)

@[simp] theorem State.qualifyBy_regions (e : Pattern) : (s.qualifyBy p e).regions = s.regions := by rw [State.qualifyBy_eq]

@[simp] theorem State.completeRamp_regions (r : RampRef) : (s.completeRamp r).regions = s.regions := by cases r <;> rfl

theorem State.takeMeaning_sameBase (m : Meaning) : s.sameBase (s.takeMeaning p m) := by
  cases m
  case seize =>
    show s.sameBase (s.seized p)
    unfold State.seized
    split
    case h_1 | h_2 => exact s.toAlerting_sameBase p
    all_goals exact s.sameBase_refl
  case onhook =>
    show s.sameBase (s.onhook p)
    unfold State.onhook
    split
    case h_8 | h_9 => exact s.sameBase_refl
    all_goals exact s.toVacant_sameBase p _
  case flash =>
    show s.sameBase (s.flashed p)
    unfold State.flashed
    split
    · simp [State.sameBase]
    · exact s.sameBase_refl
  case fault =>
    show s.sameBase (s.faulted p)
    unfold State.faulted
    split
    · exact s.sameBase_refl
    · exact s.toFault_sameBase p _

theorem State.realert_sameBase : s.sameBase (s.realert p) := by simp [State.sameBase, State.realert]

theorem State.clearExpired_sameBase : s.sameBase (s.clearExpired p) := by
  unfold State.clearExpired
  split
  case h_1 => exact s.toVacant_sameBase p _
  case h_2 => simp [State.sameBase]
  all_goals exact s.sameBase_refl

theorem State.parkHandover_sameBase : s.sameBase (s.parkHandover p) := by
  unfold State.parkHandover
  split
  · exact s.grantHandover_sameBase p _ _
  · exact State.sameBase_trans (s.grantHandover_sameBase p Result.timeoutGranted Cause.timeout) (by simp [State.sameBase])

theorem State.parkExpired_sameBase (o : Link) : s.sameBase (s.parkExpired p o) := by
  unfold State.parkExpired
  split
  · exact s.orphan_sameBase p _
  · split
    · simp [State.sameBase, State.remind]
    · split
      · exact s.parkHandover_sameBase p
      · exact s.orphan_sameBase p _

end

/-! ### Every step keeps the region table -/

/-- Every command but POWER_ON_RESET keeps the region table. -/
theorem exec_keepsRegions {c : Instr} {s t : State} (hc : ∀ supv baud, c ≠ .powerOnReset supv baud)
    (e : exec c s = .next t) : s.keepsRegions t := by
  rcases ha : asked c with _ | ⟨k, tag, code, ask⟩
  case some =>
    rw [exec_asked ha] at e
    cases e
    exact (asked_keepsRegions ha s).deliver k tag code
  cases c <;> try (cases ha; done)
  case powerOnReset supv baud => exact absurd rfl (hc supv baud)
  case linkFrameReceived k f =>
    simp only [exec, execLinkFrameReceived] at e
    split at e <;> cases e
    · exact s.acceptFrame_keepsRegions k _
    · exact s.keepsRegions_refl
  case responseSent k =>
    simp only [exec, execResponseSent] at e
    split at e <;> cases e
    · exact s.keepsRegions_refl
    · exact (s.modLink_keepsRegions k _).trans (State.takeRequests_keepsRegions _ k _)
  case audioFrame => cases e; exact State.keepsRegions_of_eq rfl
  case rampComplete r => cases e; exact State.keepsRegions_of_eq (s.completeRamp_regions r)
  case inboundFrame x bits =>
    simp only [exec, execInboundFrame] at e
    split at e <;> cases e
    · exact State.keepsRegions_of_eq rfl
    · exact State.keepsRegions_of_eq (s.inboundFrame_regions x bits)
  case missingClockCheck => cases e; exact State.keepsRegions_of_eq s.clockMissed_regions
  case syncFound x => cases e; exact State.keepsRegions_of_eq (s.syncFound_regions x)
  case syncLost x cause => cases e; exact State.keepsRegions_of_eq (s.syncLost_regions x cause)
  case graceTimerExpiry x =>
    simp only [exec, execGraceTimerExpiry] at e
    split at e <;> cases e
    · exact State.keepsRegions_of_eq (s.graceExpired_regions x)
    · exact s.keepsRegions_refl
  case qualify p i =>
    simp only [exec, execQualify] at e
    split at e <;> cases e
    · exact State.keepsRegions_of_eq (s.qualifyBy_regions p _)
    · exact s.keepsRegions_refl
  case signalReport p m =>
    have taken : s.keepsRegions (s.takeReport p m) := State.keepsRegions_of_eq rfl
    simp only [exec, execSignalReport] at e
    split at e <;> cases e
    · exact taken.trans (State.takeMeaning_sameBase _ p m).keepsRegions
    · exact taken
  case realertTimerExpiry p =>
    simp only [exec, execRealertTimerExpiry] at e
    split at e <;> cases e
    · exact (s.realert_sameBase p).keepsRegions
    · exact s.keepsRegions_refl
  case clearTimerExpiry p =>
    simp only [exec, execClearTimerExpiry] at e
    split at e <;> cases e
    · exact (s.clearExpired_sameBase p).keepsRegions
    · exact s.keepsRegions_refl
  case oneSecondMark => cases e; exact State.keepsRegions_of_eq rfl
  case parkTimerExpiry p =>
    simp only [exec, execParkTimerExpiry] at e
    split at e <;> cases e
    · exact (s.parkExpired_sameBase p _).keepsRegions
    · exact s.keepsRegions_refl
  case grantTimerExpiry p =>
    simp only [exec, execGrantTimerExpiry] at e
    split at e <;> cases e
    · exact (s.grantHandover_sameBase p _ _).keepsRegions
    · exact s.keepsRegions_refl
  case shortWordClockPeriod => cases e; exact State.keepsRegions_of_eq s.clockMissed_regions
  case resetAsserted => cases e; exact State.keepsRegions_of_eq rfl

/-- Every command keeps the law of the region table: POWER_ON_RESET writes a table that has it. -/
theorem exec_regionLaw {c : Instr} {s t : State} (h : s.regionLaw) (e : exec c s = .next t) : t.regionLaw := by
  by_cases hc : ∃ supv baud, c = .powerOnReset supv baud
  · obtain ⟨supv, baud, rfl⟩ := hc
    cases e
    exact State.powerOn_regionLaw _ _ _
  · exact (exec_keepsRegions (fun supv baud reset => hc ⟨supv, baud, reset⟩) e).1 h

/-- Settles O54: SREG and LREG alone write the table, SREG no locked entry, and LREG leaves a locked one as it is. -/
theorem aLockedRegionKeepsItsContent : Obligations.ALockedRegionKeepsItsContent := by
  refine ⟨fun s t h e => ?_, fun c i r s t hc ⟨content, locked⟩ e => ?_⟩
  · unfold step at e
    split at e
    · rename_i c rest _
      exact exec_regionLaw (s := { s with pending := rest }) h e
    · unfold State.idle at e
      split at e
      · exact exec_regionLaw h e
      · cases e
        exact h
  · subst content
    exact ⟨(exec_keepsRegions hc e).2 i locked, locked⟩

end Sys2Proof.Machine

namespace Sys2Proof.Machine

/-! ### The bytes of SREG, read and written -/

theorem permsCode_of_permsArg {b : Byte} {p : Perms} (h : permsArg b = some p) : byte (permsCode p) = b := by
  have bits : ∀ c : Byte, c.toNat ≤ 7 →
      byte (permsCode { view := c.getLsbD 0, control := c.getLsbD 1, talk := c.getLsbD 2 }) = c := by decide
  unfold permsArg at h
  split at h <;> cases h
  exact bits b ‹_›

/-- An entry that is not locked is answered by the bytes that it was read from, and its cover as stored. -/
theorem regionData_of_args {v b0 b1 b2 : Byte} {valid : Bool} {p0 p1 p2 : Perms} (c : Cover) (hv : yesNoArg v = some valid)
    (h0 : permsArg b0 = some p0) (h1 : permsArg b1 = some p1) (h2 : permsArg b2 = some p2) :
    regionData { valid := valid, cover := c, perms := #v[p0, p1, p2], locked := false }
      = v :: [c.kindByte, byte c.run.1, byte c.run.2, c.studioByte] ++ [b0, b1, b2, 0] := by
  rw [regionData_eq]
  show yesNo valid :: _ ++ [byte (permsCode p0), byte (permsCode p1), byte (permsCode p2), 0] = _
  rw [yesNo_of_yesNoArg hv, permsCode_of_permsArg h0, permsCode_of_permsArg h1, permsCode_of_permsArg h2]

/-! ### Shadowing -/

theorem Region.coversParty_iff (r : Region) (p : Party) :
    r.coversParty p = true ↔ r.valid = true ∧ ∃ f n, r.cover = .parties f n ∧ f ≤ p.val ∧ p.val < f + n := by
  unfold Region.coversParty
  cases r.cover <;> simp

theorem Region.coversStudio_iff (r : Region) (x : Studio) :
    r.coversStudio x = true ↔ r.valid = true ∧ r.cover = .studio x := by
  unfold Region.coversStudio
  cases r.cover <;> simp

/-- Two runs in range meet in a party: the later of their first ones. -/
theorem Cover.parties_meet_iff {f n g m : Nat} (hn : 1 ≤ n ∧ f + n ≤ 24) (hm : 1 ≤ m ∧ g + m ≤ 24) :
    Cover.meets (.parties f n) (.parties g m) = true
      ↔ ∃ p : Party, (f ≤ p.val ∧ p.val < f + n) ∧ g ≤ p.val ∧ p.val < g + m := by
  simp only [Cover.meets, Bool.and_eq_true, decide_eq_true_eq]
  refine ⟨fun ⟨hf, hg⟩ => ⟨⟨max f g, by omega⟩, ?_⟩, fun ⟨p, hp, hq⟩ => by omega⟩
  show (f ≤ max f g ∧ max f g < f + n) ∧ g ≤ max f g ∧ max f g < g + m
  omega

section
variable {s : State} {r : Region} {i j : Fin 8}

/-- Two valid entries cover a party or a studio in common exactly where their runs or their studios meet (R149). -/
theorem State.covers_iff (hr : r.cover.inRange) (hj : (s.region j).cover.inRange) :
    s.covers r j ↔ r.valid = true ∧ (s.region j).valid = true ∧ r.cover.meets (s.region j).cover = true := by
  simp only [State.covers, Region.coversParty_iff, Region.coversStudio_iff]
  cases hc : r.cover with
  | parties f n =>
    cases hd : (s.region j).cover with
    | parties g m =>
      rw [Cover.parties_meet_iff (hr f n hc) (hj g m hd)]
      simp only [Cover.parties.injEq, reduceCtorEq, and_false, exists_false, or_false, and_assoc, exists_and_left,
        exists_eq_left', and_left_comm (b := (s.region j).valid = true)]
    | studio y => simp [Cover.meets]
  | studio x =>
    cases hd : (s.region j).cover with
    | parties g m => simp [Cover.meets]
    | studio y => simp [Cover.meets, and_assoc, eq_comm (a := y)]

theorem shadows_iff (hr : r.cover.inRange) (hj : (s.region j).lawful) (locked : (s.region j).locked = true) :
    shadows i r j s = true ↔ i < j ∧ s.covers r j := by
  rw [State.covers_iff hr hj.2]
  simp [shadows, hj.1 locked, and_assoc]

/-- Check 4 of R148 in the words of R149. -/
theorem State.wouldShadow_iff (h : s.regionLaw) (hr : r.cover.inRange) : s.wouldShadow i r = true
    ↔ ∃ j, i < j ∧ (s.region j).locked = true ∧ (s.covers (s.region i) j ∨ s.covers r j) := by
  simp only [State.wouldShadow, allRegions, List.any_eq_true, mem_upTo, true_and, Bool.and_eq_true, Bool.or_eq_true]
  refine exists_congr fun j => ?_
  constructor
  · rintro ⟨locked, hs⟩
    rw [shadows_iff (h i).2 (h j) locked, shadows_iff hr (h j) locked, ← and_or_left] at hs
    exact ⟨hs.1, locked, hs.2⟩
  · rintro ⟨above, locked, hs⟩
    rw [shadows_iff (h i).2 (h j) locked, shadows_iff hr (h j) locked, ← and_or_left]
    exact ⟨locked, above, hs⟩

end

/-! ### SREG and LREG by the supervisor -/

section
variable {s : State} {b v kd st f n b0 b1 b2 : Byte} {i : Fin 8} {valid : Bool} {c : Cover} {p0 p1 p2 : Perms}

theorem askSreg_of_args (hb : numberArg 8 b = some i) (hv : yesNoArg v = some valid) (hc : coverArg kd st f n = some c)
    (h0 : permsArg b0 = some p0) (h1 : permsArg b1 = some p1) (h2 : permsArg b2 = some p2) (k : Link) :
    askSreg k b v kd st f n b0 b1 b2 s = askSregIn k i (writtenRegion (s.region i) valid c p0 p1 p2) s := by
  simp only [askSreg, hb, hv, hc, h0, h1, h2]

variable {r : Region}

theorem askSregIn_accepted (free : (s.region i).locked = false) (unshadowing : s.wouldShadow i r = false) :
    askSregIn s.supervisor i r s = accept (s.setRegion i r) (regionData r) := by
  simp [askSregIn, free, unshadowing]

theorem askSregIn_refused (h : (s.region i).locked = true ∨ s.wouldShadow i r = true) :
    askSregIn s.supervisor i r s = refuse s .regionLocked := by
  rw [askSregIn, if_neg (not_not_intro rfl)]
  split
  · rfl
  · rename_i free
    rw [if_pos (h.resolve_left free)]

theorem askLreg_accepted (hb : numberArg 8 b = some i) (hv : (s.region i).valid = true) :
    askLreg s.supervisor b s = accept (s.setRegion i { s.region i with locked := true }) [] := by
  simp [askLreg, hb, hv]

end

theorem State.setRegion_frame (s : State) (i : Fin 8) (r : Region) :
    s.setRegion i r = { s with regions := (s.setRegion i r).regions } ∧ (s.setRegion i r).region i = r
      ∧ ∀ j, j ≠ i → (s.setRegion i r).region j = s.region j :=
  ⟨rfl, by rw [State.setRegion_region, if_pos rfl], fun j other => by rw [State.setRegion_region, if_neg other]⟩

/-- Settles O35: in a lawful table the meeting of runs and studios that check 4 of R148 computes is the covering of a party or a
studio in common. -/
theorem sregWritesAnEntryAndLregLocksIt : Obligations.SregWritesAnEntryAndLregLocksIt := by
  intro tag b v kd st f n b0 b1 b2 i valid c p0 p1 p2 s law hb
  refine ⟨fun hv hc h0 h1 h2 => ?_, fun hvalid => ⟨_, ?_, s.setRegion_frame i _⟩⟩
  · have taken : exec (.sreg s.supervisor tag b v kd st f n b0 b1 b2) s = .next
        ((askSregIn s.supervisor i (writtenRegion (s.region i) valid c p0 p1 p2) s).deliver s.supervisor tag 0x28) := by
      rw [exec_asked (c := .sreg s.supervisor tag b v kd st f n b0 b1 b2) rfl, askSreg_of_args hb hv hc h0 h1 h2]
    intro r
    have range : r.cover.inRange := coverArg_inRange hc
    have written (free : (s.region i).locked = false) : writtenRegion (s.region i) valid c p0 p1 p2 = r := by
      rw [writtenRegion, free]
    refine ⟨fun free apart => ⟨s.setRegion i r, ?_, s.setRegion_frame i r⟩, fun guarded => ?_⟩
    · have unshadowing : s.wouldShadow i r = false := eq_false_of_ne_true fun shadowed => by
        obtain ⟨j, above, locked, covers⟩ := (State.wouldShadow_iff law range).1 shadowed
        exact covers.elim (apart j above locked).1 (apart j above locked).2
      rw [taken, written free, askSregIn_accepted free unshadowing, regionData_of_args c hv h0 h1 h2]
      cases c <;> rfl
    · rw [taken, askSregIn_refused]
      cases free : (s.region i).locked with
      | true => exact .inl rfl
      | false =>
        rw [written free]
        exact .inr ((State.wouldShadow_iff law range).2 (guarded.resolve_left (ne_true_of_eq_false free)))
  · rw [exec_asked (c := .lreg s.supervisor tag b) rfl, askLreg_accepted hb hvalid]

end Sys2Proof.Machine

namespace Sys2Proof.Machine

/-! ### The alignment check on the record of a port -/

/-- The record of a port after a misaligned frame (R160, R161). -/
def PortRec.misaligned (r : PortRec) : PortRec :=
  match r.sync with
  | .locked =>
    if 3 ≤ r.missed + 1 then { r with sync := .grace, aligned := 0, missed := 0, grace := some 250 }
    else { r with aligned := 0, missed := r.missed + 1 }
  | .disabled => r
  | .seeking | .grace | .failed => { r with aligned := 0 }

/-- The record of a port after an aligned frame (R160, R161). -/
def PortRec.realigned (r : PortRec) : PortRec :=
  match r.sync with
  | .disabled => r
  | .locked => { r with aligned := min 4 (r.aligned + 1), missed := 0 }
  | .seeking | .grace | .failed =>
    if 4 ≤ r.aligned + 1 then { r with sync := .locked, aligned := 4, missed := 0, grace := none }
    else { r with aligned := r.aligned + 1, missed := 0 }

section
variable {r : PortRec}

theorem SyncState.searching_cases {y : SyncState} (enabled : y ≠ .disabled) (out : y ≠ .locked) :
    y = .seeking ∨ y = .grace ∨ y = .failed := by
  cases y <;> simp_all

theorem PortRec.misaligned_kept (h : r.sync = .locked) (few : r.missed + 1 < 3) :
    r.misaligned = { r with aligned := 0, missed := r.missed + 1 } := by
  simp only [PortRec.misaligned, h, if_neg (Nat.not_le.2 few)]

theorem PortRec.misaligned_lost (h : r.sync = .locked) (third : 3 ≤ r.missed + 1) :
    r.misaligned = { r with sync := .grace, aligned := 0, missed := 0, grace := some 250 } := by
  simp only [PortRec.misaligned, h, if_pos third]

theorem PortRec.misaligned_searching (h : r.sync = .seeking ∨ r.sync = .grace ∨ r.sync = .failed) :
    r.misaligned = { r with aligned := 0 } := by
  rcases h with h | h | h <;> simp only [PortRec.misaligned, h]

theorem PortRec.realigned_locked (h : r.sync = .locked) :
    r.realigned = { r with aligned := min 4 (r.aligned + 1), missed := 0 } := by
  simp only [PortRec.realigned, h]

theorem PortRec.realigned_searching (h : r.sync = .seeking ∨ r.sync = .grace ∨ r.sync = .failed)
    (few : r.aligned + 1 < 4) : r.realigned = { r with aligned := r.aligned + 1, missed := 0 } := by
  rcases h with h | h | h <;> simp only [PortRec.realigned, h, if_neg (Nat.not_le.2 few)]

theorem PortRec.realigned_found (h : r.sync = .seeking ∨ r.sync = .grace ∨ r.sync = .failed)
    (fourth : 4 ≤ r.aligned + 1) : r.realigned = { r with sync := .locked, aligned := 4, missed := 0, grace := none } := by
  rcases h with h | h | h <;> simp only [PortRec.realigned, h, if_pos fourth]

theorem PortRec.realigned_missed (enabled : r.sync ≠ .disabled) : r.realigned.missed = 0 := by
  unfold PortRec.realigned
  repeat' split
  case h_1 disabled => exact absurd disabled enabled
  all_goals rfl

theorem PortRec.misaligned_aligned (enabled : r.sync ≠ .disabled) : r.misaligned.aligned = 0 := by
  unfold PortRec.misaligned
  repeat' split
  case h_2 disabled => exact absurd disabled enabled
  all_goals rfl

theorem PortRec.misaligned_settings (r : PortRec) : r.misaligned.enable = r.enable ∧ r.misaligned.slots = r.slots := by
  unfold PortRec.misaligned
  repeat' split
  all_goals exact ⟨rfl, rfl⟩

theorem PortRec.realigned_settings (r : PortRec) : r.realigned.enable = r.enable ∧ r.realigned.slots = r.slots := by
  unfold PortRec.realigned
  repeat' split
  all_goals exact ⟨rfl, rfl⟩

end

/-! ### What a check of one port changes -/

/-- Beside the ports only the monitor and the links may have changed. -/
def State.checkForm (s t : State) : Prop := t = { s with ports := t.ports, smon := t.smon, links := t.links }

theorem State.checkForm.trans {s t u : State} (h : s.checkForm t) (g : t.checkForm u) : s.checkForm u := by
  unfold State.checkForm at h g ⊢
  rw [h] at g
  exact g

theorem State.checkForm.tbase {s t : State} (h : s.checkForm t) : t.tbase = s.tbase := by
  unfold State.checkForm at h
  rw [h]

/-- A check of port `x` leaves it with the record `r`. -/
structure State.Checks (s t : State) (x : PortId) (r : PortRec) : Prop where
  port : t.port x = r
  others : ∀ y, y ≠ x → t.port y = s.port y
  form : s.checkForm t

theorem State.setPort_checks (s : State) (x : PortId) (r : PortRec) : s.Checks (s.setPort x r) x r :=
  ⟨s.setPort_port_same x r, fun y other => s.setPort_port_other x y r other, by cases x <;> rfl⟩

theorem State.synced_checks (s : State) (x : PortId) (r : PortRec) (f : Monitor → Monitor) (o : Offer) :
    s.Checks (s.synced x r f o) x r where
  port := s.synced_port x r f o
  others := s.synced_port_other x r f o
  form := by
    unfold State.checkForm
    rw [s.synced_form]

theorem State.checks_self (s : State) (x : PortId) : s.Checks s x (s.port x) := ⟨rfl, fun _ _ => rfl, rfl⟩

section
variable (s : State) (x : PortId)

theorem State.misaligned_of_kept (cause : LossCause) (kept : (s.port x).sync = .locked → (s.port x).missed + 1 < 3)
    (enabled : (s.port x).sync ≠ .disabled) : s.misaligned x cause = s.setPort x (s.port x).misaligned := by
  by_cases locked : (s.port x).sync = .locked
  · simp only [State.misaligned, PortRec.misaligned, locked, if_neg (Nat.not_le.2 (kept locked))]
  · rcases SyncState.searching_cases enabled locked with h | h | h <;> simp only [State.misaligned, PortRec.misaligned, h]

theorem State.misaligned_checks (cause : LossCause) : s.Checks (s.misaligned x cause) x (s.port x).misaligned := by
  by_cases disabled : (s.port x).sync = .disabled
  · simp only [State.misaligned, PortRec.misaligned, disabled]
    exact s.checks_self x
  by_cases lost : (s.port x).sync = .locked ∧ 3 ≤ (s.port x).missed + 1
  · obtain ⟨locked, third⟩ := lost
    have e : s.misaligned x cause = s.syncLost x cause := by simp only [State.misaligned, locked, if_pos third]
    rw [e, State.syncLost_locked locked, PortRec.misaligned_lost locked third]
    exact s.synced_checks x _ _ _
  · rw [s.misaligned_of_kept x cause (fun locked => Nat.not_le.1 fun third => lost ⟨locked, third⟩) disabled]
    exact s.setPort_checks x _

theorem State.alignedFrame_of_unfound (unfound : (s.port x).sync ≠ .locked → (s.port x).aligned + 1 < 4)
    (enabled : (s.port x).sync ≠ .disabled) : s.alignedFrame x = s.setPort x (s.port x).realigned := by
  by_cases locked : (s.port x).sync = .locked
  · simp only [State.alignedFrame, PortRec.realigned, locked]
  · have few := Nat.not_le.2 (unfound locked)
    rcases SyncState.searching_cases enabled locked with h | h | h <;>
      simp only [State.alignedFrame, PortRec.realigned, h, if_neg few]

theorem State.alignedFrame_checks (enabled : (s.port x).sync ≠ .disabled) :
    s.Checks (s.alignedFrame x) x (s.port x).realigned := by
  by_cases found : (s.port x).sync ≠ .locked ∧ 4 ≤ (s.port x).aligned + 1
  · obtain ⟨out, fourth⟩ := found
    have searching := SyncState.searching_cases enabled out
    have e : s.alignedFrame x = s.syncFound x := by
      rcases searching with h | h | h <;> simp only [State.alignedFrame, h, if_pos fourth]
    rw [e, State.syncFound_found searching, PortRec.realigned_found searching fourth]
    exact s.synced_checks x _ _ _
  · rw [s.alignedFrame_of_unfound x (fun out => Nat.not_le.1 fun fourth => found ⟨out, fourth⟩) enabled]
    exact s.setPort_checks x _

end

/-! ### An inbound frame -/

section
variable (s : State) (x : PortId) (bits : BitVec 512)

/-- A monitored frame changes the monitor alone (R34). -/
theorem State.monitorFrame_form : ∃ m, s.monitorFrame x bits = { s with smon := m } := by
  unfold State.monitorFrame
  generalize (partiesOf x).filter s.inService = ps
  induction ps generalizing s with
  | nil => exact ⟨s.smon, rfl⟩
  | cons p ps ih =>
    obtain ⟨m, hm⟩ := ih (s.monitorWord p (lineWord bits (slotIndexOf p)))
    rw [State.monitorWord_eq] at hm
    exact ⟨m, (congrArg (ps.foldl _) (s.monitorWord_eq p _)).trans hm⟩

/-- The state `u` after the check, with what was monitored, and with the frame kept for its audio frame. -/
theorem State.inboundFrame_of_checked {u : State}
    (h : (if alignmentOf bits = Config.alignmentCode then s.alignedFrame x else s.misaligned x .alignment) = u) :
    ∃ m, s.inboundFrame x bits = (({ u with smon := m } : State).latch x bits).edge := by
  unfold State.inboundFrame
  rw [h]
  dsimp only
  split
  · obtain ⟨m, hm⟩ := u.monitorFrame_form x bits
    exact ⟨m, by rw [hm]⟩
  · exact ⟨u.smon, rfl⟩

end

/-- The state `t` after a frame of port `x`, whose check left the record `r`; the frame is kept with it. -/
structure State.Receives (s t : State) (x : PortId) (r : PortRec) (bits : BitVec 512) : Prop where
  port : t.port x = { r with inbound := some bits }
  others : ∀ y, y ≠ x → t.port y = s.port y
  tbase : t.tbase = { s.tbase with edgeSeen := true }
  form : t = { s with ports := t.ports, smon := t.smon, links := t.links, tbase := t.tbase }

section
variable {s u : State} {x : PortId} {r : PortRec}

theorem State.Checks.receives (h : s.Checks u x r) (m : Smon) (bits : BitVec 512) :
    s.Receives (({ u with smon := m } : State).latch x bits).edge x r bits where
  port := by
    rw [← h.port]
    cases x <;> rfl
  others y other := (({ u with smon := m } : State).setPort_port_other x y _ other).trans
    (by rw [← h.others y other]; cases y <;> rfl)
  tbase := by
    rw [← h.form.tbase]
    cases x <;> rfl
  form := by
    obtain ⟨-, -, form⟩ := h
    rw [form]
    cases x <;> rfl

theorem State.inboundFrame_aligned (enabled : (s.port x).sync ≠ .disabled) {bits : BitVec 512}
    (code : bits.extractLsb' 496 16 = 0xB16D#16) :
    s.Receives (s.inboundFrame x bits) x (s.port x).realigned bits ∧ (s.inboundFrame x bits).links = (s.alignedFrame x).links := by
  obtain ⟨m, hm⟩ := s.inboundFrame_of_checked x bits (if_pos (show alignmentOf bits = Config.alignmentCode from code))
  rw [hm]
  exact ⟨(s.alignedFrame_checks x enabled).receives m bits, State.setPort_links _ x _⟩

theorem State.inboundFrame_misaligned {bits : BitVec 512} (code : bits.extractLsb' 496 16 ≠ 0xB16D#16) :
    s.Receives (s.inboundFrame x bits) x (s.port x).misaligned bits
      ∧ (s.inboundFrame x bits).links = (s.misaligned x .alignment).links := by
  obtain ⟨m, hm⟩ := s.inboundFrame_of_checked x bits (if_neg (show ¬ alignmentOf bits = Config.alignmentCode from code))
  rw [hm]
  exact ⟨(s.misaligned_checks x .alignment).receives m bits, State.setPort_links _ x _⟩

end

/-! ### A missing clock -/

/-- What port `y`, LOCKED in `s`, counts for want of the clock in the state `t` (R160). -/
def State.countMissing (s t : State) (y : PortId) : State :=
  if (s.port y).sync = .locked then t.misaligned y .clock else t

theorem State.countMissing_checks (s t : State) (y : PortId) :
    t.Checks (s.countMissing t y) y (if (s.port y).sync = .locked then (t.port y).misaligned else t.port y) := by
  unfold State.countMissing
  split
  · exact t.misaligned_checks y .clock
  · exact t.checks_self y

/-- Each port of a list counts once, and independently of the others. -/
theorem State.countMissing_foldl (s : State) {xs : List PortId} (once : xs.Nodup) (t : State) :
    t.checkForm (xs.foldl s.countMissing t)
      ∧ (∀ y, y ∉ xs → (xs.foldl s.countMissing t).port y = t.port y)
      ∧ ∀ y, y ∈ xs → (xs.foldl s.countMissing t).port y
          = if (s.port y).sync = .locked then (t.port y).misaligned else t.port y := by
  induction xs generalizing t with
  | nil => exact ⟨rfl, fun _ _ => rfl, fun y h => absurd h List.not_mem_nil⟩
  | cons x xs ih =>
    obtain ⟨fresh, once⟩ := List.nodup_cons.1 once
    obtain ⟨form, outside, inside⟩ := ih once (s.countMissing t x)
    obtain ⟨port, others, first⟩ := s.countMissing_checks t x
    refine ⟨first.trans form, fun y out => ?_, fun y mem => ?_⟩
    · obtain ⟨other, out⟩ := not_or.1 (mt List.mem_cons.2 out)
      exact (outside y out).trans (others y other)
    · rcases List.mem_cons.1 mem with rfl | later
      · exact (outside y fresh).trans port
      · have other : y ≠ x := fun e => fresh (e ▸ later)
        exact (inside y later).trans (by rw [others y other])

theorem State.clockMissed_form (s : State) : s.checkForm s.clockMissed :=
  (s.countMissing_foldl (xs := [.lp0, .lp1, .sp]) (by decide) s).1

theorem State.clockMissed_port (s : State) (x : PortId) :
    s.clockMissed.port x = if (s.port x).sync = .locked then (s.port x).misaligned else s.port x :=
  (s.countMissing_foldl (xs := [.lp0, .lp1, .sp]) (by decide) s).2.2 x (by cases x <;> decide)

/-- Settles O47: the check moves the record of the port by `PortRec.realigned` or `PortRec.misaligned`, and a missing clock
every record of a LOCKED port by the latter. -/
theorem alignmentRunsFindAndLoseSync : Obligations.AlignmentRunsFindAndLoseSync := by
  refine ⟨fun x bits s enabled => ⟨s.inboundFrame x bits, if_neg enabled, ?_⟩, fun x bits s disabled => if_pos disabled,
    fun c s clock => ?_⟩
  · by_cases code : bits.extractLsb' 496 16 = 0xB16D#16
    · obtain ⟨⟨port, others, tbase, form⟩, links⟩ := State.inboundFrame_aligned enabled code
      obtain ⟨enable, slots⟩ := (s.port x).realigned_settings
      rw [port]
      refine ⟨others, tbase, enable, slots, form, fun _ => ⟨PortRec.realigned_missed enabled, fun locked => ?_,
        fun out few => ?_, fun out fourth => ?_⟩, absurd code⟩
      · rw [links, PortRec.realigned_locked locked, s.alignedFrame_of_unfound x (absurd locked) enabled, State.setPort_links]
        exact ⟨locked, rfl, rfl, rfl⟩
      · rw [links, PortRec.realigned_searching (SyncState.searching_cases enabled out) few,
          s.alignedFrame_of_unfound x (fun _ => few) enabled, State.setPort_links]
        exact ⟨rfl, rfl, rfl, rfl⟩
      · rw [PortRec.realigned_found (SyncState.searching_cases enabled out) fourth]
        exact ⟨rfl, rfl, rfl⟩
    · obtain ⟨⟨port, others, tbase, form⟩, links⟩ := State.inboundFrame_misaligned (s := s) (x := x) code
      obtain ⟨enable, slots⟩ := (s.port x).misaligned_settings
      rw [port]
      refine ⟨others, tbase, enable, slots, form, fun right => absurd right code,
        fun _ => ⟨PortRec.misaligned_aligned enabled, fun out => ?_, fun locked few => ?_, fun locked third => ?_⟩⟩
      · rw [links, PortRec.misaligned_searching (SyncState.searching_cases enabled out),
          s.misaligned_of_kept x _ (fun locked => absurd locked out) enabled, State.setPort_links]
        exact ⟨rfl, rfl, rfl, rfl⟩
      · rw [links, PortRec.misaligned_kept locked few, s.misaligned_of_kept x _ (fun _ => few) enabled, State.setPort_links]
        exact ⟨locked, rfl, rfl, rfl⟩
      · rw [PortRec.misaligned_lost locked third]
        exact ⟨rfl, rfl, rfl⟩
  · have unlocked (x) (out : (s.port x).sync ≠ .locked) : s.clockMissed.port x = s.port x :=
      (s.clockMissed_port x).trans (if_neg out)
    have counted (x) (locked : (s.port x).sync = .locked) : s.clockMissed.port x = (s.port x).misaligned :=
      (s.clockMissed_port x).trans (if_pos locked)
    have kept x locked few := (counted x locked).trans (PortRec.misaligned_kept locked few)
    have lost x locked third := (counted x locked).trans (PortRec.misaligned_lost locked third)
    have form : s.clockMissed = _ := s.clockMissed_form
    have tbase := s.clockMissed_form.tbase
    rcases clock with rfl | rfl
    · exact ⟨{ s.clockMissed with tbase := { s.clockMissed.tbase with checkDue := false } }, rfl, by rw [form],
        unlocked, kept, lost, fun _ => by rw [tbase], nofun⟩
    · exact ⟨s.clockMissed.edge, rfl, by rw [form]; rfl, unlocked, kept, lost, nofun, fun _ => by rw [← tbase]; rfl⟩

end Sys2Proof.Machine

namespace Sys2Proof.Machine

/-! ### The bounds of a link -/

/-- A link within its bounds: its event queue, its request buffer, and its OVERRUN responses that have not begun (R169, R171,
R173). -/
def LinkRec.inRoom (l : LinkRec) : Prop :=
  l.events.length ≤ 48 ∧ l.requests.length ≤ 4 ∧ (l.waiting.filter Response.isOverrun).length ≤ 4

theorem State.linkLaws_iff (s : State) : s.eventLaw ∧ s.bufferLaw ↔ ∀ k, (s.link k).inRoom :=
  ⟨fun h k => ⟨h.1 k, h.2 k⟩, fun h => ⟨fun k => (h k).1, fun k => (h k).2⟩⟩

section
variable {l m : LinkRec} (h : l.inRoom)
include h

/-- Offered events leave the link within its bounds (R174). -/
theorem LinkRec.inRoom.received (es : List Event) : (es.foldl LinkRec.receive l).inRoom := by
  obtain ⟨events, requests, overruns⟩ := h
  obtain ⟨same, -, waiting, -⟩ := foldl_receive_offered es l
  exact ⟨foldl_receive_length es l events, same ▸ requests, waiting ▸ overruns⟩

theorem LinkRec.inRoom.summariseAll : l.summariseAll.inRoom := by
  obtain ⟨events, requests, overruns⟩ := h
  obtain ⟨same, -, waiting, -⟩ := l.summariseAll_kept
  exact ⟨l.summariseAll_length events, same ▸ requests, waiting ▸ overruns⟩

/-- A response to a taken request adds to no bounded list (R169). -/
theorem LinkRec.inRoom.respond {r : Response} (hr : r.isOverrun = false) : (l.respond r).inRoom := by
  have joined : ({ l with waiting := l.waiting ++ [r] } : LinkRec).inRoom :=
    ⟨h.1, h.2.1, by simpa [List.filter_append, hr] using h.2.2⟩
  unfold LinkRec.respond
  split
  · split
    · exact h
    · exact joined
  · exact joined

/-- A refused frame adds an OVERRUN response only where fewer than four wait (R169). -/
theorem LinkRec.inRoom.overrun (r : Response) : (l.overrun r).inRoom := by
  unfold LinkRec.overrun
  split
  · exact h
  · rename_i few
    split
    · exact h
    · refine ⟨h.1, h.2.1, ?_⟩
      have one : ([r].filter Response.isOverrun).length ≤ 1 := List.length_filter_le _ _
      have none : ((l.waiting.filter fun x => !x.isOverrun).filter Response.isOverrun) = [] := by
        simp [List.filter_filter]
      have bound : (l.waiting.filter Response.isOverrun).length < 4 := by simpa [Config.overrunRoom] using few
      have twice : (l.waiting.filter Response.isOverrun).filter Response.isOverrun = l.waiting.filter Response.isOverrun :=
        List.filter_eq_self.2 fun _ hx => (List.mem_filter.1 hx).2
      simp only [List.filter_append, List.length_append, none, twice, List.length_nil]
      omega

end

/-! ### What every command but POWER_ON_RESET keeps of the links -/

/-- The values of the straps stay, and a link within its bounds stays within them. -/
def State.keepsLinks (s t : State) : Prop :=
  t.supervisor = s.supervisor ∧ t.rate = s.rate ∧ ∀ k, (s.link k).inRoom → (t.link k).inRoom

theorem State.keepsLinks_refl (s : State) : s.keepsLinks s := ⟨rfl, rfl, fun _ h => h⟩

theorem State.keepsLinks.trans {s t u : State} (h : s.keepsLinks t) (g : t.keepsLinks u) : s.keepsLinks u :=
  ⟨g.1.trans h.1, g.2.1.trans h.2.1, fun k hk => g.2.2 k (h.2.2 k hk)⟩

theorem State.modLink_keepsLinks (s : State) (k : Link) {f : LinkRec → LinkRec}
    (hf : (s.link k).inRoom → (f (s.link k)).inRoom) : s.keepsLinks (s.modLink k f) := by
  refine ⟨rfl, rfl, fun j hj => ?_⟩
  rw [State.modLink_link]
  split
  · rename_i e
    subst e
    exact hf hj
  · exact hj

/-- A change that at the links only offers events. -/
def State.tells (s t : State) : Prop :=
  t.supervisor = s.supervisor ∧ t.rate = s.rate ∧ ∃ os, s.offersExactly t os

theorem State.tells_refl (s : State) : s.tells s := ⟨rfl, rfl, [], s.offersExactly_refl⟩

theorem State.tells.trans {s t u : State} (h : s.tells t) (g : t.tells u) : s.tells u := by
  obtain ⟨hs, hr, l, hl⟩ := h
  obtain ⟨gs, gr, m, gm⟩ := g
  exact ⟨gs.trans hs, gr.trans hr, l ++ m, hl.trans gm⟩

theorem State.tells.keepsLinks {s t : State} (h : s.tells t) : s.keepsLinks t := by
  obtain ⟨hs, hr, os, ho⟩ := h
  exact ⟨hs, hr, fun k hk => by rw [ho k]; exact hk.received _⟩

theorem State.tells_of_eq {s t : State} (hl : t.links = s.links) (hs : t.supervisor = s.supervisor) (hr : t.rate = s.rate) :
    s.tells t :=
  ⟨hs, hr, [], fun k => by simp [State.link, hl]⟩

theorem State.offerAll_tells (s : State) (os : List Offer) : s.tells (s.offerAll os) :=
  ⟨s.offerAll_supervisor os, s.offerAll_rate os, os, s.offerAll_link os⟩

theorem tells_foldl {α : Type} (f : State → α → State) (h : ∀ (s : State) (a : α), s.tells (f s a)) (l : List α) (s : State) :
    s.tells (l.foldl f s) := by
  induction l generalizing s with
  | nil => exact s.tells_refl
  | cons a l ih => exact (h s a).trans (ih _)

/-! ### The shared operations at the links -/

/-- A transition offers its events after a change that tells the links nothing else (R27). -/
theorem State.tells.conclude {s t : State} (h : s.tells t) (b : State) (p : Party) (j : Option Link) (call : List Event)
    (tail : List Offer) : s.tells (t.conclude b p j call tail) :=
  (h.trans (t.offerAll_tells _)).trans (State.tells_of_eq (t.conclude_links b p j call tail) (by simp) (by simp))

section
variable (s : State) (p : Party)

theorem State.toVacant_tells (call : State → State → List Event) : s.tells (s.toVacant p call) :=
  (State.tells_of_eq (by simp) (by simp) (by simp)).conclude _ _ _ _ _

theorem State.toFault_tells (cause : Nat) : s.tells (s.toFault p cause) :=
  (State.tells_of_eq (by simp) (by simp) (by simp)).conclude _ _ _ _ _

theorem State.toAlerting_tells : s.tells (s.toAlerting p) :=
  (State.tells_of_eq (by simp) (by simp) (by simp)).conclude _ _ _ _ _

theorem State.toParked_tells (k : Link) : s.tells (s.toParked p k) :=
  (State.tells_of_eq (by simp) (by simp) (by simp)).conclude _ _ _ _ _

theorem State.toAir_tells (n : AirSlot) (k : Link) : s.tells (s.toAir p n k) :=
  (State.tells_of_eq (by simp) (by simp) (by simp)).conclude _ _ _ _ _

theorem State.toQueue_tells (x : Studio) (k : Link) : s.tells (s.toQueue p x k) :=
  (State.tells_of_eq (by simp) (by simp) (by simp)).conclude _ _ _ _ _

theorem State.answer_tells (k : Link) : s.tells (s.answer p k) :=
  (State.tells_of_eq (by simp) (by simp) (by simp)).conclude _ _ _ _ _

theorem State.release_tells (k : Link) : s.tells (s.release p k) :=
  (State.tells_of_eq (by simp) (by simp) (by simp)).conclude _ _ _ _ _

theorem State.startLoop_tells (src : Source) (k : Link) : s.tells (s.startLoop p src k) :=
  (State.tells_of_eq (by simp) (by simp) (by simp)).conclude _ _ _ _ _

theorem State.partyReset_tells : s.tells (s.partyReset p) :=
  (State.tells_of_eq (by simp) (by simp) (by simp)).conclude _ _ _ _ _

theorem State.portFailure_tells : s.tells (s.portFailure p) := by
  unfold State.portFailure
  split
  case h_7 => exact s.toVacant_tells p _
  case h_8 | h_9 => exact s.tells_refl
  all_goals exact s.toFault_tells p _

theorem State.ownerNamed_tells (k : Link) : s.tells (s.ownerNamed k p) :=
  State.tells_of_eq (by simp) (by simp) (by simp)

theorem State.passTo_tells (r : Link) (cause : Nat) (first last : List Offer) : s.tells (s.passTo p r cause first last) := by
  have transfer : s.tells (s.transferTo p r) := State.tells_of_eq rfl rfl rfl
  exact (transfer.trans (State.offerAll_tells _ _)).trans
    (State.tells_of_eq (s.passTo_links p r cause first last) (by simp [State.passTo]) (by simp [State.passTo]))

/-- A talkback list written (R105). -/
theorem State.setTalkList_tells (l : List TalkEntry) : s.tells (s.setTalkList p l) := State.tells_of_eq rfl rfl rfl

/-- A record written and events offered. -/
theorem State.setParty_tells (r : PartyRec) (os : List Offer) : s.tells ((s.setParty p r).offerAll os) :=
  (State.tells_of_eq rfl rfl rfl).trans ((s.setParty p r).offerAll_tells os)

theorem State.endHandover_tells (outcome : Nat) : s.tells (s.endHandover p outcome) := by
  unfold State.endHandover
  split
  · exact s.setParty_tells p _ _
  · exact s.tells_refl

theorem State.cancelHandover_tells : s.tells (s.cancelHandover p) := by
  unfold State.cancelHandover
  split
  · exact s.setParty_tells p _ _
  · exact s.tells_refl

theorem State.grantHandover_tells (outcome cause : Nat) : s.tells (s.grantHandover p outcome cause) := by
  unfold State.grantHandover
  split
  · split
    · exact s.passTo_tells p _ _ _ _
    · exact s.endHandover_tells p _
  · exact s.tells_refl

theorem State.reworkActive_tells (b : State) (own : Option Link) : s.tells (s.reworkActive b p own) :=
  (s.offerAll_tells _).trans (State.tells_of_eq (s.reworkActive_links b p own) (by simp) (by simp))

theorem State.makeEntry_tells (e : TalkEntry) : s.tells (s.makeEntry e p) :=
  ((s.setTalkList_tells p _).trans (State.reworkActive_tells _ p s _)).trans (State.ownerNamed_tells _ p _)

theorem State.dropEntry_tells (k : Link) : s.tells (s.dropEntry k p) :=
  (s.setTalkList_tells p _).trans (State.reworkActive_tells _ p s none)

end

end Sys2Proof.Machine

namespace Sys2Proof.Machine

/-! ### How a request is settled -/

/-- A request is refused, with another status than OVERRUN and nothing changed, or it is accepted, OK or PENDING, and keeps
what every command keeps of the links (R172). -/
def Answer.settles (a : Answer) (s : State) : Prop :=
  (∃ st, st ≠ .overrun ∧ a = refuse s st)
    ∨ (a.reply.status = .ok ∨ a.reply.status = .pending) ∧ s.keepsLinks a.state

theorem refuse_settles (s : State) {st : Status} (h : st ≠ .overrun) : (refuse s st).settles s := .inl ⟨st, h, rfl⟩

theorem accept_settles {s t : State} (h : s.keepsLinks t) (data : List Byte) : (accept t data).settles s := .inr ⟨.inl rfl, h⟩

section
variable {s t : State} (h : s.tells t)
include h

theorem State.tells.accept (data : List Byte) : (accept t data).settles s := accept_settles h.keepsLinks data

theorem State.tells.acceptNaming (k : Link) (p : Party) (data : List Byte) : (acceptNaming t k p data).settles s :=
  (h.trans (t.ownerNamed_tells p k)).accept data

end

/-- No settled request is answered OVERRUN (R169). -/
theorem Answer.settles.notOverrun {a : Answer} {s : State} (h : a.settles s) : a.reply.status ≠ .overrun := by
  rcases h with ⟨st, ne, rfl⟩ | ⟨ok | pending, -⟩
  · exact ne
  · exact ok ▸ by decide
  · exact pending ▸ by decide

theorem Answer.settles.keepsLinks {a : Answer} {s : State} (h : a.settles s) : s.keepsLinks a.state := by
  rcases h with ⟨st, -, rfl⟩ | ⟨-, kept⟩
  · exact s.keepsLinks_refl
  · exact kept

/-! ### The requests of chapters 1, 3 and 4 -/

section
variable (k : Link) (a b c d : Byte) (s : State)

theorem askAnsr_settles : (askAnsr k a s).settles s := by
  unfold askAnsr
  repeat' split
  all_goals first
    | with_reducible exact refuse_settles s (by decide)
    | exact (s.answer_tells _ k).acceptNaming _ _ _

theorem askPark_settles : (askPark k a s).settles s := by
  unfold askPark
  repeat' split
  all_goals first
    | with_reducible exact refuse_settles s (by decide)
    | exact (s.toParked_tells _ k).acceptNaming _ _ _

theorem askQueu_settles : (askQueu k a b s).settles s := by
  unfold askQueu
  repeat' split
  all_goals first
    | with_reducible exact refuse_settles s (by decide)
    | exact ((s.ownerNamed_tells _ k).trans (State.toQueue_tells _ _ _ k)).accept _

theorem askAirp_settles : (askAirp k a s).settles s := by
  unfold askAirp
  repeat' split
  all_goals first
    | with_reducible exact refuse_settles s (by decide)
    | exact (s.toAir_tells _ _ k).acceptNaming _ _ _

theorem askNext_settles : (askNext k a s).settles s := by
  unfold askNext
  repeat' split
  all_goals first
    | with_reducible exact refuse_settles s (by decide)
    | exact (s.toAir_tells _ _ k).accept _

theorem askOffa_settles : (askOffa k a s).settles s := by
  unfold askOffa
  repeat' split
  all_goals first
    | with_reducible exact refuse_settles s (by decide)
    | exact (s.toParked_tells _ k).acceptNaming _ _ _

theorem askUnqu_settles : (askUnqu k a s).settles s := by
  unfold askUnqu
  repeat' split
  all_goals first
    | with_reducible exact refuse_settles s (by decide)
    | exact (s.toParked_tells _ k).acceptNaming _ _ _

theorem State.moveQueued_tells (p : Party) (x : Studio) (n : Nat) : s.tells (s.moveQueued p x n k) := by
  unfold State.moveQueued
  dsimp only
  split
  · exact s.tells_refl
  · exact (State.tells_of_eq (by simp) (by simp) (by simp)).trans (State.offerAll_tells _ _)

theorem askMove_settles : (askMove k a b s).settles s := by
  unfold askMove
  repeat' split
  all_goals first
    | with_reducible exact refuse_settles s (by decide)
    | exact (s.moveQueued_tells k _ _ _).acceptNaming _ _ _

theorem askRlse_settles : (askRlse k a s).settles s := by
  unfold askRlse
  repeat' split
  all_goals first
    | with_reducible exact refuse_settles s (by decide)
    | exact ((s.ownerNamed_tells _ k).trans (State.release_tells _ _ k)).accept _

theorem askLoop_settles : (askLoop k a b s).settles s := by
  unfold askLoop
  repeat' split
  all_goals first
    | with_reducible exact refuse_settles s (by decide)
    | exact (s.startLoop_tells _ _ k).acceptNaming _ _ _

theorem askLend_settles : (askLend k a s).settles s := by
  unfold askLend
  repeat' split
  all_goals first
    | with_reducible exact refuse_settles s (by decide)
    | exact (s.toVacant_tells _ _).acceptNaming _ _ _

theorem askPrst_settles : (askPrst k a s).settles s := by
  unfold askPrst
  repeat' split
  all_goals first
    | with_reducible exact refuse_settles s (by decide)
    | exact ((s.ownerNamed_tells _ k).trans (State.partyReset_tells _ _)).accept _

theorem State.setKind_tells (p : Party) (kd : Kind) : s.tells (s.setKind p kd) := State.tells_of_eq rfl rfl rfl

theorem State.moveToGroup_tells (p : Party) (g : Group) : s.tells (s.moveToGroup p g k) :=
  State.tells_of_eq (by simp [State.moveToGroup]) (by simp [State.moveToGroup]) (by simp [State.moveToGroup])

theorem State.leaveGroup_tells (p : Party) (g : Group) : s.tells (s.leaveGroup p g) :=
  State.tells_of_eq (by simp [State.leaveGroup]) (by simp [State.leaveGroup]) (by simp [State.leaveGroup])

theorem State.select_tells (x : Option Selection) : s.tells (s.select k x) :=
  State.tells_of_eq (by simp) (by simp) (by simp)

theorem askSknd_settles : (askSknd k a b s).settles s := by
  unfold askSknd
  repeat' split
  all_goals first
    | with_reducible exact refuse_settles s (by decide)
    | exact (s.setKind_tells _ _).acceptNaming _ _ _

theorem askJoin_settles : (askJoin k a b s).settles s := by
  unfold askJoin
  repeat' split
  all_goals first
    | with_reducible exact refuse_settles s (by decide)
    | exact s.tells_refl.acceptNaming _ _ _
    | exact (s.moveToGroup_tells k _ _).acceptNaming _ _ _

theorem askLeav_settles : (askLeav k a s).settles s := by
  unfold askLeav
  repeat' split
  all_goals first
    | with_reducible exact refuse_settles s (by decide)
    | exact (s.leaveGroup_tells _ _).acceptNaming _ _ _

theorem askLstn_settles : (askLstn k a b s).settles s := by
  unfold askLstn askListen
  repeat' split
  all_goals first
    | with_reducible exact refuse_settles s (by decide)
    | exact (s.select_tells k _).accept _
    | exact (s.select_tells k _).acceptNaming _ _ _

theorem State.gainSource_tells (x : Studio) (n : Source) (g : Gain) : s.tells (s.gainSource x n g) := by
  unfold State.gainSource
  split
  · exact s.tells_refl
  · exact State.tells_of_eq (by simp) (by simp) (by simp)

theorem State.gainParty_tells (x : Studio) (p : Party) (n : AirSlot) (g : Gain) : s.tells (s.gainParty x p n g) := by
  unfold State.gainParty
  split
  · exact s.tells_refl
  · exact State.tells_of_eq (by simp) (by simp) (by simp)

theorem State.setMembership_tells (n : Source) (inA inB : Bool) : s.tells (s.setMembership n inA inB) :=
  State.tells_of_eq (by simp [State.setMembership]) (by simp [State.setMembership]) (by simp [State.setMembership])

theorem State.applyFloor_tells (x : Studio) (n : Nat) : s.tells (s.applyFloor x n) :=
  State.tells.trans (State.tells_of_eq (by simp) (by simp) (by simp))
    (tells_foldl (fun (t : State) p => t.reworkActive s p none) (fun t p => t.reworkActive_tells p s none) _ (s.setFloor x n))

theorem askGain_settles : (askGain k a b c d s).settles s := by
  unfold askGain askGainSource askGainParty
  repeat' split
  all_goals first
    | with_reducible exact refuse_settles s (by decide)
    | exact (s.gainSource_tells _ _ _).accept _
    | exact (s.gainParty_tells _ _ _ _).acceptNaming _ _ _

theorem askSsrc_settles : (askSsrc k a b s).settles s := by
  unfold askSsrc
  split
  · dsimp only
    repeat' split
    all_goals first
      | with_reducible exact refuse_settles s (by decide)
      | exact (s.setMembership_tells _ _ _).accept _
  · exact refuse_settles s (by decide)

theorem State.setSplit_tells (n : Nat) : s.tells (s.setSplit n) := State.tells_of_eq rfl rfl rfl

theorem askSplt_settles : (askSplt k a s).settles s := by
  unfold askSplt
  repeat' split
  all_goals first
    | with_reducible exact refuse_settles s (by decide)
    | exact (s.setSplit_tells _).accept _

theorem askSflr_settles : (askSflr k a b s).settles s := by
  unfold askSflr
  repeat' split
  all_goals first
    | with_reducible exact refuse_settles s (by decide)
    | exact (s.applyFloor_tells _ _).accept _

end

/-! ### The requests of chapters 6, 7 and 8 -/

section
variable (k : Link) (a b c d : Byte) (s : State)

theorem State.talkTo_tells (e : TalkEntry) (ps : List Party) : s.tells (s.talkTo e ps) :=
  State.tells.trans (State.tells_of_eq rfl rfl rfl)
    (tells_foldl (fun (t : State) p => t.makeEntry e p) (fun t p => t.makeEntry_tells p e) ps { s with tarb := _ })

theorem State.endTalk_tells (ps : List Party) : s.tells (s.endTalk k ps) :=
  tells_foldl _ (fun t p => (t.dropEntry_tells p k).trans (State.ownerNamed_tells _ p k)) ps s

theorem State.setTalk_tells (j : Link) (r : TalkSettings) : s.tells (s.setTalk j r) := by
  unfold State.setTalk
  dsimp only
  repeat' split
  all_goals exact State.tells_of_eq (by simp) (by simp) (by simp)

theorem askTalk_settles : (askTalk k a b c d s).settles s := by
  unfold askTalk
  repeat' split
  all_goals first
    | with_reducible exact refuse_settles s (by decide)
    | exact (s.talkTo_tells _ _).accept _

theorem askTend_settles : (askTend k a b s).settles s := by
  unfold askTend
  repeat' split
  all_goals first
    | with_reducible exact refuse_settles s (by decide)
    | exact (s.endTalk_tells k _).accept _

theorem askStlk_settles : (askStlk k a b c d s).settles s := by
  unfold askStlk
  repeat' split
  all_goals first
    | with_reducible exact refuse_settles s (by decide)
    | exact (s.setTalk_tells _ _).accept _

/-- A handover asked of the owner is answered PENDING (R123). -/
theorem takePending_settles (p : Party) : (takePending k p s).settles s :=
  .inr ⟨.inr rfl, (s.setParty_tells p _ _).keepsLinks⟩

theorem askTake_settles : (askTake k a s).settles s := by
  unfold askTake takeAnswered takeNow takeOver
  repeat' split
  all_goals first
    | with_reducible exact refuse_settles s (by decide)
    | exact (s.passTo_tells _ _ _ _ _).accept _
    | exact s.tells_refl.acceptNaming _ _ _
    | exact takePending_settles k s _

theorem askGive_settles : (askGive k a b s).settles s := by
  unfold askGive
  repeat' split
  all_goals first
    | with_reducible exact refuse_settles s (by decide)
    | exact (s.grantHandover_tells _ _ _).acceptNaming _ _ _

theorem askKeep_settles : (askKeep k a b s).settles s := by
  unfold askKeep
  repeat' split
  all_goals first
    | with_reducible exact refuse_settles s (by decide)
    | exact (s.endHandover_tells _ _).acceptNaming _ _ _

theorem askTcan_settles : (askTcan k a s).settles s := by
  unfold askTcan
  repeat' split
  all_goals first
    | with_reducible exact refuse_settles s (by decide)
    | exact (s.endHandover_tells _ _).accept _

theorem State.lockParty_tells (p : Party) : s.tells (s.lockParty p) :=
  (s.endHandover_tells p _).trans (State.setParty_tells _ p _ [])

theorem State.unlockParty_tells (p : Party) : s.tells (s.unlockParty p) := s.setParty_tells p _ []

theorem askLock_settles : (askLock k a s).settles s := by
  unfold askLock
  repeat' split
  all_goals first
    | with_reducible exact refuse_settles s (by decide)
    | exact (s.lockParty_tells _).acceptNaming _ _ _

theorem askUlck_settles : (askUlck k a s).settles s := by
  unfold askUlck
  repeat' split
  all_goals first
    | with_reducible exact refuse_settles s (by decide)
    | exact (s.unlockParty_tells _).acceptNaming _ _ _

/-- AWAY writes the presence, which no bound reads (R135). -/
theorem askAway_settles : (askAway k a s).settles s := by
  have away (v : Bool) : s.keepsLinks (s.setAway k v) := s.modLink_keepsLinks k (f := fun l => { l with away := v }) id
  unfold askAway
  split
  · exact refuse_settles s (by decide)
  · exact accept_settles (away false) _
  · exact accept_settles ((away true).trans (tells_foldl _ (fun t p => t.grantHandover_tells p _ _) _ _).keepsLinks) _

theorem State.setRegion_tells (i : Fin 8) (r : Region) : s.tells (s.setRegion i r) := State.tells_of_eq rfl rfl rfl

theorem askSreg_settles (e f g i j : Byte) : (askSreg k a b c d e f g i j s).settles s := by
  unfold askSreg askSregIn
  repeat' split
  all_goals first
    | with_reducible exact refuse_settles s (by decide)
    | exact (s.setRegion_tells _ _).accept _

theorem askLreg_settles : (askLreg k a s).settles s := by
  unfold askLreg
  repeat' split
  all_goals first
    | with_reducible exact refuse_settles s (by decide)
    | exact (s.setRegion_tells _ _).accept _

theorem askRdrg_settles : (askRdrg k a b s).settles s := by
  unfold askRdrg
  repeat' split
  all_goals first
    | with_reducible exact refuse_settles s (by decide)
    | exact s.tells_refl.accept _

end

/-! ### The requests of chapters 2, 5, 9 and 10, and the reads -/

section
variable (k : Link) (a b c d : Byte) (s : State)

theorem State.writePort_tells (x : PortId) (enable : Bool) (slots : List SlotSetting) : s.tells (s.writePort x enable slots) :=
  State.tells_of_eq (by simp [State.writePort, State.monitorsAfter]) (by simp [State.writePort, State.monitorsAfter])
    (by simp [State.writePort, State.monitorsAfter])

theorem State.setHold_tells (h : Option Source) (g : Gain) : s.tells (s.setHold h g) := by
  unfold State.setHold
  split
  · exact s.tells_refl
  · exact State.tells_of_eq (by simp) (by simp) (by simp)

theorem askSprt_settles (ss : List Byte) : (askSprt k a b ss s).settles s := by
  unfold askSprt askSprtIn
  repeat' split
  all_goals first
    | with_reducible exact refuse_settles s (by decide)
    | exact (s.writePort_tells _ _ _).accept _

theorem askShld_settles : (askShld k a b s).settles s := by
  unfold askShld
  repeat' split
  all_goals first
    | with_reducible exact refuse_settles s (by decide)
    | exact (s.setHold_tells _ _).accept _

theorem State.setTimes_tells (times : Times) : s.tells { s with times := times } := State.tells_of_eq rfl rfl rfl

theorem State.writePattern_tells (i : Fin 6) (e : Pattern) : s.tells (s.writePattern i e) := State.tells_of_eq rfl rfl rfl

theorem askStim_settles (v w x y z : Word16) : (askStim k v w x y z a b s).settles s := by
  unfold askStim
  repeat' split
  all_goals first
    | with_reducible exact refuse_settles s (by decide)
    | exact (s.setTimes_tells _).accept _

theorem askSpat_settles (e f g : Byte) : (askSpat k a b c d e f g s).settles s := by
  unfold askSpat
  repeat' split
  all_goals first
    | with_reducible exact refuse_settles s (by decide)
    | exact (s.writePattern_tells _ _).accept _

theorem LinkRec.inRoom.remask {l : LinkRec} (h : l.inRoom) (c : ClassSet) : (l.remask c).inRoom :=
  LinkRec.inRoom.summariseAll h

theorem askEmsk_settles : (askEmsk k a s).settles s := by
  unfold askEmsk
  split
  · exact refuse_settles s (by decide)
  · exact accept_settles (s.modLink_keepsLinks k (f := fun l => l.remask _) fun h => h.remask _) _

/-- FTCH takes events out before it queues the SUMMARY records (R176). -/
theorem LinkRec.inRoom.fetch {l : LinkRec} (h : l.inRoom) (n : Nat) : (l.fetch n).inRoom :=
  LinkRec.inRoom.summariseAll ⟨(l.events.drop_sublist n).length_le.trans h.1, h.2⟩

theorem askFtch_settles : (askFtch k a s).settles s := by
  unfold askFtch
  split
  · exact refuse_settles s (by decide)
  · exact accept_settles (s.modLink_keepsLinks k fun h => h.fetch _) _

theorem askAtcf_settles : (askAtcf k a b s).settles s := by
  unfold askAtcf
  split
  · exact accept_settles (s.modLink_keepsLinks k id) _
  · exact refuse_settles s (by decide)

/-- LRST empties the bounded lists before the removals that it makes offer their events (R178). -/
theorem State.resetLink_keepsLinks : s.keepsLinks (s.resetLink k) := by
  have cleared : s.keepsLinks (s.modLink k LinkRec.cleared) :=
    s.modLink_keepsLinks k fun _ => by simp [LinkRec.inRoom, LinkRec.cleared, LinkRec.reset]
  have dropped (t : State) : t.tells (t.dropEntries k) := tells_foldl _ (fun u p => u.dropEntry_tells p k) _ t
  have cancelled (t : State) : t.tells (t.cancelHandovers k) := tells_foldl _ (fun u p => u.cancelHandover_tells p) _ t
  have left (t : State) : t.keepsLinks (t.leaveStation k) :=
    (t.select_tells k none).keepsLinks.trans (State.modLink_keepsLinks _ k id)
  exact (cleared.trans (dropped _).keepsLinks).trans ((cancelled _).keepsLinks.trans (left _))

theorem askLrst_settles : (askLrst k s).settles s := accept_settles (s.resetLink_keepsLinks k) _

theorem askIdnt_settles : (askIdnt k s).settles s := s.tells_refl.accept _

theorem askRdpy_settles : (askRdpy k a s).settles s := by
  unfold askRdpy
  repeat' split
  all_goals first
    | with_reducible exact refuse_settles s (by decide)
    | exact s.tells_refl.acceptNaming _ _ _

theorem askRdqu_settles : (askRdqu k a s).settles s := by
  unfold askRdqu
  repeat' split
  all_goals first
    | with_reducible exact refuse_settles s (by decide)
    | exact s.tells_refl.accept _

theorem askRdrt_settles : (askRdrt k a b s).settles s := by
  unfold askRdrt
  repeat' split
  all_goals first
    | with_reducible exact refuse_settles s (by decide)
    | exact s.tells_refl.acceptNaming _ _ _

theorem askRdpt_settles : (askRdpt s).settles s := s.tells_refl.accept _

end

/-- Each request command is settled (R170, R172). -/
theorem asked_settles {c : Instr} {k : Link} {tag code : Byte} {ask : State → Answer}
    (h : asked c = some (k, tag, code, ask)) (s : State) : (ask s).settles s := by
  cases c <;> cases h
  case unknownRequest => exact refuse_settles s (by decide)
  case ansr => exact askAnsr_settles _ _ _
  case park => exact askPark_settles _ _ _
  case queu => exact askQueu_settles _ _ _ _
  case airp => exact askAirp_settles _ _ _
  case next => exact askNext_settles _ _ _
  case offa => exact askOffa_settles _ _ _
  case unqu => exact askUnqu_settles _ _ _
  case move => exact askMove_settles _ _ _ _
  case rlse => exact askRlse_settles _ _ _
  case loop => exact askLoop_settles _ _ _ _
  case lend => exact askLend_settles _ _ _
  case prst => exact askPrst_settles _ _ _
  case sknd => exact askSknd_settles _ _ _ _
  case join => exact askJoin_settles _ _ _ _
  case leav => exact askLeav_settles _ _ _
  case lstn => exact askLstn_settles _ _ _ _
  case gain => exact askGain_settles _ _ _ _ _ _
  case talk => exact askTalk_settles _ _ _ _ _ _
  case tend => exact askTend_settles _ _ _ _
  case stlk => exact askStlk_settles _ _ _ _ _ _
  case take => exact askTake_settles _ _ _
  case give => exact askGive_settles _ _ _ _
  case keep => exact askKeep_settles _ _ _ _
  case tcan => exact askTcan_settles _ _ _
  case lock => exact askLock_settles _ _ _
  case ulck => exact askUlck_settles _ _ _
  case away => exact askAway_settles _ _ _
  case sreg => exact askSreg_settles _ _ _ _ _ _ _ _ _ _ _
  case lreg => exact askLreg_settles _ _ _
  case rdrg => exact askRdrg_settles _ _ _ _
  case sprt => exact askSprt_settles _ _ _ _ _
  case ssrc => exact askSsrc_settles _ _ _ _
  case shld => exact askShld_settles _ _ _ _
  case splt => exact askSplt_settles _ _ _
  case sflr => exact askSflr_settles _ _ _ _
  case stim => exact askStim_settles _ _ _ _ _ _ _ _ _
  case spat => exact askSpat_settles _ _ _ _ _ _ _ _ _
  case emsk => exact askEmsk_settles _ _ _
  case ftch => exact askFtch_settles _ _ _
  case atcf => exact askAtcf_settles _ _ _ _
  case lrst => exact askLrst_settles _ _
  case idnt => exact askIdnt_settles _ _
  case rdpy => exact askRdpy_settles _ _ _
  case rdqu => exact askRdqu_settles _ _ _
  case rdrt => exact askRdrt_settles _ _ _ _
  case rdpt => exact askRdpt_settles _

/-! ### A request frame is settled -/

/-- A reading of payloads whose every answer is settled. -/
def settling (f : List Byte → State → Answer) : Prop := ∀ bs s, (f bs s).settles s

theorem noArgs_settles {f : State → Answer} (h : ∀ s, (f s).settles s) : settling (noArgs f) := fun bs s => by
  unfold noArgs
  split
  · exact h s
  · exact refuse_settles s (by decide)

theorem oneArg_settles {f : Byte → State → Answer} (h : ∀ a s, (f a s).settles s) : settling (oneArg f) := fun bs s => by
  unfold oneArg
  split
  · exact h _ s
  · exact refuse_settles s (by decide)

theorem twoArgs_settles {f : Byte → Byte → State → Answer} (h : ∀ a b s, (f a b s).settles s) : settling (twoArgs f) :=
  fun bs s => by
    unfold twoArgs
    split
    · exact h _ _ s
    · exact refuse_settles s (by decide)

theorem fourArgs_settles {f : Byte → Byte → Byte → Byte → State → Answer} (h : ∀ a b c d s, (f a b c d s).settles s) :
    settling (fourArgs f) := fun bs s => by
  unfold fourArgs
  split
  · exact h _ _ _ _ s
  · exact refuse_settles s (by decide)

section
variable (k : Link)

theorem sregArgs_settles : settling (sregArgs k) := fun bs s => by
  unfold sregArgs
  split
  · exact askSreg_settles _ _ _ _ _ _ _ _ _ _ _
  · exact refuse_settles s (by decide)

theorem sprtArgs_settles : settling (sprtArgs k) := fun bs s => by
  unfold sprtArgs
  split
  · exact askSprt_settles _ _ _ _ _
  · exact refuse_settles s (by decide)

theorem stimArgs_settles : settling (stimArgs k) := fun bs s => by
  unfold stimArgs
  split
  · exact askStim_settles _ _ _ _ _ _ _ _ _
  · exact refuse_settles s (by decide)

theorem spatArgs_settles : settling (spatArgs k) := fun bs s => by
  unfold spatArgs
  split
  · exact askSpat_settles _ _ _ _ _ _ _ _ _
  · exact refuse_settles s (by decide)

end

/-- Whatever a table of codes names is settled. -/
def namesSettling (o : Option (List Byte → State → Answer)) : Prop := ∀ f, o = some f → settling f

theorem namesSettling_none : namesSettling none := fun _ h => nomatch h

theorem namesSettling_if {c : Prop} [Decidable c] {g : List Byte → State → Answer} {rest : Option (List Byte → State → Answer)}
    (h : settling g) (hr : namesSettling rest) : namesSettling (if c then some g else rest) := by
  split
  · rintro _ ⟨⟩
    exact h
  · exact hr

section
variable (k : Link) (code : Byte)

theorem callRequest_settles : namesSettling (callRequest k code) := by
  unfold callRequest
  refine namesSettling_if (oneArg_settles (askAnsr_settles k)) ?_
  refine namesSettling_if (oneArg_settles (askPark_settles k)) ?_
  refine namesSettling_if (twoArgs_settles (askQueu_settles k)) ?_
  refine namesSettling_if (oneArg_settles (askAirp_settles k)) ?_
  refine namesSettling_if (oneArg_settles (askNext_settles k)) ?_
  refine namesSettling_if (oneArg_settles (askOffa_settles k)) ?_
  refine namesSettling_if (oneArg_settles (askUnqu_settles k)) ?_
  refine namesSettling_if (twoArgs_settles (askMove_settles k)) ?_
  refine namesSettling_if (oneArg_settles (askRlse_settles k)) ?_
  refine namesSettling_if (twoArgs_settles (askLoop_settles k)) ?_
  refine namesSettling_if (oneArg_settles (askLend_settles k)) ?_
  refine namesSettling_if (oneArg_settles (askPrst_settles k)) ?_
  refine namesSettling_if (twoArgs_settles (askSknd_settles k)) ?_
  refine namesSettling_if (twoArgs_settles (askJoin_settles k)) ?_
  refine namesSettling_if (oneArg_settles (askLeav_settles k)) ?_
  refine namesSettling_if (twoArgs_settles (askLstn_settles k)) ?_
  refine namesSettling_if (fourArgs_settles (askGain_settles k)) ?_
  exact namesSettling_none

theorem ownerRequest_settles : namesSettling (ownerRequest k code) := by
  unfold ownerRequest
  refine namesSettling_if (fourArgs_settles (askTalk_settles k)) ?_
  refine namesSettling_if (twoArgs_settles (askTend_settles k)) ?_
  refine namesSettling_if (fourArgs_settles (askStlk_settles k)) ?_
  refine namesSettling_if (oneArg_settles (askTake_settles k)) ?_
  refine namesSettling_if (twoArgs_settles (askGive_settles k)) ?_
  refine namesSettling_if (twoArgs_settles (askKeep_settles k)) ?_
  refine namesSettling_if (oneArg_settles (askTcan_settles k)) ?_
  refine namesSettling_if (oneArg_settles (askLock_settles k)) ?_
  refine namesSettling_if (oneArg_settles (askUlck_settles k)) ?_
  refine namesSettling_if (oneArg_settles (askAway_settles k)) ?_
  refine namesSettling_if (sregArgs_settles k) ?_
  refine namesSettling_if (oneArg_settles (askLreg_settles k)) ?_
  refine namesSettling_if (twoArgs_settles (askRdrg_settles k)) ?_
  exact namesSettling_none

theorem linkRequest_settles : namesSettling (linkRequest k code) := by
  unfold linkRequest
  refine namesSettling_if (sprtArgs_settles k) ?_
  refine namesSettling_if (twoArgs_settles (askSsrc_settles k)) ?_
  refine namesSettling_if (twoArgs_settles (askShld_settles k)) ?_
  refine namesSettling_if (oneArg_settles (askSplt_settles k)) ?_
  refine namesSettling_if (twoArgs_settles (askSflr_settles k)) ?_
  refine namesSettling_if (stimArgs_settles k) ?_
  refine namesSettling_if (spatArgs_settles k) ?_
  refine namesSettling_if (oneArg_settles (askEmsk_settles k)) ?_
  refine namesSettling_if (oneArg_settles (askFtch_settles k)) ?_
  refine namesSettling_if (twoArgs_settles (askAtcf_settles k)) ?_
  refine namesSettling_if (noArgs_settles (askLrst_settles k)) ?_
  refine namesSettling_if (noArgs_settles (askIdnt_settles k)) ?_
  refine namesSettling_if (oneArg_settles (askRdpy_settles k)) ?_
  refine namesSettling_if (oneArg_settles (askRdqu_settles k)) ?_
  refine namesSettling_if (twoArgs_settles (askRdrt_settles k)) ?_
  refine namesSettling_if (noArgs_settles askRdpt_settles) ?_
  exact namesSettling_none

end

/-- A request taken from a buffer is settled (R170). -/
theorem askRequest_settles (k : Link) (r : Request) (s : State) : (askRequest k r s).settles s := by
  unfold askRequest
  split
  · rename_i f hf
    rcases Option.or_eq_some_iff.mp hf with h | ⟨-, h⟩
    · exact callRequest_settles k r.code f h _ s
    · rcases Option.or_eq_some_iff.mp h with h | ⟨-, h⟩
      · exact ownerRequest_settles k r.code f h _ s
      · exact linkRequest_settles k r.code f h _ s
  · exact refuse_settles s (by decide)

end Sys2Proof.Machine

namespace Sys2Proof.Machine

/-! ### The links keep their bounds -/

theorem Status.byte_overrun {st : Status} (h : st ≠ .overrun) : byte (statusCode st) ≠ byte (statusCode .overrun) := by
  cases st <;> first | exact absurd rfl h | decide

/-- Only a reply OVERRUN makes an OVERRUN response (R169). -/
theorem Reply.response_notOverrun {r : Reply} (h : r.status ≠ .overrun) (tag code : Byte) :
    (r.response tag code).isOverrun = false := by
  simpa [Response.isOverrun, Reply.response] using Status.byte_overrun h

/-- A settled request and its response keep the links (R171). -/
theorem Answer.settles.deliver {a : Answer} {s : State} (h : a.settles s) (k : Link) (tag code : Byte) :
    s.keepsLinks (a.deliver k tag code) :=
  h.keepsLinks.trans <| a.state.modLink_keepsLinks k (f := fun l => l.respond (a.reply.response tag code)) fun room =>
    room.respond (Reply.response_notOverrun h.notOverrun tag code)

section
variable (s : State) (k : Link)

theorem State.takeRequests_keepsLinks (n : Nat) : s.keepsLinks (s.takeRequests k n) := by
  induction n generalizing s with
  | zero => exact s.keepsLinks_refl
  | succ n ih =>
    unfold State.takeRequests
    split
    · exact s.keepsLinks_refl
    · rename_i r rest buffer
      split
      · have out : s.keepsLinks (s.modLink k fun l => { l with requests := rest }) := by
          refine s.modLink_keepsLinks k fun ⟨events, requests, overruns⟩ => ⟨events, ?_, overruns⟩
          rw [buffer, List.length_cons] at requests
          exact Nat.le_of_succ_le requests
        exact (out.trans ((askRequest_settles k r _).deliver k _ _)).trans (ih _)
      · exact s.keepsLinks_refl

theorem State.acceptFrame_keepsLinks (r : Request) : s.keepsLinks (s.acceptFrame k r) := by
  unfold State.acceptFrame
  split
  · exact (askLrst_settles k s).deliver k _ _
  · split
    · rename_i few
      refine (s.modLink_keepsLinks k fun room => ⟨room.1, ?_, room.2.2⟩).trans (State.takeRequests_keepsLinks _ k _)
      simpa [Config.requestRoom] using Nat.succ_le_of_lt few
    · exact s.modLink_keepsLinks k fun room => room.overrun _

/-- The end of a response takes a waiting one out of the list (R171). -/
theorem State.beginNext_keepsLinks :
    s.keepsLinks (s.modLink k fun l => { l with sending := l.waiting.head?, waiting := l.waiting.tail }) :=
  s.modLink_keepsLinks k fun room =>
    ⟨room.1, room.2.1, ((s.link k).waiting.tail_sublist.filter _).length_le.trans room.2.2⟩

end

/-! ### The ports, the monitor, the mixer and the timers at the links -/

section
variable (s : State) (x : PortId) (p : Party)

theorem State.setPort_tells (r : PortRec) : s.tells (s.setPort x r) := State.tells_of_eq (by simp) (by simp) (by simp)

/-- A change of sync tells its one event (R165). -/
theorem State.synced_tells (r : PortRec) (f : Monitor → Monitor) (o : Offer) :
    s.tells (((s.setPort x r).monitors x f).offerAll [o]) :=
  (s.setPort_tells x r).trans <| (State.tells_of_eq (by simp) (by simp) (by simp)).trans (State.offerAll_tells _ _)

theorem State.syncFound_tells : s.tells (s.syncFound x) := by
  unfold State.syncFound
  dsimp only
  split
  case h_4 | h_5 => exact s.tells_refl
  all_goals exact s.synced_tells x _ _ _

theorem State.syncLost_tells (cause : LossCause) : s.tells (s.syncLost x cause) := by
  unfold State.syncLost
  dsimp only
  split
  · exact s.synced_tells x _ _ _
  all_goals exact s.tells_refl

theorem State.misaligned_tells (cause : LossCause) : s.tells (s.misaligned x cause) := by
  unfold State.misaligned
  dsimp only
  split
  · split
    · exact s.syncLost_tells x cause
    · exact s.setPort_tells x _
  · exact s.tells_refl
  all_goals exact s.setPort_tells x _

theorem State.alignedFrame_tells : s.tells (s.alignedFrame x) := by
  unfold State.alignedFrame
  dsimp only
  split
  · exact s.tells_refl
  · exact s.setPort_tells x _
  all_goals
    split
    · exact s.syncFound_tells x
    · exact s.setPort_tells x _

theorem State.monitorWord_tells (w : Byte) : s.tells (s.monitorWord p w) := by
  rw [State.monitorWord_eq]
  exact State.tells_of_eq rfl rfl rfl

theorem State.monitorFrame_tells (bits : BitVec 512) : s.tells (s.monitorFrame x bits) :=
  tells_foldl (fun (t : State) p => t.monitorWord p (lineWord bits (slotIndexOf p))) (fun t p => t.monitorWord_tells p _) _ s

theorem State.inboundFrame_tells (bits : BitVec 512) : s.tells (s.inboundFrame x bits) := by
  have checked : s.tells (if alignmentOf bits = Config.alignmentCode then s.alignedFrame x else s.misaligned x .alignment) := by
    split
    · exact s.alignedFrame_tells x
    · exact s.misaligned_tells x _
  have latched (t : State) : t.tells (t.latch x bits).edge := (t.setPort_tells x _).trans (State.tells_of_eq rfl rfl rfl)
  unfold State.inboundFrame
  dsimp only
  generalize (if alignmentOf bits = Config.alignmentCode then s.alignedFrame x else s.misaligned x .alignment) = u
    at checked ⊢
  refine State.tells.trans ?_ (latched _)
  split
  · exact checked.trans (u.monitorFrame_tells x bits)
  · exact checked

theorem State.clockMissed_tells : s.tells s.clockMissed :=
  tells_foldl (fun (t : State) y => if (s.port y).sync = .locked then t.misaligned y .clock else t)
    (fun t y => by
      split
      · exact t.misaligned_tells y _
      · exact t.tells_refl) _ s

theorem State.graceExpired_tells : s.tells (s.graceExpired x) :=
  (s.synced_tells x _ _ _).trans (tells_foldl State.portFailure (fun t p => t.portFailure_tells p) _ _)

theorem State.qualifyBy_tells (e : Pattern) : s.tells (s.qualifyBy p e) := by
  rw [State.qualifyBy_eq]
  exact State.tells_of_eq rfl rfl rfl

theorem State.completeRamp_tells (r : RampRef) : s.tells (s.completeRamp r) := by
  cases r <;> exact State.tells_of_eq rfl rfl rfl

theorem State.takeMeaning_tells (m : Meaning) : s.tells (s.takeMeaning p m) := by
  cases m
  case seize =>
    show s.tells (s.seized p)
    unfold State.seized
    split
    case h_1 | h_2 => exact s.toAlerting_tells p
    all_goals exact s.tells_refl
  case onhook =>
    show s.tells (s.onhook p)
    unfold State.onhook
    split
    case h_8 | h_9 => exact s.tells_refl
    all_goals exact s.toVacant_tells p _
  case flash =>
    show s.tells (s.flashed p)
    unfold State.flashed
    split
    · exact s.offerAll_tells _
    · exact s.tells_refl
  case fault =>
    show s.tells (s.faulted p)
    unfold State.faulted
    split
    · exact s.tells_refl
    · exact s.toFault_tells p _

theorem State.clearExpired_tells : s.tells (s.clearExpired p) := by
  unfold State.clearExpired
  split
  case h_1 => exact s.toVacant_tells p _
  case h_2 => exact s.setParty_tells p _ []
  all_goals exact s.tells_refl

theorem State.parkHandover_tells : s.tells (s.parkHandover p) := by
  unfold State.parkHandover
  split
  · exact s.grantHandover_tells p _ _
  · exact (s.grantHandover_tells p _ _).trans (State.setParty_tells _ p _ [])

theorem State.parkExpired_tells (o : Link) : s.tells (s.parkExpired p o) := by
  unfold State.parkExpired
  split
  · exact s.setParty_tells p _ _
  · split
    · exact s.setParty_tells p _ _
    · split
      · exact s.parkHandover_tells p
      · exact s.setParty_tells p _ _

end

/-! ### Every command and every step -/

/-- Every command but POWER_ON_RESET keeps the straps' values and the bounds of the links. -/
theorem exec_keepsLinks {c : Instr} {s t : State} (hc : ∀ supv baud, c ≠ .powerOnReset supv baud)
    (e : exec c s = .next t) : s.keepsLinks t := by
  rcases ha : asked c with _ | ⟨k, tag, code, ask⟩
  case some =>
    rw [exec_asked ha] at e
    cases e
    exact (asked_settles ha s).deliver k tag code
  cases c <;> try (cases ha; done)
  case powerOnReset supv baud => exact absurd rfl (hc supv baud)
  case linkFrameReceived k f =>
    simp only [exec, execLinkFrameReceived] at e
    split at e <;> cases e
    · exact s.acceptFrame_keepsLinks k _
    · exact s.keepsLinks_refl
  case responseSent k =>
    simp only [exec, execResponseSent] at e
    split at e <;> cases e
    · exact s.keepsLinks_refl
    · exact (s.beginNext_keepsLinks k).trans (State.takeRequests_keepsLinks _ k _)
  case audioFrame => cases e; exact (State.tells_of_eq rfl rfl rfl).keepsLinks
  case rampComplete r => cases e; exact (s.completeRamp_tells r).keepsLinks
  case inboundFrame x bits =>
    simp only [exec, execInboundFrame] at e
    split at e <;> cases e
    · exact (State.tells_of_eq rfl rfl rfl).keepsLinks
    · exact (s.inboundFrame_tells x bits).keepsLinks
  case missingClockCheck => cases e; exact s.clockMissed_tells.keepsLinks
  case syncFound x => cases e; exact (s.syncFound_tells x).keepsLinks
  case syncLost x cause => cases e; exact (s.syncLost_tells x cause).keepsLinks
  case graceTimerExpiry x =>
    simp only [exec, execGraceTimerExpiry] at e
    split at e <;> cases e
    · exact (s.graceExpired_tells x).keepsLinks
    · exact s.keepsLinks_refl
  case qualify p i =>
    simp only [exec, execQualify] at e
    split at e <;> cases e
    · exact (s.qualifyBy_tells p _).keepsLinks
    · exact s.keepsLinks_refl
  case signalReport p m =>
    have taken : s.tells (s.takeReport p m) := State.tells_of_eq rfl rfl rfl
    simp only [exec, execSignalReport] at e
    split at e <;> cases e
    · exact (taken.trans (State.takeMeaning_tells _ p m)).keepsLinks
    · exact taken.keepsLinks
  case realertTimerExpiry p =>
    simp only [exec, execRealertTimerExpiry] at e
    split at e <;> cases e
    · exact (s.setParty_tells p _ _).keepsLinks
    · exact s.keepsLinks_refl
  case clearTimerExpiry p =>
    simp only [exec, execClearTimerExpiry] at e
    split at e <;> cases e
    · exact (s.clearExpired_tells p).keepsLinks
    · exact s.keepsLinks_refl
  case oneSecondMark => cases e; exact (State.tells_of_eq rfl rfl rfl).keepsLinks
  case parkTimerExpiry p =>
    simp only [exec, execParkTimerExpiry] at e
    split at e <;> cases e
    · exact (s.parkExpired_tells p _).keepsLinks
    · exact s.keepsLinks_refl
  case grantTimerExpiry p =>
    simp only [exec, execGrantTimerExpiry] at e
    split at e <;> cases e
    · exact (s.grantHandover_tells p _ _).keepsLinks
    · exact s.keepsLinks_refl
  case shortWordClockPeriod => cases e; exact s.clockMissed_tells.keepsLinks
  case resetAsserted => cases e; exact (State.tells_of_eq rfl rfl rfl).keepsLinks

/-- Every command leaves the links within their bounds: POWER_ON_RESET empties every list. -/
theorem exec_inRoom {c : Instr} {s t : State} (h : ∀ k, (s.link k).inRoom) (e : exec c s = .next t) (k : Link) :
    (t.link k).inRoom := by
  by_cases hc : ∃ supv baud, c = .powerOnReset supv baud
  · obtain ⟨supv, baud, rfl⟩ := hc
    cases e
    exact (State.linkLaws_iff _).1 ⟨State.powerOn_eventLaw _ _ _, State.powerOn_bufferLaw _ _ _⟩ k
  · exact (exec_keepsLinks (fun supv baud reset => hc ⟨supv, baud, reset⟩) e).2.2 k (h k)

/-- Settles O53: what happens inside the part only offers events, a request is never answered OVERRUN, and the buffer and the
OVERRUN responses grow only where they have room. -/
theorem everyStepKeepsTheLinkLaws : Obligations.EveryStepKeepsTheLinkLaws := by
  intro s t events buffers e
  have room := s.linkLaws_iff.1 ⟨events, buffers⟩
  refine t.linkLaws_iff.2 ?_
  unfold step at e
  split at e
  · rename_i c rest _
    exact exec_inRoom (s := { s with pending := rest }) room e
  · unfold State.idle at e
    split at e
    · exact exec_inRoom room e
    · cases e
      exact room

/-! ### The straps and the refusals -/

/-- SUPV names the links in order, and 3 names CL0 (R183). -/
theorem supvLink_val : ∀ b : BitVec 2, (supvLink b).val = if b.toNat = 3 then 0 else b.toNat := by decide

theorem baudRate_eq (b : BitVec 2) : (b.toNat = 0 → baudRate b = .bps115200) ∧ (b.toNat = 1 → baudRate b = .bps230400)
    ∧ (b.toNat = 2 → baudRate b = .bps460800) ∧ (b.toNat = 3 → baudRate b = .bps921600) := by
  revert b
  decide

/-- Settles O4: the straps are read by POWER_ON_RESET, and every other command keeps their values. -/
theorem idntAnswersTheSupervisorThatTheStrapsNamed : Obligations.IdntAnswersTheSupervisorThatTheStrapsNamed := by
  refine ⟨fun _ _ _ => rfl, fun supv baud s => ⟨_, rfl, supvLink_val supv, baudRate_eq baud⟩, fun c s t e hc => ?_⟩
  obtain ⟨supervisor, rate, -⟩ := exec_keepsLinks hc e
  exact ⟨supervisor, rate⟩

/-- A settled request that is not accepted leaves the state, and its response is the status byte alone (R172, R184). -/
theorem Answer.settles.unaccepted {a : Answer} {s : State} (h : a.settles s) (ok : a.reply.status ≠ .ok)
    (pending : a.reply.status ≠ .pending) : a.state = s ∧ a.reply.data = [] := by
  rcases h with ⟨st, -, rfl⟩ | ⟨accepted | accepted, -⟩
  · exact ⟨rfl, rfl⟩
  · exact absurd accepted ok
  · exact absurd accepted pending

/-- A code outside 11.2 names no request (R170). -/
theorem askRequest_unknown {k : Link} {r : Request} (h : r.code ∉ requestCodes) (s : State) :
    askRequest k r s = refuse s .unknownRequest := by
  have none : (callRequest k r.code).or ((ownerRequest k r.code).or (linkRequest k r.code)) = none := by
    simp only [requestCodes, List.mem_append, List.mem_cons, List.not_mem_nil, or_false, not_or] at h
    simp only [callRequest, ownerRequest, linkRequest, h, if_false, Option.or_none]
  unfold askRequest
  rw [none]

/-- Settles O5: every request command runs its taking and delivers the answer, and every taking is settled. -/
theorem everyRequestIsAnsweredAndARefusedOneChangesNothing :
    Obligations.EveryRequestIsAnsweredAndARefusedOneChangesNothing :=
  ⟨fun _ _ _ _ _ s h => ⟨exec_asked h s, (asked_settles h s).unaccepted⟩,
    fun _ _ _ s => ⟨rfl, fun _ unknown => askRequest_unknown unknown s⟩⟩

end Sys2Proof.Machine

namespace Sys2Proof.Machine

/-! ### The record of one link -/

/-- Two states that differ in the links alone are equal where their links are. -/
theorem State.eq_of_link {s t : State} (form : t = { s with links := t.links }) (h : ∀ j, t.link j = s.link j) : t = s := by
  have links : t.links = s.links := row_ext h
  rw [form, links]

theorem State.setLink_self (s : State) (k : Link) : s.setLink k (s.link k) = s := by
  refine State.eq_of_link rfl fun j => ?_
  rw [State.setLink_link]
  split
  · rename_i e
    rw [e]
  · rfl

theorem State.setLink_setLink (s : State) (k : Link) (l m : LinkRec) : (s.setLink k l).setLink k m = s.setLink k m := by
  refine State.eq_of_link rfl fun j => ?_
  simp only [State.setLink_link]
  split <;> rfl

theorem State.setLink_same (s : State) (k : Link) (l : LinkRec) : (s.setLink k l).link k = l :=
  (s.setLink_link k k l).trans (if_pos rfl)

theorem State.setLink_other (s : State) {j k : Link} (l : LinkRec) (h : j ≠ k) : (s.setLink k l).link j = s.link j :=
  (s.setLink_link k j l).trans (if_neg h)

/-! ### The transmitter -/

/-- On an idle transmitter with nothing waiting a response begins (R171). -/
theorem LinkRec.respond_begins {l : LinkRec} (r : Response) (idle : l.sending = none) (empty : l.waiting = []) :
    l.respond r = { l with sending := some r } := by
  simp [LinkRec.respond, idle, empty]

/-- Else it joins the tail of the list (R171). -/
theorem LinkRec.respond_joins {l : LinkRec} (r : Response) (h : ¬ (l.sending = none ∧ l.waiting = [])) :
    l.respond r = { l with waiting := l.waiting ++ [r] } := by
  unfold LinkRec.respond
  split
  · rename_i idle
    exact if_neg fun empty => h ⟨idle, List.isEmpty_iff.1 empty⟩
  · rfl

/-- Settles O6: an answer is delivered by what `respond` does to its link. -/
theorem aResponseJoinsTheTailOrBegins : Obligations.AResponseJoinsTheTailOrBegins := by
  intro a k tag code r t
  have link : t.link k = (a.state.link k).respond r := (a.deliver_link k k tag code).trans (if_pos rfl)
  refine ⟨rfl, fun j hj => State.setLink_other _ _ hj, ?_, fun ⟨idle, empty⟩ => ?_, fun busy => ?_⟩
  · by_cases free : (a.state.link k).sending = none ∧ (a.state.link k).waiting = []
    · rw [link, LinkRec.respond_begins r free.1 free.2]
    · rw [link, LinkRec.respond_joins r free]
  · rw [link, LinkRec.respond_begins r idle empty]
    exact ⟨rfl, empty⟩
  · rw [link, LinkRec.respond_joins r busy]
    exact ⟨rfl, rfl⟩

/-! ### The taking of requests -/

section
variable {s : State} {k : Link}

/-- With an empty buffer a link takes nothing. -/
theorem State.takeRequests_empty (h : (s.link k).requests = []) (n : Nat) : s.takeRequests k n = s := by
  cases n
  · rfl
  · simp only [State.takeRequests, h]

/-- While an earlier response waits unbegun a link takes nothing (R170). -/
theorem State.takeRequests_waits (h : ((s.link k).waiting.all fun x => x.isOverrun) = false) (n : Nat) :
    s.takeRequests k n = s := by
  have busy : (s.link k).clear = false := h
  cases n
  · rfl
  · unfold State.takeRequests
    split
    · rfl
    · rw [busy]
      rfl

/-- A link that is free takes the request at the head of its buffer, and goes on (R170). -/
theorem State.takeRequests_takes {r : Request} {rest : List Request} (h : (s.link k).requests = r :: rest)
    (free : ((s.link k).waiting.all fun x => x.isOverrun) = true) (n : Nat) :
    s.takeRequests k (n + 1)
      = State.takeRequests ((askRequest k r (s.setLink k { s.link k with requests := rest })).deliver k r.tag r.code) k n := by
  have clear : (s.link k).clear = true := free
  simp only [State.takeRequests, h, clear, if_true]
  rfl

theorem State.service_empty (h : (s.link k).requests = []) : s.service k = s := State.takeRequests_empty h _

theorem State.service_waits (h : ((s.link k).waiting.all fun x => x.isOverrun) = false) : s.service k = s :=
  State.takeRequests_waits h _

theorem State.service_takes {r : Request} {rest : List Request} (h : (s.link k).requests = r :: rest)
    (free : ((s.link k).waiting.all fun x => x.isOverrun) = true) :
    s.service k = State.takeRequests
      ((askRequest k r (s.setLink k { s.link k with requests := rest })).deliver k r.tag r.code) k rest.length := by
  unfold State.service
  rw [h, List.length_cons, State.takeRequests_takes h free]

/-! ### An accepted frame -/

variable {r : Request}

/-- LRST of length 0 passes over the buffer (R170). -/
theorem State.acceptFrame_lrst (h : r.code = 0x3B ∧ r.payload = []) :
    s.acceptFrame k r = (askLrst k s).deliver k r.tag 0x3B := by
  unfold State.acceptFrame
  rw [if_pos h, h.1]

/-- Where the buffer has room another frame joins it, and the link may take requests (R169, R170). -/
theorem State.acceptFrame_buffered (h : ¬ (r.code = 0x3B ∧ r.payload = [])) (room : (s.link k).requests.length < 4) :
    s.acceptFrame k r = (s.setLink k { s.link k with requests := (s.link k).requests ++ [r] }).service k := by
  unfold State.acceptFrame
  rw [if_neg h, if_pos (show (s.link k).requests.length < Config.requestRoom from room)]
  rfl

/-- A full buffer refuses it (R169). -/
theorem State.acceptFrame_refused (h : ¬ (r.code = 0x3B ∧ r.payload = [])) (full : 4 ≤ (s.link k).requests.length) :
    s.acceptFrame k r
      = s.setLink k ((s.link k).overrun { tag := r.tag, code := r.code, payload := [0x11] }) := by
  unfold State.acceptFrame
  rw [if_neg h, if_neg (show ¬ (s.link k).requests.length < Config.requestRoom from Nat.not_lt.2 full)]
  rfl

end

/-- Behind four OVERRUN responses that wait a refused frame leaves no trace (R169). -/
theorem LinkRec.overrun_full {l : LinkRec} (r : Response) (h : 4 ≤ (l.waiting.filter Response.isOverrun).length) :
    l.overrun r = l := if_pos h

/-- While a response is sent, the OVERRUN response joins behind the earlier ones and ahead of the others (R169, R171). -/
theorem LinkRec.overrun_joins {l : LinkRec} (r : Response) (h : (l.waiting.filter Response.isOverrun).length < 4)
    (sends : l.sending.isSome) : l.overrun r = { l with
      waiting := l.waiting.filter Response.isOverrun ++ [r] ++ l.waiting.filter fun x => !x.isOverrun } := by
  obtain ⟨now, hnow⟩ := Option.isSome_iff_exists.1 sends
  unfold LinkRec.overrun
  rw [if_neg (show ¬ Config.overrunRoom ≤ _ from Nat.not_le.2 h), hnow]
  rfl

theorem exec_linkFrameReceived {k : Link} {f : RawFrame} {r : Request} {s : State} (h : s.received f = some r) :
    exec (.linkFrameReceived k f) s = .next (s.acceptFrame k r) := by
  simp only [exec, execLinkFrameReceived, h]

/-- Settles O9: the frame joins an empty buffer and is taken out of it at once, waits in it, or meets a full one. -/
theorem anAcceptedFrameIsTakenBufferedOrRefused : Obligations.AnAcceptedFrameIsTakenBufferedOrRefused := by
  refine ⟨fun k f r s h => ⟨fun lrst => ?_, fun other empty free => ?_⟩,
    fun k f r s h other sends waits => ⟨fun room => ?_, fun full few => ?_, fun full four => ?_⟩⟩ <;>
    rw [exec_linkFrameReceived h]
  · rw [State.acceptFrame_lrst lrst]
  · have taken : ({ s.link k with requests := (s.link k).requests ++ [r] } : LinkRec).requests = r :: [] := by simp [empty]
    have kept : s.setLink k { s.link k with requests := [] } = s :=
      (congrArg (fun q => s.setLink k { s.link k with requests := q }) empty.symm).trans (s.setLink_self k)
    rw [State.acceptFrame_buffered other (by simp [empty]),
      State.service_takes (by rw [State.setLink_same]; exact taken) (by rw [State.setLink_same]; exact free),
      State.setLink_same, State.setLink_setLink, kept]
    rfl
  · rw [State.acceptFrame_buffered other room, State.service_waits (by rw [State.setLink_same]; exact waits)]
  · rw [State.acceptFrame_refused other full, LinkRec.overrun_joins _ few sends]
  · rw [State.acceptFrame_refused other full, LinkRec.overrun_full _ four, State.setLink_self]

/-- Settles O10: the next response begins, and the link takes requests as after any change of its transmitter. -/
theorem responseSentBeginsTheNextAndTakesARequest : Obligations.ResponseSentBeginsTheNextAndTakesARequest := by
  refine ⟨fun k s idle => by simp only [exec, execResponseSent, idle], ?_⟩
  intro k s now sends begun
  have ends : exec (.responseSent k) s = .next (begun.service k) := by
    simp only [exec, execResponseSent, sends]
    rfl
  have link : begun.link k = { s.link k with sending := (s.link k).waiting.head?, waiting := (s.link k).waiting.tail } :=
    State.setLink_same _ _ _
  rw [ends]
  refine ⟨fun stays => ?_, fun r rest buffer free => ?_⟩
  · rcases stays with empty | waits
    · rw [State.service_empty (by rw [link]; exact empty)]
    · rw [State.service_waits (by rw [link]; exact waits)]
  · rw [State.service_takes (by rw [link]; exact buffer) (by rw [link]; exact free)]

end Sys2Proof.Machine

namespace Sys2Proof.Machine

/-! ### The CRC register -/

/-- A bit that agrees with the register's leading bit shifts the register (R184). -/
theorem crcBit_of_msb {r : Word16} {bit : Bool} (h : bit = r.msb) : crcBit r bit = r <<< 1 := by
  rw [crcBit, h, bne_self_eq_false]
  rfl

/-- A byte that agrees with the register's high byte shifts the register by a byte (R184). -/
theorem crcByte_of_high {r : Word16} {b : Byte} (h : ∀ i < 8, b.getLsbD i = r.getLsbD (i + 8)) : crcByte r b = r <<< 8 := by
  have leading (j : Nat) (hj : j < 8) : b.getLsbD (7 - j) = (r <<< j).msb := by
    rw [h _ (by omega), BitVec.msb_eq_getLsbD_last, BitVec.getLsbD_shiftLeft, show 7 - j + 8 = 16 - 1 - j by omega]
    simp [show ¬ 15 < j by omega]
  have bit (j : Nat) (hj : j < 8) : crcBit (r <<< j) (b.getLsbD (7 - j)) = r <<< (j + 1) := by
    rw [crcBit_of_msb (leading j hj), BitVec.shiftLeft_add]
  unfold crcByte
  rw [← BitVec.shiftLeft_zero r, bit 0 (by decide), bit 1 (by decide), bit 2 (by decide), bit 3 (by decide),
    bit 4 (by decide), bit 5 (by decide), bit 6 (by decide), bit 7 (by decide), BitVec.shiftLeft_zero]

theorem byte_getLsbD (n : Nat) {i : Nat} (h : i < 8) : (byte n).getLsbD i = n.testBit i := by
  rw [byte, BitVec.getLsbD_ofNat, decide_eq_true h, Bool.true_and]

/-- Its own two bytes, high byte first, take the register to 0000h (R184). -/
theorem crcByte_own (r : Word16) : crcByte (crcByte r (byte (r.toNat / 256))) (byte (r.toNat % 256)) = 0 := by
  have high : ∀ i < 8, (byte (r.toNat / 256)).getLsbD i = r.getLsbD (i + 8) := fun i hi => by
    rw [byte_getLsbD _ hi, show 256 = 2 ^ 8 from rfl, Nat.testBit_div_two_pow, Nat.add_comm]
    rfl
  have low : ∀ i < 8, (byte (r.toNat % 256)).getLsbD i = (r <<< 8).getLsbD (i + 8) := fun i hi => by
    rw [byte_mod, byte_getLsbD _ hi, BitVec.getLsbD_shiftLeft, Nat.add_sub_cancel]
    simp [BitVec.getLsbD, show i + 8 < 16 by omega]
  rw [crcByte_of_high high, crcByte_of_high low, ← BitVec.shiftLeft_add]
  exact BitVec.shiftLeft_eq_zero (by decide)

theorem crc_own (bs : List Byte) : crc (bs ++ [byte ((crc bs).toNat / 256), byte ((crc bs).toNat % 256)]) = 0 := by
  have run : crc (bs ++ [byte ((crc bs).toNat / 256), byte ((crc bs).toNat % 256)])
      = crcByte (crcByte (crc bs) (byte ((crc bs).toNat / 256))) (byte ((crc bs).toNat % 256)) := by
    unfold crc
    rw [List.foldl_append]
    rfl
  rw [run, crcByte_own]

/-! ### Stuffing -/

/-- What a byte is sent as (11.1). -/
theorem stuff_cons (b : Byte) (bs : List Byte) :
    stuff (b :: bs) = (if b = flagByte ∨ b = escapeByte then [escapeByte, b ^^^ 0x40] else [b]) ++ stuff bs :=
  List.flatMap_cons

theorem flagByte_not_mem_stuff (bs : List Byte) : flagByte ∉ stuff bs := by
  induction bs with
  | nil => exact List.not_mem_nil
  | cons b bs ih =>
    rw [stuff_cons, List.mem_append, not_or]
    refine ⟨?_, ih⟩
    split
    · rename_i special
      rcases special with rfl | rfl <;> decide
    · rename_i plain
      simpa using fun e => plain (.inl e.symm)

theorem unstuff_plain {b : Byte} (h : b ≠ escapeByte) (bs : List Byte) :
    unstuff (b :: bs) = (unstuff bs).map (b :: ·) := by
  cases bs <;> simp [unstuff, h]

theorem unstuff_escaped {b : Byte} (h : b = flagByte ∨ b = escapeByte) (bs : List Byte) :
    unstuff (escapeByte :: (b ^^^ 0x40) :: bs) = (unstuff bs).map (b :: ·) := by
  rcases h with rfl | rfl
  · rw [unstuff, if_pos rfl, if_pos (by decide)]
  · rw [unstuff, if_pos rfl, if_neg (by decide), if_pos (by decide)]

theorem unstuff_stuff (bs : List Byte) : unstuff (stuff bs) = some bs := by
  induction bs with
  | nil => rfl
  | cons b bs ih =>
    rw [stuff_cons]
    split
    · rename_i special
      rw [List.cons_append, List.cons_append, List.nil_append, unstuff_escaped special, ih]
      rfl
    · rename_i plain
      rw [List.singleton_append, unstuff_plain fun e => plain (.inr e), ih]
      rfl

/-! ### The fields of a frame -/

/-- A frame of kind REQ with a length field of at most 64 that its payload has, and a CRC that matches, is accepted (R168). -/
theorem parseFrame_accepted {length : Byte} {rest : List Byte} (tag code : Byte) (room : length.toNat ≤ 64)
    (fits : rest.length = length.toNat + 2) (good : crc (0x01 :: tag :: code :: length :: rest) = 0) :
    parseFrame (0x01 :: tag :: code :: length :: rest)
      = some { tag := tag, code := code, payload := rest.take length.toNat } :=
  if_pos ⟨rfl, room, fits, good⟩

theorem parseFrame_sent (tag code : Byte) {payload : List Byte} (h : payload.length ≤ 64) {hi lo : Byte}
    (good : crc ([0x01, tag, code, byte payload.length] ++ payload ++ [hi, lo]) = 0) :
    parseFrame ([0x01, tag, code, byte payload.length] ++ payload ++ [hi, lo])
      = some { tag := tag, code := code, payload := payload } := by
  have length : (byte payload.length).toNat = payload.length := by
    rw [byte, BitVec.toNat_ofNat, Nat.mod_eq_of_lt (by omega)]
  refine (parseFrame_accepted (rest := payload ++ [hi, lo]) tag code (length.le.trans h) (by simp [length]) good).trans ?_
  rw [length, List.take_left]

/-- What a frame that is accepted has (R168). -/
theorem parseFrame_some {bs : List Byte} {r : Request} (h : parseFrame bs = some r) :
    6 ≤ bs.length ∧ bs[0]? = some 0x01 ∧ (∀ n : Byte, bs[3]? = some n → n.toNat ≤ 64 ∧ bs.length = n.toNat + 6)
      ∧ crc bs = 0 := by
  unfold parseFrame at h
  split at h
  · rename_i kind tag code length rest
    split at h
    · rename_i fields
      obtain ⟨rfl, room, fits, good⟩ := fields
      refine ⟨by simp [fits], rfl, ?_, good⟩
      rintro _ ⟨⟩
      exact ⟨room, by simp [fits]⟩
    · cases h
  · cases h

/-- While RESET is released, a frame without a framing error that was begun since is read (R168). -/
theorem State.received_read {s : State} {f : RawFrame} (up : s.resetHeld = false) (late : f.begunInReset = false)
    (framed : f.framingError = false) : s.received f = (unstuff f.bytes).bind parseFrame := by
  simp [State.received, up, late, framed]

/-- Settles O7: the register takes in its own value, stuffing is undone byte by byte, and the fields are those that were put
in. -/
theorem aRequestFrameIsReadBackAsItWasSent : Obligations.ARequestFrameIsReadBackAsItWasSent := by
  refine ⟨crc_own, fun s tag code payload h up => ⟨flagByte_not_mem_stuff _, ?_⟩⟩
  rw [State.received_read up rfl rfl, unstuff_stuff]
  exact parseFrame_sent tag code h (crc_own _)

/-! ### Discarded frames -/

theorem exec_discarded {f : RawFrame} {s : State} (h : s.received f = none) (k : Link) :
    exec (.linkFrameReceived k f) s = .next s := by
  simp only [exec, execLinkFrameReceived, h]

/-- Settles O8: the frame is discarded before its bytes are read, or one of the conditions on its fields fails. -/
theorem aDiscardedFrameLeavesNoTrace : Obligations.ADiscardedFrameLeavesNoTrace := by
  refine ⟨fun k f s bad => exec_discarded ?_ k, fun s => ⟨_, rfl, rfl, fun k f => exec_discarded ?_ k⟩⟩
  · unfold State.received
    split
    · rfl
    · rename_i taken
      rcases bad with error | early | escape | ⟨bs, unstuffed, wrong⟩
      · simp [error] at taken
      · simp [early] at taken
      · rw [escape]
        rfl
      · rw [unstuffed, Option.bind_some, Option.eq_none_iff_forall_ne_some]
        intro r parsed
        obtain ⟨size, kind, length, good⟩ := parseFrame_some parsed
        rcases wrong with short | other | ⟨n, at3, long | unlike⟩ | crc
        · exact absurd size (Nat.not_le.2 short)
        · exact other kind
        · exact absurd (length n at3).1 (Nat.not_le.2 long)
        · exact unlike (length n at3).2
        · exact crc good
  · rfl

end Sys2Proof.Machine

namespace Sys2Proof.Machine

/-! ### EMSK and ATCF -/

/-- A mask is answered as it was named (R175). -/
theorem classSetCode_of_maskArg {b : Byte} {c : ClassSet} (h : maskArg b = some c) : byte (classSetCode c) = b := by
  have small : ∀ n < 32, (maskArg (BitVec.ofNat 8 n)).map (fun c => byte (classSetCode c)) = some (BitVec.ofNat 8 n) := by
    decide
  have range : b.toNat < 32 := by
    unfold maskArg at h
    split at h
    · omega
    · cases h
  have read := small b.toNat range
  rw [BitVec.ofNat_toNat, BitVec.setWidth_eq, h] at read
  exact Option.some.inj read

theorem EventKind.urgent_iff (k : EventKind) : k.urgent = true ↔ k = .takeAsked ∨ k = .orphaned := by
  simp [EventKind.urgent]

/-- The line is asserted while it is enabled and the queue has reached the threshold or holds an urgent event (R177). -/
theorem LinkRec.attn_iff (l : LinkRec) : l.attn = true ↔ l.attnEnable = true
    ∧ (l.attnThreshold ≤ l.events.length ∨ ∃ e ∈ l.events, e.kind = .takeAsked ∨ e.kind = .orphaned) := by
  simp [LinkRec.attn, EventKind.urgent_iff]

/-- Settles O41: EMSK is one round of summaries under the new mask, and ATCF writes what decides the line. -/
theorem emskAndAtcfSetALinksMaskAndAttention : Obligations.EmskAndAtcfSetALinksMaskAndAttention := by
  refine fun k tag b d s => ⟨fun c hc => ?_, fun on hon least most => ?_⟩
  · intro due room
    have link : (s.modLink k fun l => l.remask c).link k = (s.link k).remask c := State.setLink_same _ _ _
    refine ⟨s.modLink k fun l => l.remask c, ?_, ?_, fun e => ?_⟩
    · have taken : askEmsk k b s = accept (s.modLink k fun l => l.remask c) [byte (classSetCode c)] := by
        simp only [askEmsk, hc]
      rw [classSetCode_of_maskArg hc] at taken
      rw [exec_asked (c := .emsk k tag b) rfl, taken]
    · rw [link]
      exact congrArg (s.setLink k) (LinkRec.summariseAll_facts { s.link k with mask := c }).1
    · rw [link]
      exact (LinkRec.summariseAll_facts { s.link k with mask := c }).2 e
  · have taken : askAtcf k b d s
        = accept (s.setLink k { s.link k with attnEnable := on, attnThreshold := d.toNat }) [yesNo on, byte d.toNat] := by
      simp only [askAtcf, hon, rangeArg_in ⟨least, most⟩]
      rfl
    rw [yesNo_of_yesNoArg hon, byte_toNat] at taken
    refine ⟨_, by rw [exec_asked (c := .atcf k tag b d) rfl, taken], rfl, ?_⟩
    rw [State.attn, State.setLink_same]
    exact LinkRec.attn_iff _

/-! ### FTCH -/

/-- Settles O42: FTCH is one round of summaries on the queue without the records it took out. -/
theorem ftchTakesTheOldestEvents : Obligations.FtchTakesTheOldestEvents := by
  intro k tag b s least most old due room
  have link : (s.modLink k fun l => l.fetch b.toNat).link k = old.fetch b.toNat := State.setLink_same _ _ _
  refine ⟨s.modLink k fun l => l.fetch b.toNat, ?_, ?_, fun e => ?_⟩
  · have taken : askFtch k b s
        = accept (s.modLink k fun l => l.fetch b.toNat) (fetchData old (old.fetch b.toNat) b.toNat) := by
      simp only [askFtch, rangeArg_in ⟨least, most⟩]
      rfl
    rw [exec_asked (c := .ftch k tag b) rfl, taken, link, fetchData, List.length_take]
    rfl
  · rw [link]
    exact congrArg (s.setLink k)
      (LinkRec.summariseAll_facts { old with events := old.events.drop b.toNat, overflow := false }).1
  · rw [link]
    exact (LinkRec.summariseAll_facts { old with events := old.events.drop b.toNat, overflow := false }).2 e

end Sys2Proof.Machine
